-- ==== Sys2Proof/Word.lean ====
section
/-!
DEFINITION. The words of the Avelow 816 and the fixed-length table type its state is made of.

A byte crosses a lane, a word stands in the table store, a sample stands in a slot (R1, R166, R184).
-/

namespace Sys2Proof

/-- One byte of the control lane or the reply lane (R22, R23). -/
abbrev Byte := BitVec 8

/-- One word of the table store (R166). -/
abbrev Word := BitVec 32

/-- One 24-bit two's-complement sample (R1). -/
abbrev Sample := BitVec 24

/-- A fixed number of like things, as a list with its length: the eight screens, the sixteen channels of a
screen, the 256 alarm entries. -/
structure Tab (n : Nat) (α : Type) where
  rows : List α
  size_eq : rows.length = n
deriving DecidableEq, Repr

variable {n : Nat} {α β : Type}

/-- The entry at an index. -/
def Tab.get (t : Tab n α) (i : Fin n) : α := t.rows[i.val]'(by rw [t.size_eq]; exact i.isLt)

/-- The table with one entry replaced. -/
def Tab.set (t : Tab n α) (i : Fin n) (a : α) : Tab n α :=
  ⟨t.rows.set i.val a, by simp [t.size_eq]⟩

/-- The table with one entry changed by a function. -/
def Tab.modify (t : Tab n α) (i : Fin n) (f : α → α) : Tab n α := t.set i (f (t.get i))

/-- The table whose entries are all alike. -/
def Tab.fill (n : Nat) (a : α) : Tab n α := ⟨List.replicate n a, List.length_replicate⟩

/-- The table that holds a function's values. -/
def Tab.ofFn (f : Fin n → α) : Tab n α := ⟨List.ofFn f, List.length_ofFn⟩

/-- Every entry changed by one function. -/
def Tab.map (t : Tab n α) (f : α → β) : Tab n β := ⟨t.rows.map f, by simp [t.size_eq]⟩

@[simp] theorem Tab.get_set_same (t : Tab n α) (i : Fin n) (a : α) : (t.set i a).get i = a := by
  simp [Tab.get, Tab.set]

theorem Tab.get_set_other (t : Tab n α) {i j : Fin n} (a : α) (h : j ≠ i) :
    (t.set i a).get j = t.get j := by
  have h' : i.val ≠ j.val := fun e => h (Fin.ext e.symm)
  simp [Tab.get, Tab.set, h']

theorem Tab.get_set (t : Tab n α) (i j : Fin n) (a : α) :
    (t.set i a).get j = if j = i then a else t.get j := by
  split
  · next h => subst h; simp
  · next h => exact t.get_set_other a h

@[simp] theorem Tab.get_fill (a : α) (i : Fin n) : (Tab.fill n a).get i = a := by
  simp [Tab.get, Tab.fill]

@[simp] theorem Tab.get_ofFn (f : Fin n → α) (i : Fin n) : (Tab.ofFn f).get i = f i := by
  simp [Tab.get, Tab.ofFn]

@[simp] theorem Tab.get_map (t : Tab n α) (f : α → β) (i : Fin n) : (t.map f).get i = f (t.get i) := by
  simp [Tab.get, Tab.map]

@[simp] theorem Tab.get_modify_same (t : Tab n α) (i : Fin n) (f : α → α) :
    (t.modify i f).get i = f (t.get i) := by
  simp [Tab.modify]

theorem Tab.get_modify_other (t : Tab n α) {i j : Fin n} (f : α → α) (h : j ≠ i) :
    (t.modify i f).get j = t.get j := t.get_set_other _ h

theorem Tab.get_modify (t : Tab n α) (i j : Fin n) (f : α → α) :
    (t.modify i f).get j = if j = i then f (t.get i) else t.get j := by
  simp [Tab.modify, Tab.get_set]

/-- Two tables with the same entries are the same table. -/
@[ext] theorem Tab.ext_get {t u : Tab n α} (h : ∀ i, t.get i = u.get i) : t = u := by
  obtain ⟨r, hr⟩ := t
  obtain ⟨r', hr'⟩ := u
  have : r = r' := by
    apply List.ext_getElem (by omega)
    intro i h1 _
    have := h ⟨i, by omega⟩
    simpa [Tab.get] using this
  subst this
  rfl

end Sys2Proof
end

