-- ==== Sys2Proof/Config.lean ====
section
/-!
DEFINITION. The constants the manual fixes for every part, and the free values it leaves to the part.

The free values have no body: nothing proved of the model rests on what they are.
-/

namespace Sys2Proof.Config

/-- FREE VALUE (assumption 2). Which free delay page the equaliser gives next: "Any free page may be given"
(R67). Applied to the count of free choices made so far; read modulo the number of free pages. -/
opaque freePage : Nat → Nat

/-- FREE VALUE (assumption 3). Which block's reports join the report part next when several blocks queue
reports in one operation: they join "in either order" (R6, R7, R11, R182). Applied to the count of free
choices made so far; read modulo the number of blocks still waiting. -/
opaque reportOrder : Nat → Nat

/-- Unity of a screen gain and of a protect factor (R1). -/
def unity : Nat := 32768
/-- Largest magnitude the meters and envelopes hold (R49, R87). -/
def fullScale : Nat := 8388607
/-- Consecutive intact frames that lock a port (R27). -/
def lockRun : Nat := 480
/-- Consecutive failed frames that lose a port (R27). -/
def lossRun : Nat := 4
/-- Link frames between an inbound frame and the outbound frame with its result (R37). -/
def latency : Nat := 32
/-- Consecutive link frames after which a new descriptor code is accepted (R41). -/
def acceptRun : Nat := 480
/-- Link frames of a crossfade (R54). -/
def crossfadeLength : Nat := 512
/-- Link frames of the meter window (R89). -/
def windowLength : Nat := 4800
/-- Age at which an outbound slot's line state becomes UNKNOWN (R106). -/
def slotAgeLimit : Nat := 48000
/-- Consecutive samples that settle a debounced level (R133). -/
def debounceRun : Nat := 240
/-- Delay pages of the pool (R67). -/
def poolSize : Nat := 512
/-- Samples of one delay page (R67). -/
def pageSamples : Nat := 256
/-- Link frames of a preserve (R172). -/
def preserveLength : Nat := 72000
/-- Link frames of a restore (R173). -/
def restoreLength : Nat := 24000
/-- Words of the table store (R166). -/
def storeWords : Nat := 15360
/-- Messages the request queue holds (R176). -/
def requestLimit : Nat := 4
/-- Replies the reply part holds (R182). -/
def replyLimit : Nat := 8
/-- Most replies held when the interpreter takes a request (R177). -/
def replyTakeLimit : Nat := 6
/-- Reports the report part holds (R182). -/
def reportLimit : Nat := 32
/-- Non-clock triggers the trigger queue holds (R149). -/
def triggerLimit : Nat := 32
/-- Largest cascade depth of a trigger (R148, R158). -/
def depthLimit : Nat := 3
/-- Handlings the model makes at most when it empties the trigger queue at the end of a link frame
(DESIGN CHOICE, assumption 9, unsafe): a chain that the manual bounds ends well within it. -/
def handlingLimit : Nat := 4096

end Sys2Proof.Config
end

