-- ==== Sys2Proof/Syntax.lean ====
section
/-!
DEFINITION. The commands of the Avelow 816: one constructor of `Instr` per row of spec/opcode_table.json.

A request's operands are the bytes of its message (R186), so that a field outside its range can be sent and is
refused as the rule says. An operand of an action code has the width of its field (R190). An event names the
screen, line, slot or port it happens at.
-/

namespace Sys2Proof

/-- The two booth link ports (R26). -/
inductive PortId where
  | upstream
  | downstream
deriving DecidableEq, Repr

/-- One inbound slot of an upstream frame: its sample and its valid mark (R22). -/
structure InSlot where
  sample : Sample
  valid : Bool
deriving DecidableEq, Repr

/-- What makes a request a BAD_KIND one (R177, R179): a TYPE that names no request, in a message of that TYPE
and the TAG alone, or a SCREEN ACTION whose action code names no action. -/
inductive BadRequest where
  | type (code : Byte)
  | action (screen : Byte) (code : BitVec 16)
deriving DecidableEq, Repr

/-- The commands. -/
inductive Instr where
  /-- POWER_UP (R171): power comes on while the booth lines and the booth key stand at these levels. -/
  | powerUp (lines : BitVec 16) (keyLocked : Bool)
  /-- LINK_FRAME (R28): one link frame's work, sampling the booth lines and the key at these levels. -/
  | linkFrame (lines : BitVec 16) (keyLocked : Bool)
  /-- UPSTREAM_FRAME (R22): an upstream forward frame arrives, passing its frame check or not. -/
  | upstreamFrame (intact : Bool) (slots : List InSlot) (first second : Byte)
  /-- RACK_STATUS_WORD (R106): a downstream return frame arrives, passing its frame check or not. -/
  | rackStatusWord (intact : Bool) (word : BitVec 16)
  /-- SLOT_AGE_EXPIRY (R106): an outbound slot whose age stands at its limit becomes UNKNOWN. -/
  | slotAgeExpiry (slot : Fin 128)
  /-- PORT_LOST (R29). -/
  | portLost (port : PortId)
  /-- PORT_LOCKED (R27). -/
  | portLocked (port : PortId)
  /-- REPLY_SENDER_TAKE (R182). -/
  | replySenderTake
  /-- DESCRIPTOR_ACCEPT (R41). -/
  | descriptorAccept (screen : Fin 8)
  /-- CROSSFADE_END (R56). -/
  | crossfadeEnd (screen : Fin 8)
  /-- SWAP_MOMENT (R74). -/
  | swapMoment (screen : Fin 8)
  /-- DIP_END (R75). -/
  | dipEnd (screen : Fin 8)
  /-- METER_WINDOW_END (R89). -/
  | meterWindowEnd
  /-- PICTURE_FRAME_ADVANCE (R120). -/
  | pictureFrameAdvance (screen : Fin 8)
  /-- TIMER_TICK (R127). -/
  | timerTick (screen : Fin 8) (timer : Fin 2)
  /-- TIMER_EXPIRY (R129). -/
  | timerExpiry (screen : Fin 8) (timer : Fin 2)
  /-- PULSE_PERIOD_END (R139). -/
  | pulsePeriodEnd (line : Fin 16)
  /-- INPUT_EDGE (R133). -/
  | inputEdge (line : Fin 16)
  /-- BOOTH_KEY_CHANGE (R136). -/
  | boothKeyChange
  /-- TRIGGER_HANDLING (R150). -/
  | triggerHandling
  /-- TABLE_WRITE (R170): the count field is the number of data words less one. -/
  | tableWrite (tag page word : Byte) (data : List Word)
  /-- TABLE_READ (R167). -/
  | tableRead (tag page word count : Byte)
  /-- SCREEN_STATE (R3). -/
  | screenState (tag screen target : Byte)
  /-- STATE_ACTION (R3), given by a SCREEN ACTION request, as are the seventeen actions below. -/
  | stateAction (tag screen : Byte) (target : BitVec 3)
  /-- SAFE_ACTION (R9). -/
  | safeAction (tag screen : Byte)
  /-- LEVEL_ACTION (R16). -/
  | levelAction (tag screen : Byte) (preset : Fin 8) (ramp : Fin 4)
  /-- MUTE_ACTION (R17). -/
  | muteAction (tag screen : Byte) (on : Bool)
  /-- FORMAT_ACTION (R43). -/
  | formatAction (tag screen : Byte) (format : Fin 16)
  /-- RELEASE_ACTION (R43). -/
  | releaseAction (tag screen : Byte)
  /-- APPLY_ACTION (R71). -/
  | applyAction (tag screen : Byte)
  /-- SAFEPOINT_ACTION (R8). -/
  | safepointAction (tag screen : Byte)
  /-- LINE_LOW (R138). -/
  | lineLow (tag screen : Byte) (line : Fin 16)
  /-- LINE_HIGH (R138). -/
  | lineHigh (tag screen : Byte) (line : Fin 16)
  /-- LINE_PULSE (R138). -/
  | linePulse (tag screen : Byte) (line : Fin 16)
  /-- LINE_TRAIN (R138). -/
  | lineTrain (tag screen : Byte) (line : Fin 16)
  /-- CLOCK_RUN (R123). -/
  | clockRun (tag screen : Byte)
  /-- CLOCK_STOP (R123). -/
  | clockStop (tag screen : Byte)
  /-- CLOCK_ZERO (R123). -/
  | clockZero (tag screen : Byte)
  /-- TIMER_START (R128). -/
  | timerStart (tag screen : Byte) (timer : Fin 2)
  /-- TIMER_STOP (R128). -/
  | timerStop (tag screen : Byte) (timer : Fin 2)
  /-- REPORT_ACTION (R162). -/
  | reportAction (tag screen : Byte) (code : Byte)
  /-- LEVEL (R16). -/
  | level (tag screen : Byte) (value : BitVec 16) (ramp : Byte)
  /-- CLOCK_LOAD (R122). -/
  | clockLoad (tag screen hours minutes seconds frames run : Byte)
  /-- TIMER_SET (R126). -/
  | timerSet (tag screen timer base : Byte) (count : BitVec 16) (reload : Byte)
  /-- ACKNOWLEDGE (R114). -/
  | acknowledge (tag first last : Byte)
  /-- RESUME (R12). -/
  | resume (tag screen : Byte)
  /-- CUE_ARM (R147). -/
  | cueArm (tag entry setting : Byte)
  /-- QUERY_DEVICE (R180). -/
  | queryDevice (tag : Byte)
  /-- QUERY_SCREEN (R21, R59, R80, R131). -/
  | queryScreen (tag screen : Byte)
  /-- QUERY_CHANNEL (R93). -/
  | queryChannel (tag screen channel : Byte)
  /-- QUERY_ALARM (R116). -/
  | queryAlarm (tag entry : Byte)
  /-- QUERY_CUE (R163). -/
  | queryCue (tag entry : Byte)
  /-- QUERY_POOL (R70). -/
  | queryPool (tag : Byte)
  /-- PRESERVE (R172). -/
  | preserve (tag : Byte)
  /-- PRESERVE_COMPLETE (R172). -/
  | preserveComplete
  /-- RESTORE (R173). -/
  | restore (tag : Byte)
  /-- RESTORE_COMPLETE (R173). -/
  | restoreComplete
  /-- RESET (R181). -/
  | reset (tag : Byte)
  /-- BAD_KIND_REQUEST (R177). -/
  | badKindRequest (tag : Byte) (bad : BadRequest)
deriving DecidableEq, Repr

end Sys2Proof
end

