-- ==== Sys2Proof/WellFormed.lean ====
section
/-!
DEFINITION. Which commands the links can carry: the checks a term of `Instr` must meet beyond its types.
-/

namespace Sys2Proof

/-- An upstream frame carries 128 inbound slots (R22). -/
def fullFrame (slots : List InSlot) : Bool := slots.length == 128

/-- A run of a TABLE WRITE holds 1 to 32 words (R167). -/
def carriedRun (data : List Word) : Bool := 1 ≤ data.length && data.length ≤ 32

/-- A TYPE that names no request (R177). -/
def BadRequest.typeUnnamed (code : Byte) : Bool := code.toNat == 0 || 14 < code.toNat

/-- An action code whose kind field names no action (R191). -/
def BadRequest.actionUnnamed (code : BitVec 16) : Bool :=
  code.toNat / 4096 == 0 || 12 < code.toNat / 4096

/-- The command can reach the part as its row says. -/
def Instr.wellFormed : Instr → Bool
  | .upstreamFrame _ slots _ _ => fullFrame slots
  | .tableWrite _ _ _ data => carriedRun data
  | .badKindRequest _ (.type code) => BadRequest.typeUnnamed code
  | .badKindRequest _ (.action _ code) => BadRequest.actionUnnamed code
  | _ => true

end Sys2Proof
end

