-- ==== Sys2Proof/Decode.lean ====
section
/-!
DEFINITION. The command that a word spells by the bits of spec/opcode_table.json.

No row of the table has bits (every "fields" list is empty and none has a fixed part), so no word spells a
command. The encodings the manual does give, of messages, action codes and table words, are decoded in
Machine/Operands.lean and Machine/Messages.lean.
-/

namespace Sys2Proof

/-- The command spelled by the low `nbits` bits of `w`: none, as no row of the table gives bits. -/
def decodeTableWord (_nbits _w : Nat) : Option Instr := none

end Sys2Proof
end

