-- ==== Sys2Proof/Machine/State.lean ====
section
/-!
DEFINITION. The state of the Avelow 816, block by block (00_scope.md, "Blocks"), as plain data, with the values it
holds right after power-up from an erased image.

Each block's structure lists the state its chapter gives it. The fields marked MODEL'S OWN are not the manual's:
they say which of a link frame's events are still to be taken (assumption 1) and count free choices.
-/

namespace Sys2Proof.Machine

/-- The faults of the part: none. Every command of the table has an effect, a refusal by a result code included
(R177), so no step of the model stops with a fault. -/
inductive Fault where
deriving DecidableEq, Repr

/-- The refusals of the model. -/
inductive Refusal where
  /-- Raised by an arm of `exec` whose command has no meaning yet (none is left): safe, the run stops. -/
  | notModelled (mnemonic : String)
deriving DecidableEq, Repr

/-! ## Names shared by the blocks -/

/-- The states of a screen (R2). -/
inductive ScreenState where
  | offline | idle | preshow | feature | safe
deriving DecidableEq, Repr

/-- The cause a STATE report carries (R4). -/
inductive StateCause where
  | request (tag : Byte)
  | cue (entry : Fin 256)
  | alarm (entry : Fin 256)
  | link
deriving DecidableEq, Repr

/-- The SAFE cause of a screen record (R2). -/
inductive SafeCause where
  | command
  | alarm (entry : Fin 256)
  | link
deriving DecidableEq, Repr

/-- The origin of an apply or of an action: a request's tag or a cue's entry number (R8, R77, R179). -/
inductive Origin where
  | request (tag : Byte)
  | cue (entry : Fin 256)
deriving DecidableEq, Repr

/-- The lock state of a port (R27). -/
inductive Lock where
  | lost | locked
deriving DecidableEq, Repr

/-- The state of an amplifier line (R105, R106). -/
inductive LineState where
  | ok | opened | short | unknown
deriving DecidableEq, Repr

/-- The tier of an alarm entry (R98). -/
inductive Tier where
  | normal | warn | trip
deriving DecidableEq, Repr

/-- The source of the format in use (R44). -/
inductive FormatSource where
  | forced | descriptor | default
deriving DecidableEq, Repr

/-- An edge of a booth input line (R132). -/
inductive Edge where
  | rise | fall
deriving DecidableEq, Repr

/-- The value of a show clock (R118). -/
structure ClockValue where
  hours : Nat
  minutes : Nat
  seconds : Nat
  frames : Nat
deriving DecidableEq, Repr

/-- A ramp record (R15). -/
structure Ramp where
  start : Nat
  target : Nat
  length : Nat
  position : Nat
deriving DecidableEq, Repr

/-- A ramp at rest at a value (R20). -/
def Ramp.rest (value length : Nat) : Ramp := ⟨value, value, length, length⟩

/-! ## Actions, requests, replies, reports and triggers -/

/-- The operations of a LINE action (R138). -/
inductive LineOp where
  | low | high | pulse | train
deriving DecidableEq, Repr

/-- The operations of a CLOCK action (R123). -/
inductive ClockOp where
  | run | stop | zero
deriving DecidableEq, Repr

/-- The operations of a TIMER action (R128). -/
inductive TimerOp where
  | start | stop
deriving DecidableEq, Repr

/-- An action code as its kind field decodes it (R156, R190). -/
inductive Action where
  | state (target : BitVec 3)
  | safe
  | level (preset : Fin 8) (ramp : Fin 4)
  | mute (on : Bool)
  | format (format : Fin 16)
  | release
  | apply
  | safepoint
  | line (line : Fin 16) (op : LineOp)
  | clock (op : ClockOp)
  | timer (timer : Fin 2) (op : TimerOp)
  | report (code : Byte)
  /-- a kind that names no action (R191) -/
  | unnamed (kind : Fin 16)
deriving DecidableEq, Repr

/-- The outcome of an action (R156, R157, R158). -/
inductive ActionOutcome where
  | done | deferred | state | noSpace | lineMode | notSet | badAction | cascadeCut
deriving DecidableEq, Repr

/-- A QUERY by its kind (R180). -/
inductive Query where
  | device
  | screen (screen : Byte)
  | channel (screen channel : Byte)
  | alarm (entry : Fin 256)
  | cue (entry : Fin 256)
  | pool
  /-- a kind code that names no kind -/
  | unnamed
deriving DecidableEq, Repr

/-- What a request message asks, read from its TYPE and fields (R178, R186). -/
inductive RequestBody where
  | tableWrite (page word : Byte) (data : List Word)
  | tableRead (page word count : Byte)
  | screenState (screen target : Byte)
  | screenAction (screen : Byte) (action : Action)
  | level (screen : Byte) (value : BitVec 16) (ramp : Byte)
  | clockLoad (screen hours minutes seconds frames run : Byte)
  | timerSet (screen timer base : Byte) (count : BitVec 16) (reload : Byte)
  | acknowledge (first last : Byte)
  | resume (screen : Byte)
  | cueArm (entry : Fin 256) (setting : Byte)
  | query (query : Query)
  | preserve
  | restore
  | reset
  /-- a TYPE that names no request (R177) -/
  | badKind
  /-- a LENGTH its type and fields do not give (R177), of a SCREEN ACTION or of another request -/
  | badLength (screenAction : Bool)
deriving DecidableEq, Repr

/-- A complete request message (R176). -/
structure Request where
  tag : Byte
  body : RequestBody
deriving DecidableEq, Repr

/-- The result codes of a reply (R177). -/
inductive ResultCode where
  | ok | accepted | badKind | badLength | range | locked | inUse | busy | state | noSpace | tripActive | deferred
deriving DecidableEq, Repr

/-- A reply waiting in the reply part (R187). -/
structure Reply where
  tag : Byte
  result : ResultCode
  data : List Byte
deriving DecidableEq, Repr

/-- The event a trigger carries (R148). -/
inductive TriggerEvent where
  | clock (screen : Fin 8) (value : ClockValue)
  | timer (screen : Fin 8) (timer : Fin 2)
  | input (line : Fin 16) (edge : Edge) (screenTag : Fin 8)
  | alarm (screen : Fin 8) (entry : Fin 256) (tier : Tier)
  | state (screen : Fin 8) (state : ScreenState)
deriving DecidableEq, Repr

/-- A trigger with its cascade depth (R148). -/
structure Trigger where
  event : TriggerEvent
  depth : Nat
deriving DecidableEq, Repr

/-- The source of an alarm entry (R97). -/
inductive AlarmSource where
  | peak | average | screenMax | floor | line
deriving DecidableEq, Repr

/-- The value an entry was compared with: a level or a line state (R98). -/
inductive AlarmValue where
  | level (steps : Nat)
  | line (state : LineState)
deriving DecidableEq, Repr

/-- The outcome of a swap (R74). -/
inductive SwapOutcome where
  | done | noSpace
deriving DecidableEq, Repr

/-- What an APPLY report says of a swap, counted at its swap moment (R77). -/
structure SwapResult where
  outcome : SwapOutcome
  activeBank : Fin 2
  held : Nat
  needed : Nat
  free : Nat
deriving DecidableEq, Repr

/-- One action of a CUE report: kind field, outcome and user code (R160, R189). -/
structure ActionRecord where
  kind : Nat
  outcome : ActionOutcome
  code : Byte
deriving DecidableEq, Repr

/-- The reports (R183, R189), less their LOST flag. -/
inductive Report where
  | alarm (entry : Fin 256) (screen : Fin 8) (channel : Nat) (source : AlarmSource) (fall : Bool)
      (old new : Tier) (value : AlarmValue) (warnSeen tripSeen forced : Bool)
  | cue (origin : Origin) (screen : Fin 8) (trigger : Option Trigger) (clock : ClockValue) (overrun : Bool)
      (actions : List ActionRecord)
  | state (screen : Fin 8) (old new : ScreenState) (cause : StateCause)
  | format (screen : Fin 8) (previous new : Fin 16) (format : Fin 16) (source : FormatSource)
  | apply (screen : Fin 8) (origin : Origin) (result : SwapResult)
  | store (restore : Bool) (badImage : Bool) (tag : Byte) (imageValid : Bool)
  | link (port : PortId) (new other : Lock)
deriving DecidableEq, Repr

/-- A report in the report part, with its LOST flag (R182). -/
structure QueuedReport where
  lost : Bool
  report : Report
deriving DecidableEq, Repr

/-! ## Link interface (LI) -/

/-- A port: its lock state and its two runs (R27). -/
structure Port where
  lock : Lock
  intactRun : Nat
  failureRun : Nat
deriving DecidableEq, Repr

/-- The states of the control-lane receiver (R175). -/
inductive ReceiverState where
  | hunt | length | body | check
deriving DecidableEq, Repr

/-- The control-lane receiver: its state and the bytes since the SYNC, that byte first (R175). -/
structure Receiver where
  state : ReceiverState
  assembly : List Byte
deriving DecidableEq, Repr

/-- The position of the reply-lane sender: the message it is sending, none when empty, and the index of the next
byte of it (R23). -/
structure Sender where
  message : List Byte
  index : Nat
deriving DecidableEq, Repr

/-- What the link interface hands the decode engine for a screen's descriptor (R35). -/
inductive DescriptorResult where
  | unmapped
  | none
  | code (format : Fin 16)
deriving DecidableEq, Repr

/-- An upstream frame that has arrived (R22). -/
structure Arrival where
  slots : List InSlot
  first : Byte
  second : Byte
deriving DecidableEq, Repr

/-- One outbound slot of the downstream frame (R24). -/
structure OutSlot where
  sample : Sample
  valid : Bool
deriving DecidableEq, Repr

/-- The two bytes the processor sends in a link frame on the reply lane (R23), or in the lane positions of the downstream
frame (R24). -/
structure LaneBytes where
  first : Byte
  second : Byte
deriving DecidableEq, Repr

structure LinkInterface where
  up : Port
  down : Port
  receiver : Receiver
  sender : Sender
  /-- the sixteen source channels of each screen, as gathered in this link frame (R34) -/
  sources : Tab 8 (Tab 16 Sample)
  /-- the descriptor result of each screen, as gathered in this link frame (R35) -/
  descriptors : Tab 8 DescriptorResult
  /-- the outbound slots of the downstream frame last sent (R24, R36) -/
  outSlots : Tab 128 OutSlot
  /-- the two lane bytes of the downstream frame last sent (R24) -/
  downLane : LaneBytes
  /-- the reply-lane bytes last sent (R23) -/
  outLane : LaneBytes
  /-- MODEL'S OWN: an intact upstream frame whose lock state is still to be settled (R27) -/
  arrival : Option Arrival
  /-- MODEL'S OWN: a rack status word whose port's lock state is still to be settled (R27) -/
  rackWord : Option (BitVec 16)
  /-- MODEL'S OWN: the upstream frame of this link frame has been classified -/
  upSeen : Bool
  /-- MODEL'S OWN: the downstream return frame of this link frame has been classified -/
  downSeen : Bool
  /-- MODEL'S OWN: this link frame's work has been done -/
  worked : Bool
deriving DecidableEq, Repr

/-! ## Control interpreter (CI) -/

structure Interpreter where
  requests : List Request
  replies : List Reply
  reports : List QueuedReport
  reportLost : Bool
deriving DecidableEq, Repr

/-! ## Table store (TS) -/

/-- The words of a store: strictly rising addresses, none with the value 0 that an unlisted address reads as. -/
abbrev Memory := List (Nat × Word)

/-- The nonvolatile image (R171). -/
structure Image where
  pages : Memory
  checkWord : Word
  complete : Bool
deriving DecidableEq, Repr

inductive StoreState where
  | idle | preserving | restoring
deriving DecidableEq, Repr

inductive StartOrigin where
  | defaults | restored
deriving DecidableEq, Repr

structure TableStore where
  words : Memory
  image : Image
  imageValid : Bool
  state : StoreState
  elapsed : Nat
  /-- the tag of the request whose preserve or restore is in progress, 0 in IDLE (R172, R173) -/
  requestTag : Byte
  startOrigin : StartOrigin
deriving DecidableEq, Repr

/-! ## Screen controller (SC) -/

/-- The screen record (R2). -/
structure ScreenRecord where
  state : ScreenState
  resume : Option ScreenState
  cause : Option SafeCause
  activeBank : Fin 2
  pendingApply : Option Origin
  fader : Ramp
  mute : Ramp
  safeRamp : Ramp
  dip : Ramp
deriving DecidableEq, Repr

/-! ## Decode engine (DE) -/

/-- A new descriptor code being watched (R39). -/
structure Candidate where
  code : Fin 16
  run : Nat
deriving DecidableEq, Repr

/-- A profile being faded in (R39). -/
structure Incoming where
  profile : Fin 16
  position : Nat
deriving DecidableEq, Repr

/-- The decode record (R39). -/
structure DecodeRecord where
  accepted : Fin 16
  candidate : Option Candidate
  forced : Option (Fin 16)
  current : Option (Fin 16)
  incoming : Option Incoming
  pending : Option (Fin 16)
  envL : Nat
  envR : Nat
  envS : Nat
  envD : Nat
  steering : Nat
  /-- the format in use decided in the last link frame worked (R44), which the report of R56 carries -/
  usedFormat : Fin 16
  /-- its source (R44) -/
  usedSource : FormatSource
  /-- MODEL'S OWN: the screen was enabled in this link frame, whose work is still to give its profile (R57) -/
  justEnabled : Bool
deriving DecidableEq, Repr

/-! ## Equaliser (EQ) -/

/-- The history set of one section position (R64). -/
structure History where
  x1 : Sample
  x2 : Sample
  y1 : Sample
  y2 : Sample
deriving DecidableEq, Repr

/-- A channel of the equaliser: its history sets, the inputs its delay line took since it was last cleared (newest
first, at most 256 a page), and its page list (R64, R65, R67). -/
structure EqChannel where
  sections : Tab 6 History
  line : List Sample
  pages : List (Fin 512)
deriving DecidableEq, Repr

inductive DipPhase where
  | fall | rise
deriving DecidableEq, Repr

/-- A waiting origin: reported always, or on failure only (R73, R76). -/
structure Waiting where
  origin : Origin
  always : Bool
deriving DecidableEq, Repr

/-- The dip record (R73): its swap outcome, with the counts of the swap moment (DEDUCED, assumption 14, safe), is absent in
FALL. -/
structure Dip where
  phase : DipPhase
  swap : Option SwapResult
  waiting : List Waiting
deriving DecidableEq, Repr

structure Equaliser where
  channels : Tab 8 (Tab 16 EqChannel)
  free : List (Fin 512)
  dips : Tab 8 (Option Dip)
deriving DecidableEq, Repr

/-! ## Output stage (OS) -/

/-- A channel of the output stage: its protect ramp, meter registers and last levels, and its results in flight,
newest first, at most 32 (R37, R81). -/
structure OutChannel where
  protect : Ramp
  peak : Nat
  average : Nat
  lastPeak : Nat
  lastAverage : Nat
  flight : List Sample
deriving DecidableEq, Repr

structure OutputStage where
  channels : Tab 8 (Tab 16 OutChannel)
  /-- each screen's effective gain as formed in the last link frame it was worked on (R93) -/
  gains : Tab 8 Nat
  window : Nat
  /-- MODEL'S OWN: this link frame is a window end still to be taken -/
  windowDue : Bool
deriving DecidableEq, Repr

/-! ## Alarm monitor (AM) -/

inductive Evaluation where
  | evaluated | skipped | held
deriving DecidableEq, Repr

/-- The runtime record of an alarm entry (R98). -/
structure AlarmRecord where
  tier : Tier
  warnSeen : Bool
  tripSeen : Bool
  warnCount : Nat
  tripCount : Nat
  lastValue : AlarmValue
  lastEvaluation : Evaluation
deriving DecidableEq, Repr

/-- The line state and age of an outbound slot (R106). -/
structure SlotLine where
  state : LineState
  age : Nat
deriving DecidableEq, Repr

structure AlarmMonitor where
  entries : Tab 256 AlarmRecord
  /-- each channel's line state as derived at the last scan (R107) -/
  lines : Tab 8 (Tab 16 LineState)
  slots : Tab 128 SlotLine
  /-- each channel's protect target (R111) -/
  targets : Tab 8 (Tab 16 Nat)
  /-- each booth output line's annunciator demand (R113) -/
  demands : Tab 16 Bool
deriving DecidableEq, Repr

/-! ## Clock and timer unit (CT) -/

/-- A latched rate, which goes with its frame length (R118). -/
inductive Rate where
  | r24 | r25 | r48
deriving DecidableEq, Repr

/-- A show clock (R118). -/
structure Clock where
  value : ClockValue
  subFrame : Nat
  running : Bool
  rate : Rate
  /-- MODEL'S OWN: this link frame's count, which may complete the picture frame, is still to be taken -/
  advanceDue : Bool
deriving DecidableEq, Repr

inductive TickBase where
  | millisecond | pictureFrame | second
deriving DecidableEq, Repr

/-- A timer (R125). -/
structure Timer where
  base : TickBase
  count : Nat
  reload : Bool
  running : Bool
  remaining : Nat
  phase : Nat
  /-- MODEL'S OWN: this link frame's count, which may complete the tick, is still to be taken -/
  tickDue : Bool
  /-- MODEL'S OWN: this link frame's count has been added, and is still compared with a tick length latched in it -/
  counted : Bool
deriving DecidableEq, Repr

structure ClockUnit where
  clocks : Tab 8 Clock
  timers : Tab 8 (Tab 2 Timer)
deriving DecidableEq, Repr

/-! ## Booth line unit (BL) -/

/-- A debounced input: an input line, HIGH as true, or the booth key, LOCKED as true (R132, R136). -/
structure Debouncer where
  raw : Bool
  stable : Bool
  run : Nat
  /-- MODEL'S OWN: this link frame's sample, which may settle the level, is still to be acted on -/
  edgeDue : Bool
  /-- MODEL'S OWN: the debounce enable was cleared in this link frame while a run was counting, which takes effect in the
  next one (R133) -/
  held : Bool
deriving DecidableEq, Repr

inductive Drive where
  | low | high | pulseHigh | pulseLow
deriving DecidableEq, Repr

inductive Remaining where
  | pulses (n : Nat)
  | continuous
deriving DecidableEq, Repr

/-- The cue-drive record of an output line (R137). -/
structure OutputLine where
  drive : Drive
  remaining : Remaining
  phase : Nat
  /-- MODEL'S OWN: this link frame's count, which ends the period, is still to be taken -/
  periodDue : Bool
deriving DecidableEq, Repr

/-- MODEL'S OWN: what the work of this link frame does with the booth levels it samples (R132, R135): act on
them, nothing as they are already taken, or take them as the levels of a reset. -/
inductive Sampling where
  | due | taken | asReset
deriving DecidableEq, Repr

structure BoothLines where
  inputs : Tab 16 Debouncer
  outputs : Tab 16 OutputLine
  key : Debouncer
  sampling : Sampling
deriving DecidableEq, Repr

/-! ## Cue engine (CE) -/

/-- The runtime record of a cue entry (R146). -/
structure CueRecord where
  armed : Bool
  memory : Bool
deriving DecidableEq, Repr

structure CueEngine where
  triggers : List Trigger
  cues : Tab 256 CueRecord
  overrun : Bool
deriving DecidableEq, Repr

/-! ## The whole state -/

structure State where
  /-- MODEL'S OWN: the commands waiting, first in, first out -/
  pending : List Instr
  /-- MODEL'S OWN: how many free choices have been made -/
  draws : Nat
  li : LinkInterface
  ci : Interpreter
  ts : TableStore
  sc : Tab 8 ScreenRecord
  de : Tab 8 DecodeRecord
  eq : Equaliser
  os : OutputStage
  am : AlarmMonitor
  ct : ClockUnit
  bl : BoothLines
  ce : CueEngine
deriving DecidableEq, Repr

/-! ## The values after a reset -/

/-- A port after a reset (R32). -/
def Port.reset : Port := ⟨.lost, 0, 0⟩

/-- The receiver in HUNT with an empty assembly (R175). -/
def Receiver.hunting : Receiver := ⟨.hunt, []⟩

/-- The sender that holds no message (R32). -/
def Sender.empty : Sender := ⟨[], 0⟩

/-- An outbound slot that carries zero marked invalid (R36). -/
def OutSlot.silent : OutSlot := ⟨0, false⟩

/-- The link interface after power-up with an empty slot map (R32); the frame last sent is DESIGN CHOICE (assumption 28,
unsafe). -/
def LinkInterface.reset : LinkInterface where
  up := .reset
  down := .reset
  receiver := .hunting
  sender := .empty
  sources := .fill 8 (.fill 16 0)
  descriptors := .fill 8 .unmapped
  outSlots := .fill 128 .silent
  downLane := ⟨0, 0⟩
  outLane := ⟨0, 0⟩
  arrival := none
  rackWord := none
  upSeen := false
  downSeen := false
  worked := false

/-- The queues emptied and the report-lost mark clear (R181, R182). -/
def Interpreter.reset : Interpreter := ⟨[], [], [], false⟩

/-- The table store after power-up from an erased image (R171). -/
def TableStore.reset : TableStore where
  words := []
  image := ⟨[], 0, false⟩
  imageValid := false
  state := .idle
  elapsed := 0
  requestTag := 0
  startOrigin := .defaults

/-- A screen record after a reset, with level preset 0 as the fader's value (R20). -/
def ScreenRecord.reset (preset : Nat) : ScreenRecord where
  state := .offline
  resume := none
  cause := none
  activeBank := 0
  pendingApply := none
  fader := .rest preset 256
  mute := .rest Config.unity 256
  safeRamp := .rest Config.unity 64
  dip := .rest Config.unity 256

/-- A decode record after a reset, with the screen's default format (R40); the format last used is DESIGN CHOICE
(assumption 34, unsafe). -/
def DecodeRecord.reset (format : Fin 16) : DecodeRecord where
  accepted := format
  candidate := none
  forced := none
  current := none
  incoming := none
  pending := none
  envL := 0
  envR := 0
  envS := 0
  envD := 0
  steering := 0
  usedFormat := format
  usedSource := .default
  justEnabled := false

/-- A history set of zeros (R64). -/
def History.zero : History := ⟨0, 0, 0, 0⟩

/-- A channel of the equaliser that holds no page and only zeros (R68). -/
def EqChannel.cleared : EqChannel := ⟨.fill 6 .zero, [], []⟩

/-- The equaliser after a reset (R79). -/
def Equaliser.reset : Equaliser :=
  ⟨.fill 8 (.fill 16 .cleared), List.finRange 512, .fill 8 none⟩

/-- A channel of the output stage after a reset and while its screen is OFFLINE (R86, R94); the length of its ramp at rest
is DESIGN CHOICE (assumption 18, unsafe). -/
def OutChannel.reset : OutChannel := ⟨.rest Config.unity 64, 0, 0, 0, 0, []⟩

/-- The output stage after a reset (R94). -/
def OutputStage.reset : OutputStage := ⟨.fill 8 (.fill 16 .reset), .fill 8 0, 0, false⟩

/-- An alarm runtime record after a reset or a write of its entry (R98, R115). -/
def AlarmRecord.reset : AlarmRecord := ⟨.normal, false, false, 0, 0, .level 0, .skipped⟩

/-- The alarm monitor after a reset (R98, R106, R107, R113). -/
def AlarmMonitor.reset : AlarmMonitor where
  entries := .fill 256 .reset
  lines := .fill 8 (.fill 16 .unknown)
  slots := .fill 128 ⟨.unknown, 0⟩
  targets := .fill 8 (.fill 16 Config.unity)
  demands := .fill 16 false

/-- A show clock after a reset (R118). -/
def Clock.reset : Clock := ⟨⟨0, 0, 0, 0⟩, 0, false, .r24, false⟩

/-- A timer after a reset (R125). -/
def Timer.reset : Timer := ⟨.millisecond, 0, false, false, 0, 0, false, false⟩

/-- The clock and timer unit after a reset (R118, R125). -/
def ClockUnit.reset : ClockUnit := ⟨.fill 8 .reset, .fill 8 (.fill 2 .reset)⟩

/-- A debounced input that takes a level without an edge (R135, R136). -/
def Debouncer.settled (level : Bool) : Debouncer := ⟨level, level, 0, false, false⟩

/-- A cue-drive record at LOW (R141, R142). -/
def OutputLine.lowered : OutputLine := ⟨.low, .pulses 0, 0, false⟩

/-- The booth line unit after a power-up that found every line LOW and the key UNLOCKED (R135, R136, R142). -/
def BoothLines.reset : BoothLines where
  inputs := .fill 16 (.settled false)
  outputs := .fill 16 .lowered
  key := .settled false
  sampling := .taken

/-- The cue engine after a reset with no entry enabled (R164). -/
def CueEngine.reset : CueEngine := ⟨[], .fill 256 ⟨false, false⟩, false⟩

/-- The machine right after power-up from an erased image, the booth lines LOW and the key UNLOCKED
(R171; DESIGN CHOICE, assumptions 4 and 5, unsafe). -/
def State.reset : State where
  pending := []
  draws := 0
  li := .reset
  ci := .reset
  ts := .reset
  sc := .fill 8 (.reset 0)
  de := .fill 8 (.reset 0)
  eq := .reset
  os := .reset
  am := .reset
  ct := .reset
  bl := .reset
  ce := .reset

end Sys2Proof.Machine
end

