-- ==== Sys2Proof/Machine/Arith.lean ====
section
/-!
DEFINITION. The arithmetic of the manual: rounding, saturation, bit fields, digits, level steps and ramps.

`/` on `Int` with a positive divisor rounds toward minus infinity, as R1 asks; `Int.tdiv` rounds toward zero, as
the ramps of R15 ask.
-/

namespace Sys2Proof.Machine

/-- A value clamped to a range (R1). -/
def clamp (low high x : Int) : Int := max low (min high x)

/-- A value saturated to 24 bits (R1). -/
def saturate (x : Int) : Sample := BitVec.ofInt 24 (clamp (-8388608) 8388607 x)

/-- The magnitude of a sample, a magnitude of 8,388,608 used as 8,388,607 (R49, R87). -/
def magnitude (x : Int) : Nat := min x.natAbs Config.fullScale

/-- The unsigned field of `count` bits from bit `low` of a word (chapter 11). -/
def field (w : Word) (low count : Nat) : Nat := w.toNat / 2 ^ low % 2 ^ count

/-- One bit of a word, as a flag. -/
def flag (w : Word) (bit : Nat) : Bool := field w bit 1 == 1

/-- The signed field of `count` bits from bit `low` of a word (chapter 11). -/
def signedField (w : Word) (low count : Nat) : Int :=
  if field w low count < 2 ^ (count - 1) then field w low count
  else (field w low count : Int) - 2 ^ count

/-- A field as a number below `n`: the table's code for it where the encoding admits only such numbers. -/
def index (n : Nat) [NeZero n] (x : Nat) : Fin n := Fin.ofNat n x

/-- n(v): 0 for 0, otherwise the number of binary digits of v (R50). -/
def digits (v : Nat) : Nat := if v = 0 then 0 else Nat.log2 v + 1

/-- The level step function L (R91). -/
def levelStep (v : Nat) : Nat :=
  if v = 0 then 0 else 8 * (digits v - 1) + v * 8 / 2 ^ (digits v - 1) - 8

/-- A smoothed register: the old value plus the distance to the new magnitude divided by 2^shift, rounded down
(R49, R88). -/
def smooth (old magnitude shift : Nat) : Nat :=
  ((old : Int) + ((magnitude : Int) - old) / 2 ^ shift).toNat

/-! ## Ramps (R15) -/

/-- The ramp's value at its position. -/
def Ramp.value (r : Ramp) : Nat :=
  ((r.start : Int) + (((r.target : Int) - r.start) * r.position).tdiv r.length).toNat

/-- A new target taken: it starts from the current value. -/
def Ramp.retarget (r : Ramp) (target length : Nat) : Ramp := ⟨r.value, target, length, 0⟩

/-- One link frame later. -/
def Ramp.advance (r : Ramp) : Ramp :=
  if r.position < r.length then { r with position := r.position + 1 } else r

/-- The ramp has ended. -/
def Ramp.atRest (r : Ramp) : Bool := r.length ≤ r.position

/-- A protect ramp given a protect target: nothing when it is the ramp's present target, otherwise an attack over
64 link frames, a release over 4800, or rest at the present value (R85). A ramp that comes to rest so keeps its length and
stands at the end of it (DESIGN CHOICE, assumption 18, unsafe: R85's table gives no length there). -/
def Ramp.protectTake (r : Ramp) (target : Nat) : Ramp :=
  if target = r.target then r
  else if target < r.value then r.retarget target 64
  else if r.value < target then r.retarget target 4800
  else .rest target r.length

/-! ## Bytes of the lanes (R184, R185) -/

/-- A number as one byte. -/
def byte (n : Nat) : Byte := BitVec.ofNat 8 n

/-- A number as two bytes, most significant first. -/
def bytes2 (n : Nat) : List Byte := [byte (n / 256), byte n]

/-- A number as three bytes, most significant first. -/
def bytes3 (n : Nat) : List Byte := [byte (n / 65536), byte (n / 256), byte n]

/-- A table word as four bytes, bits 31–24 first. -/
def bytesOfWord (w : Word) : List Byte :=
  [byte (w.toNat / 16777216), byte (w.toNat / 65536), byte (w.toNat / 256), byte w.toNat]

/-- A flag as one byte. -/
def byteOfFlag (b : Bool) : Byte := if b then 1 else 0

/-- The number two bytes give, most significant first. -/
def ofBytes2 (a b : Byte) : BitVec 16 := a ++ b

/-- The word four bytes give, most significant first. -/
def ofBytes4 (a b c d : Byte) : Word := (a ++ b ++ (c ++ d) : BitVec (8 + 8 + (8 + 8)))

end Sys2Proof.Machine
end

