-- ==== Sys2Proof/Machine/Memory.lean ====
section
/-!
DEFINITION. The words of a store by store address, 256 × page + word (R166), and the image's check (R171).
-/

namespace Sys2Proof.Machine

/-- The word at a store address: 0 where none is listed, as in an all-zero store (R171; DEDUCED, assumption 25, safe). -/
def Memory.read : Memory → Nat → Word
  | [], _ => 0
  | (a, v) :: rest, b => if a = b then v else Memory.read rest b

/-- The store with one word written, kept in its canonical form. -/
def Memory.write : Memory → Nat → Word → Memory
  | [], b, v => if v = 0 then [] else [(b, v)]
  | (a, w) :: rest, b, v =>
    if b < a then (if v = 0 then (a, w) :: rest else (b, v) :: (a, w) :: rest)
    else if a = b then (if v = 0 then rest else (b, v) :: rest)
    else (a, w) :: Memory.write rest b v

/-- The store with a run of words written from an address on (R167). -/
def Memory.writeRun : Memory → Nat → List Word → Memory
  | m, _, [] => m
  | m, b, v :: rest => Memory.writeRun (m.write b v) (b + 1) rest

/-- The run of words from an address on (R167). -/
def Memory.readRun (m : Memory) (b count : Nat) : List Word := (List.range count).map fun k => m.read (b + k)

/-- The canonical form: addresses strictly rising from a bound on, and no listed word 0. -/
def Memory.wfFrom : Nat → Memory → Bool
  | _, [] => true
  | low, (a, v) :: rest => low ≤ a && v != 0 && Memory.wfFrom (a + 1) rest

/-- The canonical form: addresses strictly rising, and no listed word 0. -/
def Memory.wf (m : Memory) : Bool := Memory.wfFrom 0 m

/-- The sum of the words, modulo 2^32 (R171). -/
def Memory.sum : Memory → Word
  | [] => 0
  | (_, v) :: rest => v + Memory.sum rest

/-- The check of an image: the ones' complement of the sum of its words modulo 2^32 (R171). -/
def Image.check (i : Image) : Word := ~~~ i.pages.sum

/-- The image is valid (R171). -/
def Image.valid (i : Image) : Bool := i.complete && i.checkWord == i.check

/-- The store address of a word of a page (R166). -/
def address (page word : Nat) : Nat := 256 * page + word

/-- The word of the table store at a page and word number (R166). -/
def State.word (s : State) (page word : Nat) : Word := s.ts.words.read (address page word)

end Sys2Proof.Machine
end

