-- ==== Sys2Proof/Machine/Operands.lean ====
section
/-!
DEFINITION. The operand forms: every table word's fields (R190), the action codes (R191) and the codes of the
enumerated fields of requests (R186). Each is read live from the table store at its use (R166).
-/

namespace Sys2Proof.Machine

/-! ## Codes of the enumerated fields -/

/-- The screen state a code names (R186). -/
def ScreenState.ofCode : Nat → Option ScreenState
  | 0 => some .offline
  | 1 => some .idle
  | 2 => some .preshow
  | 3 => some .feature
  | 4 => some .safe
  | _ => none

/-- The code of a screen state (R186). -/
def ScreenState.code : ScreenState → Nat
  | .offline => 0
  | .idle => 1
  | .preshow => 2
  | .feature => 3
  | .safe => 4

/-- PRESHOW or FEATURE: the states that protect live tables (R7). -/
def ScreenState.playing : ScreenState → Bool
  | .preshow | .feature => true
  | _ => false

/-- The tick base a code names (R186). -/
def TickBase.ofCode : Nat → Option TickBase
  | 0 => some .millisecond
  | 1 => some .pictureFrame
  | 2 => some .second
  | _ => none

/-- A screen number of a request, absent above 7. -/
def screenOf (b : Byte) : Option (Fin 8) := if h : b.toNat < 8 then some ⟨b.toNat, h⟩ else none

/-- The entry a byte names. -/
def entryOf (b : Byte) : Fin 256 := ⟨b.toNat, b.isLt⟩

/-! ## Slot map, page 0 (R33, R36) -/

/-- The role of an inbound slot entry. -/
inductive InboundRole where
  | unused | audio | descriptor
deriving DecidableEq, Repr

/-- The role code of an inbound entry: 3 is used as UNUSED. -/
def inboundRole (w : Word) : InboundRole :=
  match field w 0 2 with
  | 1 => .audio
  | 2 => .descriptor
  | _ => .unused

/-- The role of an outbound entry is SPEAKER: 2 and 3 are used as UNUSED. -/
def isSpeaker (w : Word) : Bool := field w 0 2 == 1

/-- The screen field of a slot map entry. -/
def entryScreen (w : Word) : Fin 8 := index 8 (field w 4 3)

/-- The source or speaker channel field of a slot map entry. -/
def entryChannel (w : Word) : Fin 16 := index 16 (field w 8 4)

/-- The inbound slot entry of a slot. -/
def State.inboundEntry (s : State) (slot : Nat) : Word := s.word 0 slot

/-- The outbound slot entry of a slot. -/
def State.outboundEntry (s : State) (slot : Fin 128) : Word := s.word 0 (128 + slot.val)

/-- An outbound slot's entry has role SPEAKER and names the screen and channel (R107, R188). -/
def State.slotCarries (s : State) (slot : Fin 128) (i : Fin 8) (c : Fin 16) : Bool :=
  isSpeaker (s.outboundEntry slot) && entryScreen (s.outboundEntry slot) == i &&
    entryChannel (s.outboundEntry slot) == c

/-- The outbound slots that carry a channel, in order. -/
def State.slotsOf (s : State) (i : Fin 8) (c : Fin 16) : List (Fin 128) :=
  (List.finRange 128).filter fun n => s.slotCarries n i c

/-! ## Screen settings, page 1 (R19) -/

/-- A word of a screen's settings block. -/
def State.setting (s : State) (i : Fin 8) (k : Nat) : Word := s.word 1 (32 * i.val + k)

def State.autoEnable (s : State) (i : Fin 8) : Bool := s.setting i 0 != 0

def State.defaultFormat (s : State) (i : Fin 8) : Fin 16 := index 16 (field (s.setting i 1) 0 4)

/-- The profile the format map gives a format. -/
def State.formatMap (s : State) (i : Fin 8) (f : Fin 16) : Fin 16 :=
  index 16 (field (s.setting i (2 + f.val / 8)) (4 * (f.val % 8)) 4)

/-- A level preset, a stored value above 32768 used as 32768. -/
def State.levelPreset (s : State) (i : Fin 8) (p : Fin 8) : Nat :=
  min (field (s.setting i (4 + p.val)) 0 16) Config.unity

/-- The safe gain, a stored value above 32768 used as 32768. -/
def State.safeGain (s : State) (i : Fin 8) : Nat := min (field (s.setting i 12) 0 16) Config.unity

/-- The steering envelope shift ks, clamped to 3–12. -/
def State.envelopeShift (s : State) (i : Fin 8) : Nat := max 3 (min 12 (field (s.setting i 13) 0 8))

/-- The average shift ka, clamped to 6–14. -/
def State.averageShift (s : State) (i : Fin 8) : Nat := max 6 (min 14 (field (s.setting i 14) 0 8))

/-- The picture rate code, an undefined code used as 24. -/
def State.pictureRate (s : State) (i : Fin 8) : Rate :=
  match field (s.setting i 15) 0 8 with
  | 25 => .r25
  | 48 => .r48
  | _ => .r24

/-- The picture frames per second of a latched rate (R118). -/
def Rate.perSecond : Rate → Nat
  | .r24 => 24
  | .r25 => 25
  | .r48 => 48

/-- The frame length of a latched rate, in link frames (R118). -/
def Rate.frameLength : Rate → Nat
  | .r24 => 2000
  | .r25 => 1920
  | .r48 => 1000

/-! ## Decode profiles and steering, pages 2–18 (R45, R52) -/

def State.profileHeader (s : State) (p : Fin 16) : Word := s.word 2 (240 + p.val)

/-- The driven mask of a profile, bit i for speaker channel i. -/
def State.profileMask (s : State) (p : Fin 16) : Nat := field (s.profileHeader p) 0 16

def State.profileSteered (s : State) (p : Fin 16) : Bool := flag (s.profileHeader p) 16

/-- The coefficient from a column to a speaker channel. -/
def State.coefficient (s : State) (p channel column : Fin 16) : Int :=
  signedField (s.word (3 + p.val) (16 * channel.val + column.val)) 0 16

/-- A gain of a steering entry: gL, gR, gC and gS stand in bytes 3, 2, 1 and 0. -/
def State.steeringGain (s : State) (entry byteNo : Nat) : Nat := field (s.word 2 entry) (8 * byteNo) 8

/-- A channel's mark in a mask. -/
def marked (mask : Nat) (c : Fin 16) : Bool := mask / 2 ^ c.val % 2 == 1

/-! ## EQ banks, pages 28–59 (R60, R61) -/

/-- The first page of a bank. -/
def bankPage (i : Fin 8) (b : Fin 2) : Nat := 28 + 4 * i.val + 2 * b.val

/-- The store address of a channel record. -/
def recordAddress (i : Fin 8) (b : Fin 2) (c : Fin 16) : Nat :=
  address (bankPage i b + c.val / 8) (32 * (c.val % 8))

/-- A word of a channel record. -/
def State.recordWord (s : State) (i : Fin 8) (b : Fin 2) (c : Fin 16) (k : Nat) : Word :=
  s.ts.words.read (recordAddress i b c + k)

/-- A coefficient of a section: 0 to 4 for b0, b1, b2, a1, a2. -/
def State.sectionCoefficient (s : State) (i : Fin 8) (b : Fin 2) (c : Fin 16) (k n : Nat) : Int :=
  (s.recordWord i b c (5 * k + n)).toInt

/-- The section count, above 6 used as 6. -/
def State.sectionCount (s : State) (i : Fin 8) (b : Fin 2) (c : Fin 16) : Nat :=
  min 6 (field (s.recordWord i b c 30) 0 8)

/-- The delay a record's word 30 holds, above 4095 used as 4095. -/
def delayOf (w : Word) : Nat := min 4095 (field w 16 16)

/-- The delay of a channel record. -/
def State.delay (s : State) (i : Fin 8) (b : Fin 2) (c : Fin 16) : Nat := delayOf (s.recordWord i b c 30)

def State.trim (s : State) (i : Fin 8) (b : Fin 2) (c : Fin 16) : Nat := field (s.recordWord i b c 31) 0 16

def State.invert (s : State) (i : Fin 8) (b : Fin 2) (c : Fin 16) : Bool := flag (s.recordWord i b c 31) 16

/-! ## Alarm entries, pages 19–22 (R97) -/

/-- The booth output lines' tier an annunciator follows (R97). -/
inductive AnnunciatorTier where
  | warn | trip | both
deriving DecidableEq, Repr

/-- An alarm entry as its four words give it: channel 16 is ALL, and an undefined source is absent. -/
structure AlarmEntry where
  enabled : Bool
  screen : Fin 8
  channel : Nat
  source : Option AlarmSource
  warnLimit : Nat
  tripLimit : Nat
  hysteresis : Nat
  offset : Int
  hold : Nat
  reportOnEntry : Bool
  reportOnClear : Bool
  annunciator : Option (Fin 16)
  annunciatorTier : AnnunciatorTier
  protectFactor : Nat
  safeOnTrip : Bool
deriving DecidableEq, Repr

/-- A word of an alarm entry. -/
def State.alarmWord (s : State) (e : Fin 256) (k : Nat) : Word :=
  s.word (19 + e.val / 64) (4 * (e.val % 64) + k)

/-- The source a code names. -/
def AlarmSource.ofCode : Nat → Option AlarmSource
  | 0 => some .peak
  | 1 => some .average
  | 2 => some .screenMax
  | 3 => some .floor
  | 4 => some .line
  | _ => none

/-- An alarm entry from its four words. -/
def alarmEntryOf (w0 w1 w2 w3 : Word) : AlarmEntry where
  enabled := flag w0 0
  screen := index 8 (field w0 4 3)
  channel := min 16 (field w0 8 5)
  source := AlarmSource.ofCode (field w0 16 3)
  warnLimit := field w1 0 8
  tripLimit := field w1 8 8
  hysteresis := field w1 16 4
  offset := signedField w1 24 6
  hold := field w2 0 4
  reportOnEntry := flag w2 8
  reportOnClear := flag w2 9
  annunciator := if flag w2 20 then some (index 16 (field w2 16 4)) else none
  annunciatorTier :=
    match field w2 24 2 with
    | 0 => .warn
    | 1 => .trip
    | _ => .both
  protectFactor := min (field w3 0 16) Config.unity
  safeOnTrip := flag w3 16

/-- The alarm entry as it stands. -/
def State.alarmEntry (s : State) (e : Fin 256) : AlarmEntry :=
  alarmEntryOf (s.alarmWord e 0) (s.alarmWord e 1) (s.alarmWord e 2) (s.alarmWord e 3)

/-- The entry covers a channel (R97). -/
def AlarmEntry.covers (a : AlarmEntry) (i : Fin 8) (c : Fin 16) : Bool :=
  a.enabled && a.screen == i && (a.channel == c.val || a.channel == 16 || a.source == some .screenMax)

/-! ## Action codes (R190, R191) -/

/-- The action a code's kind field names, with its operands. -/
def Action.ofCode (code : BitVec 16) : Action :=
  let w := code.setWidth 32
  match field w 12 4 with
  | 1 => .state (code.setWidth 3)
  | 2 => .safe
  | 3 => .level (index 8 (field w 0 3)) (index 4 (field w 4 2))
  | 4 => .mute (flag w 0)
  | 5 => .format (index 16 (field w 0 4))
  | 6 => .release
  | 7 => .apply
  | 8 => .safepoint
  | 9 => .line (index 16 (field w 0 4))
      (match field w 4 2 with
      | 0 => .low
      | 1 => .high
      | 2 => .pulse
      | _ => .train)
  | 10 => .clock
      (match field w 0 2 with
      | 0 => .run
      | 1 => .stop
      | _ => .zero)
  | 11 => .timer (index 2 (field w 0 1)) (if flag w 4 then .stop else .start)
  | 12 => .report (byte (field w 0 8))
  | k => .unnamed (index 16 k)

/-- The kind field of an action (R190). -/
def Action.kind : Action → Nat
  | .state _ => 1
  | .safe => 2
  | .level _ _ => 3
  | .mute _ => 4
  | .format _ => 5
  | .release => 6
  | .apply => 7
  | .safepoint => 8
  | .line _ _ => 9
  | .clock _ => 10
  | .timer _ _ => 11
  | .report _ => 12
  | .unnamed k => k.val

/-! ## Cue entries, pages 23–26 (R144, R145) -/

/-- A cue entry: its trigger kind as coded, its trigger parameters as word 1 holds them, and the actions its count
gives. -/
structure CueEntry where
  enabled : Bool
  oneShot : Bool
  reportFlag : Bool
  screen : Fin 8
  mask : Nat
  kind : Nat
  parameters : Word
  actions : List Action
deriving DecidableEq, Repr

/-- A word of a cue entry. -/
def State.cueWord (s : State) (e : Fin 256) (k : Nat) : Word :=
  s.word (23 + e.val / 64) (4 * (e.val % 64) + k)

/-- The stored enabled flag of a cue entry. -/
def State.cueEnabled (s : State) (e : Fin 256) : Bool := flag (s.cueWord e 0) 0

/-- A cue entry from its four words. -/
def cueEntryOf (w0 w1 w2 w3 : Word) : CueEntry where
  enabled := flag w0 0
  oneShot := flag w0 1
  reportFlag := flag w0 2
  screen := index 8 (field w0 4 3)
  mask := field w0 8 5
  kind := field w0 16 3
  parameters := w1
  actions :=
    ([w2.extractLsb' 16 16, w2.setWidth 16, w3.extractLsb' 16 16, w3.setWidth 16].take (field w0 24 2 + 1)).map
      Action.ofCode

/-- The cue entry as it stands. -/
def State.cueEntry (s : State) (e : Fin 256) : CueEntry :=
  cueEntryOf (s.cueWord e 0) (s.cueWord e 1) (s.cueWord e 2) (s.cueWord e 3)

/-- The state's mark in a cue's state mask (R144). -/
def CueEntry.allows (c : CueEntry) (st : ScreenState) : Bool := c.mask / 2 ^ st.code % 2 == 1

/-! ## Booth line page, page 27 (R132, R134, R137) -/

/-- The screen tag of an input line. -/
def State.inputTag (s : State) (n : Fin 16) : Fin 8 := index 8 (field (s.word 27 n.val) 0 3)

/-- The debounce enable of an input line. -/
def State.debounced (s : State) (n : Fin 16) : Bool := flag (s.word 27 n.val) 8

/-- The change-detect enable of an input line's group of four. -/
def State.changeDetect (s : State) (n : Fin 16) : Bool := flag (s.word 27 48) (n.val / 4)

/-- The output line is in ANNUNCIATOR mode: 2 and 3 are used as CUE. -/
def State.annunciatorMode (s : State) (n : Fin 16) : Bool := field (s.word 27 (16 + 2 * n.val)) 0 2 == 1

/-- The count of a train, 0 for a continuous one. -/
def State.trainCount (s : State) (n : Fin 16) : Nat := field (s.word 27 (16 + 2 * n.val)) 16 8

/-- The length of a high period in link frames, a width of 0 used as 1 ms. -/
def State.highLength (s : State) (n : Fin 16) : Nat := 48 * max 1 (field (s.word 27 (17 + 2 * n.val)) 16 16)

/-- The length of a low period in link frames, a width of 0 used as 1 ms. -/
def State.lowLength (s : State) (n : Fin 16) : Nat := 48 * max 1 (field (s.word 27 (17 + 2 * n.val)) 0 16)

end Sys2Proof.Machine
end

