-- ==== Sys2Proof/Machine/Ops.lean ====
section
/-!
DEFINITION. The named operations over the state: one per part a block changes, the replies, and the delay page
pool (R67).
-/

namespace Sys2Proof.Machine

/-! ## Changes of one record -/

def State.modifyScreen (s : State) (i : Fin 8) (f : ScreenRecord → ScreenRecord) : State :=
  { s with sc := s.sc.modify i f }

def State.modifyDecode (s : State) (i : Fin 8) (f : DecodeRecord → DecodeRecord) : State :=
  { s with de := s.de.modify i f }

def State.modifyEq (s : State) (i : Fin 8) (c : Fin 16) (f : EqChannel → EqChannel) : State :=
  { s with eq := { s.eq with channels := s.eq.channels.modify i fun row => row.modify c f } }

def State.setDip (s : State) (i : Fin 8) (d : Option Dip) : State :=
  { s with eq := { s.eq with dips := s.eq.dips.set i d } }

def State.modifyOut (s : State) (i : Fin 8) (f : OutChannel → OutChannel) : State :=
  { s with os := { s.os with channels := s.os.channels.modify i fun row => row.map f } }

def State.modifyAlarm (s : State) (e : Fin 256) (f : AlarmRecord → AlarmRecord) : State :=
  { s with am := { s.am with entries := s.am.entries.modify e f } }

def State.modifyClock (s : State) (i : Fin 8) (f : Clock → Clock) : State :=
  { s with ct := { s.ct with clocks := s.ct.clocks.modify i f } }

def State.modifyTimer (s : State) (i : Fin 8) (t : Fin 2) (f : Timer → Timer) : State :=
  { s with ct := { s.ct with timers := s.ct.timers.modify i fun row => row.modify t f } }

def State.setOutput (s : State) (n : Fin 16) (o : OutputLine) : State :=
  { s with bl := { s.bl with outputs := s.bl.outputs.set n o } }

def State.setInput (s : State) (n : Fin 16) (d : Debouncer) : State :=
  { s with bl := { s.bl with inputs := s.bl.inputs.set n d } }

def State.modifyCue (s : State) (e : Fin 256) (f : CueRecord → CueRecord) : State :=
  { s with ce := { s.ce with cues := s.ce.cues.modify e f } }

/-! ## Replies (R177) -/

/-- One reply queued in the reply part. -/
def State.reply (s : State) (tag : Byte) (result : ResultCode) (data : List Byte) : State :=
  { s with ci := { s.ci with replies := s.ci.replies ++ [⟨tag, result, data⟩] } }

/-! ## Reads of the screens -/

def State.screenState (s : State) (i : Fin 8) : ScreenState := (s.sc.get i).state

def State.playing (s : State) (i : Fin 8) : Bool := (s.screenState i).playing

def State.activeBank (s : State) (i : Fin 8) : Fin 2 := (s.sc.get i).activeBank

/-- The other EQ bank (R60). -/
def otherBank (b : Fin 2) : Fin 2 := if b = 0 then 1 else 0

def State.standbyBank (s : State) (i : Fin 8) : Fin 2 := otherBank (s.activeBank i)

/-! ## The delay page pool (R67–R69) -/

/-- The page need of a delay: ceil(d/256). -/
def pageNeed (d : Nat) : Nat := (d + 255) / Config.pageSamples

/-- The page need of a bank. -/
def State.bankNeed (s : State) (i : Fin 8) (b : Fin 2) : Nat :=
  ((List.finRange 16).map fun c => pageNeed (s.delay i b c)).sum

/-- The pages a channel holds. -/
def State.pagesOf (s : State) (i : Fin 8) (c : Fin 16) : List (Fin 512) := ((s.eq.channels.get i).get c).pages

/-- The pages a screen's channels hold. -/
def State.pagesHeld (s : State) (i : Fin 8) : Nat :=
  ((List.finRange 16).map fun c => (s.pagesOf i c).length).sum

/-- The free pages. -/
def State.freePages (s : State) : Nat := s.eq.free.length

/-- A number of pages drawn from a free list, each the part's own choice (R67): the pages, the list left and the
count of choices. -/
def drawPages : Nat → List (Fin 512) → Nat → List (Fin 512) × List (Fin 512) × Nat
  | 0, free, k => ([], free, k)
  | n + 1, free, k =>
    let at_ := Config.freePage k % free.length
    match free[at_]? with
    | none => ([], free, k)
    | some page =>
      let (taken, left, k') := drawPages n (free.eraseIdx at_) (k + 1)
      (page :: taken, left, k')

/-- A channel receives pages from the free list at the end of its list (R69). -/
def State.givePages (s : State) (i : Fin 8) (c : Fin 16) (n : Nat) : State :=
  let (taken, left, k) := drawPages n s.eq.free s.draws
  let s := s.modifyEq i c fun ch => { ch with pages := ch.pages ++ taken }
  { s with eq := { s.eq with free := left }, draws := k }

/-- A channel keeps the first pages of its list and returns the others to the free list (R69). -/
def State.returnPages (s : State) (i : Fin 8) (c : Fin 16) (keep : Nat) : State :=
  let back := (s.pagesOf i c).drop keep
  let s := s.modifyEq i c fun ch => { ch with pages := ch.pages.take keep }
  { s with eq := { s.eq with free := s.eq.free ++ back } }

/-- Every channel of a screen returns its pages, and its histories and delay line are cleared (R6, R68). -/
def State.releaseScreen (s : State) (i : Fin 8) : State :=
  (List.finRange 16).foldl (fun s c => (s.returnPages i c 0).modifyEq i c fun _ => .cleared) s

/-- Every channel of a screen receives the pages of its delay in a bank (R68, R74). -/
def State.allocateBank (s : State) (i : Fin 8) (b : Fin 2) : State :=
  (List.finRange 16).foldl (fun s c => s.givePages i c (pageNeed (s.delay i b c))) s

/-- The pool holds a bank's delays when the screen's own pages are counted as free (R73, R74). -/
def State.bankFits (s : State) (i : Fin 8) (b : Fin 2) : Bool :=
  s.bankNeed i b ≤ s.freePages + s.pagesHeld i

end Sys2Proof.Machine
end

