-- ==== Sys2Proof/Machine/Flags.lean ====
section
/-!
DEFINITION. The marks and flags: the report-lost mark with the report part (R182), the trigger-overrun mark with
the trigger queue (R149, R161), and the order in which reports of several blocks join the report part.
-/

namespace Sys2Proof.Machine

/-! ## The report part and its lost mark (R182) -/

/-- A report arrives at the report part: it is accepted with the lost mark in its LOST flag, or dropped with the
mark set. -/
def State.queueReport (s : State) (r : Report) : State :=
  if s.ci.reports.length < Config.reportLimit then
    { s with ci := { s.ci with reports := s.ci.reports ++ [⟨s.ci.reportLost, r⟩], reportLost := false } }
  else { s with ci := { s.ci with reportLost := true } }

/-- Reports arrive one after another. -/
def State.queueReports (s : State) (rs : List Report) : State := rs.foldl State.queueReport s

/-- A CUE report arrives: it carries the overrun mark as it stands, which is cleared when the report is accepted
(R161). -/
def State.queueCueReport (s : State) (origin : Origin) (i : Fin 8) (trigger : Option Trigger) (clock : ClockValue)
    (actions : List ActionRecord) : State :=
  let accepted := s.ci.reports.length < Config.reportLimit
  let s := s.queueReport (.cue origin i trigger clock s.ce.overrun actions)
  if accepted then { s with ce := { s.ce with overrun := false } } else s

/-- The reports of several blocks in one operation, each block's in its own order, the blocks in an order that is a
free value (R6, R7, R11, R182): the reports and the count of choices. -/
def orderReports : Nat → List (List Report) → Nat → List Report × Nat
  | 0, groups, k => (groups.flatten, k)
  | n + 1, groups, k =>
    if groups.length ≤ 1 then (groups.flatten, k)
    else
      let at_ := Config.reportOrder k % groups.length
      let (rest, k') := orderReports n (groups.eraseIdx at_) (k + 1)
      (groups.getD at_ [] ++ rest, k')

/-- The reports of the blocks that have any, in the free order. -/
def State.mergeReports (s : State) (groups : List (List Report)) : State × List Report :=
  let groups := groups.filter fun g => !g.isEmpty
  let (rs, k) := orderReports groups.length groups s.draws
  ({ s with draws := k }, rs)

/-! ## The trigger queue and its overrun mark (R149) -/

/-- The screen whose CLOCK trigger this is. -/
def Trigger.clockScreen (t : Trigger) : Option (Fin 8) :=
  match t.event with
  | .clock i _ => some i
  | _ => none

/-- The number of non-clock triggers of a queue. -/
def nonClockCount (q : List Trigger) : Nat := (q.filter fun t => t.clockScreen.isNone).length

/-- The queue holds a CLOCK trigger for the screen. -/
def holdsClock (q : List Trigger) (i : Fin 8) : Bool := q.any fun t => t.clockScreen == some i

/-- A trigger arrives at the queue: a CLOCK trigger joins or replaces the one held for its screen, and another joins
while fewer than 32 are held or is dropped with the overrun mark set. -/
def State.pushTrigger (s : State) (t : Trigger) : State :=
  match t.clockScreen with
  | some i =>
    if holdsClock s.ce.triggers i then
      { s with ce := { s.ce with triggers := s.ce.triggers.map fun u => if u.clockScreen == some i then t else u } }
    else { s with ce := { s.ce with triggers := s.ce.triggers ++ [t] } }
  | none =>
    if nonClockCount s.ce.triggers < Config.triggerLimit then
      { s with ce := { s.ce with triggers := s.ce.triggers ++ [t] } }
    else { s with ce := { s.ce with overrun := true } }

/-- A trigger an operation makes, which is not made where its depth would exceed 3 (R158). -/
def State.makeTrigger (s : State) (event : TriggerEvent) (depth : Nat) : State :=
  if depth ≤ Config.depthLimit then s.pushTrigger ⟨event, depth⟩ else s

/-- The outcome of an action that makes a trigger: CASCADE_CUT in place of DONE where it is not made (R158). -/
def triggerOutcome (depth : Nat) : ActionOutcome := if depth ≤ Config.depthLimit then .done else .cascadeCut

end Sys2Proof.Machine
end

