-- ==== Sys2Proof/Machine/Decoding.lean ====
section
/-!
DEFINITION. The decode engine (chapter 3): format selection, crossfades, steering and the matrix mix.
-/

namespace Sys2Proof.Machine

/-! ## Format selection (R41–R44) -/

/-- The accepted format and the candidate after a descriptor result (R41). -/
def DecodeRecord.observe (d : DecodeRecord) (result : DescriptorResult) (default : Fin 16) : DecodeRecord :=
  match result with
  | .unmapped => { d with accepted := default, candidate := none }
  | .none => { d with candidate := none }
  | .code f =>
    if f = d.accepted then { d with candidate := none }
    else
      match d.candidate with
      | some c =>
        if c.code = f then
          if Config.acceptRun ≤ c.run + 1 then { d with accepted := f, candidate := none }
          else { d with candidate := some ⟨f, c.run + 1⟩ }
        else { d with candidate := some ⟨f, 1⟩ }
      | none => { d with candidate := some ⟨f, 1⟩ }

/-- The format in use and its source (R44). -/
def State.chosenFormat (s : State) (i : Fin 8) : Fin 16 × FormatSource :=
  match (s.de.get i).forced with
  | some f => (f, .forced)
  | none =>
    match s.li.descriptors.get i with
    | .unmapped => (s.defaultFormat i, .default)
    | _ => ((s.de.get i).accepted, .descriptor)

/-- The profile to be used (R44). -/
def State.profileToUse (s : State) (i : Fin 8) : Fin 16 := s.formatMap i (s.chosenFormat i).1

/-- The driven mask a screen gives the alarm monitor (R46). -/
def State.drivenMask (s : State) (i : Fin 8) : Nat :=
  if s.screenState i = .offline then 0
  else
    match (s.de.get i).incoming, (s.de.get i).current with
    | some inc, _ => s.profileMask inc.profile
    | none, some p => s.profileMask p
    | none, none => 0

/-! ## The screen's state and its decode record (R57) -/

/-- The record of a screen being enabled takes the profile to be used at once. `justEnabled` says that this link frame's work,
which is still to come, gives it the profile that R44 decides there (R57; DESIGN CHOICE, assumption 42, unsafe). -/
def DecodeRecord.enabled (d : DecodeRecord) (p : Fin 16) (justEnabled : Bool) : DecodeRecord :=
  { d with current := some p, incoming := none, pending := none, justEnabled }

/-- The record of a screen entering OFFLINE goes idle. -/
def DecodeRecord.idled (d : DecodeRecord) : DecodeRecord :=
  { d with
    current := none, incoming := none, pending := none, justEnabled := false
    envL := 0, envR := 0, envS := 0, envD := 0 }

/-- A profile the record holds as current, incoming or pending (R45). -/
def DecodeRecord.holds (d : DecodeRecord) (p : Fin 16) : Bool :=
  d.current == some p || d.pending == some p ||
    (match d.incoming with
    | some inc => inc.profile == p
    | none => false)

/-! ## Crossfades (R53–R55) -/

/-- The crossfade step of a link frame, and whether a crossfade starts in it: none starts in the link frame in which the
screen is enabled, whose profile is taken at once (R57). -/
def DecodeRecord.crossfade (d : DecodeRecord) (p : Fin 16) : DecodeRecord × Bool :=
  if d.justEnabled then (d.enabled p false, false)
  else
    match d.incoming with
    | some inc =>
      ({ d with
          incoming := some { inc with position := min (inc.position + 1) Config.crossfadeLength }
          pending := if p = inc.profile then none else some p }, false)
    | none =>
      if d.current = some p then (d, false) else ({ d with incoming := some ⟨p, 1⟩ }, true)

/-- The crossfade has reached k = 512 (R56). -/
def DecodeRecord.fadeEnded (d : DecodeRecord) : Bool :=
  match d.incoming with
  | some inc => inc.position == Config.crossfadeLength
  | none => false

/-- The incoming profile becomes the current one and the pending profile is removed, with its FORMAT report
(R56; its format is DEDUCED, assumption 15, unsafe). -/
def State.endCrossfade (s : State) (i : Fin 8) : State :=
  let d := s.de.get i
  match d.incoming, d.current with
  | some inc, some p =>
    (s.modifyDecode i fun d => { d with current := some inc.profile, incoming := none, pending := none }).queueReport
      (.format i p inc.profile d.usedFormat d.usedSource)
  | _, _ => s

/-! ## Steering (R49–R52) -/

/-- A profile held in a part of the record is steered. -/
def State.usesSteering (s : State) (d : DecodeRecord) : Bool :=
  (match d.current with
    | some p => s.profileSteered p
    | none => false) ||
  (match d.incoming with
    | some inc => s.profileSteered inc.profile
    | none => false)

/-- hS: the sum of Lt and Rt divided by 2 and rounded down (R49). -/
def halfSum (lt rt : Int) : Int := (lt + rt) / 2

/-- hD: the difference of Lt and Rt divided by 2 and rounded down (R49). -/
def halfDifference (lt rt : Int) : Int := (lt - rt) / 2

/-- The entry number of four envelopes (R50). -/
def steeringEntry (envL envR envS envD : Nat) : Nat :=
  ((clamp (-7) 7 ((digits envL : Int) - digits envR) + 7) * 15 +
    (clamp (-7) 7 ((digits envS : Int) - digits envD) + 7)).toNat

/-- The envelopes and the steering entry after a link frame that steers (R49, R50). -/
def DecodeRecord.steer (d : DecodeRecord) (lt rt : Int) (shift : Nat) : DecodeRecord :=
  let l := smooth d.envL (magnitude lt) shift
  let r := smooth d.envR (magnitude rt) shift
  let c := smooth d.envS (magnitude (halfSum lt rt)) shift
  let f := smooth d.envD (magnitude (halfDifference lt rt)) shift
  { d with envL := l, envR := r, envS := c, envD := f, steering := steeringEntry l r c f }

/-- A derived signal: a signal with a gain g meaning g/128 (R51). -/
def derived (x : Int) (gain : Nat) : Sample := saturate ((x * gain + 64) / 128)

/-! ## The matrix mix (R47, R48) -/

/-- A source of a screen, as gathered in this link frame. -/
def State.source (s : State) (i : Fin 8) (c : Fin 16) : Int := ((s.li.sources.get i).get c).toInt

/-- A column of a screen's mix under a profile (R47). -/
def State.column (s : State) (i : Fin 8) (p j : Fin 16) : Int :=
  if s.profileSteered p then
    let e := (s.de.get i).steering
    let lt := s.source i 0
    let rt := s.source i 1
    match j.val with
    | 0 => (derived lt (s.steeringGain e 3)).toInt
    | 1 => (derived rt (s.steeringGain e 2)).toInt
    | 2 => (derived (halfSum lt rt) (s.steeringGain e 1)).toInt
    | 3 => (derived (halfDifference lt rt) (s.steeringGain e 0)).toInt
    | _ => s.source i j
  else s.source i j

/-- A row's result (R48). -/
def State.mixRow (s : State) (i : Fin 8) (p c : Fin 16) : Sample :=
  if marked (s.profileMask p) c then
    saturate ((((List.finRange 16).map fun j => s.column i p j * s.coefficient p c j).sum + 8192) / 16384)
  else 0

/-- The blend of a crossfade at a position (R54). -/
def blend (old new : Sample) (k : Nat) : Sample :=
  saturate ((old.toInt * (512 - k) + new.toInt * k + 256) / 512)

/-- The decode engine's output for a speaker channel (R48, R54). -/
def State.decodeOutput (s : State) (i : Fin 8) (c : Fin 16) : Sample :=
  let d := s.de.get i
  match d.current, d.incoming with
  | some p, none => s.mixRow i p c
  | some p, some inc => blend (s.mixRow i p c) (s.mixRow i inc.profile c) inc.position
  | none, _ => 0

end Sys2Proof.Machine
end

