-- ==== Sys2Proof/Machine/Equaliser.lean ====
section
/-!
DEFINITION. The channel path of the equaliser (chapter 4.2) and of the output stage (chapter 5).
-/

namespace Sys2Proof.Machine

/-! ## Filter sections (R63, R64) -/

/-- A section's output and its histories after it, from its coefficients b0, b1, b2, a1, a2 (R63). -/
def History.section (h : History) (b0 b1 b2 a1 a2 : Int) (x0 : Sample) : Sample × History :=
  let acc := b0 * x0.toInt + b1 * h.x1.toInt + b2 * h.x2.toInt - a1 * h.y1.toInt - a2 * h.y2.toInt
  let y0 := saturate ((acc + 2 ^ 27) / 2 ^ 28)
  (y0, ⟨x0, h.x1, y0, h.y1⟩)

/-- The sections in force in order, the positions at or beyond the count set to zero (R62, R64). -/
def State.filter (s : State) (i : Fin 8) (c : Fin 16) (x : Sample) : Sample × Tab 6 History :=
  let b := s.activeBank i
  let count := s.sectionCount i b c
  let coef := s.sectionCoefficient i b c
  (List.finRange 6).foldl
    (fun (acc : Sample × Tab 6 History) k =>
      if k.val < count then
        let (y, h) := (acc.2.get k).section (coef k 0) (coef k 1) (coef k 2) (coef k 3) (coef k 4) acc.1
        (y, acc.2.set k h)
      else (acc.1, acc.2.set k .zero))
    (x, ((s.eq.channels.get i).get c).sections)

/-! ## Delay, trim and polarity (R65, R66) -/

/-- The delay stage's output: the input of d link frames earlier, zero before the line's last clearing (R65). -/
def delayTap (line : List Sample) (d : Nat) (w : Sample) : Sample := if d = 0 then w else line.getD (d - 1) 0

/-- The trim stage (R66). -/
def trimStage (z : Sample) (t : Nat) (invert : Bool) : Sample :=
  let v := saturate ((z.toInt * t + 2048) / 4096)
  if invert then saturate (-v.toInt) else v

/-- The equaliser's result for a channel and the channel after the link frame (R62). -/
def State.equalise (s : State) (i : Fin 8) (c : Fin 16) (y : Sample) : Sample × EqChannel :=
  let b := s.activeBank i
  let ch := (s.eq.channels.get i).get c
  let (w, sections) := s.filter i c y
  let v := trimStage (delayTap ch.line (s.delay i b c) w) (s.trim i b c) (s.invert i b c)
  (v, { ch with sections, line := (w :: ch.line).take (Config.pageSamples * ch.pages.length) })

/-! ## The gain chain (R82–R84) and the meter registers (R87, R88) -/

/-- The effective gain of a screen (R82). -/
def ScreenRecord.effectiveGain (r : ScreenRecord) : Nat :=
  r.fader.value * r.mute.value / 32768 * r.safeRamp.value / 32768 * r.dip.value / 32768

/-- A sample with a gain x/32768, rounded to nearest (R83, R84). -/
def gained (x : Sample) (gain : Nat) : Sample := saturate ((x.toInt * gain + 16384) / 32768)

/-- The meter registers after the magnitude of a meter tap (R87, R88). -/
def OutChannel.meter (ch : OutChannel) (q : Sample) (shift : Nat) : OutChannel :=
  let m := magnitude q.toInt
  { ch with peak := max ch.peak m, average := smooth ch.average m shift }

/-- A link frame of an output channel: the equaliser's result enters the flight, and the result of 32 link frames
earlier, if one is in flight, is metered and gives the output sample (R37, R81). -/
def OutChannel.work (ch : OutChannel) (gain shift : Nat) (v : Sample) : Option Sample × OutChannel :=
  let moved := { ch with flight := (v :: ch.flight).take Config.latency }
  match ch.flight[Config.latency - 1]? with
  | none => (none, moved)
  | some x => (some (gained (gained x gain) ch.protect.value), moved.meter (gained x gain) shift)

/-- The last levels taken at a window end, and the peak register cleared (R90). -/
def OutChannel.takeLevels (ch : OutChannel) : OutChannel :=
  { ch with lastPeak := levelStep ch.peak, lastAverage := levelStep ch.average, peak := 0 }

end Sys2Proof.Machine
end

