-- ==== Sys2Proof/Machine/Alarms.lean ====
section
/-!
DEFINITION. The alarm monitor's runtime records outside the scan (chapter 6): forced falls, protect targets,
annunciator demands, slot ages and line states.
-/

namespace Sys2Proof.Machine

/-- The record with its tier at NORMAL and its counters at 0, the flags kept (R104, R109). -/
def AlarmRecord.fallen (r : AlarmRecord) : AlarmRecord := { r with tier := .normal, warnCount := 0, tripCount := 0 }

/-- An ALARM report of a change of tier; the flags and the value are the record's after the change (R110);
PEAK stands in for an undefined source (DESIGN CHOICE, assumption 35, unsafe). -/
def alarmReport (e : Fin 256) (a : AlarmEntry) (r : AlarmRecord) (fall : Bool) (old new : Tier) (forced : Bool) :
    Report :=
  .alarm e a.screen a.channel (a.source.getD .peak) fall old new r.lastValue r.warnSeen r.tripSeen forced

/-- An entry forced to NORMAL, and its report with cause FORCED if it falls and routes one (R104, R112). -/
def State.forceNormal (s : State) (e : Fin 256) : State × List Report :=
  let r := s.am.entries.get e
  let a := s.alarmEntry e
  (s.modifyAlarm e AlarmRecord.fallen,
    if r.tier ≠ .normal ∧ a.reportOnClear then [alarmReport e a r true r.tier .normal true] else [])

/-- The entries a test picks forced to NORMAL, with their reports (R104, R112): the reports join in ascending entry number
(DESIGN CHOICE, assumption 45, unsafe). -/
def State.forceEntries (s : State) (pick : AlarmEntry → Bool) : State × List Report :=
  (List.finRange 256).foldl
    (fun (acc : State × List Report) e =>
      if pick (acc.1.alarmEntry e) then
        let (s, rs) := acc.1.forceNormal e
        (s, acc.2 ++ rs)
      else acc)
    (s, [])

/-- A FLOOR entry is eligible: its screen plays and it has a channel to watch (R104). -/
def State.floorEligible (s : State) (a : AlarmEntry) : Bool :=
  s.playing a.screen &&
    (if h : a.channel < 16 then marked (s.drivenMask a.screen) ⟨a.channel, h⟩ else s.drivenMask a.screen != 0)

/-- The screen's FLOOR entries that are not eligible forced to NORMAL (R104). -/
def State.forceFloors (s : State) (i : Fin 8) : State × List Report :=
  s.forceEntries fun a => a.source == some .floor && a.screen == i && !s.floorEligible a

/-! ## Protect targets (R111, R85) -/

/-- The alarm entries in TRIP, as they stand. -/
def State.tripping (s : State) : List AlarmEntry :=
  ((List.finRange 256).filter fun e => (s.am.entries.get e).tier == .trip).map s.alarmEntry

/-- The smallest protect factor among entries that cover a channel, 32768 when none does (R111). -/
def protectTarget (trips : List AlarmEntry) (i : Fin 8) (c : Fin 16) : Nat :=
  trips.foldl (fun t a => if a.covers i c then min t a.protectFactor else t) Config.unity

/-- A channel whose protect ramp is given a protect target (R85). -/
def OutChannel.protectTake (ch : OutChannel) (target : Nat) : OutChannel :=
  { ch with protect := ch.protect.protectTake target }

/-- Every protect ramp compared with its channel's protect target (R85). -/
def State.takeTargets (s : State) : State :=
  let channels : Tab 8 (Tab 16 OutChannel) := Tab.ofFn fun i => Tab.ofFn fun c =>
    ((s.os.channels.get i).get c).protectTake ((s.am.targets.get i).get c)
  { s with os := { s.os with channels } }

/-- Every channel's protect target recomputed and taken by its ramp (R111, R85). -/
def State.recomputeTargets (s : State) : State :=
  let trips := s.tripping
  let targets : Tab 8 (Tab 16 Nat) := Tab.ofFn fun i => Tab.ofFn fun c => protectTarget trips i c
  State.takeTargets { s with am := { s.am with targets } }

/-! ## Annunciator demands (R113) -/

/-- The entry holds a sticky flag its annunciator line follows. -/
def AlarmEntry.lights (a : AlarmEntry) (r : AlarmRecord) (n : Fin 16) : Bool :=
  a.enabled && a.annunciator == some n &&
    (match a.annunciatorTier with
    | .warn => r.warnSeen
    | .trip => r.tripSeen
    | .both => r.warnSeen || r.tripSeen)

/-- Every line's annunciator demand recomputed. -/
def State.recomputeDemands (s : State) : State :=
  let flagged := (List.finRange 256).filter fun e =>
    (s.am.entries.get e).warnSeen || (s.am.entries.get e).tripSeen
  let demands : Tab 16 Bool := Tab.ofFn fun n => flagged.any fun e => (s.alarmEntry e).lights (s.am.entries.get e) n
  { s with am := { s.am with demands } }

/-! ## Rack status words and slot ages (R25, R106) -/

/-- A rack status word as the link interface hands it on (R25, R192). -/
inductive RackWord where
  | valid (slot : Fin 128) (state : LineState)
  | busy (slot : Fin 128)
  | none
deriving DecidableEq, Repr

/-- The fields of a rack status word, the unnamed codes taken as NONE (R25, R192). -/
def RackWord.ofBits (w : BitVec 16) : RackWord :=
  let w := w.setWidth 32
  let slot : Fin 128 := index 128 (field w 0 7)
  match field w 8 2 with
  | 1 =>
    match field w 12 2 with
    | 0 => .valid slot .ok
    | 1 => .valid slot .opened
    | 2 => .valid slot .short
    | _ => .none
  | 2 => .busy slot
  | _ => .none

/-- The slot one link frame older (R106); its line state becomes UNKNOWN by the expiry of its age (DESIGN CHOICE,
assumption 32, unsafe). -/
def SlotLine.aged (l : SlotLine) : SlotLine := { l with age := min (l.age + 1) Config.slotAgeLimit }

/-- A slot after a rack status word (R106). -/
def SlotLine.hear (l : SlotLine) (n : Fin 128) : RackWord → SlotLine
  | .valid m x => if n = m then ⟨x, 0⟩ else l.aged
  | .busy m => if n = m then { l with age := 0 } else l.aged
  | .none => l.aged

/-- The slots after a rack status word (R106). -/
def State.takeRackWord (s : State) (w : RackWord) : State :=
  let slots : Tab 128 SlotLine := Tab.ofFn fun n => (s.am.slots.get n).hear n w
  { s with am := { s.am with slots } }

/-- The slot's age has reached its limit and its line state is not yet UNKNOWN. -/
def SlotLine.expiring (l : SlotLine) : Bool := l.age == Config.slotAgeLimit && l.state != .unknown

/-- A slot whose age has reached its limit becomes UNKNOWN (R106). -/
def State.expireSlot (s : State) (n : Fin 128) : State :=
  if (s.am.slots.get n).expiring then
    { s with am := { s.am with slots := s.am.slots.modify n fun l => { l with state := .unknown } } }
  else s

/-! ## Channel line states (R107) -/

/-- The rank of a line state, worst highest. -/
def LineState.rank : LineState → Nat
  | .ok => 0
  | .unknown => 1
  | .opened => 2
  | .short => 3

/-- The worse of two line states. -/
def LineState.worse (a b : LineState) : LineState := if a.rank < b.rank then b else a

/-- The worst of several line states, UNKNOWN when there are none. -/
def worstLine : List LineState → LineState
  | [] => .unknown
  | l :: ls => ls.foldl LineState.worse l

/-- The line state of each channel derived from the slot states and the slot map (R107). -/
def State.deriveLines (s : State) : State :=
  let lines : Tab 8 (Tab 16 LineState) := Tab.ofFn fun i => Tab.ofFn fun c =>
    worstLine ((s.slotsOf i c).map fun n => (s.am.slots.get n).state)
  { s with am := { s.am with lines } }

/-! ## ACKNOWLEDGE (R114) -/

/-- The record with the sticky flags of tiers that are not active cleared. -/
def AlarmRecord.acknowledged (r : AlarmRecord) : AlarmRecord :=
  match r.tier with
  | .normal => { r with warnSeen := false, tripSeen := false }
  | .warn => { r with tripSeen := false }
  | .trip => r

/-- The screen has an enabled entry with safe-on-trip in TRIP (R12). -/
def State.tripActive (s : State) (i : Fin 8) : Bool :=
  s.tripping.any fun a => a.enabled && a.safeOnTrip && a.screen == i

end Sys2Proof.Machine
end

