-- ==== Sys2Proof/Machine/Screens.lean ====
section
/-!
DEFINITION. The screen controller (chapter 1) and the bank applies of the equaliser (chapter 4.4).

An operation that queues reports of several blocks gives back the list of reports, in the order they join the
report part, for its caller to queue.
-/

namespace Sys2Proof.Machine

/-! ## Dips and applies (R72–R77) -/

/-- A dip begins: D falls, and the dip record holds one waiting origin (R73, R76). -/
def State.beginDip (s : State) (i : Fin 8) (w : Waiting) : State :=
  (s.setDip i (some ⟨.fall, none, [w]⟩)).modifyScreen i fun r => { r with dip := r.dip.retarget 0 256 }

/-- A pending apply handed to the equaliser: it begins a dip, joins one in FALL, or is reported at once with the
outcome of one in RISE (R76). -/
def State.handApply (s : State) (i : Fin 8) (origin : Origin) : State × List Report :=
  match s.eq.dips.get i with
  | none => (s.beginDip i ⟨origin, true⟩, [])
  | some d =>
    match d.phase, d.swap with
    | .rise, some result => (s, [.apply i origin result])
    | _, _ => (s.setDip i (some { d with waiting := d.waiting ++ [⟨origin, true⟩] }), [])

/-- The active bank exchanged (R72, R74). -/
def State.exchangeBanks (s : State) (i : Fin 8) : State :=
  s.modifyScreen i fun r => { r with activeBank := otherBank r.activeBank }

/-- The swap moment has come: the fall of the dip has reached position 256 (R74). -/
def State.swapReached (s : State) (i : Fin 8) : Bool :=
  match s.eq.dips.get i with
  | some d => d.phase == .fall && (s.sc.get i).dip.atRest
  | none => false

/-- The banks at a swap moment: exchanged when the screen is OFFLINE or the pool check passes (R74). -/
def State.swapBanks (s : State) (i : Fin 8) : State × SwapOutcome :=
  if s.screenState i = .offline then (s.exchangeBanks i, .done)
  else if s.bankFits i (s.standbyBank i) then
    (((s.releaseScreen i).exchangeBanks i).allocateBank i (s.standbyBank i), .done)
  else (s, .noSpace)

/-- The APPLY reports of a swap moment: each waiting origin reported always, or on failure only (R77). -/
def applyReports (i : Fin 8) (waiting : List Waiting) (result : SwapResult) : List Report :=
  (waiting.filter fun w => w.always || result.outcome == .noSpace).map fun w => .apply i w.origin result

/-- The swap moment of a dip (R74, R77): the pool is checked, the banks are exchanged or not, and the rise begins. -/
def State.swapMoment (s : State) (i : Fin 8) : State :=
  match s.eq.dips.get i with
  | none => s
  | some d =>
    let needed := s.bankNeed i (s.standbyBank i)
    let (s, outcome) := s.swapBanks i
    let result : SwapResult := ⟨outcome, s.activeBank i, s.pagesHeld i, needed, s.freePages⟩
    let s := (s.setDip i (some ⟨.rise, some result, []⟩)).modifyScreen i fun r =>
      { r with dip := r.dip.retarget Config.unity 256 }
    s.queueReports (applyReports i d.waiting result)

/-- The rise of the dip has reached its end (R75). -/
def State.riseEnded (s : State) (i : Fin 8) : Bool :=
  match s.eq.dips.get i with
  | some d => d.phase == .rise && (s.sc.get i).dip.atRest
  | none => false

/-! ## Enabling and disabling (R5, R6) -/

/-- A screen's histories and delay lines set to zero, its page lists kept (R64, R65). -/
def State.clearScreen (s : State) (i : Fin 8) : State :=
  (List.finRange 16).foldl (fun s c => s.modifyEq i c fun ch => { EqChannel.cleared with pages := ch.pages }) s

/-- What an enable brings: pages, cleared histories and delay lines, and the profile at once: the profile to be used in
this link frame, which its work decides where it is still to come (R5, R57). -/
def State.enable (s : State) (i : Fin 8) : State :=
  let p := s.profileToUse i
  ((s.allocateBank i (s.activeBank i)).clearScreen i).modifyDecode i fun d => d.enabled p (!s.li.worked)

/-- What entering OFFLINE brings, with the reports of the forced falls (R6, R57, R112). -/
def State.disable (s : State) (i : Fin 8) : State × List Report :=
  let s := ((s.releaseScreen i).modifyDecode i DecodeRecord.idled).modifyOut i fun _ => OutChannel.reset
  let s := { s with os := { s.os with gains := s.os.gains.set i 0 } }
  let (s, falls) := s.forceEntries fun a => a.screen == i
  (s.recomputeTargets, falls)

/-! ## Transitions (R3–R13) -/

/-- The targets allowed from a state by a request or an action other than RESUME (R3). -/
def ScreenState.allows : ScreenState → ScreenState → Bool
  | .offline, .idle => true
  | .idle, .preshow | .idle, .feature | .idle, .offline | .idle, .safe => true
  | .preshow, .feature | .preshow, .idle | .preshow, .safe => true
  | .feature, .idle | .feature, .safe => true
  | .safe, .idle | .safe, .offline => true
  | _, _ => false

/-- The screen record after a change of state: entering SAFE records the resume state and the cause and starts S
toward the safe gain, leaving SAFE removes them and starts S back, and a pending apply is held only while the
screen plays (R8, R9, R13). -/
def ScreenRecord.move (r : ScreenRecord) (target : ScreenState) (cause : SafeCause) (gain : Nat) : ScreenRecord :=
  { r with
    state := target
    resume := if target = .safe then some r.state else none
    cause := if target = .safe then some cause else none
    safeRamp :=
      if target = .safe then r.safeRamp.retarget gain 64
      else if r.state = .safe then r.safeRamp.retarget Config.unity 64
      else r.safeRamp
    pendingApply := if target.playing then r.pendingApply else none }

/-- The pending apply of a screen that leaves PRESHOW or FEATURE handed over (R8). -/
def State.handPending (s : State) (i : Fin 8) (old : ScreenRecord) (target : ScreenState) : State × List Report :=
  match old.pendingApply with
  | some origin => if target.playing then (s, []) else s.handApply i origin
  | none => (s, [])

/-- What the blocks do with a screen's change of state, and the reports of the forced falls (R5–R7). -/
def State.followMove (s : State) (i : Fin 8) (old target : ScreenState) (inScan : Bool) : State × List Report :=
  if target = .offline then s.disable i
  else if old = .offline then (s.enable i, [])
  else if old.playing && !target.playing then
    let (s, falls) := s.forceFloors i
    (if inScan then s else s.recomputeTargets, falls)
  else (s, [])

/-- One change of a screen's state to another, with all it brings in the same operation: the STATE trigger is made
and the reports are given back (R4–R9, R13). -/
def State.moveScreen (s : State) (i : Fin 8) (target : ScreenState) (cause : StateCause) (safeCause : SafeCause)
    (depth : Nat) (inScan : Bool) : State × List Report :=
  let old := s.sc.get i
  let s := s.modifyScreen i fun r => r.move target safeCause (s.safeGain i)
  let (s, applies) := s.handPending i old target
  let (s, falls) := s.followMove i old.state target inScan
  let s := s.makeTrigger (.state i target) depth
  s.mergeReports [[.state i old.state target cause], falls, applies]

/-- A screen that has come to play while the upstream port is LOST enters SAFE with cause LINK (R11). -/
def State.safeIfLost (s : State) (i : Fin 8) : State × List Report :=
  if s.playing i && s.li.up.lock == .lost then s.moveScreen i .safe .link .link 0 false else (s, [])

/-- A change of state asked for by a request or an action, with the entry into SAFE that a lost link adds, its
reports queued (R4, R11). -/
def State.goTo (s : State) (i : Fin 8) (target : ScreenState) (cause : StateCause) (depth : Nat) : State :=
  let (s, first) := s.moveScreen i target cause .command depth false
  let (s, second) := s.safeIfLost i
  s.queueReports (first ++ second)

/-- The delay page check of an enable (R5). -/
def State.enableFits (s : State) (i : Fin 8) : Bool := s.bankNeed i (s.activeBank i) ≤ s.freePages

/-- A change of state asked for one screen, with its outcome (R3, R5, R174). -/
def State.askState (s : State) (i : Fin 8) (target : Option ScreenState) (cause : StateCause) (depth : Nat) :
    State × ActionOutcome :=
  match target with
  | none => (s, .state)
  | some t =>
    if t = s.screenState i then (s, .done)
    else if !(s.screenState i).allows t then (s, .state)
    else if s.screenState i = .offline && s.ts.state == .restoring then (s, .state)
    else if s.screenState i = .offline && !s.enableFits i then (s, .noSpace)
    else (s.goTo i t cause depth, triggerOutcome depth)

/-- SAFE asked for by an alarm entry that enters TRIP, in the scan (R10). -/
def State.alarmSafe (s : State) (i : Fin 8) (e : Fin 256) : State :=
  match s.screenState i with
  | .idle | .preshow | .feature =>
    let (s, rs) := s.moveScreen i .safe (.alarm e) (.alarm e) 0 true
    s.queueReports rs
  | _ => s

/-- A RESUME of a screen, with its result (R12). -/
def State.resumeScreen (s : State) (i : Fin 8) (tag : Byte) : State × ResultCode :=
  match s.screenState i, (s.sc.get i).resume with
  | .safe, some target =>
    if (s.sc.get i).cause == some .link && s.li.up.lock == .lost then (s, .state)
    else if s.tripActive i then (s, .tripActive)
    else (s.goTo i target (.request tag) 0, .ok)
  | _, _ => (s, .state)

/-- Every screen that plays enters SAFE with cause LINK, in ascending order, with the reports (R11). -/
def State.safeAll (s : State) : State × List Report :=
  (List.finRange 8).foldl
    (fun (acc : State × List Report) i =>
      if acc.1.playing i then
        let (s, rs) := acc.1.moveScreen i .safe .link .link 0 false
        (s, acc.2 ++ rs)
      else acc)
    (s, [])

/-! ## Actions on a screen (R8, R16, R17, R71) -/

/-- The length of a ramp code (R16). -/
def rampLength (code : Nat) : Nat :=
  match code with
  | 0 => 256
  | 1 => 1024
  | 2 => 4096
  | _ => 16384

/-- F given a target (R16). -/
def State.fade (s : State) (i : Fin 8) (target length : Nat) : State :=
  s.modifyScreen i fun r => { r with fader := r.fader.retarget target length }

/-- M given its target of MUTE on or off (R17). -/
def State.muteTo (s : State) (i : Fin 8) (on : Bool) : State :=
  s.modifyScreen i fun r => { r with mute := r.mute.retarget (if on then 0 else Config.unity) 256 }

/-- An APPLY action by the screen's state and its dip record (R71–R73). -/
def State.applyBank (s : State) (i : Fin 8) (origin : Origin) : State × ActionOutcome :=
  if s.playing i then
    (s.modifyScreen i fun r => { r with pendingApply := r.pendingApply.or (some origin) }, .deferred)
  else if (s.eq.dips.get i).isSome then (s, .done)
  else if s.screenState i = .offline then (s.exchangeBanks i, .done)
  else if s.bankFits i (s.standbyBank i) then (s.beginDip i ⟨origin, false⟩, .done)
  else (s, .noSpace)

/-- A SAFEPOINT action: a pending apply is removed and handed to the equaliser (R8, R76). -/
def State.safepoint (s : State) (i : Fin 8) : State :=
  match (s.sc.get i).pendingApply with
  | none => s
  | some origin =>
    let s := s.modifyScreen i fun r => { r with pendingApply := none }
    let (s, rs) := s.handApply i origin
    s.queueReports rs

/-- The cause of a state change an action makes (R4). -/
def Origin.cause : Origin → StateCause
  | .request tag => .request tag
  | .cue e => .cue e

end Sys2Proof.Machine
end

