-- ==== Sys2Proof/Machine/Scan.lean ====
section
/-!
DEFINITION. The alarm scan (chapter 6.2 to 6.4) and the meter window end (R89, R90).
-/

namespace Sys2Proof.Machine

/-! ## The value compared (R100, R105) -/

/-- The largest of some numbers, 0 when there are none. -/
def largest (xs : List Nat) : Nat := xs.foldl max 0

/-- The smallest of some levels, 183 when there are none. -/
def smallest (xs : List Nat) : Nat := xs.foldl min 183

/-- The channels of a screen in its driven mask. -/
def State.drivenChannels (s : State) (i : Fin 8) : List (Fin 16) :=
  (List.finRange 16).filter fun c => marked (s.drivenMask i) c

/-- The raw level of an entry with a level source (R100). -/
def State.rawLevel (s : State) (a : AlarmEntry) (source : AlarmSource) : Nat :=
  let row := s.os.channels.get a.screen
  let peak c := (row.get c).lastPeak
  let average c := (row.get c).lastAverage
  match source with
  | .screenMax => largest ((s.drivenChannels a.screen).map average)
  | .peak => if h : a.channel < 16 then peak ⟨a.channel, h⟩ else largest ((List.finRange 16).map peak)
  | .average => if h : a.channel < 16 then average ⟨a.channel, h⟩ else largest ((List.finRange 16).map average)
  | .floor => if h : a.channel < 16 then average ⟨a.channel, h⟩ else smallest ((s.drivenChannels a.screen).map average)
  | .line => 0

/-- The line state a LINE entry is compared with: an ALL entry takes the worst among the channels that an outbound
slot carries (R105). -/
def State.lineValue (s : State) (a : AlarmEntry) : LineState :=
  let row := s.am.lines.get a.screen
  if h : a.channel < 16 then row.get ⟨a.channel, h⟩
  else worstLine (((List.finRange 16).filter fun c => !(s.slotsOf a.screen c).isEmpty).map row.get)

/-- The value of an evaluated entry (R98, R100, R105). -/
def State.alarmValue (s : State) (a : AlarmEntry) (source : AlarmSource) : AlarmValue :=
  match source with
  | .line => .line (s.lineValue a)
  | _ => .level (clamp 0 183 ((s.rawLevel a source : Int) + a.offset)).toNat

/-! ## Conditions and release points (R101–R103, R105) -/

/-- Whether a tier's condition holds and whether its release point is reached. -/
structure Comparison where
  holds : Bool
  released : Bool
deriving DecidableEq, Repr

/-- An upward entry's value against a limit with a hysteresis (R101, R102). -/
def compareUp (value limit hysteresis : Nat) : Comparison where
  holds := limit ≤ value
  released := if limit ≤ hysteresis then value == 0 else value < limit - hysteresis

/-- A FLOOR entry's value against a limit with a hysteresis (R103). -/
def compareDown (value limit hysteresis : Nat) : Comparison where
  holds := value ≤ limit
  released := if 183 ≤ limit + hysteresis then value == 183 else limit + hysteresis < value

/-- A line state against WARN, which UNKNOWN, OPEN and SHORT meet, or TRIP, which OPEN and SHORT meet (R105). -/
def compareLine (state : LineState) (trip : Bool) : Comparison :=
  let holds := if trip then state == .opened || state == .short else state != .ok
  ⟨holds, !holds⟩

/-- The comparison of a value with the warn limit or the trip limit of an entry. -/
def AlarmEntry.compare (a : AlarmEntry) (source : AlarmSource) (value : AlarmValue) (trip : Bool) : Comparison :=
  let limit := if trip then a.tripLimit else a.warnLimit
  match value, source with
  | .line state, _ => compareLine state trip
  | .level v, .floor => compareDown v limit a.hysteresis
  | .level v, _ => compareUp v limit a.hysteresis

/-! ## The tier rules (R101, R102) -/

/-- The tier of an entry that leaves its tier in this scan: TRIP is left for WARN, or for NORMAL when WARN is left as
well (R102; DEDUCED, assumption 6, unsafe). -/
def exitTier (tier : Tier) (warn trip : Comparison) : Tier :=
  let leavesWarn := warn.released && !warn.holds
  match tier with
  | .normal => .normal
  | .warn => if leavesWarn then .normal else .warn
  | .trip => if trip.released && !trip.holds then (if leavesWarn then .normal else .warn) else .trip

/-- A condition met with its counter at hold completes the tier's entry (R101). -/
def completes (c : Comparison) (count hold : Nat) : Bool := c.holds && hold ≤ count

/-- The counter after a scan that does not complete the tier's entry (R101). -/
def counted (c : Comparison) (count : Nat) : Nat := if c.holds then count + 1 else 0

/-- The tier and the counters of a record after its tier rules, the flags still as they were (R101, R102): an exit
ends the entry's evaluation with both counters 0. -/
def AlarmRecord.judge (r : AlarmRecord) (hold : Nat) (warn trip : Comparison) : AlarmRecord :=
  if exitTier r.tier warn trip ≠ r.tier then
    { r with tier := exitTier r.tier warn trip, warnCount := 0, tripCount := 0 }
  else
    match r.tier with
    | .trip => { r with warnCount := 0, tripCount := 0 }
    | .warn =>
      if completes trip r.tripCount hold then { r with tier := .trip, warnCount := 0, tripCount := 0 }
      else { r with warnCount := 0, tripCount := counted trip r.tripCount }
    | .normal =>
      if completes trip r.tripCount hold then { r with tier := .trip, warnCount := 0, tripCount := 0 }
      else if completes warn r.warnCount hold then
        { r with tier := .warn, warnCount := 0, tripCount := counted trip r.tripCount }
      else { r with warnCount := counted warn r.warnCount, tripCount := counted trip r.tripCount }

/-- The depth of a tier. -/
def Tier.rank : Tier → Nat
  | .normal => 0
  | .warn => 1
  | .trip => 2

/-- The sticky flags set on entry into a tier (R98, R108). -/
def AlarmRecord.mark (r : AlarmRecord) : AlarmRecord :=
  match r.tier with
  | .normal => r
  | .warn => { r with warnSeen := true }
  | .trip => { r with warnSeen := true, tripSeen := true }

/-! ## One entry of the scan (R99, R108, R109) -/

/-- The effects of an entry into WARN or TRIP, in their order (R108). -/
def State.enterTier (s : State) (e : Fin 256) (a : AlarmEntry) (old new : Tier) : State :=
  let s := s.modifyAlarm e AlarmRecord.mark
  let s := if a.reportOnEntry then s.queueReport (alarmReport e a (s.am.entries.get e) false old new false) else s
  let s := s.makeTrigger (.alarm a.screen e new) 0
  let s := if new == .trip && a.safeOnTrip then s.alarmSafe a.screen e else s
  s.recomputeDemands

/-- The effects of a fall made by the scan (R109). -/
def State.leaveTier (s : State) (e : Fin 256) (a : AlarmEntry) (old new : Tier) : State :=
  if a.reportOnClear then s.queueReport (alarmReport e a (s.am.entries.get e) true old new false) else s

/-- An entry the scan evaluates (R99–R105). -/
def State.evaluateEntry (s : State) (e : Fin 256) (a : AlarmEntry) (source : AlarmSource) : State :=
  let value := s.alarmValue a source
  let old := (s.am.entries.get e).tier
  let s := s.modifyAlarm e fun r =>
    { r.judge a.hold (a.compare source value false) (a.compare source value true) with
      lastValue := value, lastEvaluation := .evaluated }
  let new := (s.am.entries.get e).tier
  if old.rank < new.rank then s.enterTier e a old new
  else if new.rank < old.rank then s.leaveTier e a old new
  else s

/-- An entry the scan holds at NORMAL (R99, R104). -/
def State.holdEntry (s : State) (e : Fin 256) : State :=
  let (s, rs) := s.forceNormal e
  (s.modifyAlarm e fun r => { r with lastEvaluation := .held }).queueReports rs

/-- What the scan does with one entry (R99). -/
def State.scanEntry (s : State) (e : Fin 256) : State :=
  let a := s.alarmEntry e
  match a.enabled, a.source with
  | true, some source =>
    if s.screenState a.screen = .offline then s.holdEntry e
    else if source = .floor ∧ s.floorEligible a = false then s.holdEntry e
    else s.evaluateEntry e a source
  | _, _ => s.modifyAlarm e fun r => { r with lastEvaluation := .skipped }

/-- The scan: the line states are derived, the entries taken in order, and the protect targets recomputed (R99,
R107). -/
def State.scan (s : State) : State :=
  ((List.finRange 256).foldl State.scanEntry s.deriveLines).recomputeTargets

/-! ## The meter window end (R89, R90) -/

/-- The last levels of the channels of every screen that is not OFFLINE taken (R90). -/
def State.takeLevels (s : State) : State :=
  let channels : Tab 8 (Tab 16 OutChannel) := Tab.ofFn fun i =>
    if s.screenState i = .offline then s.os.channels.get i else (s.os.channels.get i).map OutChannel.takeLevels
  { s with os := { s.os with channels } }

/-- The window end is due and this link frame's samples are in the registers (R90). -/
def State.windowEnded (s : State) : Bool := s.os.windowDue && s.li.worked

/-- The meter window ends: the counter returns to 0, the levels are taken and the alarm table is scanned. -/
def State.endWindow (s : State) : State :=
  State.scan (State.takeLevels { s with os := { s.os with window := 0, windowDue := false } })

end Sys2Proof.Machine
end

