-- ==== Sys2Proof/Machine/Clocks.lean ====
section
/-!
DEFINITION. Show clocks and timers (chapter 7).

A running clock's or timer's count of a link frame is taken when the frame begins, except the count that would
complete its period: that one is left due, to be taken before or after the frame's other events (R124, R130; DESIGN CHOICE,
assumption 12, unsafe). A timer's count that completes no tick at the length that stands is still compared with a shorter
length latched in the same frame, as R130 gives it where the latch is taken first.
-/

namespace Sys2Proof.Machine

/-! ## Show clocks (R118–R123) -/

/-- The clock's value one picture frame later, with its carries (R120). -/
def ClockValue.advance (v : ClockValue) (rate : Rate) : ClockValue :=
  if v.frames + 1 < rate.perSecond then { v with frames := v.frames + 1 }
  else if v.seconds + 1 < 60 then { v with seconds := v.seconds + 1, frames := 0 }
  else if v.minutes + 1 < 60 then { v with minutes := v.minutes + 1, seconds := 0, frames := 0 }
  else if v.hours + 1 < 24 then ⟨v.hours + 1, 0, 0, 0⟩
  else ⟨0, 0, 0, 0⟩

/-- A link frame begins: a running clock counts it, or leaves a count that may complete the picture frame due. -/
def Clock.passFrame (c : Clock) : Clock :=
  if c.running then
    if c.subFrame + 1 < c.rate.frameLength then { c with subFrame := c.subFrame + 1 } else { c with advanceDue := true }
  else c

/-- The due count taken: the sub-frame count returns to 0 and F advances when the count reaches the frame length
(R120). -/
def Clock.settle (c : Clock) : Clock :=
  if c.subFrame + 1 < c.rate.frameLength then { c with subFrame := c.subFrame + 1, advanceDue := false }
  else { c with value := c.value.advance c.rate, subFrame := 0, advanceDue := false }

/-- The due count of a running clock completes its picture frame. -/
def Clock.completes (c : Clock) : Bool := c.rate.frameLength ≤ c.subFrame + 1

/-- The clock after its rate is latched by a RUN, with the corrections of its value (R119; DEDUCED, assumption 11,
unsafe: each is made whenever its condition holds). -/
def Clock.latchRun (c : Clock) (rate : Rate) : Clock :=
  if rate.perSecond ≤ c.value.frames then
    { c with rate, value := { c.value with frames := rate.perSecond - 1 }, subFrame := 0 }
  else if rate.frameLength ≤ c.subFrame then { c with rate, subFrame := 0 }
  else { c with rate }

/-- The clock after a load or a ZERO (R122, R123). -/
def Clock.load (value : ClockValue) (running : Bool) (rate : Rate) : Clock := ⟨value, 0, running, rate, false⟩

/-- The due count of a screen's clock taken, with the CLOCK trigger of an advance (R120, R121). -/
def State.settleClock (s : State) (i : Fin 8) : State :=
  let c := s.ct.clocks.get i
  let s := s.modifyClock i Clock.settle
  if c.completes then s.makeTrigger (.clock i (c.value.advance c.rate)) 0 else s

/-- A CLOCK action, with its outcome (R121, R123). -/
def State.clockAction (s : State) (i : Fin 8) (op : ClockOp) (depth : Nat) : State × ActionOutcome :=
  let rate := s.pictureRate i
  match op with
  | .stop => (s.modifyClock i fun c => { c with running := false, advanceDue := false }, .done)
  | .zero =>
    let s := s.modifyClock i fun c => Clock.load ⟨0, 0, 0, 0⟩ c.running rate
    (s.makeTrigger (.clock i ⟨0, 0, 0, 0⟩) depth, triggerOutcome depth)
  | .run =>
    let old := (s.ct.clocks.get i).value
    let s := s.modifyClock i fun c => { c.latchRun rate with running := true }
    let new := (s.ct.clocks.get i).value
    if new = old then (s, .done) else (s.makeTrigger (.clock i new) depth, triggerOutcome depth)

/-- A CLOCK LOAD request's checks of its value (R122). -/
def loadable (value : ClockValue) (rate : Rate) : Bool :=
  value.hours ≤ 23 && value.minutes ≤ 59 && value.seconds ≤ 59 && value.frames < rate.perSecond

/-! ## Timers (R125–R129) -/

/-- The tick length of a timer, read live (R125, R127). -/
def tickLength (base : TickBase) (rate : Rate) : Nat :=
  match base with
  | .millisecond => 48
  | .pictureFrame => rate.frameLength
  | .second => 48000

/-- A link frame begins: a running timer counts it, or leaves a count that may complete the tick due. -/
def Timer.passFrame (t : Timer) (length : Nat) : Timer :=
  if t.running then
    if t.phase + 1 < length then { t with phase := t.phase + 1, counted := true }
    else { t with tickDue := true, counted := false }
  else { t with counted := false }

/-- A tick's effect on the remaining count (R129). -/
def Timer.tick (t : Timer) : Timer :=
  match t.remaining with
  | 0 => if t.reload then { t with remaining := t.count } else t
  | 1 => { t with remaining := 0, running := t.reload }
  | n + 2 => { t with remaining := n + 1 }

/-- The phase after this link frame's count. -/
def Timer.reached (t : Timer) : Nat := if t.tickDue then t.phase + 1 else t.phase

/-- This link frame's count is still to be taken, or to be compared with a tick length it has reached (R127, R130). -/
def Timer.due (t : Timer) (length : Nat) : Bool := t.tickDue || (t.counted && length ≤ t.phase)

/-- The due count taken: the phase returns to 0 and a tick elapses when it reaches the tick length (R127). -/
def Timer.settle (t : Timer) (length : Nat) : Timer :=
  if t.reached < length then { t with phase := t.reached, tickDue := false, counted := true }
  else Timer.tick { t with phase := 0, tickDue := false, counted := false }

/-- The due count's tick makes the timer expire (R129). -/
def Timer.expires (t : Timer) (length : Nat) : Bool := length ≤ t.reached && t.remaining == 1

/-- The tick length of a screen's timer as it stands. -/
def State.tickLengthOf (s : State) (i : Fin 8) (t : Fin 2) : Nat :=
  tickLength ((s.ct.timers.get i).get t).base (s.ct.clocks.get i).rate

/-- The due count of a timer taken, with the TIMER trigger of an expiry (R127, R129). -/
def State.settleTimer (s : State) (i : Fin 8) (t : Fin 2) : State :=
  let length := s.tickLengthOf i t
  let tm := (s.ct.timers.get i).get t
  let s := s.modifyTimer i t fun tm => tm.settle length
  if tm.expires length then s.makeTrigger (.timer i t) 0 else s

/-- A timer started or restarted from its full count (R128). -/
def Timer.started (t : Timer) : Timer :=
  { t with remaining := t.count, phase := 0, running := true, tickDue := false, counted := false }

/-- A timer stopped (R128). -/
def Timer.stopped (t : Timer) : Timer := { t with running := false, tickDue := false, counted := false }

/-- A TIMER action, with its outcome (R128). -/
def State.timerAction (s : State) (i : Fin 8) (t : Fin 2) (op : TimerOp) : State × ActionOutcome :=
  match op with
  | .start =>
    if ((s.ct.timers.get i).get t).count = 0 then (s, .notSet) else (s.modifyTimer i t Timer.started, .done)
  | .stop => (s.modifyTimer i t Timer.stopped, .done)

/-- A stopped timer configured by TIMER SET (R126). -/
def Timer.configured (base : TickBase) (count : Nat) (reload : Bool) : Timer :=
  ⟨base, count, reload, false, count, 0, false, false⟩

end Sys2Proof.Machine
end

