-- ==== Sys2Proof/Machine/Lines.lean ====
section
/-!
DEFINITION. Booth lines (chapter 8): input debouncing and edges, the booth key, and the output lines' pulse generators.
-/

namespace Sys2Proof.Machine

/-! ## Debouncing (R132–R136) -/

/-- The stable level and the run count after a link frame's sample (R133), with debounce set or clear. -/
def Debouncer.settle (d : Debouncer) (debounce : Bool) : Debouncer :=
  if d.raw = d.stable then { d with run := 0, edgeDue := false }
  else if debounce && d.run + 1 < Config.debounceRun then { d with run := d.run + 1, edgeDue := false }
  else { d with stable := d.raw, run := 0, edgeDue := false }

/-- The sample makes an edge (R133). -/
def Debouncer.edges (d : Debouncer) (debounce : Bool) : Bool :=
  d.raw != d.stable && !(debounce && d.run + 1 < Config.debounceRun)

/-- A link frame's sample: acted on at once, or left due when it makes an edge. -/
def Debouncer.sample (d : Debouncer) (level debounce : Bool) : Debouncer :=
  let d := { d with raw := level }
  if d.edges debounce then { d with edgeDue := true } else d.settle debounce

/-- An input line is debounced in this link frame: its enable is set, or was cleared in this frame while a run was
counting, which takes effect in the next (R133). -/
def State.debouncing (s : State) (n : Fin 16) : Bool := s.debounced n || (s.bl.inputs.get n).held

/-- The edge of a change to a level. -/
def edgeTo (level : Bool) : Edge := if level then .rise else .fall

/-- The due sample of an input line acted on, with the INPUT trigger of an edge whose group is enabled (R133,
R134). -/
def State.settleInput (s : State) (n : Fin 16) : State :=
  let d := s.bl.inputs.get n
  let debounce := s.debouncing n
  let s := s.setInput n (d.settle debounce)
  if d.edges debounce && s.changeDetect n then s.makeTrigger (.input n (edgeTo d.raw) (s.inputTag n)) 0 else s

/-- The due sample of the booth key acted on (R136). -/
def State.settleKey (s : State) : State := { s with bl := { s.bl with key := s.bl.key.settle true } }

/-- The booth key state is LOCKED (R136). -/
def State.keyLocked (s : State) : Bool := s.bl.key.stable

/-- The booth lines and the key sampled at the start of a link frame's work (R132, R135, R136; DESIGN CHOICE,
assumption 21, unsafe). -/
def State.sampleLines (s : State) (lines : BitVec 16) (keyLocked : Bool) : State :=
  match s.bl.sampling with
  | .taken => s
  | .due =>
    let inputs : Tab 16 Debouncer := Tab.ofFn fun n => (s.bl.inputs.get n).sample (lines.getLsb n) (s.debouncing n)
    { s with bl := { s.bl with inputs, key := s.bl.key.sample keyLocked true, sampling := .taken } }
  | .asReset =>
    let inputs : Tab 16 Debouncer := Tab.ofFn fun n => .settled (lines.getLsb n)
    { s with bl := { s.bl with inputs, key := .settled keyLocked, sampling := .taken } }

/-! ## Output lines (R137–R139) -/

/-- The length of the period an output line is in, 0 outside a pulse. -/
def State.periodLength (s : State) (n : Fin 16) : Nat :=
  match (s.bl.outputs.get n).drive with
  | .pulseHigh => s.highLength n
  | .pulseLow => s.lowLength n
  | _ => 0

/-- A pulse or train is running. -/
def Drive.pulsing : Drive → Bool
  | .pulseHigh | .pulseLow => true
  | _ => false

/-- A link frame begins: a running generator counts it, or leaves the count that ends the period due. -/
def OutputLine.passFrame (o : OutputLine) (length : Nat) : OutputLine :=
  if o.drive.pulsing then
    if o.phase + 1 < length then { o with phase := o.phase + 1 } else { o with periodDue := true }
  else o

/-- The record after the end of a period (R139). -/
def OutputLine.endPeriod (o : OutputLine) : OutputLine :=
  match o.drive, o.remaining with
  | .pulseHigh, .pulses n => if n ≤ 1 then .lowered else ⟨.pulseLow, .pulses (n - 1), 0, false⟩
  | .pulseHigh, .continuous => ⟨.pulseLow, .continuous, 0, false⟩
  | .pulseLow, r => ⟨.pulseHigh, r, 0, false⟩
  | _, _ => { o with periodDue := false }

/-- The due count of an output line taken. -/
def State.settlePulse (s : State) (n : Fin 16) : State := s.setOutput n (s.bl.outputs.get n).endPeriod

/-- The cue-drive record an operation gives a line in CUE mode, with the count of a train (R138). -/
def LineOp.drives (op : LineOp) (count : Nat) : OutputLine :=
  match op with
  | .low => .lowered
  | .high => ⟨.high, .pulses 0, 0, false⟩
  | .pulse => ⟨.pulseHigh, .pulses 1, 0, false⟩
  | .train => ⟨.pulseHigh, if count = 0 then .continuous else .pulses count, 0, false⟩

/-- A LINE action, with its outcome (R138). -/
def State.lineAction (s : State) (n : Fin 16) (op : LineOp) : State × ActionOutcome :=
  if s.annunciatorMode n then (s, .lineMode) else (s.setOutput n (op.drives (s.trainCount n)), .done)

/-- The output level of a line, by its mode (R137, R140). -/
def State.outputLevel (s : State) (n : Fin 16) : Bool :=
  if s.annunciatorMode n then s.am.demands.get n
  else
    match (s.bl.outputs.get n).drive with
    | .high | .pulseHigh => true
    | _ => false

end Sys2Proof.Machine
end

