-- ==== Sys2Proof/Machine/Cues.lean ====
section
/-!
DEFINITION. The cue engine (chapter 9): actions, matching, firing and the handling of a trigger.
-/

namespace Sys2Proof.Machine

/-! ## Actions (R156, R179) -/

/-- The user code a CUE report carries for an action: 0 but for REPORT (R189). -/
def Action.userCode : Action → Byte
  | .report code => code
  | _ => 0

/-- A REPORT action of a request queues a CUE report at once (R162); one of a cue is carried in the cue's report
(R160). -/
def State.reportAction (s : State) (i : Fin 8) (origin : Origin) (code : Byte) : State :=
  match origin with
  | .request _ => s.queueCueReport origin i none (s.ct.clocks.get i).value [⟨12, .done, code⟩]
  | .cue _ => s

/-- An action executed on the screen, line or timer it names, with its outcome. The triggers it makes carry the
given depth (R156, R158). -/
def State.runAction (s : State) (i : Fin 8) (origin : Origin) (depth : Nat) : Action → State × ActionOutcome
  | .state target => s.askState i (ScreenState.ofCode target.toNat) origin.cause depth
  | .safe => s.askState i (some .safe) origin.cause depth
  | .level preset ramp => (s.fade i (s.levelPreset i preset) (rampLength ramp.val), .done)
  | .mute on => (s.muteTo i on, .done)
  | .format f => (s.modifyDecode i fun d => { d with forced := some f }, .done)
  | .release => (s.modifyDecode i fun d => { d with forced := none }, .done)
  | .apply => s.applyBank i origin
  | .safepoint => (s.safepoint i, .done)
  | .line n op => s.lineAction n op
  | .clock op => s.clockAction i op depth
  | .timer t op => s.timerAction i t op
  | .report code => (s.reportAction i origin code, .done)
  | .unnamed _ => (s, .badAction)

/-! ## Matching (R151–R153) -/

/-- One field of a CLOCK match: its enable and whether its match value equals the clock's field. -/
structure FieldMatch where
  enabled : Bool
  equal : Bool
deriving DecidableEq, Repr

/-- The field's match as word 1 of a CLOCK entry holds it (R190). -/
def fieldMatch (w : Word) (low count enable value : Nat) : FieldMatch := ⟨flag w enable, field w low count == value⟩

/-- A CLOCK entry's match against a clock value: every enabled field is equal, and one is enabled (R152). -/
def clockMatches (w : Word) (v : ClockValue) : Bool :=
  let fields := [fieldMatch w 0 5 7 v.hours, fieldMatch w 8 6 15 v.minutes, fieldMatch w 16 6 23 v.seconds,
    fieldMatch w 24 6 31 v.frames]
  (fields.any fun f => f.enabled) && fields.all fun f => !f.enabled || f.equal

/-- The screen a trigger names, absent for INPUT (R148). -/
def TriggerEvent.screen : TriggerEvent → Option (Fin 8)
  | .clock i _ => some i
  | .timer i _ => some i
  | .input _ _ _ => none
  | .alarm i _ _ => some i
  | .state i _ => some i

/-- The code of a tier in an ALARM cue entry; NORMAL has none (R190). -/
def Tier.cueCode : Tier → Option Nat
  | .normal => none
  | .warn => some 0
  | .trip => some 1

/-- The code of an edge (R189, R190). -/
def Edge.code : Edge → Nat
  | .rise => 0
  | .fall => 1

/-- The entry's kind and parameters match a trigger's (R151, R152). -/
def CueEntry.follows (c : CueEntry) : TriggerEvent → Bool
  | .clock _ v => c.kind == 0 && clockMatches c.parameters v
  | .timer _ t => c.kind == 1 && field c.parameters 0 1 == t.val
  | .input n edge _ => c.kind == 2 && field c.parameters 0 4 == n.val && field c.parameters 8 1 == edge.code
  | .alarm _ e tier => c.kind == 3 && field c.parameters 0 8 == e.val && some (field c.parameters 8 2) == tier.cueCode
  | .state _ st => c.kind == 4 && field c.parameters 0 3 == st.code

/-- The entry's screen is the trigger's, or the trigger names none (R151). -/
def CueEntry.onScreen (c : CueEntry) (event : TriggerEvent) : Bool :=
  match event.screen with
  | some i => c.screen == i
  | none => true

/-- The trigger evaluates a CLOCK entry: the kinds and the screens agree (R153). -/
def CueEntry.clockEvaluated (c : CueEntry) (event : TriggerEvent) : Bool :=
  c.kind == 0 && c.onScreen event &&
    (match event with
    | .clock _ _ => true
    | _ => false)

/-! ## Firing (R155, R160) -/

/-- The actions of a list executed in order, with the record of each. -/
def State.runActions (s : State) (i : Fin 8) (origin : Origin) (depth : Nat) (actions : List Action) :
    State × List ActionRecord :=
  actions.foldl
    (fun (acc : State × List ActionRecord) a =>
      let (s, outcome) := acc.1.runAction i origin depth a
      (s, acc.2 ++ [⟨a.kind, outcome, a.userCode⟩]))
    (s, [])

/-- An action record that makes the cue report: a failure, or a REPORT action (R160). -/
def ActionRecord.reports (r : ActionRecord) : Bool :=
  !(r.outcome == .done || r.outcome == .deferred) || r.kind == 12

/-- An entry fires on a trigger: a ONE_SHOT entry is disarmed, the actions are executed, and the CUE report is
queued where one is required (R155, R160). -/
def State.fireCue (s : State) (e : Fin 256) (c : CueEntry) (trigger : Trigger) : State :=
  let clock := (s.ct.clocks.get c.screen).value
  let s := if c.oneShot then s.modifyCue e fun r => { r with armed := false } else s
  let (s, records) := s.runActions c.screen (.cue e) (trigger.depth + 1) c.actions
  if c.reportFlag || records.any ActionRecord.reports then
    s.queueCueReport (.cue e) c.screen (some trigger) clock records
  else s

/-- The entry fires on the trigger, against the screen states recorded when it was taken (R151, R153). -/
def State.cueFires (s : State) (states : Tab 8 ScreenState) (e : Fin 256) (c : CueEntry) (trigger : Trigger) : Bool :=
  (s.ce.cues.get e).armed && c.onScreen trigger.event && c.follows trigger.event &&
    c.allows (states.get c.screen) && !(c.kind == 0 && (s.ce.cues.get e).memory)

/-- One entry tested against the trigger being handled (R151, R153). -/
def State.testCue (trigger : Trigger) (states : Tab 8 ScreenState) (s : State) (e : Fin 256) : State :=
  let c := s.cueEntry e
  let fired := if s.cueFires states e c trigger then s.fireCue e c trigger else s
  if c.clockEvaluated trigger.event then fired.modifyCue e fun r => { r with memory := c.follows trigger.event }
  else fired

/-- The oldest trigger taken and handled (R150). -/
def State.handleTrigger (s : State) : State :=
  match s.ce.triggers with
  | [] => s
  | trigger :: rest =>
    let states := s.sc.map ScreenRecord.state
    (List.finRange 256).foldl (State.testCue trigger states) { s with ce := { s.ce with triggers := rest } }

/-- The triggers of the queue handled one after another until it is empty, at most a number of them (R150). -/
def State.handleTriggers : Nat → State → State
  | 0, s => s
  | n + 1, s => if s.ce.triggers.isEmpty then s else State.handleTriggers n s.handleTrigger

end Sys2Proof.Machine
end

