-- ==== Sys2Proof/Machine/Store.lean ====
section
/-!
DEFINITION. The table store (chapters 10.1 to 10.3): the checks and effects of a write, preserve and restore.
-/

namespace Sys2Proof.Machine

/-! ## Protected items (R169) -/

/-- A profile that a screen in PRESHOW or FEATURE holds (R45). -/
def State.profileInUse (s : State) (p : Fin 16) : Bool :=
  (List.finRange 8).any fun i => s.playing i && (s.de.get i).holds p

/-- A profile in use has its steered flag set (R45). -/
def State.steeringInUse (s : State) : Bool :=
  (List.finRange 16).any fun p => s.profileSteered p && s.profileInUse p

/-- A word belongs to a protected item, for the value a message would write (R169). -/
def State.protectsWord (s : State) (a : Nat) (v : Word) : Bool :=
  let page := a / 256
  let word := a % 256
  if page = 0 then s.playing (entryScreen (s.ts.words.read a)) || s.playing (entryScreen v)
  else if page = 1 then s.playing (index 8 (word / 32))
  else if page = 2 then s.steeringInUse || (240 ≤ word && s.profileInUse (index 16 (word - 240)))
  else if page ≤ 18 then s.profileInUse (index 16 (page - 3))
  else if page ≤ 22 then (s.am.entries.get (index 256 (64 * (page - 19) + word / 4))).tier == .trip
  else if page ≤ 27 then false
  else
    let i : Fin 8 := index 8 ((page - 28) / 4)
    s.playing i && s.activeBank i == index 2 ((page - 28) % 4 / 2)

/-- Some word of a run belongs to a protected item. -/
def State.protectsRun (s : State) : Nat → List Word → Bool
  | _, [] => false
  | a, v :: rest => s.protectsWord a v || State.protectsRun s (a + 1) rest

/-! ## The delay page check (R69) -/

/-- A channel whose delay in force a run writes, with the page need the written record gives it. -/
structure WrittenDelay where
  screen : Fin 8
  channel : Fin 16
  need : Nat
deriving DecidableEq, Repr

/-- The channels of screens that are not OFFLINE whose delay in the active bank a run writes (R69). -/
def State.writtenDelays (s : State) (a : Nat) (data : List Word) : List WrittenDelay :=
  (List.finRange 8).flatMap fun i =>
    if s.screenState i = .offline then []
    else (List.finRange 16).filterMap fun c =>
      let at_ := recordAddress i (s.activeBank i) c + 30
      if a ≤ at_ ∧ at_ < a + data.length then
        some ⟨i, c, pageNeed (delayOf (data.getD (at_ - a) 0))⟩
      else none

/-- The pages a written channel holds now. -/
def State.heldNow (s : State) (w : WrittenDelay) : Nat := (s.pagesOf w.screen w.channel).length

/-- The pool holds the delays a run writes (R69). -/
def State.delaysFit (s : State) (ws : List WrittenDelay) : Bool :=
  (ws.map fun w => w.need).sum ≤ (ws.map s.heldNow).sum + s.freePages

/-- The written channels whose page need has changed give up pages, then receive pages, and their delay lines are
cleared (R69). -/
def State.reallocate (s : State) (ws : List WrittenDelay) : State :=
  let changed := ws.filter fun w => w.need != s.heldNow w
  let s := changed.foldl (fun s w => (s.returnPages w.screen w.channel w.need).modifyEq w.screen w.channel
    fun ch => { ch with line := [] }) s
  changed.foldl (fun s w => s.givePages w.screen w.channel (w.need - s.heldNow w)) s

/-! ## The effects of a write on the blocks that own the words (R170) -/

/-- A run of words from an address meets the words from another on. -/
def meets (a length b count : Nat) : Bool := a < b + count && b < a + length

/-- The alarm entries a run writes. -/
def writtenAlarms (a length : Nat) : List (Fin 256) :=
  (List.finRange 256).filter fun e => meets a length (address 19 (4 * e.val)) 4

/-- The cue entries a run writes. -/
def writtenCues (a length : Nat) : List (Fin 256) :=
  (List.finRange 256).filter fun e => meets a length (address 23 (4 * e.val)) 4

/-- The output lines a run writes. -/
def writtenOutputs (a length : Nat) : List (Fin 16) :=
  (List.finRange 16).filter fun n => meets a length (address 27 (16 + 2 * n.val)) 2

/-- The runtime records of written alarm entries reset, and the targets and demands recomputed (R115). -/
def State.resetAlarms (s : State) (es : List (Fin 256)) : State :=
  if es.isEmpty then s
  else (es.foldl (fun s e => s.modifyAlarm e fun _ => .reset) s).recomputeTargets.recomputeDemands

/-- A cue entry's runtime record as its stored enabled flag gives it (R146). -/
def State.armedAsStored (s : State) (e : Fin 256) : CueRecord := ⟨s.cueEnabled e, false⟩

/-- The runtime records of written cue entries set from their stored enabled flags (R146). -/
def State.rearmCues (s : State) (es : List (Fin 256)) : State :=
  es.foldl (fun s e => s.modifyCue e fun _ => s.armedAsStored e) s

/-- The written output lines returned to LOW (R141). -/
def State.lowerOutputs (s : State) (ns : List (Fin 16)) : State := ns.foldl (fun s n => s.setOutput n .lowered) s

/-- The effects of a write of a run on the alarm entries, cue entries and output lines (R170). -/
def State.followWrite (s : State) (a length : Nat) : State :=
  ((s.resetAlarms (writtenAlarms a length)).rearmCues (writtenCues a length)).lowerOutputs (writtenOutputs a length)

/-- The screen has a descriptor slot mapped: some inbound entry names it with role DESCRIPTOR (R35). -/
def State.descriptorMapped (s : State) (i : Fin 8) : Bool :=
  (List.range 128).any fun n => inboundRole (s.inboundEntry n) == .descriptor && entryScreen (s.inboundEntry n) == i

/-- An input line whose debounce enable a write clears while its run counts stays debounced in this link frame (R133). -/
def Debouncer.rewritten (d : Debouncer) (before after : Bool) : Debouncer :=
  { d with held := d.held || (before && !after && 0 < d.run) }

/-- The words of the store replaced, with what blocks that read them live take at the moment of the write: a screen whose
first DESCRIPTOR entry it brings accepts its default format (R42; DEDUCED, assumption 43, unsafe: an entry written beside
another leaves the accepted format), and an input line stays debounced in this link frame (R133). -/
def State.putWords (s : State) (words : Memory) : State :=
  let after : State := { s with ts := { s.ts with words } }
  let de : Tab 8 DecodeRecord := Tab.ofFn fun i =>
    if !s.descriptorMapped i && after.descriptorMapped i then { s.de.get i with accepted := after.defaultFormat i }
    else s.de.get i
  let inputs : Tab 16 Debouncer := Tab.ofFn fun n => (s.bl.inputs.get n).rewritten (s.debounced n) (after.debounced n)
  { after with de, bl := { s.bl with inputs } }

/-- The words of a run written with all their effects (R170). -/
def State.writeRun (s : State) (a : Nat) (data : List Word) : State :=
  let ws := s.writtenDelays a data
  let s := s.putWords (s.ts.words.writeRun a data)
  (s.reallocate ws).followWrite a data.length

/-- The first check of a TABLE WRITE that fails, or OK (R168). -/
def State.writeResult (s : State) (page word : Byte) (data : List Word) : ResultCode :=
  let a := address page.toNat word.toNat
  if Config.storeWords < a + data.length then .range
  else if s.keyLocked then .locked
  else if s.ts.state ≠ .idle then .busy
  else if s.protectsRun a data then .inUse
  else if !s.delaysFit (s.writtenDelays a data) then .noSpace
  else .ok

/-- A TABLE WRITE request: every word of its run is written, or none is and nothing changes (R168, R170). -/
def State.tableWrite (s : State) (page word : Byte) (data : List Word) : State × ResultCode :=
  let result := s.writeResult page word data
  if result = .ok then (s.writeRun (address page.toNat word.toNat) data, .ok) else (s, result)

/-- A TABLE READ's run lies within the store, with a count field of at most 31 (R167). -/
def readable (page word count : Byte) : Bool :=
  count.toNat ≤ 31 && address page.toNat word.toNat + count.toNat + 1 ≤ Config.storeWords

/-! ## Preserve and restore (R172, R173) -/

/-- An accepted PRESERVE (R172): the image keeps its pages until the completion (DESIGN CHOICE, assumption 19, unsafe). -/
def State.beginPreserve (s : State) (tag : Byte) : State :=
  { s with ts := { s.ts with
      image := { s.ts.image with complete := false }, imageValid := false
      state := .preserving, elapsed := 0, requestTag := tag } }

/-- The store copied into the image with its check word and completion mark (R172). -/
def Image.ofStore (words : Memory) : Image := ⟨words, ~~~ words.sum, true⟩

/-- A preserve completes, with its STORE report (R172). -/
def State.completePreserve (s : State) : State :=
  let tag := s.ts.requestTag
  let s := { s with ts := { s.ts with
    image := .ofStore s.ts.words, imageValid := true, state := .idle, elapsed := 0, requestTag := 0 } }
  s.queueReport (.store false false tag true)

/-- An accepted RESTORE (R173). -/
def State.beginRestore (s : State) (tag : Byte) : State :=
  { s with ts := { s.ts with state := .restoring, elapsed := 0, requestTag := tag } }

/-- A restore completes: a valid image replaces the store, as a write of every word, with its STORE report
(R173). -/
def State.completeRestore (s : State) : State :=
  let tag := s.ts.requestTag
  let valid := s.ts.image.valid
  let s := if valid then (s.putWords s.ts.image.pages).followWrite 0 Config.storeWords else s
  let s := { s with ts := { s.ts with imageValid := valid, state := .idle, elapsed := 0, requestTag := 0 } }
  s.queueReport (.store true (!valid) tag valid)

/-- The preserve in progress has run its 72,000 link frames (R172). -/
def State.preserveEnded (s : State) : Bool := s.ts.state == .preserving && Config.preserveLength ≤ s.ts.elapsed

/-- The restore in progress has run its 24,000 link frames (R173). -/
def State.restoreEnded (s : State) : Bool := s.ts.state == .restoring && Config.restoreLength ≤ s.ts.elapsed

end Sys2Proof.Machine
end

