-- ==== Sys2Proof/Machine/Messages.lean ====
section
/-!
DEFINITION. Messages on the lanes: the check, the control-lane receiver, the layouts of requests, replies and
reports (R175, R184 to R189).
-/

namespace Sys2Proof.Machine

/-! ## The message check (R185) -/

/-- One shift of the check register. -/
def crcShift (r : BitVec 16) : BitVec 16 := if r.msb then (r <<< 1) ^^^ 0x1021 else r <<< 1

/-- The check register after one byte. -/
def crcByte (r : BitVec 16) (b : Byte) : BitVec 16 :=
  let r := r ^^^ ((b.setWidth 16) <<< 8)
  crcShift (crcShift (crcShift (crcShift (crcShift (crcShift (crcShift (crcShift r)))))))

/-- The check of a sequence of bytes. -/
def crc (bytes : List Byte) : BitVec 16 := bytes.foldl crcByte 0xFFFF

/-- A message on the lane: SYNC, LENGTH, the body and the check (R184). -/
def framed (body : List Byte) : List Byte :=
  let checked := byte body.length :: body
  0xA5 :: checked ++ bytes2 (crc checked).toNat

/-! ## Requests as messages (R177, R186) -/

/-- The data words of a TABLE WRITE, four bytes each; bytes left over are dropped. -/
def wordsOf : List Byte → List Word
  | a :: b :: c :: d :: rest => ofBytes4 a b c d :: wordsOf rest
  | _ => []

/-- The QUERY a kind and its parameters give: a kind that names none passes with any length, and a length the kind
does not give is absent (R186). -/
def queryOf : List Byte → Option Query
  | [] => none
  | kind :: parameters =>
    match kind.toNat, parameters with
    | 0, [] => some .device
    | 1, [i] => some (.screen i)
    | 2, [i, c] => some (.channel i c)
    | 3, [e] => some (.alarm (entryOf e))
    | 4, [e] => some (.cue (entryOf e))
    | 5, [] => some .pool
    | k, _ => if k ≤ 5 then none else some .unnamed

/-- What a request asks, from its TYPE and the fields after its TAG (R178, R186). -/
def bodyOf (type : Byte) (fields : List Byte) : RequestBody :=
  match type.toNat, fields with
  | 1, page :: word :: count :: data =>
    if data.length = 4 * (count.toNat + 1) then .tableWrite page word (wordsOf data) else .badLength false
  | 2, [page, word, count] => .tableRead page word count
  | 3, [i, target] => .screenState i target
  | 4, [i, high, low] => .screenAction i (Action.ofCode (ofBytes2 high low))
  | 5, [i, high, low, ramp] => .level i (ofBytes2 high low) ramp
  | 6, [i, h, m, sec, f, run] => .clockLoad i h m sec f run
  | 7, [i, t, base, high, low, reload] => .timerSet i t base (ofBytes2 high low) reload
  | 8, [first, last] => .acknowledge first last
  | 9, [i] => .resume i
  | 10, [e, setting] => .cueArm (entryOf e) setting
  | 11, parameters =>
    match queryOf parameters with
    | some q => .query q
    | none => .badLength false
  | 12, [] => .preserve
  | 13, [] => .restore
  | 14, [] => .reset
  | t, _ => if 1 ≤ t ∧ t ≤ 14 then .badLength (t == 4) else .badKind

/-- The request a complete message's body gives (R175, R186). -/
def Request.ofBody : List Byte → Option Request
  | type :: tag :: fields => some ⟨tag, bodyOf type fields⟩
  | _ => none

/-! ## The control-lane receiver (R175) -/

/-- What the receiver does with one byte: it goes on, completes a message with a body, or rescans the bytes that
followed the SYNC. -/
inductive Received where
  | going (r : Receiver)
  | complete (body : List Byte)
  | rescan (bytes : List Byte)
deriving DecidableEq, Repr

/-- The LENGTH byte of an assembly. -/
def lengthOf (assembly : List Byte) : Nat := (assembly.getD 1 0).toNat

/-- The body of an assembly. -/
def bodyOfAssembly (assembly : List Byte) : List Byte := (assembly.drop 2).take (lengthOf assembly)

/-- The check of an assembly matches its two CHECK bytes. -/
def checkMatches (assembly : List Byte) : Bool :=
  let n := lengthOf assembly
  bytes2 (crc ((assembly.drop 1).take (n + 1))).toNat == (assembly.drop (n + 2)).take 2

/-- The receiver acts on one byte by its state. -/
def Receiver.act (r : Receiver) (b : Byte) : Received :=
  let assembly := r.assembly ++ [b]
  match r.state with
  | .hunt => if b = 0xA5 then .going ⟨.length, [b]⟩ else .going r
  | .length =>
    if 2 ≤ b.toNat ∧ b.toNat ≤ 133 then .going ⟨.body, assembly⟩ else .rescan (assembly.drop 1)
  | .body =>
    if assembly.length = lengthOf assembly + 2 then .going ⟨.check, assembly⟩ else .going ⟨.body, assembly⟩
  | .check =>
    if assembly.length = lengthOf assembly + 4 then
      if checkMatches assembly then .complete (bodyOfAssembly assembly) else .rescan (assembly.drop 1)
    else .going ⟨.check, assembly⟩

/-- The receiver acts on bytes in order, a rescan's bytes before those still to come: the receiver and the bodies
completed. Each rescan drops one SYNC, so the steps are bounded by the square of the bytes at hand. -/
def Receiver.feed : Nat → Receiver → List Byte → Receiver × List (List Byte)
  | 0, r, _ => (r, [])
  | _, r, [] => (r, [])
  | n + 1, r, b :: rest =>
    match r.act b with
    | .going r => Receiver.feed n r rest
    | .complete body =>
      let (r, bodies) := Receiver.feed n .hunting rest
      (r, body :: bodies)
    | .rescan bytes => Receiver.feed n .hunting (bytes ++ rest)

/-- The receiver takes delivered bytes. -/
def Receiver.take (r : Receiver) (bytes : List Byte) : Receiver × List (List Byte) :=
  Receiver.feed ((r.assembly.length + bytes.length + 1) * (r.assembly.length + bytes.length + 1)) r bytes

/-! ## Codes of replies and reports (R177, R187, R189) -/

def ResultCode.code : ResultCode → Byte
  | .ok => 0x00
  | .accepted => 0x01
  | .badKind => 0x10
  | .badLength => 0x11
  | .range => 0x12
  | .locked => 0x13
  | .inUse => 0x14
  | .busy => 0x15
  | .state => 0x16
  | .noSpace => 0x17
  | .tripActive => 0x18
  | .deferred => 0x19

def ActionOutcome.code : ActionOutcome → Byte
  | .done => 0
  | .deferred => 1
  | .state => 2
  | .noSpace => 3
  | .lineMode => 4
  | .notSet => 5
  | .badAction => 6
  | .cascadeCut => 7

/-- The result code of a SCREEN ACTION by its outcome (R179); BAD_ACTION and CASCADE_CUT do not arise. -/
def ActionOutcome.result : ActionOutcome → ResultCode
  | .done => .ok
  | .deferred => .deferred
  | .state => .state
  | .noSpace => .noSpace
  | .lineMode => .inUse
  | .notSet => .state
  | .badAction => .badKind
  | .cascadeCut => .ok

def Tier.code : Tier → Nat
  | .normal => 0
  | .warn => 1
  | .trip => 2

def LineState.code : LineState → Nat
  | .ok => 0
  | .opened => 1
  | .short => 2
  | .unknown => 3

def Lock.code : Lock → Nat
  | .lost => 0
  | .locked => 1

def AlarmSource.code : AlarmSource → Nat
  | .peak => 0
  | .average => 1
  | .screenMax => 2
  | .floor => 3
  | .line => 4

def FormatSource.code : FormatSource → Nat
  | .forced => 0
  | .descriptor => 1
  | .default => 2

def AlarmValue.code : AlarmValue → Nat
  | .level n => n
  | .line l => l.code

def SwapOutcome.code : SwapOutcome → Nat
  | .done => 0
  | .noSpace => 1

/-- The kind and the number of an origin (R187). -/
def Origin.bytes : Origin → List Byte
  | .request tag => [0, tag]
  | .cue e => [1, byte e.val]

/-- The kind and the number of a STATE report's cause (R4, R187). -/
def StateCause.bytes : StateCause → List Byte
  | .request tag => [0, tag]
  | .cue e => [1, byte e.val]
  | .alarm e => [2, byte e.val]
  | .link => [3, 0]

/-- The kind and the entry of a SAFE cause (R21, R187). -/
def SafeCause.bytes : SafeCause → List Byte
  | .command => [4, 0]
  | .alarm e => [2, byte e.val]
  | .link => [3, 0]

/-- A clock value, one byte a field. -/
def ClockValue.bytes (v : ClockValue) : List Byte := [byte v.hours, byte v.minutes, byte v.seconds, byte v.frames]

/-- The trigger kind and depth of a CUE report (R189). -/
def triggerHead : Option Trigger → List Byte
  | none => [0xFF, 0]
  | some t =>
    match t.event with
    | .clock _ _ => [0, byte t.depth]
    | .timer _ _ => [1, byte t.depth]
    | .input _ _ _ => [2, byte t.depth]
    | .alarm _ _ _ => [3, byte t.depth]
    | .state _ _ => [4, byte t.depth]

/-- The four bytes of trigger parameters of a CUE report (R189). -/
def triggerParameters : Option Trigger → List Byte
  | none => [0, 0, 0, 0]
  | some t =>
    match t.event with
    | .clock _ v => v.bytes
    | .timer _ t => [byte t.val, 0, 0, 0]
    | .input n edge tag => [byte n.val, byte edge.code, byte tag.val, 0]
    | .alarm _ e tier => [byte e.val, byte tier.code, 0, 0]
    | .state _ st => [byte st.code, 0, 0, 0]

/-- A report's TYPE (R183). -/
def Report.type : Report → Byte
  | .alarm .. => 0xC1
  | .cue .. => 0xC2
  | .state .. => 0xC3
  | .format .. => 0xC4
  | .apply .. => 0xC5
  | .store .. => 0xC6
  | .link .. => 0xC7

/-- A report's fields after its LOST flag (R189). -/
def Report.fields : Report → List Byte
  | .alarm e i c source fall old new value warnSeen tripSeen forced =>
    [byte e.val, byte i.val, byte c, byte source.code, byteOfFlag fall, byte old.code, byte new.code, byte value.code,
      byteOfFlag warnSeen + 2 * byteOfFlag tripSeen, byteOfFlag forced]
  | .cue origin i trigger clock overrun actions =>
    origin.bytes ++ [byte i.val] ++ triggerHead trigger ++ triggerParameters trigger ++ clock.bytes ++
      [byteOfFlag overrun, byte actions.length] ++ actions.flatMap fun a => [byte a.kind, a.outcome.code, a.code]
  | .state i old new cause => [byte i.val, byte old.code, byte new.code] ++ cause.bytes
  | .format i previous new f source => [byte i.val, byte previous.val, byte new.val, byte f.val, byte source.code]
  | .apply i origin r =>
    [byte i.val] ++ origin.bytes ++ [byte r.outcome.code, byte r.activeBank.val] ++ bytes2 r.held ++ bytes2 r.needed ++
      bytes2 r.free
  | .store restore badImage tag valid => [byteOfFlag restore, byteOfFlag badImage, tag, byteOfFlag valid]
  | .link port new other =>
    [match port with
      | .upstream => 0
      | .downstream => 1,
      byte new.code, byte other.code]

/-- A report as its message on the reply lane, with TAG 0 (R189). -/
def QueuedReport.message (q : QueuedReport) : List Byte :=
  framed ([q.report.type, 0, byteOfFlag q.lost] ++ q.report.fields)

/-- A reply as its message on the reply lane (R187). -/
def Reply.message (r : Reply) : List Byte := framed ([0x80, r.tag, r.result.code] ++ r.data)

end Sys2Proof.Machine
end

