-- ==== Sys2Proof/Machine/Link.lean ====
section
/-!
DEFINITION. The link interface (chapter 2): port lock, gathering, delivery of the lanes, and the reply-lane sender.
-/

namespace Sys2Proof.Machine

/-! ## Ports (R26, R27, R31) -/

/-- The port's runs after a frame's classification (R27). A run that is complete stands at its limit until the change
of lock it calls for is taken. -/
def Port.classify (p : Port) (intact : Bool) : Port :=
  match p.lock, intact with
  | .lost, true => { p with intactRun := min (p.intactRun + 1) Config.lockRun }
  | .lost, false => { p with intactRun := 0 }
  | .locked, true => { p with failureRun := 0 }
  | .locked, false => { p with failureRun := min (p.failureRun + 1) Config.lossRun }

/-- The port's intact run is complete: it becomes LOCKED (R27). -/
def Port.lockDue (p : Port) : Bool := p.lock == .lost && p.intactRun == Config.lockRun

/-- The port's failure run is complete: it becomes LOST (R27). -/
def Port.lossDue (p : Port) : Bool := p.lock == .locked && p.failureRun == Config.lossRun

/-- A port. -/
def State.port (s : State) : PortId → Port
  | .upstream => s.li.up
  | .downstream => s.li.down

/-- A port replaced. -/
def State.setPort (s : State) (port : PortId) (p : Port) : State :=
  match port with
  | .upstream => { s with li := { s.li with up := p } }
  | .downstream => { s with li := { s.li with down := p } }

/-- The other port. -/
def otherPort : PortId → PortId
  | .upstream => .downstream
  | .downstream => .upstream

/-- The LINK report of a port's change of lock (R31). -/
def State.linkReport (s : State) (port : PortId) : Report := .link port (s.port port).lock (s.port (otherPort port)).lock

/-! ## Gathering (R33–R35) -/

/-- The sample of a slot of a frame, absent when its valid mark is clear or the frame does not carry it (DESIGN CHOICE,
assumption 24, unsafe). -/
def slotSample (slots : List InSlot) (n : Nat) : Option Sample :=
  match slots[n]? with
  | some slot => if slot.valid then some slot.sample else none
  | none => none

/-- The result a descriptor slot's sample gives (R35). -/
def descriptorOf : Option Sample → DescriptorResult
  | none => .none
  | some x => if x.toNat / 65536 = 0x5A then .code (index 16 (x.toNat % 16)) else .none

/-- What the gathering has found of the sources and the descriptors. -/
structure Gathered where
  sources : Tab 8 (Tab 16 Sample)
  descriptors : Tab 8 DescriptorResult
deriving DecidableEq, Repr

/-- One inbound slot gathered by its entry (R33): a later slot of the same use takes the place of an earlier one. -/
def Gathered.slot (g : Gathered) (entry : Word) (x : Option Sample) : Gathered :=
  match inboundRole entry with
  | .unused => g
  | .audio => { g with sources := g.sources.modify (entryScreen entry) fun row => row.set (entryChannel entry) (x.getD 0) }
  | .descriptor => { g with descriptors := g.descriptors.set (entryScreen entry) (descriptorOf x) }

/-- The sources and descriptor results of a frame's slots, in order (R34, R35). -/
def State.gathered (s : State) (slots : List InSlot) : Gathered :=
  (List.range 128).foldl (fun g n => g.slot (s.inboundEntry n) (slotSample slots n))
    ⟨.fill 8 (.fill 16 0), .fill 8 .unmapped⟩

/-- The frame's slots gathered; a frame that is not used has none (R29). -/
def State.gather (s : State) (slots : List InSlot) : State :=
  let g := s.gathered slots
  { s with li := { s.li with sources := g.sources, descriptors := g.descriptors } }

/-! ## Delivery (R22, R29, R175, R176) -/

/-- A complete request arrives at the request queue (R176). -/
def State.joinRequest (s : State) (r : Request) : State :=
  if s.ci.requests.length < Config.requestLimit then { s with ci := { s.ci with requests := s.ci.requests ++ [r] } }
  else if s.ci.replies.length < Config.replyLimit then s.reply r.tag .busy []
  else s

/-- The requests of completed message bodies arrive in order. -/
def State.joinBodies (s : State) (bodies : List (List Byte)) : State :=
  bodies.foldl
    (fun s body =>
      match Request.ofBody body with
      | some r => s.joinRequest r
      | none => s)
    s

/-- A used upstream frame delivered: its slots gathered, its two control bytes taken (R22). -/
def State.deliver (s : State) (a : Arrival) : State :=
  let s := s.gather a.slots
  let (receiver, bodies) := s.li.receiver.take [a.first, a.second]
  State.joinBodies { s with li := { s.li with receiver } } bodies

/-- An upstream frame that is not used: zero slots, "no descriptor", the receiver to HUNT (R29). -/
def State.deliverUnused (s : State) : State :=
  let s := s.gather []
  { s with li := { s.li with receiver := .hunting } }

/-! ## The frames of a link frame classified (R26, R29, R30) -/

/-- The upstream frame of this link frame, absent when damaged or missing: an intact frame is delivered on a LOCKED
port, waits for the port's locking when it completes the intact run, and is not used otherwise. -/
def State.receiveUpstream (s : State) (a : Option Arrival) : State :=
  let s := { s with li := { s.li with up := s.li.up.classify a.isSome, upSeen := true } }
  match a with
  | none => s.deliverUnused
  | some a =>
    if s.li.up.lock = .locked then s.deliver a
    else if s.li.up.lockDue then { s with li := { s.li with arrival := some a } }
    else s.deliverUnused

/-- The downstream return frame of this link frame, absent when damaged or missing. -/
def State.receiveRack (s : State) (w : Option (BitVec 16)) : State :=
  let s := { s with li := { s.li with down := s.li.down.classify w.isSome, downSeen := true } }
  match w with
  | none => s.takeRackWord .none
  | some w =>
    if s.li.down.lock = .locked then s.takeRackWord (.ofBits w)
    else if s.li.down.lockDue then { s with li := { s.li with rackWord := some w } }
    else s.takeRackWord .none

/-! ## Changes of lock (R27, R29–R31) -/

/-- A port becomes LOCKED with its LINK report, and the frame that completed its run is used. -/
def State.lockPort (s : State) (port : PortId) : State :=
  let s := s.setPort port ⟨.locked, 0, 0⟩
  let s := s.queueReport (s.linkReport port)
  match port with
  | .upstream =>
    match s.li.arrival with
    | some a => State.deliver { s with li := { s.li with arrival := none } } a
    | none => s
  | .downstream =>
    match s.li.rackWord with
    | some w => State.takeRackWord { s with li := { s.li with rackWord := none } } (.ofBits w)
    | none => s

/-- A port becomes LOST with its LINK report; the loss of the upstream port takes every playing screen into SAFE
(R11, R29). -/
def State.losePort (s : State) (port : PortId) : State :=
  let s := s.setPort port ⟨.lost, 0, 0⟩
  match port with
  | .upstream =>
    let (s, states) := s.safeAll
    let (s, rs) := s.mergeReports [[s.linkReport .upstream], states]
    s.queueReports rs
  | .downstream => s.queueReport (s.linkReport .downstream)

/-- The change of lock that a port's runs call for, if any, taken. -/
def State.settlePort (s : State) (port : PortId) : State :=
  if (s.port port).lockDue then s.lockPort port
  else if (s.port port).lossDue then s.losePort port
  else s

/-! ## The reply-lane sender (R23, R182) -/

/-- The sender is ready for a message: it holds none and the upstream port is LOCKED. -/
def State.senderReady (s : State) : Bool := s.li.sender.message.isEmpty && s.li.up.lock == .locked

/-- A ready sender takes the oldest reply, or otherwise the oldest report. -/
def State.senderTake (s : State) : State :=
  if s.senderReady then
    match s.ci.replies, s.ci.reports with
    | r :: rest, _ => { s with ci := { s.ci with replies := rest }, li := { s.li with sender := ⟨r.message, 0⟩ } }
    | [], q :: rest => { s with ci := { s.ci with reports := rest }, li := { s.li with sender := ⟨q.message, 0⟩ } }
    | [], [] => s
  else s

/-- The byte the sender has next, 00h when it holds no message. -/
def Sender.byte (d : Sender) : Byte := d.message.getD d.index 0

/-- The sender after a byte position: the message it has finished is put away. -/
def Sender.next (d : Sender) : Sender :=
  if d.index + 1 < d.message.length then { d with index := d.index + 1 } else .empty

/-- One byte position of the reply lane: the byte sent and the state after it. -/
def State.sendByte (s : State) : Byte × State :=
  let s := s.senderTake
  (s.li.sender.byte, { s with li := { s.li with sender := s.li.sender.next } })

/-- The two byte positions of a link frame (R23). -/
def State.sendBytes (s : State) : State :=
  let (first, s) := s.sendByte
  let (second, s) := s.sendByte
  { s with li := { s.li with outLane := ⟨first, second⟩ } }

end Sys2Proof.Machine
end

