-- ==== Sys2Proof/Machine/Reset.lean ====
section
/-!
DEFINITION. Power-up and the RESET request: what each block takes, and the screens enabled by their settings
(R20, R32, R171, R181).
-/

namespace Sys2Proof.Machine

/-- What a reset keeps of the link interface: the frames last sent (DESIGN CHOICE, assumption 28, unsafe), and which of
this link frame's events have been taken. -/
def LinkInterface.restarted (li : LinkInterface) : LinkInterface :=
  { LinkInterface.reset with
    outSlots := li.outSlots, downLane := li.downLane, outLane := li.outLane, upSeen := li.upSeen, downSeen := li.downSeen, worked := li.worked }

/-- Every block but the booth line unit takes its values after a reset, from the table store as it stands: the store's
words, its image, the image-valid flag and the start origin are kept (R181). -/
def State.blocksReset (s : State) : State :=
  { s with
    li := s.li.restarted
    ci := .reset
    ts := { s.ts with state := .idle, elapsed := 0, requestTag := 0 }
    sc := .ofFn fun i => .reset (s.levelPreset i 0)
    de := .ofFn fun i => .reset (s.defaultFormat i)
    eq := .reset
    os := .reset
    am := .reset
    ct := .reset
    ce := ⟨[], .ofFn s.armedAsStored, false⟩ }

/-- A screen enabled by its settings, with no report and no trigger, when its pages are free (R20). -/
def State.autoEnableScreen (s : State) (i : Fin 8) : State :=
  if s.autoEnable i && s.enableFits i then (s.modifyScreen i fun r => { r with state := .idle }).enable i else s

/-- The screens taken in order and enabled by their settings (R20). -/
def State.autoEnableAll (s : State) : State := (List.finRange 8).foldl State.autoEnableScreen s

/-- The blocks reset, the descriptor results taken as no frame is used (R32; DESIGN CHOICE, assumption 29, unsafe), and
the screens enabled. -/
def State.restart (s : State) : State := (s.blocksReset.gather []).autoEnableAll

/-- The booth line unit after a RESET request: the levels sampled in this link frame are taken without an edge, or will
be when they are sampled (R135, R136, R142). -/
def BoothLines.restarted (bl : BoothLines) : BoothLines where
  inputs := bl.inputs.map fun d => .settled d.raw
  outputs := .fill 16 .lowered
  key := .settled bl.key.raw
  sampling := if bl.sampling = .taken then .taken else .asReset

/-- The processor reset in the execution of a RESET request (R181). -/
def State.resetAll (s : State) : State := State.restart { s with bl := s.bl.restarted }

/-- Some screen is in PRESHOW or FEATURE. -/
def State.anyPlaying (s : State) : Bool := (List.finRange 8).any s.playing

/-- Every screen is OFFLINE. -/
def State.allOffline (s : State) : Bool := (List.finRange 8).all fun i => s.screenState i == .offline

/-- The table store at power-up: the pages of a valid image, or all-zero pages (R171). -/
def TableStore.loaded (ts : TableStore) : TableStore :=
  if ts.image.valid then
    { ts with words := ts.image.pages, imageValid := true, startOrigin := .restored }
  else { ts with words := [], imageValid := false, startOrigin := .defaults }

/-- The booth line unit at power-up, the booth lines and the key at these levels (R135, R136, R142). -/
def BoothLines.powered (lines : BitVec 16) (keyLocked : Bool) : BoothLines where
  inputs := .ofFn fun n => .settled (lines.getLsb n)
  outputs := .fill 16 .lowered
  key := .settled keyLocked
  sampling := .taken

/-- Power comes on: the store is loaded, then every block takes its values (R171). -/
def State.powerOn (s : State) (lines : BitVec 16) (keyLocked : Bool) : State :=
  State.restart { s with li := .reset, ts := s.ts.loaded, bl := .powered lines keyLocked }

end Sys2Proof.Machine
end

