-- ==== Sys2Proof/Machine/Queries.lean ====
section
/-!
DEFINITION. The data bytes of the QUERY replies (R21, R59, R70, R80, R93, R116, R131, R142, R163, R180, R187, R188).

A part that is absent carries FFh, or FFFFh where it is two bytes wide.
-/

namespace Sys2Proof.Machine

/-- A one-byte part that may be absent. -/
def optionByte : Option Nat → List Byte
  | some n => [byte n]
  | none => [0xFF]

/-- A two-byte part that may be absent. -/
def optionBytes2 : Option Nat → List Byte
  | some n => bytes2 n
  | none => [0xFF, 0xFF]

/-! ## DEVICE -/

def StoreState.code : StoreState → Nat
  | .idle => 0
  | .preserving => 1
  | .restoring => 2

def StartOrigin.code : StartOrigin → Nat
  | .defaults => 0
  | .restored => 1

def Drive.code : Drive → Nat
  | .low => 0
  | .high => 1
  | .pulseHigh => 2
  | .pulseLow => 3

/-- The remaining pulses, CONTINUOUS as absent. -/
def Remaining.count : Remaining → Option Nat
  | .pulses n => some n
  | .continuous => none

/-- An input line's three bytes (R142). -/
def Debouncer.bytes (d : Debouncer) : List Byte := [byteOfFlag d.raw, byteOfFlag d.stable, byte d.run]

/-- An output line's five bytes (R142). -/
def State.outputBytes (s : State) (n : Fin 16) : List Byte :=
  let o := s.bl.outputs.get n
  [byteOfFlag (s.annunciatorMode n), byteOfFlag (s.outputLevel n), byte o.drive.code] ++ optionBytes2 o.remaining.count

/-- The data of QUERY DEVICE: part code 816, revision 3, and the device state (R180). -/
def State.deviceData (s : State) : List Byte :=
  bytes2 816 ++ [3, byte s.ts.state.code] ++ bytes3 s.ts.elapsed ++
    [byteOfFlag s.ts.imageValid, byte s.ts.startOrigin.code, byteOfFlag s.keyLocked, byte s.li.up.lock.code,
      byte s.li.down.lock.code, byte s.ci.requests.length, byte s.ci.replies.length, byte s.ci.reports.length,
      byteOfFlag s.ci.reportLost] ++
    ((List.finRange 16).flatMap fun n => (s.bl.inputs.get n).bytes) ++
    (List.finRange 16).flatMap s.outputBytes

/-! ## SCREEN -/

/-- The five bytes of the resume state, the SAFE cause and the pending apply with the active bank between (R21). -/
def ScreenRecord.bytes (r : ScreenRecord) : List Byte :=
  [byte r.state.code] ++ optionByte (r.resume.map ScreenState.code) ++
    (match r.cause with
      | some c => c.bytes
      | none => [0xFF, 0xFF]) ++
    [byte r.activeBank.val] ++
    (match r.pendingApply with
      | some o => o.bytes
      | none => [0xFF, 0xFF]) ++
    bytes2 r.fader.value ++ bytes2 r.fader.target ++ bytes2 r.mute.value ++ bytes2 r.safeRamp.value ++
    bytes2 r.dip.value ++ bytes2 r.dip.position

/-- The decode record's bytes, with the format in use at this moment and the driven mask (R59). -/
def State.decodeBytes (s : State) (i : Fin 8) : List Byte :=
  let d := s.de.get i
  let used := s.chosenFormat i
  [byte d.accepted.val] ++ optionByte (d.candidate.map fun c => c.code.val) ++
    optionBytes2 (d.candidate.map fun c => c.run) ++ optionByte (d.forced.map Fin.val) ++
    [byte used.1.val, byte used.2.code] ++ optionByte (d.current.map Fin.val) ++
    optionByte (d.incoming.map fun inc => inc.profile.val) ++ optionBytes2 (d.incoming.map fun inc => inc.position) ++
    optionByte (d.pending.map Fin.val) ++ bytes2 (s.drivenMask i) ++ bytes3 d.envL ++ bytes3 d.envR ++
    bytes3 d.envS ++ bytes3 d.envD ++ [byte d.steering]

/-- The dip's three bytes: the swap outcome is absent outside RISE, the waiting origins outside FALL
(R80; DEDUCED, assumption 16, unsafe). A number of waiting origins above 255 is sent modulo 256 (DESIGN CHOICE, assumption
41, unsafe: R80 and R187 give the number one byte and no limit). -/
def dipBytes : Option Dip → List Byte
  | none => [0, 0xFF, 0xFF]
  | some d =>
    match d.phase with
    | .fall => [1, 0xFF, byte d.waiting.length]
    | .rise => [2] ++ optionByte (d.swap.map fun r => r.outcome.code) ++ [0xFF]

/-- The delay memory and apply state's bytes (R80). -/
def State.delayBytes (s : State) (i : Fin 8) : List Byte :=
  bytes2 (s.pagesHeld i) ++ bytes2 (s.bankNeed i (s.activeBank i)) ++ bytes2 (s.bankNeed i (s.standbyBank i)) ++
    dipBytes (s.eq.dips.get i)

/-- The show clock's bytes (R131). -/
def Clock.bytes (c : Clock) : List Byte :=
  c.value.bytes ++ bytes2 c.subFrame ++ [byteOfFlag c.running, byte c.rate.perSecond] ++ bytes2 c.rate.frameLength

def TickBase.code : TickBase → Nat
  | .millisecond => 0
  | .pictureFrame => 1
  | .second => 2

/-- A timer's bytes (R131). -/
def Timer.bytes (t : Timer) : List Byte :=
  [byte t.base.code] ++ bytes2 t.count ++ [byteOfFlag t.reload, byteOfFlag t.running] ++ bytes2 t.remaining ++
    bytes2 t.phase

/-- The data of QUERY SCREEN (R21, R59, R80, R131). -/
def State.screenData (s : State) (i : Fin 8) : List Byte :=
  (s.sc.get i).bytes ++ s.decodeBytes i ++ s.delayBytes i ++ (s.ct.clocks.get i).bytes ++
    ((s.ct.timers.get i).get 0).bytes ++ ((s.ct.timers.get i).get 1).bytes

/-! ## CHANNEL -/

/-- A listed outbound slot's four bytes (R116, R188). -/
def State.slotBytes (s : State) (n : Fin 128) : List Byte :=
  [byte n.val, byte (s.am.slots.get n).state.code] ++ bytes2 (s.am.slots.get n).age

/-- The equaliser's part of QUERY CHANNEL (R70): for a channel of an OFFLINE screen the section count and the delay are those
its active bank stores, beside the empty page list (DESIGN CHOICE, assumption 46, unsafe). -/
def State.channelEqBytes (s : State) (i : Fin 8) (c : Fin 16) : List Byte :=
  let b := s.activeBank i
  [byte (s.sectionCount i b c)] ++ bytes2 (s.delay i b c) ++ [byte (s.pagesOf i c).length] ++
    (s.pagesOf i c).flatMap fun p => bytes2 p.val

/-- The output stage's part of QUERY CHANNEL, with the protect target the alarm monitor holds (R93). -/
def State.channelOutBytes (s : State) (i : Fin 8) (c : Fin 16) : List Byte :=
  let ch := (s.os.channels.get i).get c
  [byte ch.lastPeak, byte ch.lastAverage] ++ bytes3 ch.peak ++ bytes3 ch.average ++ bytes2 ch.protect.value ++
    bytes2 ch.protect.target ++ [byteOfFlag ch.protect.atRest] ++ bytes2 ((s.am.targets.get i).get c) ++
    bytes2 (s.os.gains.get i)

/-- The data of QUERY CHANNEL: at most the first 48 slots naming the channel are listed (R188). -/
def State.channelData (s : State) (i : Fin 8) (c : Fin 16) : List Byte :=
  s.channelEqBytes i c ++ s.channelOutBytes i c ++ [byte ((s.am.lines.get i).get c).code, byte (s.slotsOf i c).length] ++
    ((s.slotsOf i c).take 48).flatMap s.slotBytes

/-! ## ALARM, CUE and POOL -/

def Evaluation.code : Evaluation → Nat
  | .evaluated => 0
  | .skipped => 1
  | .held => 2

/-- The data of QUERY ALARM (R116). DESIGN CHOICE (assumption 48): the last value sent is the record's, for a LINE entry too,
also where the last scan held or skipped the entry or its record was reset since. -/
def AlarmRecord.bytes (r : AlarmRecord) : List Byte :=
  [byte r.tier.code, byteOfFlag r.warnSeen + 2 * byteOfFlag r.tripSeen, byte r.warnCount, byte r.tripCount,
    byte r.lastValue.code, byte r.lastEvaluation.code]

/-- The screens with a CLOCK trigger held, bit i for screen i (R163). -/
def clockMask (q : List Trigger) : Nat :=
  ((List.finRange 8).map fun i => if holdsClock q i then 2 ^ i.val else 0).sum

/-- The data of QUERY CUE (R163). -/
def State.cueData (s : State) (e : Fin 256) : List Byte :=
  let r := s.ce.cues.get e
  [byteOfFlag r.armed, byteOfFlag r.memory, byteOfFlag (s.cueEnabled e), byte (nonClockCount s.ce.triggers),
    byte (clockMask s.ce.triggers), byteOfFlag s.ce.overrun]

/-- The data of QUERY POOL (R70). -/
def State.poolData (s : State) : List Byte :=
  bytes2 Config.poolSize ++ bytes2 s.freePages ++ (List.finRange 8).flatMap fun i => bytes2 (s.pagesHeld i)

/-- A channel number of a query, absent above 15. -/
def channelOf (b : Byte) : Option (Fin 16) := if h : b.toNat < 16 then some ⟨b.toNat, h⟩ else none

/-- The data of a query, absent where it is refused with RANGE (R180). -/
def State.queryData (s : State) : Query → Option (List Byte)
  | .device => some s.deviceData
  | .screen b => (screenOf b).map s.screenData
  | .channel b c =>
    match screenOf b, channelOf c with
    | some i, some c => some (s.channelData i c)
    | _, _ => none
  | .alarm e => some (s.am.entries.get e).bytes
  | .cue e => some (s.cueData e)
  | .pool => some s.poolData
  | .unnamed => none

end Sys2Proof.Machine
end

