-- ==== Sys2Proof/Machine/Requests.lean ====
section
/-!
DEFINITION. The control interpreter (chapter 10.5): the execution of each request, and the taking of requests from the
queue.

Each request's operation gives the state after it and its result; the reply is queued when the operation is done.
-/

namespace Sys2Proof.Machine

/-- A SCREEN STATE's answer by the outcome of the change (R3, R5). -/
def State.requestState (s : State) (tag screen target : Byte) : State × ResultCode :=
  match screenOf screen with
  | none => (s, .range)
  | some i =>
    let (s, outcome) := s.askState i (ScreenState.ofCode target.toNat) (.request tag) 0
    (s, outcome.result)

/-- A SCREEN ACTION: its result and its two bytes of data (R179, R187; DEDUCED, assumption 17, unsafe). -/
def State.requestAction (s : State) (tag screen : Byte) (action : Action) : State × ResultCode × List Byte :=
  match screenOf screen, action with
  | none, _ => (s, .range, [0xFF, 0xFF])
  | some _, .unnamed _ => (s, .badKind, [0xFF, 0xFF])
  | some i, action =>
    let (s, outcome) := s.runAction i (.request tag) 0 action
    (s, outcome.result, [byte action.kind, outcome.code])

/-- A LEVEL request (R16). -/
def State.requestLevel (s : State) (screen : Byte) (value : BitVec 16) (ramp : Byte) : State × ResultCode :=
  match screenOf screen with
  | none => (s, .range)
  | some i =>
    if 3 < ramp.toNat then (s, .range)
    else (s.fade i (min value.toNat Config.unity) (rampLength ramp.toNat), .ok)

/-- A CLOCK LOAD request (R122). -/
def State.requestClockLoad (s : State) (screen : Byte) (value : ClockValue) (run : Bool) : State × ResultCode :=
  match screenOf screen with
  | none => (s, .range)
  | some i =>
    let rate := s.pictureRate i
    if loadable value rate then
      ((s.modifyClock i fun _ => Clock.load value run rate).makeTrigger (.clock i value) 0, .ok)
    else (s, .range)

/-- A timer number of a request, absent above 1. -/
def timerOf (b : Byte) : Option (Fin 2) := if h : b.toNat < 2 then some ⟨b.toNat, h⟩ else none

/-- A TIMER SET request (R126). -/
def State.requestTimerSet (s : State) (screen timer base : Byte) (count : Nat) (reload : Bool) : State × ResultCode :=
  match screenOf screen, timerOf timer, TickBase.ofCode base.toNat with
  | some i, some t, some b =>
    if ((s.ct.timers.get i).get t).running then (s, .busy)
    else (s.modifyTimer i t fun _ => Timer.configured b count reload, .ok)
  | _, _, _ => (s, .range)

/-- Every entry's record from a first to a last acknowledged (R114). -/
def State.acknowledgeRange (s : State) (first last : Nat) : State :=
  let entries : Tab 256 AlarmRecord := Tab.ofFn fun e =>
    if first ≤ e.val ∧ e.val ≤ last then (s.am.entries.get e).acknowledged else s.am.entries.get e
  State.recomputeDemands { s with am := { s.am with entries } }

/-- An ACKNOWLEDGE request (R114). -/
def State.requestAcknowledge (s : State) (first last : Byte) : State × ResultCode :=
  if last.toNat < first.toNat then (s, .range) else (s.acknowledgeRange first.toNat last.toNat, .ok)

/-- A RESUME request (R12). -/
def State.requestResume (s : State) (tag screen : Byte) : State × ResultCode :=
  match screenOf screen with
  | none => (s, .range)
  | some i => s.resumeScreen i tag

/-- A CUE ARM request (R147). -/
def State.requestCueArm (s : State) (e : Fin 256) (setting : Byte) : State × ResultCode :=
  match setting.toNat with
  | 0 => (s.modifyCue e fun r => { r with armed := false }, .ok)
  | 1 => (s.modifyCue e fun r => { r with armed := true }, .ok)
  | _ => (s, .range)

/-- A PRESERVE request (R172). -/
def State.requestPreserve (s : State) (tag : Byte) : State × ResultCode :=
  if s.keyLocked then (s, .locked)
  else if s.ts.state ≠ .idle then (s, .busy)
  else (s.beginPreserve tag, .accepted)

/-- A RESTORE request (R173). -/
def State.requestRestore (s : State) (tag : Byte) : State × ResultCode :=
  if s.ts.state ≠ .idle then (s, .busy)
  else if !s.allOffline then (s, .state)
  else (s.beginRestore tag, .accepted)

/-- A RESET request (R181). -/
def State.requestReset (s : State) : State × ResultCode := if s.anyPlaying then (s, .state) else (s.resetAll, .ok)

/-- A TABLE READ's words, absent where it is refused with RANGE (R167). -/
def State.tableRead (s : State) (page word count : Byte) : Option (List Byte) :=
  if readable page word count then
    some ((s.ts.words.readRun (address page.toNat word.toNat) (count.toNat + 1)).flatMap bytesOfWord)
  else none

/-! ## The reply of each request (R177) -/

/-- A reply without data queued for an operation that is done. -/
def State.answer (r : State × ResultCode) (tag : Byte) : State := r.1.reply tag r.2 []

/-- A reply with data, or RANGE where there is none. -/
def State.answerData (s : State) (tag : Byte) (data : Option (List Byte)) : State :=
  match data with
  | some bytes => s.reply tag .ok bytes
  | none => s.reply tag .range []

/-- A SCREEN ACTION's reply, which carries data in every case. -/
def State.answerAction (r : State × ResultCode × List Byte) (tag : Byte) : State := r.1.reply tag r.2.1 r.2.2

/-- A request executed whole and its one reply queued (R177, R178). -/
def State.execute (s : State) (tag : Byte) : RequestBody → State
  | .tableWrite page word data => State.answer (s.tableWrite page word data) tag
  | .tableRead page word count => s.answerData tag (s.tableRead page word count)
  | .screenState screen target => State.answer (s.requestState tag screen target) tag
  | .screenAction screen action => State.answerAction (s.requestAction tag screen action) tag
  | .level screen value ramp => State.answer (s.requestLevel screen value ramp) tag
  | .clockLoad screen h m sec f run =>
    State.answer (s.requestClockLoad screen ⟨h.toNat, m.toNat, sec.toNat, f.toNat⟩ (run != 0)) tag
  | .timerSet screen timer base count reload =>
    State.answer (s.requestTimerSet screen timer base count.toNat (reload != 0)) tag
  | .acknowledge first last => State.answer (s.requestAcknowledge first last) tag
  | .resume screen => State.answer (s.requestResume tag screen) tag
  | .cueArm e setting => State.answer (s.requestCueArm e setting) tag
  | .query q => s.answerData tag (s.queryData q)
  | .preserve => State.answer (s.requestPreserve tag) tag
  | .restore => State.answer (s.requestRestore tag) tag
  | .reset => State.answer s.requestReset tag
  | .badKind => s.reply tag .badKind []
  | .badLength isAction => s.reply tag .badLength (if isAction then [0xFF, 0xFF] else [])

/-! ## The taking of requests (R177) -/

/-- The interpreter takes the oldest request: some held and at most 6 replies. -/
def State.takes (s : State) : Bool := !s.ci.requests.isEmpty && s.ci.replies.length ≤ Config.replyTakeLimit

/-- The oldest request removed and executed. -/
def State.takeRequest (s : State) : State :=
  match s.ci.requests with
  | [] => s
  | r :: rest => State.execute { s with ci := { s.ci with requests := rest } } r.tag r.body

/-- Requests taken while the conditions hold, at most a number of them. -/
def State.takeRequests : Nat → State → State
  | 0, s => s
  | n + 1, s => if s.takes then State.takeRequests n s.takeRequest else s

/-- The interpreter takes requests as long as it may: no execution adds one, so at most as many as are held. -/
def State.interpret (s : State) : State := State.takeRequests s.ci.requests.length s

/-- A request message that has arrived on the control lane and is complete: it joins the queue, and the interpreter
takes what it may (R176, R177; DESIGN CHOICE, assumption 10, unsafe). -/
def State.request (s : State) (tag : Byte) (body : RequestBody) : State := (s.joinRequest ⟨tag, body⟩).interpret

end Sys2Proof.Machine
end

