-- ==== Sys2Proof/Machine/Frame.lean ====
section
/-!
DEFINITION. The link frame: its events, its work, and how one ends and the next begins (R28; assumption 1).

DESIGN CHOICE, unsafe (assumptions 1, 8, 13 and 23). A link frame begins with time advanced by one; its frames arrive;
its work is done once, by LINK_FRAME; events and requests are taken before or after the work. When the next frame
begins, whatever of this one is still to be taken is taken first, in the order of `finishFrame`.
-/

namespace Sys2Proof.Machine

/-! ## The work of a link frame (R28, R36–R55, R62, R81) -/

/-- A crossfade has started: the screen's FLOOR entries that have lost their channel fall, and the protect targets are
recomputed (R53, R104). The reports join in ascending entry number (DESIGN CHOICE, assumption 45, unsafe). -/
def State.fadeStarted (s : State) (i : Fin 8) : State :=
  let (s, falls) := s.forceFloors i
  s.recomputeTargets.queueReports falls

/-- The format selection of a link frame: the accepted format follows the descriptor result, and the format in use is
decided (R41, R42, R44). The descriptor result is the one gathered when the frame was delivered and the default format the
store's as the work runs: a default written between a screen's first DESCRIPTOR entry and the same frame's work, the frame
gathered as unmapped, is taken (DESIGN CHOICE, assumption 44, unsafe). -/
def State.selectFormat (s : State) (i : Fin 8) : State :=
  let result := s.li.descriptors.get i
  let default := s.defaultFormat i
  let s := s.modifyDecode i fun d => d.observe result default
  let used := s.chosenFormat i
  s.modifyDecode i fun d => { d with usedFormat := used.1, usedSource := used.2 }

/-- The crossfade and the steering of a screen that is not OFFLINE (R49, R50, R53, R55). -/
def State.runDecode (s : State) (i : Fin 8) : State :=
  let (d, started) := (s.de.get i).crossfade (s.profileToUse i)
  let s := s.modifyDecode i fun _ => d
  let s := if started then s.fadeStarted i else s
  if s.usesSteering d then
    let lt := s.source i 0
    let rt := s.source i 1
    let shift := s.envelopeShift i
    s.modifyDecode i fun d => d.steer lt rt shift
  else s

/-- The decode engine's work for a screen, before its mix (R39). -/
def State.decodeFrame (s : State) (i : Fin 8) : State :=
  let s := s.selectFormat i
  if s.screenState i = .offline then s else s.runDecode i

/-- What a channel's equaliser gives in a link frame, absent for a screen that is OFFLINE (R62, R68). -/
def State.equalised (s : State) (i : Fin 8) (c : Fin 16) : Option (Sample × EqChannel) :=
  if s.screenState i = .offline then none else some (s.equalise i c (s.decodeOutput i c))

/-- A channel's output sample, if it has a result in flight, and its output stage channel after the link frame (R81). -/
def State.outputOf (s : State) (i : Fin 8) (c : Fin 16) (result : Option (Sample × EqChannel)) :
    Option Sample × OutChannel :=
  let ch := (s.os.channels.get i).get c
  match result with
  | none => (none, ch)
  | some r => ch.work (s.sc.get i).effectiveGain (s.averageShift i) r.1

/-- What outbound slot n carries (R36). -/
def State.scatter (s : State) (outputs : Tab 8 (Tab 16 (Option Sample))) (n : Fin 128) : OutSlot :=
  let entry := s.outboundEntry n
  if isSpeaker entry then
    match (outputs.get (entryScreen entry)).get (entryChannel entry) with
    | some o => ⟨o, true⟩
    | none => .silent
  else .silent

/-- The channels of every screen worked on and the downstream frame sent: its outbound slots filled, its two lane bytes 00h
(R24, R36, R81); the effective gain is kept where a
result is in flight (R93; DEDUCED, assumption 31, unsafe). -/
def State.runChannels (s : State) : State :=
  let results : Tab 8 (Tab 16 (Option (Sample × EqChannel))) := Tab.ofFn fun i => Tab.ofFn fun c => s.equalised i c
  let worked : Tab 8 (Tab 16 (Option Sample × OutChannel)) := Tab.ofFn fun i => Tab.ofFn fun c =>
    s.outputOf i c ((results.get i).get c)
  let eqChannels : Tab 8 (Tab 16 EqChannel) := Tab.ofFn fun i => Tab.ofFn fun c =>
    match (results.get i).get c with
    | some r => r.2
    | none => (s.eq.channels.get i).get c
  let outputs : Tab 8 (Tab 16 (Option Sample)) := worked.map fun row => row.map fun r => r.1
  let osChannels : Tab 8 (Tab 16 OutChannel) := worked.map fun row => row.map fun r => r.2
  let gains : Tab 8 Nat := Tab.ofFn fun i =>
    if (List.finRange 16).any fun c => ((outputs.get i).get c).isSome then (s.sc.get i).effectiveGain
    else s.os.gains.get i
  let outSlots : Tab 128 OutSlot := Tab.ofFn (s.scatter outputs)
  { s with
    li := { s.li with outSlots, downLane := ⟨0, 0⟩ }
    eq := { s.eq with channels := eqChannels }
    os := { s.os with channels := osChannels, gains } }

/-- The upstream frame of this link frame taken as missing if none has arrived, and the change of lock it completes. -/
def State.awaitUpstream (s : State) : State :=
  let s := if s.li.upSeen then s else s.receiveUpstream none
  s.settlePort .upstream

/-- The work of a link frame, sampling the booth lines and the key at their levels. The requests of its upstream frame
are taken before it, and those that a place of the reply part freed by the sender lets in after it (R177). The screens are
decoded 0 to 7, and where crossfades of several start in this link frame the ALARM reports of their forced falls join in that
order, in entry order within a screen: R53 and R104 give none (DESIGN CHOICE, assumptions 45 and 47, unsafe). -/
def State.work (s : State) (lines : BitVec 16) (keyLocked : Bool) : State :=
  let s := s.awaitUpstream.interpret
  let s := s.sampleLines lines keyLocked
  let s := (List.finRange 8).foldl State.decodeFrame s
  let s := s.takeTargets.runChannels.sendBytes
  State.interpret { s with li := { s.li with worked := true } }

/-! ## The events of a link frame, each taken if it is due -/

/-- CROSSFADE_END: the crossfade has reached k = 512 (R56). -/
def State.takeCrossfadeEnd (s : State) (i : Fin 8) : State :=
  if (s.de.get i).fadeEnded then s.endCrossfade i else s

/-- SWAP_MOMENT: D has reached 0 and this link frame's output is computed (R74). -/
def State.takeSwapMoment (s : State) (i : Fin 8) : State :=
  if s.swapReached i && s.li.worked then s.swapMoment i else s

/-- DIP_END: D has reached 32768 in the rise (R75). -/
def State.takeDipEnd (s : State) (i : Fin 8) : State := if s.riseEnded i then s.setDip i none else s

/-- METER_WINDOW_END (R89, R90). -/
def State.takeWindowEnd (s : State) : State := if s.windowEnded then s.endWindow else s

/-- PICTURE_FRAME_ADVANCE (R120). -/
def State.takeAdvance (s : State) (i : Fin 8) : State :=
  if (s.ct.clocks.get i).advanceDue then s.settleClock i else s

/-- TIMER_TICK, its expiry included (R127, R129). -/
def State.takeTick (s : State) (i : Fin 8) (t : Fin 2) : State :=
  if ((s.ct.timers.get i).get t).due (s.tickLengthOf i t) then s.settleTimer i t else s

/-- TIMER_EXPIRY: a tick that brings the remaining count to 0 (R129). -/
def State.takeExpiry (s : State) (i : Fin 8) (t : Fin 2) : State :=
  let timer := (s.ct.timers.get i).get t
  if timer.due (s.tickLengthOf i t) && timer.expires (s.tickLengthOf i t) then s.settleTimer i t else s

/-- PULSE_PERIOD_END (R139). -/
def State.takePeriodEnd (s : State) (n : Fin 16) : State :=
  if (s.bl.outputs.get n).periodDue then s.settlePulse n else s

/-- INPUT_EDGE (R133). -/
def State.takeInputEdge (s : State) (n : Fin 16) : State :=
  if (s.bl.inputs.get n).edgeDue then s.settleInput n else s

/-- BOOTH_KEY_CHANGE (R136). -/
def State.takeKeyChange (s : State) : State := if s.bl.key.edgeDue then s.settleKey else s

/-- PRESERVE_COMPLETE (R172). -/
def State.takePreserveEnd (s : State) : State := if s.preserveEnded then s.completePreserve else s

/-- RESTORE_COMPLETE (R173). -/
def State.takeRestoreEnd (s : State) : State := if s.restoreEnded then s.completeRestore else s

/-- A descriptor code is seen in this link frame for the 480th time in a row (R41). -/
def State.acceptDue (s : State) (i : Fin 8) : Bool :=
  s.li.upSeen && !s.li.worked &&
    (match s.li.descriptors.get i, (s.de.get i).candidate with
    | .code f, some c => f != (s.de.get i).accepted && c.code == f && c.run + 1 == Config.acceptRun
    | _, _ => false)

/-- DESCRIPTOR_ACCEPT: the code becomes the accepted format, which this link frame's work uses (R41; DEDUCED,
assumption 30, unsafe: the work starts the crossfade). -/
def State.takeAcceptance (s : State) (i : Fin 8) : State :=
  if s.acceptDue i then
    let result := s.li.descriptors.get i
    let default := s.defaultFormat i
    s.modifyDecode i fun d => d.observe result default
  else s

/-! ## The end of a link frame and the beginning of the next -/

/-- The booth levels as last sampled (DESIGN CHOICE, assumption 22, unsafe). -/
def State.heldLines (s : State) : BitVec 16 :=
  BitVec.ofNat 16 ((List.finRange 16).map fun n => if (s.bl.inputs.get n).raw then 2 ^ n.val else 0).sum

/-- The work of the link frame, done with the booth levels as last sampled if it has not been done. -/
def State.finishWork (s : State) : State := if s.li.worked then s else s.work s.heldLines s.bl.key.raw

/-- The downstream frame taken as missing if none has arrived, and the changes of lock that are due. -/
def State.finishPorts (s : State) : State :=
  let s := if s.li.downSeen then s else s.receiveRack none
  (s.settlePort .upstream).settlePort .downstream

/-- The events of the screens still due: crossfade ends, swap moments, dip ends and the meter window end. -/
def State.finishScreens (s : State) : State :=
  let s := (List.finRange 128).foldl State.expireSlot s
  let s := (List.finRange 8).foldl State.takeCrossfadeEnd s
  let s := (List.finRange 8).foldl State.takeSwapMoment s
  let s := (List.finRange 8).foldl State.takeDipEnd s
  s.takeWindowEnd

/-- The events of the clocks and the booth lines still due. -/
def State.finishLines (s : State) : State :=
  let s := (List.finRange 8).foldl State.takeAdvance s
  let s := (List.finRange 8).foldl (fun s i => (s.takeTick i 0).takeTick i 1) s
  let s := (List.finRange 16).foldl State.takePeriodEnd s
  let s := (List.finRange 16).foldl State.takeInputEdge s
  s.takeKeyChange

/-- Everything of this link frame that is still to be taken is taken; the trigger queue is emptied last (R150). -/
def State.finishFrame (s : State) : State :=
  let s := s.finishWork.finishPorts.finishScreens.finishLines
  State.handleTriggers Config.handlingLimit s.takePreserveEnd.takeRestoreEnd.interpret

/-- The screen's ramps one link frame later (R15). -/
def ScreenRecord.advance (r : ScreenRecord) : ScreenRecord :=
  { r with fader := r.fader.advance, mute := r.mute.advance, safeRamp := r.safeRamp.advance, dip := r.dip.advance }

/-- A channel's protect ramp one link frame later (R85). -/
def OutChannel.advance (ch : OutChannel) : OutChannel := { ch with protect := ch.protect.advance }

/-- The output stage one link frame later: the ramps advance, and the window counter counts or is left due (R89). -/
def OutputStage.advance (os : OutputStage) : OutputStage :=
  { os with
    channels := os.channels.map fun row => row.map OutChannel.advance
    window := if os.window + 1 < Config.windowLength then os.window + 1 else os.window
    windowDue := Config.windowLength ≤ os.window + 1 }

/-- The clocks and timers one link frame later. -/
def State.advanceClocks (s : State) : ClockUnit where
  clocks := s.ct.clocks.map Clock.passFrame
  timers := .ofFn fun i => .ofFn fun t => ((s.ct.timers.get i).get t).passFrame (s.tickLengthOf i t)

/-- The booth lines one link frame later: the generators count, the levels are to be sampled, and a debounce enable cleared
in the last frame has its effect (R133). -/
def State.advanceLines (s : State) : BoothLines :=
  { s.bl with
    inputs := s.bl.inputs.map fun d => { d with held := false }
    outputs := .ofFn fun n => (s.bl.outputs.get n).passFrame (s.periodLength n)
    sampling := .due }

/-- The table store one link frame later (R172, R173). -/
def TableStore.advance (ts : TableStore) : TableStore :=
  if ts.state = .idle then ts else { ts with elapsed := ts.elapsed + 1 }

/-- Time advances by one link frame. -/
def State.advance (s : State) : State :=
  { s with
    li := { s.li with upSeen := false, downSeen := false, worked := false }
    ts := s.ts.advance
    sc := s.sc.map ScreenRecord.advance
    os := s.os.advance
    ct := s.advanceClocks
    bl := s.advanceLines }

/-- This link frame ends and the next begins. -/
def State.beginFrame (s : State) : State := s.finishFrame.advance

/-! ## The frames that arrive, and the link frame -/

/-- An upstream forward frame arrives (R22): after this link frame's one, or after its work, it is the next frame's. -/
def State.upstreamArrives (s : State) (a : Option Arrival) : State :=
  let s := if s.li.worked || s.li.upSeen then s.beginFrame else s
  (s.receiveUpstream a).interpret

/-- A downstream return frame arrives (R25): after this link frame's one, it is the next frame's. -/
def State.rackArrives (s : State) (w : Option (BitVec 16)) : State :=
  let s := if s.li.downSeen then s.beginFrame else s
  s.receiveRack w

/-- The link frame's work is done (R28): after this link frame's, it is the next frame's. -/
def State.linkFrame (s : State) (lines : BitVec 16) (keyLocked : Bool) : State :=
  let s := if s.li.worked then s.beginFrame else s
  s.work lines keyLocked

end Sys2Proof.Machine
end

