-- ==== Sys2Proof/Machine/EventCommands.lean ====
section
/-!
DEFINITION. The meanings of the commands that are events of the part and its links.

An event that is not due changes nothing (DESIGN CHOICE, assumption 1, unsafe).
-/

namespace Sys2Proof.Machine

/-- POWER_UP (R171, R20, R32). -/
def execPowerUp (lines : BitVec 16) (keyLocked : Bool) (s : State) : Host.Outcome State Fault Refusal :=
  .next (s.powerOn lines keyLocked)

/-- LINK_FRAME (R28). -/
def execLinkFrame (lines : BitVec 16) (keyLocked : Bool) (s : State) : Host.Outcome State Fault Refusal :=
  .next (s.linkFrame lines keyLocked)

/-- UPSTREAM_FRAME (R22, R26, R29). -/
def execUpstreamFrame (intact : Bool) (slots : List InSlot) (first second : Byte) (s : State) : Host.Outcome State Fault Refusal :=
  .next (s.upstreamArrives (if intact then some ⟨slots, first, second⟩ else none))

/-- RACK_STATUS_WORD (R25, R30, R106). -/
def execRackStatusWord (intact : Bool) (word : BitVec 16) (s : State) : Host.Outcome State Fault Refusal :=
  .next (s.rackArrives (if intact then some word else none))

/-- SLOT_AGE_EXPIRY (R106). -/
def execSlotAgeExpiry (slot : Fin 128) (s : State) : Host.Outcome State Fault Refusal := .next (s.expireSlot slot)

/-- PORT_LOST (R27, R29, R11): the port's failure run is complete. -/
def execPortLost (port : PortId) (s : State) : Host.Outcome State Fault Refusal :=
  .next (if (s.port port).lossDue then s.losePort port else s)

/-- PORT_LOCKED (R27, R29): the port's intact run is complete. -/
def execPortLocked (port : PortId) (s : State) : Host.Outcome State Fault Refusal :=
  .next (if (s.port port).lockDue then (s.lockPort port).interpret else s)

/-- REPLY_SENDER_TAKE (R23, R182): a place of the reply part freed may let the interpreter take a request. -/
def execReplySenderTake (s : State) : Host.Outcome State Fault Refusal := .next (s.senderTake.interpret)

/-- DESCRIPTOR_ACCEPT (R41). -/
def execDescriptorAccept (i : Fin 8) (s : State) : Host.Outcome State Fault Refusal := .next (s.takeAcceptance i)

/-- CROSSFADE_END (R56). -/
def execCrossfadeEnd (i : Fin 8) (s : State) : Host.Outcome State Fault Refusal := .next (s.takeCrossfadeEnd i)

/-- SWAP_MOMENT (R74, R77). -/
def execSwapMoment (i : Fin 8) (s : State) : Host.Outcome State Fault Refusal := .next (s.takeSwapMoment i)

/-- DIP_END (R75). -/
def execDipEnd (i : Fin 8) (s : State) : Host.Outcome State Fault Refusal := .next (s.takeDipEnd i)

/-- METER_WINDOW_END (R89, R90, R99). -/
def execMeterWindowEnd (s : State) : Host.Outcome State Fault Refusal := .next (s.takeWindowEnd)

/-- PICTURE_FRAME_ADVANCE (R120, R121). -/
def execPictureFrameAdvance (i : Fin 8) (s : State) : Host.Outcome State Fault Refusal := .next (s.takeAdvance i)

/-- TIMER_TICK (R127, R129). -/
def execTimerTick (i : Fin 8) (t : Fin 2) (s : State) : Host.Outcome State Fault Refusal := .next (s.takeTick i t)

/-- TIMER_EXPIRY (R129). -/
def execTimerExpiry (i : Fin 8) (t : Fin 2) (s : State) : Host.Outcome State Fault Refusal := .next (s.takeExpiry i t)

/-- PULSE_PERIOD_END (R139). -/
def execPulsePeriodEnd (n : Fin 16) (s : State) : Host.Outcome State Fault Refusal := .next (s.takePeriodEnd n)

/-- INPUT_EDGE (R133, R134). -/
def execInputEdge (n : Fin 16) (s : State) : Host.Outcome State Fault Refusal := .next (s.takeInputEdge n)

/-- BOOTH_KEY_CHANGE (R136). -/
def execBoothKeyChange (s : State) : Host.Outcome State Fault Refusal := .next (s.takeKeyChange)

/-- TRIGGER_HANDLING (R150). -/
def execTriggerHandling (s : State) : Host.Outcome State Fault Refusal := .next (s.handleTrigger)

/-- PRESERVE_COMPLETE (R172). -/
def execPreserveComplete (s : State) : Host.Outcome State Fault Refusal := .next (s.takePreserveEnd)

/-- RESTORE_COMPLETE (R173). -/
def execRestoreComplete (s : State) : Host.Outcome State Fault Refusal := .next (s.takeRestoreEnd)

end Sys2Proof.Machine
end

