-- ==== Sys2Proof/Machine/RequestCommands.lean ====
section
/-!
DEFINITION. The meanings of the commands that are request messages: the message joins the request queue and the interpreter
takes what it may (R176, R177).
-/

namespace Sys2Proof.Machine

/-- TABLE_WRITE (R167 to R170). -/
def execTableWrite (tag page word : Byte) (data : List Word) (s : State) : Host.Outcome State Fault Refusal :=
  .next (s.request tag (.tableWrite page word data))

/-- TABLE_READ (R167). -/
def execTableRead (tag page word count : Byte) (s : State) : Host.Outcome State Fault Refusal :=
  .next (s.request tag (.tableRead page word count))

/-- SCREEN_STATE (R3, R5, R174). -/
def execScreenState (tag screen target : Byte) (s : State) : Host.Outcome State Fault Refusal :=
  .next (s.request tag (.screenState screen target))

/-- LEVEL (R16). -/
def execLevel (tag screen : Byte) (value : BitVec 16) (ramp : Byte) (s : State) : Host.Outcome State Fault Refusal :=
  .next (s.request tag (.level screen value ramp))

/-- CLOCK_LOAD (R122). -/
def execClockLoad (tag screen hours minutes seconds frames run : Byte) (s : State) : Host.Outcome State Fault Refusal :=
  .next (s.request tag (.clockLoad screen hours minutes seconds frames run))

/-- TIMER_SET (R126). -/
def execTimerSet (tag screen timer base : Byte) (count : BitVec 16) (reload : Byte) (s : State) : Host.Outcome State Fault Refusal :=
  .next (s.request tag (.timerSet screen timer base count reload))

/-- ACKNOWLEDGE (R114). -/
def execAcknowledge (tag first last : Byte) (s : State) : Host.Outcome State Fault Refusal :=
  .next (s.request tag (.acknowledge first last))

/-- RESUME (R12). -/
def execResume (tag screen : Byte) (s : State) : Host.Outcome State Fault Refusal :=
  .next (s.request tag (.resume screen))

/-- CUE_ARM (R147). -/
def execCueArm (tag entry setting : Byte) (s : State) : Host.Outcome State Fault Refusal :=
  .next (s.request tag (.cueArm (entryOf entry) setting))

/-- QUERY_DEVICE (R180, R142). -/
def execQueryDevice (tag : Byte) (s : State) : Host.Outcome State Fault Refusal :=
  .next (s.request tag (.query .device))

/-- QUERY_SCREEN (R21, R59, R80, R131). -/
def execQueryScreen (tag screen : Byte) (s : State) : Host.Outcome State Fault Refusal :=
  .next (s.request tag (.query (.screen screen)))

/-- QUERY_CHANNEL (R70, R93, R116, R188). -/
def execQueryChannel (tag screen channel : Byte) (s : State) : Host.Outcome State Fault Refusal :=
  .next (s.request tag (.query (.channel screen channel)))

/-- QUERY_ALARM (R116). -/
def execQueryAlarm (tag entry : Byte) (s : State) : Host.Outcome State Fault Refusal :=
  .next (s.request tag (.query (.alarm (entryOf entry))))

/-- QUERY_CUE (R163). -/
def execQueryCue (tag entry : Byte) (s : State) : Host.Outcome State Fault Refusal :=
  .next (s.request tag (.query (.cue (entryOf entry))))

/-- QUERY_POOL (R70). -/
def execQueryPool (tag : Byte) (s : State) : Host.Outcome State Fault Refusal := .next (s.request tag (.query .pool))

/-- PRESERVE (R172). -/
def execPreserve (tag : Byte) (s : State) : Host.Outcome State Fault Refusal := .next (s.request tag .preserve)

/-- RESTORE (R173). -/
def execRestore (tag : Byte) (s : State) : Host.Outcome State Fault Refusal := .next (s.request tag .restore)

/-- RESET (R181). -/
def execReset (tag : Byte) (s : State) : Host.Outcome State Fault Refusal := .next (s.request tag .reset)

/-- BAD_KIND_REQUEST (R177, R179): the message is read as any other, and refused as its code names nothing. -/
def execBadKindRequest (tag : Byte) (bad : BadRequest) (s : State) : Host.Outcome State Fault Refusal :=
  match bad with
  | .type code => .next (s.request tag (bodyOf code []))
  | .action screen code => .next (s.request tag (.screenAction screen (Action.ofCode code)))

end Sys2Proof.Machine
end

