-- ==== Sys2Proof/Machine/ActionCommands.lean ====
section
/-!
DEFINITION. The meanings of the commands that are actions given by a SCREEN ACTION request (R179).
-/

namespace Sys2Proof.Machine

/-- STATE_ACTION (R3). -/
def execStateAction (tag screen : Byte) (target : BitVec 3) (s : State) : Host.Outcome State Fault Refusal :=
  .next (s.request tag (.screenAction screen (.state target)))

/-- SAFE_ACTION (R3, R9). -/
def execSafeAction (tag screen : Byte) (s : State) : Host.Outcome State Fault Refusal :=
  .next (s.request tag (.screenAction screen .safe))

/-- LEVEL_ACTION (R16). -/
def execLevelAction (tag screen : Byte) (preset : Fin 8) (ramp : Fin 4) (s : State) : Host.Outcome State Fault Refusal :=
  .next (s.request tag (.screenAction screen (.level preset ramp)))

/-- MUTE_ACTION (R17). -/
def execMuteAction (tag screen : Byte) (on : Bool) (s : State) : Host.Outcome State Fault Refusal :=
  .next (s.request tag (.screenAction screen (.mute on)))

/-- FORMAT_ACTION (R43). -/
def execFormatAction (tag screen : Byte) (format : Fin 16) (s : State) : Host.Outcome State Fault Refusal :=
  .next (s.request tag (.screenAction screen (.format format)))

/-- RELEASE_ACTION (R43). -/
def execReleaseAction (tag screen : Byte) (s : State) : Host.Outcome State Fault Refusal :=
  .next (s.request tag (.screenAction screen .release))

/-- APPLY_ACTION (R71). -/
def execApplyAction (tag screen : Byte) (s : State) : Host.Outcome State Fault Refusal :=
  .next (s.request tag (.screenAction screen .apply))

/-- SAFEPOINT_ACTION (R8). -/
def execSafepointAction (tag screen : Byte) (s : State) : Host.Outcome State Fault Refusal :=
  .next (s.request tag (.screenAction screen .safepoint))

/-- LINE_LOW (R138). -/
def execLineLow (tag screen : Byte) (line : Fin 16) (s : State) : Host.Outcome State Fault Refusal :=
  .next (s.request tag (.screenAction screen (.line line .low)))

/-- LINE_HIGH (R138). -/
def execLineHigh (tag screen : Byte) (line : Fin 16) (s : State) : Host.Outcome State Fault Refusal :=
  .next (s.request tag (.screenAction screen (.line line .high)))

/-- LINE_PULSE (R138). -/
def execLinePulse (tag screen : Byte) (line : Fin 16) (s : State) : Host.Outcome State Fault Refusal :=
  .next (s.request tag (.screenAction screen (.line line .pulse)))

/-- LINE_TRAIN (R138). -/
def execLineTrain (tag screen : Byte) (line : Fin 16) (s : State) : Host.Outcome State Fault Refusal :=
  .next (s.request tag (.screenAction screen (.line line .train)))

/-- CLOCK_RUN (R119, R123). -/
def execClockRun (tag screen : Byte) (s : State) : Host.Outcome State Fault Refusal :=
  .next (s.request tag (.screenAction screen (.clock .run)))

/-- CLOCK_STOP (R123). -/
def execClockStop (tag screen : Byte) (s : State) : Host.Outcome State Fault Refusal :=
  .next (s.request tag (.screenAction screen (.clock .stop)))

/-- CLOCK_ZERO (R119, R123). -/
def execClockZero (tag screen : Byte) (s : State) : Host.Outcome State Fault Refusal :=
  .next (s.request tag (.screenAction screen (.clock .zero)))

/-- TIMER_START (R128). -/
def execTimerStart (tag screen : Byte) (timer : Fin 2) (s : State) : Host.Outcome State Fault Refusal :=
  .next (s.request tag (.screenAction screen (.timer timer .start)))

/-- TIMER_STOP (R128). -/
def execTimerStop (tag screen : Byte) (timer : Fin 2) (s : State) : Host.Outcome State Fault Refusal :=
  .next (s.request tag (.screenAction screen (.timer timer .stop)))

/-- REPORT_ACTION (R162). -/
def execReportAction (tag screen : Byte) (code : Byte) (s : State) : Host.Outcome State Fault Refusal :=
  .next (s.request tag (.screenAction screen (.report code)))

end Sys2Proof.Machine
end

