-- ==== Sys2Proof/Machine/Dispatch.lean ====
section
/-!
DEFINITION. One arm for every command: the command's effect on everything but the queue of waiting commands.
-/

namespace Sys2Proof.Machine

/-- The meaning of a command. -/
def exec (i : Instr) (s : State) : Host.Outcome State Fault Refusal :=
  match i with
  | .powerUp lines keyLocked => Sys2Proof.Machine.execPowerUp lines keyLocked s
  | .linkFrame lines keyLocked => Sys2Proof.Machine.execLinkFrame lines keyLocked s
  | .upstreamFrame intact slots first second => Sys2Proof.Machine.execUpstreamFrame intact slots first second s
  | .rackStatusWord intact word => Sys2Proof.Machine.execRackStatusWord intact word s
  | .slotAgeExpiry slot => Sys2Proof.Machine.execSlotAgeExpiry slot s
  | .portLost port => Sys2Proof.Machine.execPortLost port s
  | .portLocked port => Sys2Proof.Machine.execPortLocked port s
  | .replySenderTake => Sys2Proof.Machine.execReplySenderTake s
  | .descriptorAccept screen => Sys2Proof.Machine.execDescriptorAccept screen s
  | .crossfadeEnd screen => Sys2Proof.Machine.execCrossfadeEnd screen s
  | .swapMoment screen => Sys2Proof.Machine.execSwapMoment screen s
  | .dipEnd screen => Sys2Proof.Machine.execDipEnd screen s
  | .meterWindowEnd => Sys2Proof.Machine.execMeterWindowEnd s
  | .pictureFrameAdvance screen => Sys2Proof.Machine.execPictureFrameAdvance screen s
  | .timerTick screen timer => Sys2Proof.Machine.execTimerTick screen timer s
  | .timerExpiry screen timer => Sys2Proof.Machine.execTimerExpiry screen timer s
  | .pulsePeriodEnd line => Sys2Proof.Machine.execPulsePeriodEnd line s
  | .inputEdge line => Sys2Proof.Machine.execInputEdge line s
  | .boothKeyChange => Sys2Proof.Machine.execBoothKeyChange s
  | .triggerHandling => Sys2Proof.Machine.execTriggerHandling s
  | .tableWrite tag page word data => Sys2Proof.Machine.execTableWrite tag page word data s
  | .tableRead tag page word count => Sys2Proof.Machine.execTableRead tag page word count s
  | .screenState tag screen target => Sys2Proof.Machine.execScreenState tag screen target s
  | .stateAction tag screen target => Sys2Proof.Machine.execStateAction tag screen target s
  | .safeAction tag screen => Sys2Proof.Machine.execSafeAction tag screen s
  | .levelAction tag screen preset ramp => Sys2Proof.Machine.execLevelAction tag screen preset ramp s
  | .muteAction tag screen on => Sys2Proof.Machine.execMuteAction tag screen on s
  | .formatAction tag screen format => Sys2Proof.Machine.execFormatAction tag screen format s
  | .releaseAction tag screen => Sys2Proof.Machine.execReleaseAction tag screen s
  | .applyAction tag screen => Sys2Proof.Machine.execApplyAction tag screen s
  | .safepointAction tag screen => Sys2Proof.Machine.execSafepointAction tag screen s
  | .lineLow tag screen line => Sys2Proof.Machine.execLineLow tag screen line s
  | .lineHigh tag screen line => Sys2Proof.Machine.execLineHigh tag screen line s
  | .linePulse tag screen line => Sys2Proof.Machine.execLinePulse tag screen line s
  | .lineTrain tag screen line => Sys2Proof.Machine.execLineTrain tag screen line s
  | .clockRun tag screen => Sys2Proof.Machine.execClockRun tag screen s
  | .clockStop tag screen => Sys2Proof.Machine.execClockStop tag screen s
  | .clockZero tag screen => Sys2Proof.Machine.execClockZero tag screen s
  | .timerStart tag screen timer => Sys2Proof.Machine.execTimerStart tag screen timer s
  | .timerStop tag screen timer => Sys2Proof.Machine.execTimerStop tag screen timer s
  | .reportAction tag screen code => Sys2Proof.Machine.execReportAction tag screen code s
  | .level tag screen value ramp => Sys2Proof.Machine.execLevel tag screen value ramp s
  | .clockLoad tag screen hours minutes seconds frames run => Sys2Proof.Machine.execClockLoad tag screen hours minutes seconds frames run s
  | .timerSet tag screen timer base count reload => Sys2Proof.Machine.execTimerSet tag screen timer base count reload s
  | .acknowledge tag first last => Sys2Proof.Machine.execAcknowledge tag first last s
  | .resume tag screen => Sys2Proof.Machine.execResume tag screen s
  | .cueArm tag entry setting => Sys2Proof.Machine.execCueArm tag entry setting s
  | .queryDevice tag => Sys2Proof.Machine.execQueryDevice tag s
  | .queryScreen tag screen => Sys2Proof.Machine.execQueryScreen tag screen s
  | .queryChannel tag screen channel => Sys2Proof.Machine.execQueryChannel tag screen channel s
  | .queryAlarm tag entry => Sys2Proof.Machine.execQueryAlarm tag entry s
  | .queryCue tag entry => Sys2Proof.Machine.execQueryCue tag entry s
  | .queryPool tag => Sys2Proof.Machine.execQueryPool tag s
  | .preserve tag => Sys2Proof.Machine.execPreserve tag s
  | .preserveComplete => Sys2Proof.Machine.execPreserveComplete s
  | .restore tag => Sys2Proof.Machine.execRestore tag s
  | .restoreComplete => Sys2Proof.Machine.execRestoreComplete s
  | .reset tag => Sys2Proof.Machine.execReset tag s
  | .badKindRequest tag bad => Sys2Proof.Machine.execBadKindRequest tag bad s

end Sys2Proof.Machine
end

