-- ==== Sys2Proof/Machine/Encoding.lean ====
section
/-!
DEFINITION. The request commands as the messages that carry them: action codes (R190, R191), the request each command
puts into the queue, and the body of its message (R186). `framed` gives a body its place on the lane (R184).
-/

namespace Sys2Proof.Machine

/-! ## Action codes -/

/-- The operation code of a LINE action. -/
def LineOp.code : LineOp → Nat
  | .low => 0
  | .high => 1
  | .pulse => 2
  | .train => 3

/-- The operation code of a CLOCK action. -/
def ClockOp.code : ClockOp → Nat
  | .run => 0
  | .stop => 1
  | .zero => 2

/-- The operation code of a TIMER action. -/
def TimerOp.code : TimerOp → Nat
  | .start => 0
  | .stop => 1

/-- The operand bits of an action. -/
def Action.operands : Action → Nat
  | .state target => target.toNat
  | .level preset ramp => preset.val + 16 * ramp.val
  | .mute on => if on then 1 else 0
  | .format f => f.val
  | .line n op => n.val + 16 * op.code
  | .clock op => op.code
  | .timer t op => t.val + 16 * op.code
  | .report code => code.toNat
  | .safe | .release | .apply | .safepoint | .unnamed _ => 0

/-- The action code of an action, its unnamed operand bits 0. -/
def Action.encode (a : Action) : BitVec 16 := BitVec.ofNat 16 (4096 * a.kind + a.operands)

/-! ## The request a command is -/

/-- The request that a BAD_KIND_REQUEST is: a TYPE with no field after its TAG, or a SCREEN ACTION. -/
def badBody : BadRequest → RequestBody
  | .type code => bodyOf code []
  | .action screen code => .screenAction screen (Action.ofCode code)

/-- What a request command asks, with its tag; absent for an event. -/
def requestOf : Instr → Option Request
  | .tableWrite tag page word data => some ⟨tag, .tableWrite page word data⟩
  | .tableRead tag page word count => some ⟨tag, .tableRead page word count⟩
  | .screenState tag screen target => some ⟨tag, .screenState screen target⟩
  | .stateAction tag screen target => some ⟨tag, .screenAction screen (.state target)⟩
  | .safeAction tag screen => some ⟨tag, .screenAction screen .safe⟩
  | .levelAction tag screen preset ramp => some ⟨tag, .screenAction screen (.level preset ramp)⟩
  | .muteAction tag screen on => some ⟨tag, .screenAction screen (.mute on)⟩
  | .formatAction tag screen format => some ⟨tag, .screenAction screen (.format format)⟩
  | .releaseAction tag screen => some ⟨tag, .screenAction screen .release⟩
  | .applyAction tag screen => some ⟨tag, .screenAction screen .apply⟩
  | .safepointAction tag screen => some ⟨tag, .screenAction screen .safepoint⟩
  | .lineLow tag screen line => some ⟨tag, .screenAction screen (.line line .low)⟩
  | .lineHigh tag screen line => some ⟨tag, .screenAction screen (.line line .high)⟩
  | .linePulse tag screen line => some ⟨tag, .screenAction screen (.line line .pulse)⟩
  | .lineTrain tag screen line => some ⟨tag, .screenAction screen (.line line .train)⟩
  | .clockRun tag screen => some ⟨tag, .screenAction screen (.clock .run)⟩
  | .clockStop tag screen => some ⟨tag, .screenAction screen (.clock .stop)⟩
  | .clockZero tag screen => some ⟨tag, .screenAction screen (.clock .zero)⟩
  | .timerStart tag screen timer => some ⟨tag, .screenAction screen (.timer timer .start)⟩
  | .timerStop tag screen timer => some ⟨tag, .screenAction screen (.timer timer .stop)⟩
  | .reportAction tag screen code => some ⟨tag, .screenAction screen (.report code)⟩
  | .level tag screen value ramp => some ⟨tag, .level screen value ramp⟩
  | .clockLoad tag screen h m sec f run => some ⟨tag, .clockLoad screen h m sec f run⟩
  | .timerSet tag screen timer base count reload => some ⟨tag, .timerSet screen timer base count reload⟩
  | .acknowledge tag first last => some ⟨tag, .acknowledge first last⟩
  | .resume tag screen => some ⟨tag, .resume screen⟩
  | .cueArm tag entry setting => some ⟨tag, .cueArm (entryOf entry) setting⟩
  | .queryDevice tag => some ⟨tag, .query .device⟩
  | .queryScreen tag screen => some ⟨tag, .query (.screen screen)⟩
  | .queryChannel tag screen channel => some ⟨tag, .query (.channel screen channel)⟩
  | .queryAlarm tag entry => some ⟨tag, .query (.alarm (entryOf entry))⟩
  | .queryCue tag entry => some ⟨tag, .query (.cue (entryOf entry))⟩
  | .queryPool tag => some ⟨tag, .query .pool⟩
  | .preserve tag => some ⟨tag, .preserve⟩
  | .restore tag => some ⟨tag, .restore⟩
  | .reset tag => some ⟨tag, .reset⟩
  | .badKindRequest tag bad => some ⟨tag, badBody bad⟩
  | .powerUp .. | .linkFrame .. | .upstreamFrame .. | .rackStatusWord .. | .slotAgeExpiry _ | .portLost _
  | .portLocked _ | .replySenderTake | .descriptorAccept _ | .crossfadeEnd _ | .swapMoment _ | .dipEnd _
  | .meterWindowEnd | .pictureFrameAdvance _ | .timerTick .. | .timerExpiry .. | .pulsePeriodEnd _ | .inputEdge _
  | .boothKeyChange | .triggerHandling | .preserveComplete | .restoreComplete => none

/-! ## The body of a request's message (R186) -/

/-- The fields of a QUERY after its TAG. -/
def Query.fields : Query → List Byte
  | .device => [0]
  | .screen i => [1, i]
  | .channel i c => [2, i, c]
  | .alarm e => [3, byte e.val]
  | .cue e => [4, byte e.val]
  | .pool => [5]
  | .unnamed => [6]

/-- The two bytes of an action code, most significant first. -/
def Action.bytes (a : Action) : List Byte := bytes2 a.encode.toNat

/-- The TYPE and the fields after the TAG of a well-formed request; absent for what no message can carry. -/
def RequestBody.parts : RequestBody → Option (Byte × List Byte)
  | .tableWrite page word data => some (1, [page, word, byte (data.length - 1)] ++ data.flatMap bytesOfWord)
  | .tableRead page word count => some (2, [page, word, count])
  | .screenState i target => some (3, [i, target])
  | .screenAction i action => some (4, i :: action.bytes)
  | .level i value ramp => some (5, i :: bytes2 value.toNat ++ [ramp])
  | .clockLoad i h m sec f run => some (6, [i, h, m, sec, f, run])
  | .timerSet i t base count reload => some (7, [i, t, base] ++ bytes2 count.toNat ++ [reload])
  | .acknowledge first last => some (8, [first, last])
  | .resume i => some (9, [i])
  | .cueArm e setting => some (10, [byte e.val, setting])
  | .query q => some (11, q.fields)
  | .preserve => some (12, [])
  | .restore => some (13, [])
  | .reset => some (14, [])
  | .badKind => none
  | .badLength _ => none

/-- The body of the message that carries a command: TYPE, TAG and fields; absent for an event. -/
def messageOf : Instr → Option (List Byte)
  | .badKindRequest tag (.type code) => some [code, tag]
  | .badKindRequest tag (.action screen code) => some ([4, tag, screen] ++ bytes2 code.toNat)
  | c =>
    match requestOf c with
    | some r =>
      match r.body.parts with
      | some p => some (p.1 :: r.tag :: p.2)
      | none => none
    | none => none

end Sys2Proof.Machine
end

