-- ==== Sys2Proof/Safety.lean ====
section
/-!
DEFINITION. What counts as a sound state of the part: what the manual says always holds of each block. A safe run is one
whose every state is sound; no command of a sound state stops it.
-/

namespace Sys2Proof.Machine

/-! ## Table store (R166, R171) -/

/-- A store lists words below its 15,360 addresses only. -/
def Memory.within (m : Memory) : Prop := ∀ p ∈ m, p.1 < Config.storeWords

/-- The store and its image stand in their canonical form, within their 60 pages. -/
def State.storesCanonical (s : State) : Prop :=
  (s.ts.words.wf = true ∧ s.ts.words.within) ∧ (s.ts.image.pages.wf = true ∧ s.ts.image.pages.within)

/-- The elapsed count is 0 in IDLE, and every screen is OFFLINE throughout a restore (R171, R174). -/
def State.storeSound (s : State) : Prop :=
  (s.ts.state = .idle → s.ts.elapsed = 0) ∧ (s.ts.state = .restoring → ∀ i, s.screenState i = .offline)

/-! ## Queues (R149, R182) -/

/-- The queues of the control interpreter hold no more than their places. -/
def State.queuesBounded (s : State) : Prop :=
  s.ci.requests.length ≤ 4 ∧ s.ci.replies.length ≤ 8 ∧ s.ci.reports.length ≤ 32

/-- The trigger queue holds at most 32 non-clock triggers and one CLOCK trigger a screen, none deeper than 3. -/
def State.triggersBounded (s : State) : Prop :=
  nonClockCount s.ce.triggers ≤ 32 ∧
    (∀ i, (s.ce.triggers.filter fun t => t.clockScreen == some i).length ≤ 1) ∧
    ∀ t ∈ s.ce.triggers, t.depth ≤ 3

/-! ## Screens (R2, R8, R9, R39) -/

/-- A screen record's parts are present exactly when its state gives them. -/
def ScreenRecord.sound (r : ScreenRecord) : Prop :=
  (r.state = .safe ↔ r.resume.isSome) ∧ (r.state = .safe ↔ r.cause.isSome) ∧
    (∀ t, r.resume = some t → t = .idle ∨ t = .preshow ∨ t = .feature) ∧
    (r.pendingApply.isSome → r.state.playing = true)

/-- A decode record's profiles are present exactly when the screen's state and its crossfade give them. -/
def DecodeRecord.sound (d : DecodeRecord) (state : ScreenState) : Prop :=
  (state = .offline ↔ d.current = none) ∧ (d.current = none → d.incoming = none) ∧
    (d.incoming = none → d.pending = none)

/-- The records of every screen are sound. -/
def State.screensSound (s : State) : Prop :=
  ∀ i, (s.sc.get i).sound ∧ (s.de.get i).sound (s.screenState i)

/-! ## Delay pages (R67) -/

/-- Every page of the pool: the free ones, then those of each channel's page list. -/
def State.poolPages (s : State) : List (Fin 512) :=
  s.eq.free ++ (List.finRange 8).flatMap fun i => (List.finRange 16).flatMap fun c => s.pagesOf i c

/-- Every page stands in exactly one channel's page list or in the free list. -/
def State.poolWhole (s : State) : Prop := s.poolPages.Perm (List.finRange 512)

/-- A channel of a screen that is not OFFLINE holds the pages of its delay in the active bank; one of an OFFLINE screen
holds none. -/
def State.pagesMatch (s : State) : Prop :=
  ∀ i c, (s.pagesOf i c).length =
    if s.screenState i = .offline then 0 else pageNeed (s.delay i (s.activeBank i) c)

/-! ## Ports (R27) and ramps (R15) -/

/-- A port counts only towards its change of lock. -/
def Port.sound (p : Port) : Prop :=
  match p.lock with
  | .lost => p.failureRun = 0 ∧ p.intactRun ≤ 480
  | .locked => p.intactRun = 0 ∧ p.failureRun ≤ 4

/-- A ramp lies within 0 to 32768 and its position within its length. -/
def Ramp.sound (r : Ramp) : Prop := r.start ≤ 32768 ∧ r.target ≤ 32768 ∧ 0 < r.length ∧ r.position ≤ r.length

/-- The four ramps of every screen and the protect ramp of every channel are sound, and no protect target exceeds 32768
(R15, R85, R111). -/
def State.rampsSound (s : State) : Prop :=
  ∀ i, ((s.sc.get i).fader.sound ∧ (s.sc.get i).mute.sound ∧ (s.sc.get i).safeRamp.sound ∧ (s.sc.get i).dip.sound) ∧
    ∀ c, ((s.os.channels.get i).get c).protect.sound ∧ (s.am.targets.get i).get c ≤ 32768

/-! ## Alarm entries (R98) and show clocks (R118) -/

/-- A runtime record: a tier reached has its sticky flags, and the counters stay within 0 to 15. -/
def AlarmRecord.sound (r : AlarmRecord) : Prop :=
  (r.tier = .warn → r.warnSeen = true) ∧ (r.tier = .trip → r.warnSeen = true ∧ r.tripSeen = true) ∧
    r.warnCount ≤ 15 ∧ r.tripCount ≤ 15

/-- Every alarm runtime record is sound. -/
def State.alarmsSound (s : State) : Prop := ∀ e, (s.am.entries.get e).sound

/-- A show clock's value and sub-frame count lie within its latched rate and frame length. -/
def Clock.sound (c : Clock) : Prop :=
  c.value.hours ≤ 23 ∧ c.value.minutes ≤ 59 ∧ c.value.seconds ≤ 59 ∧ c.value.frames < c.rate.perSecond ∧
    c.subFrame < c.rate.frameLength

/-- Every show clock is sound. -/
def State.clocksSound (s : State) : Prop := ∀ i, (s.ct.clocks.get i).sound

/-! ## When a request is executed at once (R176, R177) -/

/-- No request waits and the reply part holds 6 replies or fewer, so that the interpreter takes a message on arrival. -/
def State.ready (s : State) : Prop := s.ci.requests = [] ∧ s.ci.replies.length ≤ 6

/-! ## When a link frame has nothing left to take (R28, assumption 1) -/

/-- The link frame's work is done, its frames have come, and none of its events, requests and triggers is still to be
taken: a command that begins the next link frame finds nothing to finish. -/
def State.quiet (s : State) : Prop :=
  s.li.worked = true ∧ s.li.downSeen = true ∧ (∀ p, (s.port p).lockDue = false ∧ (s.port p).lossDue = false) ∧
    (∀ n, (s.am.slots.get n).expiring = false) ∧
    (∀ i, (s.de.get i).fadeEnded = false ∧ s.swapReached i = false ∧ s.riseEnded i = false) ∧
    s.os.windowDue = false ∧ (∀ i, (s.ct.clocks.get i).advanceDue = false) ∧
    (∀ i k, ((s.ct.timers.get i).get k).due (s.tickLengthOf i k) = false) ∧
    (∀ n, (s.bl.outputs.get n).periodDue = false) ∧ (∀ n, (s.bl.inputs.get n).edgeDue = false) ∧
    s.bl.key.edgeDue = false ∧ s.preserveEnded = false ∧ s.restoreEnded = false ∧ s.ci.requests = [] ∧
    s.ce.triggers = []

/-- The work of the link frame is still to be done, its upstream frame has been received, no change of the upstream port's
lock is due and no request waits. -/
def State.workDue (s : State) : Prop :=
  s.li.worked = false ∧ s.li.upSeen = true ∧ s.li.up.lockDue = false ∧ s.li.up.lossDue = false ∧ s.ci.requests = []

/-! ## What a change of a screen's state reports (R4, R6, R7, R8, R104, R110, R112) -/

/-- The ALARM reports of the falls that a change of a screen's state forces, in entry order: of every entry of a screen that
enters OFFLINE, and of the FLOOR entries of one that stops playing. An entry above NORMAL that routes its clear reports. Entry
order is the model's choice (assumption 45). -/
def State.fallReports (s : State) (i : Fin 8) (old target : ScreenState) : List Report :=
  (List.finRange 256).filterMap fun e =>
    let a := s.alarmEntry e
    let r := s.am.entries.get e
    let forced := target == .offline || (old.playing && !target.playing && a.source == some .floor)
    if a.screen == i && forced && r.tier != .normal && a.reportOnClear then
      some (.alarm e i a.channel (a.source.getD .peak) true r.tier .normal r.lastValue r.warnSeen r.tripSeen true)
    else none

/-- The APPLY report of a pending apply that a screen which stops playing hands to a dip in RISE. -/
def State.handedReports (s : State) (i : Fin 8) (target : ScreenState) : List Report :=
  match (s.sc.get i).pendingApply, s.eq.dips.get i with
  | some origin, some ⟨.rise, some result, _⟩ => if target.playing then [] else [.apply i origin result]
  | _, _ => []

/-- The report part of one state is another's after reports have arrived: some first, then groups of several blocks, each
group in its own order and the groups in any order (R182). -/
def State.ReportsJoin (s t : State) (first : List Report) (groups : List (List Report)) : Prop :=
  ∃ gs : List (List Report), gs.Perm groups ∧
    t.ci.reports = (s.queueReports (first ++ gs.flatten)).ci.reports ∧
    t.ci.reportLost = (s.queueReports (first ++ gs.flatten)).ci.reportLost

/-- The trigger queue of one state is another's after triggers have arrived in order (R149). -/
def State.TriggersJoin (s t : State) (triggers : List Trigger) : Prop :=
  t.ce.triggers = (triggers.foldl State.pushTrigger s).ce.triggers ∧
    t.ce.overrun = (triggers.foldl State.pushTrigger s).ce.overrun

/-! ## What the start of a crossfade reports (R53, R104, R110) -/

/-- A FLOOR entry of a channel keeps its eligibility as a profile comes in: its screen plays and the driven mask of that
profile marks the channel, or any channel for ALL (R46, R104). -/
def State.floorWatched (s : State) (i : Fin 8) (channel : Nat) (profile : Fin 16) : Bool :=
  let mask := field (s.word 2 (240 + profile.val)) 0 16
  s.playing i && if channel < 16 then mask / 2 ^ channel % 2 == 1 else mask != 0

/-- The ALARM reports of the falls that the start of a screen's crossfade forces, where it starts in the work of a link frame
that leaves this decode record: of every FLOOR entry above NORMAL that is no longer eligible and routes its clear, in entry
order. Entry order is the model's choice (assumption 45). -/
def State.screenFadeReports (s : State) (i : Fin 8) (after : DecodeRecord) : List Report :=
  match after.incoming with
  | some incoming =>
    if s.screenState i != .offline && !(s.de.get i).justEnabled && (s.de.get i).incoming.isNone then
      (List.finRange 256).filterMap fun e =>
        let a := s.alarmEntry e
        let r := s.am.entries.get e
        if a.screen == i && a.source == some .floor && !s.floorWatched i a.channel incoming.profile &&
            r.tier != .normal && a.reportOnClear then
          some (.alarm e i a.channel .floor true r.tier .normal r.lastValue r.warnSeen r.tripSeen true)
        else none
    else []
  | none => []

/-- The ALARM reports of the falls that the crossfades starting in the work of a link frame force, screen by screen, 0 to 7.
That order is the model's choice (assumption 47). -/
def State.fadeReports (s : State) (after : Tab 8 DecodeRecord) : List Report :=
  (List.finRange 8).flatMap fun i => s.screenFadeReports i (after.get i)

/-! ## What the alarm entries hold up (R111, R113) -/

/-- Every channel's protect target is the smallest protect factor of the entries in TRIP that cover the channel, or 32768
(R111). -/
def State.targetsFollow (s : State) : Prop :=
  ∀ i c, (∀ e, (s.am.entries.get e).tier = .trip → (s.alarmEntry e).covers i c = true →
      (s.am.targets.get i).get c ≤ (s.alarmEntry e).protectFactor) ∧
    ((s.am.targets.get i).get c = 32768 ∨ ∃ e, (s.am.entries.get e).tier = .trip ∧
      (s.alarmEntry e).covers i c = true ∧ (s.am.targets.get i).get c = (s.alarmEntry e).protectFactor)

/-- A booth output line's annunciator demand is high exactly when an enabled entry routed to it holds a sticky flag of a
tier it routes (R113). -/
def State.demandsFollow (s : State) : Prop :=
  ∀ n, s.am.demands.get n = true ↔ ∃ e, (s.alarmEntry e).enabled = true ∧ (s.alarmEntry e).annunciator = some n ∧
    (match (s.alarmEntry e).annunciatorTier with
      | .warn => (s.am.entries.get e).warnSeen = true
      | .trip => (s.am.entries.get e).tripSeen = true
      | .both => (s.am.entries.get e).warnSeen = true ∨ (s.am.entries.get e).tripSeen = true)

/-! ## What a change of a screen's state does to the alarm entries and a pending apply (R8, R104, R109, R111, R112) -/

/-- What a change of a screen's state outside a scan does to the alarm monitor and the protect ramps. Every entry of a screen
that enters OFFLINE, and every FLOOR entry of one that stops playing, stands at NORMAL with counters 0 and keeps its flags,
and every other record stands; where the change can force a fall, the targets are recomputed and the protect ramps take them,
and otherwise they stand. Of a screen that enters OFFLINE its own output channels and gain are left out. -/
def State.FallsFollow (s t : State) (i : Fin 8) (old target : ScreenState) : Prop :=
  let stops : Prop := old.playing = true ∧ target.playing = false
  (∀ e, t.am.entries.get e =
    let a := s.alarmEntry e
    let r := s.am.entries.get e
    if a.screen = i ∧ (target = .offline ∨ (old.playing = true ∧ target.playing = false ∧ a.source = some .floor)) then
      { r with tier := .normal, warnCount := 0, tripCount := 0 }
    else r) ∧
  t.am.demands = s.am.demands ∧ t.am.slots = s.am.slots ∧ t.am.lines = s.am.lines ∧ t.os.window = s.os.window ∧
  (∀ j, j ≠ i ∨ target ≠ .offline → t.os.gains.get j = s.os.gains.get j) ∧
  (target = .offline ∨ stops → t.targetsFollow ∧ ∀ j c, j ≠ i ∨ target ≠ .offline → (t.os.channels.get j).get c =
    let ch := (s.os.channels.get j).get c
    { ch with protect := ch.protect.protectTake ((t.am.targets.get j).get c) }) ∧
  (target ≠ .offline → ¬stops → t.am.targets = s.am.targets ∧ t.os.channels = s.os.channels)

/-- What a change of a screen's state does with its pending apply: one held as the screen stops playing begins a dip, joins
one in FALL, or, in a dip in RISE, leaves it as it is; otherwise the dips and the D ramp stand (R8, R76). -/
def State.ApplyHanded (s t : State) (i : Fin 8) (target : ScreenState) : Prop :=
  let stands : Prop := t.eq.dips = s.eq.dips ∧ (t.sc.get i).dip = (s.sc.get i).dip
  (t.sc.get i).pendingApply = (if target.playing = true then (s.sc.get i).pendingApply else none) ∧
  (target.playing = true ∨ (s.sc.get i).pendingApply = none → stands) ∧
  ∀ origin, (s.sc.get i).pendingApply = some origin → target.playing = false →
    (s.eq.dips.get i = none → t.eq.dips = s.eq.dips.set i (some ⟨.fall, none, [⟨origin, true⟩]⟩) ∧
      (t.sc.get i).dip = ⟨(s.sc.get i).dip.value, 0, 256, 0⟩) ∧
    (∀ swap waiting, s.eq.dips.get i = some ⟨.fall, swap, waiting⟩ →
      t.eq.dips = s.eq.dips.set i (some ⟨.fall, swap, waiting ++ [⟨origin, true⟩]⟩) ∧
        (t.sc.get i).dip = (s.sc.get i).dip) ∧
    (∀ result waiting, s.eq.dips.get i = some ⟨.rise, some result, waiting⟩ → stands)

/-! ## Sound states -/

/-- A state that every block's chapter allows. -/
def State.sound (s : State) : Prop :=
  s.storesCanonical ∧ s.storeSound ∧ s.queuesBounded ∧ s.triggersBounded ∧ s.screensSound ∧ s.poolWhole ∧
    s.pagesMatch ∧ s.li.up.sound ∧ s.li.down.sound ∧ s.rampsSound ∧ s.alarmsSound ∧ s.clocksSound

end Sys2Proof.Machine
end

