-- ==== Sys2Proof/Certificates/Slice0/Obligations.lean ====
section
/-!
DEFINITION. The statements for the provers, from the numbered rules of spec/.

A statement about a command gives its next state in full where that state is short, as an equation, and otherwise says
what changes and what does not. `State.ready` is the condition under which the interpreter executes a request as it
arrives (R176, R177); an event's condition is that it is due in this link frame, the model's convention (assumption 1).
-/

open Sys2Proof Sys2Proof.Machine

/-! ## The machine as a whole -/

/-- A step carries out the command at the front of the queue, on the state with the queue's rest; on an empty queue it
changes nothing (assumption 7). -/
def Obligations.StepTakesTheFrontCommand : Prop :=
  (∀ (c : Instr) (rest : List Instr) (s : State), s.pending = c :: rest →
    step s = exec c { s with pending := rest }) ∧
  ∀ s : State, s.pending = [] → step s = .next s

/-- Every command completes in every state, and none changes the queue of waiting commands. Both are the model's: the queue
is assumption 7, and that the command of an event which is not due changes nothing is assumption 1. -/
def Obligations.EveryCommandCompletes : Prop :=
  ∀ (c : Instr) (s : State), ∃ t, exec c s = .next t ∧ t.pending = s.pending

/-- The state right after power-up from an erased image is sound. -/
def Obligations.ResetStateIsSound : Prop := State.reset.sound

/-- Every step keeps the store and its image in their canonical form within their 60 pages, and keeps the elapsed count 0 in
IDLE and every screen OFFLINE throughout a restore (R166, R171, R173, R174). -/
def Obligations.StoresStaySound : Prop :=
  ∀ s t : State, step s = .next t →
    (s.storesCanonical → t.storesCanonical) ∧ (s.storeSound → t.storeSound)

/-- Every step keeps the request queue within 4 messages, the reply part within 8 and the report part within 32 (R176,
R182), and the trigger queue within 32 non-clock triggers and one CLOCK trigger a screen, none deeper than 3 (R148,
R149). -/
def Obligations.QueuesStayBounded : Prop :=
  ∀ s t : State, step s = .next t →
    (s.queuesBounded → t.queuesBounded) ∧ (s.triggersBounded → t.triggersBounded)

/-- Every step keeps the parts of every screen record and decode record present exactly when the screen's state gives
them (R2, R8, R9, R39). -/
def Obligations.ScreensStaySound : Prop :=
  ∀ s t : State, s.screensSound → step s = .next t → t.screensSound

/-- Every step keeps each of the 512 delay pages in exactly one page list or in the free list (R67). -/
def Obligations.PoolStaysWhole : Prop :=
  ∀ s t : State, s.poolWhole → step s = .next t → t.poolWhole

/-- Every step keeps each channel's page list at the page need of its delay in the active bank while its screen is not
OFFLINE, and empty while it is (R67, R68, R69, R74), on states whose store is canonical and whose screens are OFFLINE in a
restore. -/
def Obligations.PagesStayMatched : Prop :=
  ∀ s t : State, s.storesCanonical → s.storeSound → s.pagesMatch → step s = .next t → t.pagesMatch

/-- Every step keeps the sticky flags of a tier that is reached set and the counters within 0 to 15 (R98). -/
def Obligations.AlarmsStaySound : Prop :=
  ∀ s t : State, s.alarmsSound → step s = .next t → t.alarmsSound

/-- Every step keeps every show clock within its fields, its latched rate and its frame length (R118), and every ramp
within 0 to 32768 and within its length (R15, R85). -/
def Obligations.ClocksAndRampsStaySound : Prop :=
  ∀ s t : State, step s = .next t →
    (s.clocksSound → t.clocksSound) ∧ (s.rampsSound → t.rampsSound)

/-- Every step keeps both ports' counters to what their lock states count (R27). -/
def Obligations.PortsStaySound : Prop :=
  ∀ s t : State, s.li.up.sound ∧ s.li.down.sound → step s = .next t → t.li.up.sound ∧ t.li.down.sound

/-- A link frame passes (R15, R28, R85, R89, R120, R127, R139, R172): a LINK_FRAME after the frame's work, an upstream
frame after the frame's one or after its work, and a rack status word after the frame's one act on the state with every
ramp, every sub-frame count, tick phase and generator phase, the window counter, every protect ramp and the elapsed count
advanced by one; a count that ends its period is left due (assumptions 1, 12 and 23 are the model's reading of which command
begins a link frame and of what is left due). What the frame had still to take is taken before; a quiet frame has nothing
to take. -/
def Obligations.TimePassesByOneLinkFrame : Prop :=
  ∀ s : State, (s.quiet → s.finishFrame = s) ∧
    let e := s.finishFrame
    let advanced (r : Ramp) : Ramp := if r.position < r.length then { r with position := r.position + 1 } else r
    ∃ next : State,
      next = { e with li := next.li, ts := next.ts, sc := next.sc, os := next.os, ct := next.ct, bl := next.bl } ∧
      next.li = { e.li with upSeen := false, downSeen := false, worked := false } ∧
      next.ts = { e.ts with elapsed := if e.ts.state = .idle then e.ts.elapsed else e.ts.elapsed + 1 } ∧
      (∀ i, let r := e.sc.get i
        next.sc.get i = { r with
          fader := advanced r.fader, mute := advanced r.mute
          safeRamp := advanced r.safeRamp, dip := advanced r.dip }) ∧
      (∀ i c, let ch := (e.os.channels.get i).get c
        (next.os.channels.get i).get c = { ch with protect := advanced ch.protect }) ∧
      next.os.gains = e.os.gains ∧
      next.os.window = (if e.os.window + 1 < 4800 then e.os.window + 1 else e.os.window) ∧
      next.os.windowDue = decide (4800 ≤ e.os.window + 1) ∧
      (∀ i, let c := e.ct.clocks.get i
        next.ct.clocks.get i =
          if c.running = false then c
          else if c.subFrame + 1 < c.rate.frameLength then { c with subFrame := c.subFrame + 1 }
          else { c with advanceDue := true }) ∧
      (∀ i k, let tm := (e.ct.timers.get i).get k
        let length := if tm.base = .millisecond then 48
          else if tm.base = .second then 48000 else (e.ct.clocks.get i).rate.frameLength
        (next.ct.timers.get i).get k =
          if tm.running = false then { tm with counted := false }
          else if tm.phase + 1 < length then { tm with phase := tm.phase + 1, counted := true }
          else { tm with tickDue := true, counted := false }) ∧
      (∀ n, next.bl.inputs.get n = { e.bl.inputs.get n with held := false }) ∧ next.bl.key = e.bl.key ∧
      next.bl.sampling = .due ∧
      (∀ n : Fin 16, let o := e.bl.outputs.get n
        let w := e.word 27 (17 + 2 * n.val)
        let length := 48 * max 1 (if o.drive = .pulseHigh then field w 16 16 else field w 0 16)
        next.bl.outputs.get n =
          if o.drive = .low ∨ o.drive = .high then o
          else if o.phase + 1 < length then { o with phase := o.phase + 1 }
          else { o with periodDue := true }) ∧
      (s.li.worked = true → ∀ lines key, exec (.linkFrame lines key) s = exec (.linkFrame lines key) next) ∧
      (s.li.worked = true ∨ s.li.upSeen = true → ∀ intact slots first second,
        exec (.upstreamFrame intact slots first second) s = exec (.upstreamFrame intact slots first second) next) ∧
      (s.li.downSeen = true → ∀ intact word,
        exec (.rackStatusWord intact word) s = exec (.rackStatusWord intact word) next)

/-! ## Messages -/

/-- A message is SYNC A5h, its LENGTH, its body and the two bytes of its check, which a register of FFFFh gives that takes the
LENGTH and the body byte by byte, each in eight shifts with 1021h (R184, R185); a receiver in HUNT that takes a message of a
length the control lane carries completes exactly its body and returns to HUNT (R175). -/
def Obligations.ReceiverReadsFramedBodies : Prop :=
  let shift (r : BitVec 16) : BitVec 16 := if r.getLsbD 15 = true then (r <<< 1) ^^^ 0x1021 else r <<< 1
  let taken (r : BitVec 16) (b : Byte) : BitVec 16 := shift^[8] (r ^^^ (b ++ (0 : Byte)))
  (∀ body : List Byte, 2 ≤ body.length → body.length ≤ 255 →
    let counted := BitVec.ofNat 8 body.length :: body
    let check := counted.foldl taken 0xFFFF
    framed body = (0xA5 : Byte) :: counted ++ [check.extractLsb' 8 8, check.extractLsb' 0 8]) ∧
  ∀ body : List Byte, 2 ≤ body.length → body.length ≤ 133 →
    Receiver.take .hunting (framed body) = (.hunting, [body])

/-- A well-formed request command is its message: the body reads back from the lane as the request, and the command's
effect is that request's arrival and the interpreter's run. -/
def Obligations.RequestCommandsAreTheirMessages : Prop :=
  ∀ (c : Instr) (body : List Byte), c.wellFormed = true → messageOf c = some body →
    ∃ r, requestOf c = some r ∧
      (Receiver.take .hunting (framed body)).2.map Request.ofBody = [some r] ∧
      ∀ s : State, exec c s = .next (s.joinRequest r).interpret

/-- A request that cannot be executed on arrival: it waits while fewer than 4 wait; at 4 it is answered BUSY while
fewer than 8 replies wait, and otherwise leaves no trace (R176, R177). That the BUSY reply carries no data, for a SCREEN
ACTION too, is the model's reading (assumption 17). -/
def Obligations.RequestsWaitOrAreDiscarded : Prop :=
  ∀ (c : Instr) (r : Request) (s : State), requestOf c = some r → 7 ≤ s.ci.replies.length →
    (s.ci.requests.length < 4 →
      exec c s = .next { s with ci := { s.ci with requests := s.ci.requests ++ [r] } }) ∧
    (4 ≤ s.ci.requests.length → s.ci.replies.length = 7 → exec c s = .next (s.reply r.tag .busy [])) ∧
    (4 ≤ s.ci.requests.length → 8 ≤ s.ci.replies.length → exec c s = .next s)

/-- An upstream frame's control bytes reach the receiver, which takes both (R22, R175), and the requests they complete reach
the request queue (R176). That every message which the two bytes complete joins the queue before the interpreter runs is the
model's choice (assumption 10): R177 has the interpreter take a request whenever it may. A message sent in pieces is followed
through: while bytes of it are still to come nothing joins, and the frame that brings its last byte, in either byte position,
brings its request; a SYNC in the second position begins the next message. That is a LOCKED port's frame; a damaged frame's
bytes, and those of a LOST port's frame, reach no request: the receiver stands in HUNT whatever it had read (R29). A LOST
port's frame that completes its intact run is held for the change of lock (assumption 1). -/
def Obligations.ControlBytesReachTheRequestQueue : Prop :=
  (∀ (s : State) (intact : Bool) (slots : List InSlot) (first second : Byte), s.li.worked = false →
    s.li.upSeen = false → intact = false ∨ (s.li.up.lock = .lost ∧ s.li.up.intactRun < 479) →
    ∃ up sources descriptors, exec (.upstreamFrame intact slots first second) s = .next (State.interpret { s with
      li := { s.li with
        up := up, upSeen := true, sources := sources, descriptors := descriptors, receiver := ⟨.hunt, []⟩ } })) ∧
  ∀ (s : State) (slots : List InSlot) (first second : Byte), s.li.worked = false → s.li.upSeen = false →
    s.li.up.lock = .locked → ∃ sources descriptors,
    let gathered (receiver : Receiver) : State := { s with li := { s.li with
      up := { s.li.up with failureRun := 0 }, upSeen := true, sources := sources, descriptors := descriptors
      receiver := receiver } }
    let becomes (t : State) : Prop := exec (.upstreamFrame true slots first second) s = .next t.interpret
    (∀ receiver bodies, s.li.receiver.take [first, second] = (receiver, bodies) →
      becomes (bodies.foldl (fun s body =>
        match Request.ofBody body with
        | some r => s.joinRequest r
        | none => s) (gathered receiver))) ∧
    ∀ (body sent : List Byte), 2 ≤ body.length → body.length ≤ 133 → s.li.receiver = (Receiver.take .hunting sent).1 →
      (∀ more, more ≠ [] → framed body = sent ++ [first, second] ++ more →
        becomes (gathered (Receiver.take .hunting (sent ++ [first, second])).1)) ∧
      ∀ r, Request.ofBody body = some r →
        (framed body = sent ++ [first, second] → becomes ((gathered ⟨.hunt, []⟩).joinRequest r)) ∧
        (framed body = sent ++ [first] → second ≠ 0xA5 → becomes ((gathered ⟨.hunt, []⟩).joinRequest r)) ∧
        (framed body = sent ++ [first] → second = 0xA5 → becomes ((gathered ⟨.length, [0xA5]⟩).joinRequest r))

/-- A request that names a screen above 7 is refused with RANGE: LEVEL, SCREEN STATE, CLOCK LOAD, TIMER SET, RESUME,
QUERY SCREEN, QUERY CHANNEL and every SCREEN ACTION. One whose code names no request, or no action for a screen 0 to 7,
is refused with BAD_KIND. Each changes nothing else (R3, R12, R16, R21, R93, R122, R126, R177, R179). -/
def Obligations.UnnamedScreensAndCodesAreRefused : Prop :=
  ∀ (s : State) (tag : Byte), s.ready →
    (∀ screen : Byte, 7 < screen.toNat →
      (∀ value ramp, exec (.level tag screen value ramp) s = .next (s.reply tag .range [])) ∧
      (∀ target, exec (.screenState tag screen target) s = .next (s.reply tag .range [])) ∧
      (∀ h m sec f run, exec (.clockLoad tag screen h m sec f run) s = .next (s.reply tag .range [])) ∧
      (∀ timer base count reload, exec (.timerSet tag screen timer base count reload) s =
        .next (s.reply tag .range [])) ∧
      exec (.resume tag screen) s = .next (s.reply tag .range []) ∧
      exec (.queryScreen tag screen) s = .next (s.reply tag .range []) ∧
      (∀ channel, exec (.queryChannel tag screen channel) s = .next (s.reply tag .range [])) ∧
      ∀ (c : Instr) (a : Action), requestOf c = some ⟨tag, .screenAction screen a⟩ →
        exec c s = .next (s.reply tag .range [0xFF, 0xFF])) ∧
    (∀ code : Byte, code.toNat = 0 ∨ 14 < code.toNat →
      exec (.badKindRequest tag (.type code)) s = .next (s.reply tag .badKind [])) ∧
    ∀ screen i (code : BitVec 16), screenOf screen = some i → code.toNat / 4096 = 0 ∨ 12 < code.toNat / 4096 →
      exec (.badKindRequest tag (.action screen code)) s = .next (s.reply tag .badKind [0xFF, 0xFF])

/-! ## Fader, mute and format -/

/-- A LEVEL action gives F the preset it names and a LEVEL request its value, each clamped to 32768, as the target over
the length of the ramp code; a ramp code above 3 is refused with RANGE (R15, R16). -/
def Obligations.LevelMovesTheFader : Prop :=
  ∀ (s : State) (i : Fin 8),
    let faded (target length : Nat) : State :=
      s.modifyScreen i fun r => { r with fader := ⟨r.fader.value, target, length, 0⟩ }
    let lengthOf (code : Nat) : Nat := [256, 1024, 4096, 16384].getD code 0
    let preset (p : Fin 8) : Nat := min (field (s.word 1 (32 * i.val + (4 + p.val))) 0 16) 32768
    (∀ origin depth p r, s.runAction i origin depth (.level p r) = (faded (preset p) (lengthOf r.val), .done)) ∧
    ∀ tag screen, screenOf screen = some i → s.ready →
      (∀ value ramp, ramp.toNat ≤ 3 → exec (.level tag screen value ramp) s =
        .next ((faded (min value.toNat 32768) (lengthOf ramp.toNat)).reply tag .ok [])) ∧
      (∀ value ramp, 3 < ramp.toNat → exec (.level tag screen value ramp) s = .next (s.reply tag .range [])) ∧
      ∀ p r, exec (.levelAction tag screen p r) s =
        .next ((faded (preset p) (lengthOf r.val)).reply tag .ok [3, 0])

/-- MUTE gives M the target 0 or 32768 over 256 link frames from its current value, with outcome DONE in every state,
and a LEVEL leaves M alone (R17). -/
def Obligations.MuteMovesTheMuteRamp : Prop :=
  ∀ (s : State) (i : Fin 8) (on : Bool),
    let muted : State := s.modifyScreen i fun r => { r with mute := ⟨r.mute.value, if on then 0 else 32768, 256, 0⟩ }
    (∀ origin depth, s.runAction i origin depth (.mute on) = (muted, .done)) ∧
    (∀ tag screen, screenOf screen = some i → s.ready →
      exec (.muteAction tag screen on) s = .next (muted.reply tag .ok [4, 0])) ∧
    ∀ origin depth p r j, ((s.runAction i origin depth (.level p r)).1.sc.get j).mute = (s.sc.get j).mute

/-- FORMAT records the forced format and RELEASE removes it, in every screen state (R43). -/
def Obligations.FormatIsForcedAndReleased : Prop :=
  ∀ (s : State) (i : Fin 8) (tag screen : Byte), screenOf screen = some i → s.ready →
    (∀ f, exec (.formatAction tag screen f) s =
      .next ((s.modifyDecode i fun d => { d with forced := some f }).reply tag .ok [5, 0])) ∧
    exec (.releaseAction tag screen) s =
      .next ((s.modifyDecode i fun d => { d with forced := none }).reply tag .ok [6, 0])

/-! ## Screen states -/

/-- An allowed change of state asked for by a SCREEN STATE request or a STATE action, the upstream port LOCKED or the target
neither PRESHOW nor FEATURE: the screen has the target state, its F and M ramps and its bank stand; entering SAFE records the
old state and the cause COMMAND and starts S toward the safe gain over 64 link frames, leaving it removes both and starts S
toward 32768, and S stands otherwise (R9, R13); a pending apply is kept into a playing state, and otherwise removed and handed
over (R8); the entries that the change forces stand at NORMAL, and the protect targets follow (R7, R104, R109, R112). The STATE
report with the old and the new state and the request as its cause joins the report part, with the reports of forced falls, in
entry order (assumption 45), and of an apply handed over, in any order of the blocks, the STATE trigger of depth 0 joins the
trigger queue, and nothing of another screen's record, of the tables, the clocks, the lines or the link changes (R3, R4, R5,
R6). -/
def Obligations.AllowedStateChangesAreMade : Prop :=
  ∀ (s : State) (i : Fin 8) (tag screen : Byte) (target : ScreenState),
    screenOf screen = some i → s.ready → (s.li.up.lock = .locked ∨ (target ≠ .preshow ∧ target ≠ .feature)) →
    (s.screenState i, target) ∈ [(ScreenState.idle, ScreenState.preshow), (.idle, .feature), (.idle, .offline),
        (.idle, .safe), (.preshow, .feature), (.preshow, .idle), (.preshow, .safe), (.feature, .idle),
        (.feature, .safe), (.safe, .idle), (.safe, .offline)] ∨
      (s.screenState i = .offline ∧ target = .idle ∧ s.ts.state ≠ .restoring ∧
        s.bankNeed i (s.activeBank i) ≤ s.freePages) →
    let old := s.screenState i
    let made (t : State) (data : List Byte) : Prop :=
      t.screenState i = target ∧ (t.sc.get i).fader = (s.sc.get i).fader ∧ (t.sc.get i).mute = (s.sc.get i).mute ∧
        (t.sc.get i).activeBank = (s.sc.get i).activeBank ∧
        (t.sc.get i).resume = (if target = .safe then some old else none) ∧
        (t.sc.get i).cause = (if target = .safe then some .command else none) ∧
        (t.sc.get i).safeRamp =
          (if target = .safe then
            ⟨(s.sc.get i).safeRamp.value, min (field (s.word 1 (32 * i.val + 12)) 0 16) 32768, 64, 0⟩
          else if old = .safe then ⟨(s.sc.get i).safeRamp.value, 32768, 64, 0⟩ else (s.sc.get i).safeRamp) ∧
        s.ApplyHanded t i target ∧ s.FallsFollow t i old target ∧ (∀ j, j ≠ i → t.sc.get j = s.sc.get j) ∧
        s.ReportsJoin t [] [[.state i old target (.request tag)], s.fallReports i old target,
          s.handedReports i target] ∧
        s.TriggersJoin t [⟨.state i target, 0⟩] ∧
        t.ci.replies = s.ci.replies ++ [⟨tag, .ok, data⟩] ∧ t.ci.requests = s.ci.requests ∧ t.ts = s.ts ∧
        t.li = s.li ∧ t.ct = s.ct ∧ t.bl = s.bl ∧ t.ce.cues = s.ce.cues
    (∃ t, exec (.screenState tag screen (byte target.code)) s = .next t ∧ made t []) ∧
    ∃ t, exec (.stateAction tag screen (BitVec.ofNat 3 target.code)) s = .next t ∧ made t [1, 0]

/-- A change of state asked for by a SCREEN STATE request, a STATE action or a SAFE action that makes no change: a target
equal to the state is answered OK with outcome DONE; a target that is not allowed, or names no state, STATE; an enable that
the pool does not hold NO_SPACE, and one during a restore STATE. A SCREEN STATE reply carries no data, an action's its kind
and its outcome. Each changes nothing but for its reply (R3, R5, R156, R174, R179). -/
def Obligations.OtherStateChangesChangeNothing : Prop :=
  ∀ (s : State) (i : Fin 8) (tag screen : Byte) (target : Nat), screenOf screen = some i → s.ready →
    let answered (result : ResultCode) (outcome : Byte) : Prop :=
      (∀ b : Byte, b.toNat = target → exec (.screenState tag screen b) s = .next (s.reply tag result [])) ∧
      (∀ b : BitVec 3, b.toNat = target →
        exec (.stateAction tag screen b) s = .next (s.reply tag result [1, outcome])) ∧
      (target = 4 → exec (.safeAction tag screen) s = .next (s.reply tag result [2, outcome]))
    (ScreenState.ofCode target = some (s.screenState i) → answered .ok 0) ∧
    (ScreenState.ofCode target = none → answered .state 2) ∧
    (∀ t, ScreenState.ofCode target = some t →
      (s.screenState i, t) ∈ [(ScreenState.offline, ScreenState.preshow), (.offline, .feature), (.offline, .safe),
        (.preshow, .offline), (.feature, .preshow), (.feature, .offline), (.safe, .preshow), (.safe, .feature)] →
      answered .state 2) ∧
    (s.screenState i = .offline → target = 1 →
      (s.ts.state = .restoring → answered .state 2) ∧
      (s.ts.state ≠ .restoring → s.freePages < s.bankNeed i (s.activeBank i) → answered .noSpace 3))

/-- An enable, by a SCREEN STATE request or a STATE action, brings the screen up: each channel receives the pages of its
delay in the active bank at the end of its page list, from the free list; every history and delay line is zero; the profile
to be used is the current one at once, with no incoming and no pending profile, and the rest of the decode record stands;
the output stage, the alarm entries and the other screens stand (R5, R57, R64, R65, R68). -/
def Obligations.EnableBringsTheScreenUp : Prop :=
  ∀ (s : State) (i : Fin 8) (tag screen : Byte) (c : Instr), screenOf screen = some i → s.ready →
    c = .screenState tag screen 1 ∨ c = .stateAction tag screen 1 → s.screenState i = .offline →
    s.ts.state ≠ .restoring → s.bankNeed i (s.activeBank i) ≤ s.freePages →
    let format := match (s.de.get i).forced, s.li.descriptors.get i with
      | some f, _ => f
      | none, .unmapped => s.defaultFormat i
      | none, _ => (s.de.get i).accepted
    ∃ t, exec c s = .next t ∧ t.screenState i = .idle ∧
      (∀ c, ∃ given, t.pagesOf i c = s.pagesOf i c ++ given ∧
        given.length = pageNeed (s.delay i (s.activeBank i) c) ∧ ∀ p ∈ given, p ∈ s.eq.free) ∧
      t.freePages + s.bankNeed i (s.activeBank i) = s.freePages ∧
      (∀ c, ((t.eq.channels.get i).get c).line = [] ∧
        ∀ k, ((t.eq.channels.get i).get c).sections.get k = ⟨0, 0, 0, 0⟩) ∧
      (∃ justEnabled, t.de.get i = { s.de.get i with
        current := some (s.formatMap i format), incoming := none, pending := none, justEnabled := justEnabled }) ∧
      (∀ j, j ≠ i → t.eq.channels.get j = s.eq.channels.get j ∧ t.de.get j = s.de.get j) ∧
      ((s.sc.get i).pendingApply = none → t.eq.dips = s.eq.dips) ∧ t.os = s.os ∧ t.am = s.am

/-- Entering OFFLINE from IDLE or SAFE takes the screen down: its channels hold no page, history or delayed sample and the
pages are free; its decode record is idle with envelopes of 0 and keeps the accepted, candidate and forced formats and the
steering entry; its output channels stand as after a reset and its effective gain is 0; its alarm entries stand at NORMAL
with counters 0 and keep their flags, other entries stand, and the protect targets are recomputed, 32768 for the screen's own
channels; leaving SAFE starts S toward 32768 over 64 link frames and removes the resume state and the cause (R6, R13, R46, R57,
R68, R86, R94, R109, R112). -/
def Obligations.DisableTakesTheScreenDown : Prop :=
  ∀ (s : State) (i : Fin 8) (tag screen : Byte) (c : Instr), screenOf screen = some i → s.ready →
    c = .screenState tag screen 0 ∨ c = .stateAction tag screen 0 →
    s.screenState i = .idle ∨ s.screenState i = .safe →
    ∃ t, exec c s = .next t ∧ t.screenState i = .offline ∧ t.drivenMask i = 0 ∧
      (t.sc.get i).resume = none ∧ (t.sc.get i).cause = none ∧ (t.sc.get i).pendingApply = none ∧
      (s.screenState i = .safe → (t.sc.get i).safeRamp = ⟨(s.sc.get i).safeRamp.value, 32768, 64, 0⟩) ∧
      (s.screenState i = .idle → (t.sc.get i).safeRamp = (s.sc.get i).safeRamp) ∧
      (∀ c, let ch := (t.eq.channels.get i).get c
        ch.pages = [] ∧ ch.line = [] ∧ ∀ k, ch.sections.get k = ⟨0, 0, 0, 0⟩) ∧
      t.eq.free.Perm (s.eq.free ++ (List.finRange 16).flatMap fun c => s.pagesOf i c) ∧
      (∃ justEnabled, t.de.get i = { s.de.get i with
        current := none, incoming := none, pending := none, envL := 0, envR := 0, envS := 0, envD := 0
        justEnabled := justEnabled }) ∧
      (∀ c, ∃ length, (t.os.channels.get i).get c = ⟨⟨32768, 32768, length, length⟩, 0, 0, 0, 0, []⟩) ∧
      t.os.gains.get i = 0 ∧ t.os.window = s.os.window ∧
      (∀ e, t.am.entries.get e =
        let r := s.am.entries.get e
        if (s.alarmEntry e).screen = i then { r with tier := .normal, warnCount := 0, tripCount := 0 } else r) ∧
      t.targetsFollow ∧ (∀ c, (t.am.targets.get i).get c = 32768) ∧ t.am.demands = s.am.demands ∧
      t.am.slots = s.am.slots ∧
      (∀ j, j ≠ i → t.eq.channels.get j = s.eq.channels.get j ∧ t.de.get j = s.de.get j ∧
        t.os.gains.get j = s.os.gains.get j ∧ ∀ c, (t.os.channels.get j).get c =
          let ch := (s.os.channels.get j).get c
          { ch with protect := ch.protect.protectTake ((t.am.targets.get j).get c) })

/-- A SAFE action for a screen in IDLE, PRESHOW or FEATURE takes it into SAFE: the old state is the resume state, the
cause is COMMAND, S starts from its value toward the safe gain over 64 link frames, a pending apply leaves the record and is
handed over, and the F and M ramps stand; the FLOOR entries of a screen that played stand at NORMAL with counters 0 and their
flags, and the protect targets follow; the STATE report and the STATE trigger are made, with the reports of the forced falls,
in entry order (assumption 45), and of an apply handed over (R4, R7, R8, R9, R104, R109). -/
def Obligations.SafeActionEntersSafe : Prop :=
  ∀ (s : State) (i : Fin 8) (tag screen : Byte), screenOf screen = some i → s.ready →
    s.screenState i = .idle ∨ s.screenState i = .preshow ∨ s.screenState i = .feature →
    ∃ t, exec (.safeAction tag screen) s = .next t ∧
      (t.sc.get i).state = .safe ∧ (t.sc.get i).resume = some (s.screenState i) ∧
      (t.sc.get i).cause = some .command ∧ (t.sc.get i).pendingApply = none ∧
      (t.sc.get i).safeRamp = ⟨(s.sc.get i).safeRamp.value, min (field (s.word 1 (32 * i.val + 12)) 0 16) 32768, 64, 0⟩ ∧
      (t.sc.get i).fader = (s.sc.get i).fader ∧ (t.sc.get i).mute = (s.sc.get i).mute ∧
      (t.sc.get i).activeBank = (s.sc.get i).activeBank ∧
      ((s.sc.get i).pendingApply = none → (t.sc.get i).dip = (s.sc.get i).dip ∧ t.eq = s.eq) ∧
      s.ApplyHanded t i .safe ∧ s.FallsFollow t i (s.screenState i) .safe ∧
      (∀ j, j ≠ i → t.sc.get j = s.sc.get j) ∧
      s.ReportsJoin t [] [[.state i (s.screenState i) .safe (.request tag)], s.fallReports i (s.screenState i) .safe,
        s.handedReports i .safe] ∧
      s.TriggersJoin t [⟨.state i .safe, 0⟩] ∧
      t.ci.replies = s.ci.replies ++ [⟨tag, .ok, [2, 0]⟩] ∧ t.ts = s.ts ∧ t.li = s.li ∧ t.de = s.de ∧ t.ct = s.ct ∧
      t.bl = s.bl

/-- RESUME: the checks in their order, and, with the upstream port LOCKED or for a resume state IDLE, the return to the resume
state with S started back to 32768, the STATE report and the STATE trigger; the alarm entries, the protect targets and ramps
stand (R4, R12, R13). The answer is TRIP_ACTIVE while an enabled entry of the screen with safe-on-trip stands in TRIP (R12). -/
def Obligations.ResumeReturnsFromSafe : Prop :=
  ∀ (s : State) (i : Fin 8) (tag screen : Byte), screenOf screen = some i → s.ready →
    let tripActive : Prop := ∃ e : Fin 256, (s.am.entries.get e).tier = .trip ∧
      flag (s.word (19 + e.val / 64) (4 * (e.val % 64))) 0 = true ∧
      field (s.word (19 + e.val / 64) (4 * (e.val % 64))) 4 3 = i.val ∧
      flag (s.word (19 + e.val / 64) (4 * (e.val % 64) + 3)) 16 = true
    (s.screenState i ≠ .safe → exec (.resume tag screen) s = .next (s.reply tag .state [])) ∧
    ∀ target, s.screenState i = .safe → (s.sc.get i).resume = some target →
      target = .idle ∨ target = .preshow ∨ target = .feature →
      ((s.sc.get i).cause = some .link → s.li.up.lock = .lost →
        exec (.resume tag screen) s = .next (s.reply tag .state [])) ∧
      (¬((s.sc.get i).cause = some .link ∧ s.li.up.lock = .lost) → tripActive →
        exec (.resume tag screen) s = .next (s.reply tag .tripActive [])) ∧
      (s.li.up.lock = .locked ∨ ((s.sc.get i).cause ≠ some .link ∧ target = .idle) → ¬tripActive →
        ∃ t, exec (.resume tag screen) s = .next t ∧
          (t.sc.get i).state = target ∧ (t.sc.get i).resume = none ∧ (t.sc.get i).cause = none ∧
          (t.sc.get i).safeRamp = ⟨(s.sc.get i).safeRamp.value, 32768, 64, 0⟩ ∧
          (t.sc.get i).fader = (s.sc.get i).fader ∧ (t.sc.get i).mute = (s.sc.get i).mute ∧
          s.ApplyHanded t i target ∧ s.FallsFollow t i .safe target ∧ (∀ j, j ≠ i → t.sc.get j = s.sc.get j) ∧
          s.ReportsJoin t [] [[.state i .safe target (.request tag)], s.handedReports i target] ∧
          s.TriggersJoin t [⟨.state i target, 0⟩] ∧
          t.ci.replies = s.ci.replies ++ [⟨tag, .ok, []⟩] ∧ t.ts = s.ts ∧ t.li = s.li ∧ t.ct = s.ct ∧ t.bl = s.bl)

/-- While the upstream port is LOST, a screen that comes to PRESHOW or FEATURE, by a SCREEN STATE request, a STATE action or a
RESUME of cause COMMAND or ALARM that no entry in TRIP holds back, enters SAFE with cause LINK in the same operation: that
state is its resume state, S moves toward the safe gain, a pending apply is handed over, the FLOOR entries of the screen stand
at NORMAL and the protect targets follow, and two STATE reports and two STATE triggers are made in this order; the reports of
the forced falls join with the second, in entry order (assumption 45) (R4, R7, R8, R9, R11, R12, R104). -/
def Obligations.ALostLinkTakesTheShowToSafe : Prop :=
  ∀ (s : State) (i : Fin 8) (tag screen : Byte) (target : ScreenState), screenOf screen = some i → s.ready →
    s.li.up.lock = .lost → target = .preshow ∨ target = .feature →
    let old := s.screenState i
    let tripActive : Prop := ∃ e : Fin 256, (s.am.entries.get e).tier = .trip ∧
      flag (s.word (19 + e.val / 64) (4 * (e.val % 64))) 0 = true ∧
      field (s.word (19 + e.val / 64) (4 * (e.val % 64))) 4 3 = i.val ∧
      flag (s.word (19 + e.val / 64) (4 * (e.val % 64) + 3)) 16 = true
    let safed (t : State) (data : List Byte) : Prop :=
      (t.sc.get i).state = .safe ∧ (t.sc.get i).resume = some target ∧ (t.sc.get i).cause = some .link ∧
        (t.sc.get i).pendingApply = none ∧
        (t.sc.get i).safeRamp =
          ⟨(s.sc.get i).safeRamp.value, min (field (s.word 1 (32 * i.val + 12)) 0 16) 32768, 64, 0⟩ ∧
        (t.sc.get i).fader = (s.sc.get i).fader ∧ (t.sc.get i).mute = (s.sc.get i).mute ∧
        (t.sc.get i).activeBank = (s.sc.get i).activeBank ∧ s.ApplyHanded t i .safe ∧ s.FallsFollow t i target .safe ∧
        (∀ j, j ≠ i → t.sc.get j = s.sc.get j) ∧
        s.ReportsJoin t [.state i old target (.request tag)]
          [[.state i target .safe .link], s.fallReports i target .safe, s.handedReports i .safe] ∧
        s.TriggersJoin t [⟨.state i target, 0⟩, ⟨.state i .safe, 0⟩] ∧
        t.ci.replies = s.ci.replies ++ [⟨tag, .ok, data⟩] ∧ t.ts = s.ts ∧ t.li = s.li ∧ t.ct = s.ct ∧ t.bl = s.bl ∧
        t.ce.cues = s.ce.cues
    (old = .idle ∨ (old = .preshow ∧ target = .feature) →
      (∃ t, exec (.screenState tag screen (byte target.code)) s = .next t ∧ safed t []) ∧
      ∃ t, exec (.stateAction tag screen (BitVec.ofNat 3 target.code)) s = .next t ∧ safed t [1, 0]) ∧
    (old = .safe → (s.sc.get i).resume = some target → (s.sc.get i).cause ≠ some .link → ¬tripActive →
      ∃ t, exec (.resume tag screen) s = .next t ∧ safed t [])

/-! ## Applies -/

/-- An APPLY action by the screen's state and its dip record: deferred while the screen plays, ignored during a dip, an
exchange at once while OFFLINE, a checked dip in IDLE or SAFE (R8, R71, R72, R73). -/
def Obligations.ApplyFollowsStateAndDip : Prop :=
  ∀ (s : State) (i : Fin 8) (tag screen : Byte), screenOf screen = some i → s.ready →
    let other (b : Fin 2) : Fin 2 := if b = 0 then 1 else 0
    let need := s.bankNeed i (other (s.activeBank i))
    (s.screenState i = .preshow ∨ s.screenState i = .feature →
      exec (.applyAction tag screen) s = .next ((s.modifyScreen i fun r =>
        { r with pendingApply := some (r.pendingApply.getD (.request tag)) }).reply tag .deferred [7, 1])) ∧
    (s.screenState i = .offline ∨ s.screenState i = .idle ∨ s.screenState i = .safe →
      (s.eq.dips.get i ≠ none → exec (.applyAction tag screen) s = .next (s.reply tag .ok [7, 0])) ∧
      (s.eq.dips.get i = none →
        (s.screenState i = .offline → exec (.applyAction tag screen) s =
          .next ((s.modifyScreen i fun r => { r with activeBank := other r.activeBank }).reply tag .ok [7, 0])) ∧
        (s.screenState i ≠ .offline → need ≤ s.freePages + s.pagesHeld i → exec (.applyAction tag screen) s =
          .next (((s.setDip i (some ⟨.fall, none, [⟨.request tag, false⟩]⟩)).modifyScreen i fun r =>
            { r with dip := ⟨r.dip.value, 0, 256, 0⟩ }).reply tag .ok [7, 0])) ∧
        (s.screenState i ≠ .offline → s.freePages + s.pagesHeld i < need →
          exec (.applyAction tag screen) s = .next (s.reply tag .noSpace [7, 3]))))

/-- A SAFEPOINT action hands a pending apply over: it begins a dip, joins one in FALL, or is reported at once with the
outcome of one in RISE; without one it changes nothing (R8, R76). -/
def Obligations.SafepointHandsOverThePendingApply : Prop :=
  ∀ (s : State) (i : Fin 8) (tag screen : Byte), screenOf screen = some i → s.ready →
    ((s.sc.get i).pendingApply = none → exec (.safepointAction tag screen) s = .next (s.reply tag .ok [8, 0])) ∧
    ∀ origin, (s.sc.get i).pendingApply = some origin →
      let removed : State := s.modifyScreen i fun r => { r with pendingApply := none }
      (s.eq.dips.get i = none → exec (.safepointAction tag screen) s =
        .next (((removed.setDip i (some ⟨.fall, none, [⟨origin, true⟩]⟩)).modifyScreen i fun r =>
          { r with dip := ⟨r.dip.value, 0, 256, 0⟩ }).reply tag .ok [8, 0])) ∧
      (∀ swap waiting, s.eq.dips.get i = some ⟨.fall, swap, waiting⟩ → exec (.safepointAction tag screen) s =
        .next ((removed.setDip i (some ⟨.fall, swap, waiting ++ [⟨origin, true⟩]⟩)).reply tag .ok [8, 0])) ∧
      ∀ result waiting, s.eq.dips.get i = some ⟨.rise, some result, waiting⟩ → exec (.safepointAction tag screen) s =
        .next ((removed.queueReport (.apply i origin result)).reply tag .ok [8, 0])

/-- The swap moment of a dip: the bank is exchanged without a check while OFFLINE, or with new pages for every channel
when the pool holds them, and otherwise not at all, and the rise begins; every waiting origin that is reported always, or on
failure where the swap fails, has its APPLY report in order, with the swap's outcome and counts; a dip whose rise has ended is
removed (R74, R75, R77). -/
def Obligations.DipsSwapAndEnd : Prop :=
  (∀ (s : State) (i : Fin 8) (swap : Option SwapResult) (waiting : List Waiting),
    s.eq.dips.get i = some ⟨.rise, swap, waiting⟩ → (s.sc.get i).dip.atRest = true →
    exec (.dipEnd i) s = .next { s with eq := { s.eq with dips := s.eq.dips.set i none } }) ∧
  ∀ (s : State) (i : Fin 8) (swap : Option SwapResult) (waiting : List Waiting),
    s.eq.dips.get i = some ⟨.fall, swap, waiting⟩ → (s.sc.get i).dip.atRest = true → s.li.worked = true →
    let fits : Prop := s.bankNeed i (s.standbyBank i) ≤ s.freePages + s.pagesHeld i
    ∃ t result, exec (.swapMoment i) s = .next t ∧
      t.eq.dips.get i = some ⟨.rise, some result, []⟩ ∧
      (t.sc.get i).dip = ⟨(s.sc.get i).dip.value, 32768, 256, 0⟩ ∧
      result.needed = s.bankNeed i (s.standbyBank i) ∧ result.activeBank = t.activeBank i ∧
      result.held = t.pagesHeld i ∧ result.free = t.freePages ∧
      s.ReportsJoin t ((waiting.filter fun w => w.always || result.outcome == .noSpace).map fun w =>
        .apply i w.origin result) [] ∧
      (s.screenState i = .offline →
        result.outcome = .done ∧ t.activeBank i = s.standbyBank i ∧ t.eq.channels = s.eq.channels ∧
          t.eq.free = s.eq.free) ∧
      (s.screenState i ≠ .offline → fits →
        result.outcome = .done ∧ t.activeBank i = s.standbyBank i ∧
          ∀ c, (t.pagesOf i c).length = pageNeed (s.delay i (s.standbyBank i) c) ∧
            ((t.eq.channels.get i).get c).line = [] ∧ ((t.eq.channels.get i).get c).sections = .fill 6 .zero) ∧
      (s.screenState i ≠ .offline → ¬fits →
        result.outcome = .noSpace ∧ t.activeBank i = s.activeBank i ∧ t.eq.channels = s.eq.channels ∧
          t.eq.free = s.eq.free) ∧
      (∀ j, j ≠ i → t.sc.get j = s.sc.get j ∧ t.eq.dips.get j = s.eq.dips.get j ∧
        t.eq.channels.get j = s.eq.channels.get j) ∧
      t.ci.replies = s.ci.replies ∧ t.ts = s.ts ∧ t.li = s.li ∧ t.de = s.de ∧ t.os = s.os ∧ t.am = s.am ∧
      t.ct = s.ct ∧ t.bl = s.bl ∧ t.ce = s.ce

/-! ## Booth lines -/

/-- The four LINE operations on a line in CUE mode, whatever its drive state, and none of them on a line in ANNUNCIATOR
mode, whatever screen is named (R138). -/
def Obligations.LineActionsDriveTheOutputs : Prop :=
  ∀ (s : State) (n : Fin 16),
    let annunciator : Prop := field (s.word 27 (16 + 2 * n.val)) 0 2 = 1
    let count := field (s.word 27 (16 + 2 * n.val)) 16 8
    let drives (op : LineOp) : OutputLine :=
      match op with
      | .low => ⟨.low, .pulses 0, 0, false⟩
      | .high => ⟨.high, .pulses 0, 0, false⟩
      | .pulse => ⟨.pulseHigh, .pulses 1, 0, false⟩
      | .train => ⟨.pulseHigh, if count = 0 then .continuous else .pulses count, 0, false⟩
    (∀ i origin depth op, s.runAction i origin depth (.line n op) =
      if annunciator then (s, .lineMode) else (s.setOutput n (drives op), .done)) ∧
    ∀ tag screen i, screenOf screen = some i → s.ready →
      (annunciator →
        exec (.lineLow tag screen n) s = .next (s.reply tag .inUse [9, 4]) ∧
        exec (.lineHigh tag screen n) s = .next (s.reply tag .inUse [9, 4]) ∧
        exec (.linePulse tag screen n) s = .next (s.reply tag .inUse [9, 4]) ∧
        exec (.lineTrain tag screen n) s = .next (s.reply tag .inUse [9, 4])) ∧
      (¬annunciator →
        exec (.lineLow tag screen n) s = .next ((s.setOutput n (drives .low)).reply tag .ok [9, 0]) ∧
        exec (.lineHigh tag screen n) s = .next ((s.setOutput n (drives .high)).reply tag .ok [9, 0]) ∧
        exec (.linePulse tag screen n) s = .next ((s.setOutput n (drives .pulse)).reply tag .ok [9, 0]) ∧
        exec (.lineTrain tag screen n) s = .next ((s.setOutput n (drives .train)).reply tag .ok [9, 0]))

/-- The end of a period of a pulse generator: the last high period leaves the line LOW, an earlier one begins a low period
with one pulse fewer, one of a continuous train begins a low period, and a low period begins a high one (R139). A link
frame samples every input line and the key: a level equal to the stable one ends the run, a debounced one that differs
counts it up to 239, and any other leaves its edge due; an enable cleared in the frame still debounces it (R132, R133,
R136; that an edge is left due is assumption 1). A settled change of an input line makes its edge, with an INPUT trigger
where the line's group is enabled, and a settled change of the booth key makes none (R133, R134, R136). -/
def Obligations.BoothLinesSampleSettleAndStep : Prop :=
  (∀ (s : State) (n : Fin 16) (phase : Nat),
    let becomes (o : OutputLine) : Prop := exec (.pulsePeriodEnd n) s = .next (s.setOutput n o)
    (s.bl.outputs.get n = ⟨.pulseHigh, .pulses 1, phase, true⟩ → becomes ⟨.low, .pulses 0, 0, false⟩) ∧
    (∀ c, 2 ≤ c → s.bl.outputs.get n = ⟨.pulseHigh, .pulses c, phase, true⟩ →
      becomes ⟨.pulseLow, .pulses (c - 1), 0, false⟩) ∧
    (s.bl.outputs.get n = ⟨.pulseHigh, .continuous, phase, true⟩ → becomes ⟨.pulseLow, .continuous, 0, false⟩) ∧
    ∀ r, s.bl.outputs.get n = ⟨.pulseLow, r, phase, true⟩ → becomes ⟨.pulseHigh, r, 0, false⟩) ∧
  (∀ (s : State) (lines : BitVec 16) (keyLocked : Bool), s.workDue → s.bl.sampling = .due →
    let sampled (old new : Debouncer) (level debounce : Bool) : Prop :=
      (level = old.stable → new = ⟨level, level, 0, false, old.held⟩) ∧
      (level ≠ old.stable → debounce = true → old.run < 239 →
        new = ⟨level, old.stable, old.run + 1, false, old.held⟩) ∧
      (level ≠ old.stable → debounce = false ∨ 239 ≤ old.run →
        new = ⟨level, old.stable, old.run, true, old.held⟩)
    ∃ t, exec (.linkFrame lines keyLocked) s = .next t ∧ t.bl.sampling = .taken ∧ t.bl.outputs = s.bl.outputs ∧
      sampled s.bl.key t.bl.key keyLocked true ∧
      ∀ n : Fin 16, sampled (s.bl.inputs.get n) (t.bl.inputs.get n) (lines.getLsb n)
        (flag (s.word 27 n.val) 8 || (s.bl.inputs.get n).held)) ∧
  (∀ (s : State) (n : Fin 16) (raw held : Bool) (run : Nat),
    s.bl.inputs.get n = ⟨raw, !raw, run, true, held⟩ →
    (flag (s.word 27 n.val) 8 = true ∨ held = true → run = 239) →
    let settled : State := s.setInput n ⟨raw, raw, 0, false, held⟩
    (flag (s.word 27 48) (n.val / 4) = false → exec (.inputEdge n) s = .next settled) ∧
    (flag (s.word 27 48) (n.val / 4) = true → exec (.inputEdge n) s = .next (settled.pushTrigger
      ⟨.input n (if raw then .rise else .fall) (index 8 (field (s.word 27 n.val) 0 3)), 0⟩))) ∧
  ∀ (s : State) (raw held : Bool), s.bl.key = ⟨raw, !raw, 239, true, held⟩ →
    exec .boothKeyChange s = .next { s with bl := { s.bl with key := ⟨raw, raw, 0, false, held⟩ } }

/-! ## Show clocks and timers -/

/-- CLOCK actions given by a request: STOP holds the value, ZERO sets it to 00:00:00:00 with a CLOCK trigger, RUN latches
the rate and makes a CLOCK trigger only where the latch changes F (R119, R123). CLOCK LOAD: the ranges checked, then the
value, the latched rate, the run state and the CLOCK trigger (R122). That a RUN corrects F and the sub-frame count whenever
their conditions hold is the model's reading (assumption 11). -/
def Obligations.ClockActionsAndLoadsActOnTheClock : Prop :=
  ∀ (s : State) (i : Fin 8) (tag screen : Byte), screenOf screen = some i → s.ready →
    let rate := s.pictureRate i
    let clock := s.ct.clocks.get i
    exec (.clockStop tag screen) s =
      .next ((s.modifyClock i fun c => { c with running := false, advanceDue := false }).reply tag .ok [10, 0]) ∧
    exec (.clockZero tag screen) s =
      .next (((s.modifyClock i fun c => ⟨⟨0, 0, 0, 0⟩, 0, c.running, rate, false⟩).pushTrigger
        ⟨.clock i ⟨0, 0, 0, 0⟩, 0⟩).reply tag .ok [10, 0]) ∧
    (clock.value.frames < rate.perSecond → exec (.clockRun tag screen) s =
      .next ((s.modifyClock i fun c => { c with
        rate := rate, running := true
        subFrame := if c.subFrame < rate.frameLength then c.subFrame else 0 }).reply tag .ok [10, 0])) ∧
    (rate.perSecond ≤ clock.value.frames → exec (.clockRun tag screen) s =
      let corrected : ClockValue := { clock.value with frames := rate.perSecond - 1 }
      .next (((s.modifyClock i fun c => { c with
        rate := rate, running := true, value := corrected, subFrame := 0 }).pushTrigger
          ⟨.clock i corrected, 0⟩).reply tag .ok [10, 0])) ∧
    ∀ h m sec f run : Byte,
      let value : ClockValue := ⟨h.toNat, m.toNat, sec.toNat, f.toNat⟩
      let inRange : Prop := h.toNat ≤ 23 ∧ m.toNat ≤ 59 ∧ sec.toNat ≤ 59 ∧ f.toNat < rate.perSecond
      (inRange → exec (.clockLoad tag screen h m sec f run) s =
        .next (((s.modifyClock i fun _ => ⟨value, 0, run != 0, rate, false⟩).pushTrigger
          ⟨.clock i value, 0⟩).reply tag .ok [])) ∧
      (¬inRange → exec (.clockLoad tag screen h m sec f run) s = .next (s.reply tag .range []))

/-- The picture frame of a running clock completes: F advances with its carries and a CLOCK trigger is made (R120,
R121). -/
def Obligations.PictureFrameAdvancesTheClock : Prop :=
  ∀ (s : State) (i : Fin 8) (v : ClockValue) (sub : Nat) (rate : Rate),
    s.ct.clocks.get i = ⟨v, sub, true, rate, true⟩ → sub + 1 = rate.frameLength →
    v.frames < rate.perSecond → v.seconds ≤ 59 → v.minutes ≤ 59 → v.hours ≤ 23 →
    let lastFrame : Prop := v.frames + 1 = rate.perSecond
    ∃ v' : ClockValue,
      exec (.pictureFrameAdvance i) s =
        .next ((s.modifyClock i fun _ => ⟨v', 0, true, rate, false⟩).pushTrigger ⟨.clock i v', 0⟩) ∧
      (¬lastFrame → v' = { v with frames := v.frames + 1 }) ∧
      (lastFrame → v.seconds < 59 → v' = { v with seconds := v.seconds + 1, frames := 0 }) ∧
      (lastFrame → v.seconds = 59 → v.minutes < 59 →
        v' = { v with minutes := v.minutes + 1, seconds := 0, frames := 0 }) ∧
      (lastFrame → v.seconds = 59 → v.minutes = 59 → v.hours < 23 → v' = ⟨v.hours + 1, 0, 0, 0⟩) ∧
      (lastFrame → v.seconds = 59 → v.minutes = 59 → v.hours = 23 → v' = ⟨0, 0, 0, 0⟩)

/-- TIMER START begins a period of the full count, or is NOT_SET where the count is 0; STOP holds the remaining count and
the phase (R128). -/
def Obligations.TimerActionsStartAndStop : Prop :=
  ∀ (s : State) (i : Fin 8) (t : Fin 2),
    let timer := (s.ct.timers.get i).get t
    let started : State := s.modifyTimer i t fun tm =>
      { tm with remaining := tm.count, phase := 0, running := true, tickDue := false, counted := false }
    let stopped : State := s.modifyTimer i t fun tm =>
      { tm with running := false, tickDue := false, counted := false }
    (∀ origin depth, s.runAction i origin depth (.timer t .start) =
      if timer.count = 0 then (s, .notSet) else (started, .done)) ∧
    (∀ origin depth, s.runAction i origin depth (.timer t .stop) = (stopped, .done)) ∧
    ∀ tag screen, screenOf screen = some i → s.ready →
      (timer.count = 0 → exec (.timerStart tag screen t) s = .next (s.reply tag .state [11, 5])) ∧
      (timer.count ≠ 0 → exec (.timerStart tag screen t) s = .next (started.reply tag .ok [11, 0])) ∧
      exec (.timerStop tag screen t) s = .next (stopped.reply tag .ok [11, 0])

/-- TIMER SET: RANGE for a timer above 1 or a tick base code that names none, BUSY for a running timer, and otherwise the
configuration of a stopped timer with its full count remaining (R126). A tick elapses when the phase reaches the tick
length, by this link frame's count or by a shorter length latched in the frame, and acts on the remaining count; the tick
that brings it to 0 is the expiry, with its TIMER trigger; a count that does not reach a longer length only adds to the
phase (R127, R129, R130). -/
def Obligations.TimersAreSetAndCountDown : Prop :=
  (∀ (s : State) (i : Fin 8) (tag screen timer base reload : Byte) (count : BitVec 16),
    screenOf screen = some i → s.ready →
    (1 < timer.toNat ∨ 2 < base.toNat → exec (.timerSet tag screen timer base count reload) s =
      .next (s.reply tag .range [])) ∧
    ∀ t : Fin 2, t.val = timer.toNat → base.toNat ≤ 2 →
      (((s.ct.timers.get i).get t).running = true → exec (.timerSet tag screen timer base count reload) s =
        .next (s.reply tag .busy [])) ∧
      (((s.ct.timers.get i).get t).running = false → exec (.timerSet tag screen timer base count reload) s =
        .next ((s.modifyTimer i t fun _ =>
          ⟨[TickBase.millisecond, .pictureFrame, .second].getD base.toNat .second, count.toNat, reload != 0, false,
            count.toNat, 0, false, false⟩).reply tag .ok []))) ∧
  ∀ (s : State) (i : Fin 8) (t : Fin 2) (base : TickBase) (count remaining phase : Nat) (reload due counted : Bool),
    (s.ct.timers.get i).get t = ⟨base, count, reload, true, remaining, phase, due, counted⟩ →
    let length := if base = .millisecond then 48
      else if base = .second then 48000 else (s.ct.clocks.get i).rate.frameLength
    let becomes (running : Bool) (left : Nat) : State :=
      s.modifyTimer i t fun _ => ⟨base, count, reload, running, left, 0, false, false⟩
    ((due = true ∧ length ≤ phase + 1) ∨ (due = false ∧ counted = true ∧ length ≤ phase) →
      (2 ≤ remaining → exec (.timerTick i t) s = .next (becomes true (remaining - 1)) ∧
        exec (.timerExpiry i t) s = .next s) ∧
      (remaining = 1 → exec (.timerExpiry i t) s = .next ((becomes reload 0).pushTrigger ⟨.timer i t, 0⟩) ∧
        exec (.timerTick i t) s = .next ((becomes reload 0).pushTrigger ⟨.timer i t, 0⟩)) ∧
      (remaining = 0 → reload = true → exec (.timerTick i t) s = .next (becomes true count))) ∧
    (due = true → phase + 1 < length → exec (.timerTick i t) s =
      .next (s.modifyTimer i t fun _ => ⟨base, count, reload, true, remaining, phase + 1, false, true⟩))

/-! ## Alarms and meters -/

/-- ACKNOWLEDGE clears the sticky flags of the tiers that are not active over its range, recomputes the annunciator
demands, and changes nothing else (R114). -/
def Obligations.AcknowledgeClearsInactiveFlags : Prop :=
  ∀ (s : State) (tag first last : Byte), s.ready →
    (last.toNat < first.toNat → exec (.acknowledge tag first last) s = .next (s.reply tag .range [])) ∧
    (first.toNat ≤ last.toNat → ∃ entries demands,
      exec (.acknowledge tag first last) s =
        .next (State.reply { s with am := { s.am with entries := entries, demands := demands } } tag .ok []) ∧
      (∀ e : Fin 256, entries.get e =
        let r := s.am.entries.get e
        if first.toNat ≤ e.val ∧ e.val ≤ last.toNat then
          match r.tier with
          | .normal => { r with warnSeen := false, tripSeen := false }
          | .warn => { r with tripSeen := false }
          | .trip => r
        else r) ∧
      ∀ n : Fin 16, demands.get n = true ↔ ∃ e : Fin 256,
        (s.alarmEntry e).enabled = true ∧ (s.alarmEntry e).annunciator = some n ∧
          (match (s.alarmEntry e).annunciatorTier with
            | .warn => (entries.get e).warnSeen = true
            | .trip => (entries.get e).tripSeen = true
            | .both => (entries.get e).warnSeen = true ∨ (entries.get e).tripSeen = true))

/-- The value an alarm entry is compared with (R100, R105, R107's order), the conditions and release points of its tiers
(R101, R103, R105), and the tier rules: the exit before the entry conditions and without a hold, TRIP before WARN, a tier
entered on the scan on which its condition has held for hold + 1 scans, and the counters (R101, R102). That TRIP is left for
NORMAL only where WARN is left too, and that an exit ends the scan's work on the entry, is the model's reading (assumption
6). -/
def Obligations.AlarmTiersFollowTheirRules : Prop :=
  (∀ (s : State) (a : AlarmEntry),
    let peak (c : Fin 16) : Nat := ((s.os.channels.get a.screen).get c).lastPeak
    let average (c : Fin 16) : Nat := ((s.os.channels.get a.screen).get c).lastAverage
    let driven (c : Fin 16) : Prop := s.drivenMask a.screen / 2 ^ c.val % 2 = 1
    let valued (source : AlarmSource) (raw : Nat) : Prop :=
      ∃ v : Nat, s.alarmValue a source = .level v ∧ (v : Int) = max 0 (min 183 ((raw : Int) + a.offset))
    (∀ c : Fin 16, a.channel = c.val →
      valued .peak (peak c) ∧ valued .average (average c) ∧ valued .floor (average c) ∧
        s.alarmValue a .line = .line ((s.am.lines.get a.screen).get c)) ∧
    (∃ raw, valued .screenMax raw ∧ (∀ c, driven c → average c ≤ raw) ∧
      (raw = 0 ∨ ∃ c, driven c ∧ raw = average c)) ∧
    (16 ≤ a.channel →
      (∃ raw, valued .peak raw ∧ (∀ c, peak c ≤ raw) ∧ ∃ c, raw = peak c) ∧
      (∃ raw, valued .average raw ∧ (∀ c, average c ≤ raw) ∧ ∃ c, raw = average c) ∧
      (∃ raw, valued .floor raw ∧ (∀ c, driven c → raw ≤ average c) ∧
        (raw = 183 ∨ ∃ c, driven c ∧ raw = average c)) ∧
      ∃ l, s.alarmValue a .line = .line l ∧
        let carried (c : Fin 16) : Prop := ∃ n : Fin 128, field (s.word 0 (128 + n.val)) 0 2 = 1 ∧
          field (s.word 0 (128 + n.val)) 4 3 = a.screen.val ∧ field (s.word 0 (128 + n.val)) 8 4 = c.val
        let some_ (x : LineState) : Prop := ∃ c, carried c ∧ (s.am.lines.get a.screen).get c = x
        (some_ .short → l = .short) ∧ (¬some_ .short → some_ .opened → l = .opened) ∧
          (¬some_ .short → ¬some_ .opened → some_ .unknown ∨ (∀ c, ¬carried c) → l = .unknown) ∧
          ((∃ c, carried c) → (∀ c, carried c → (s.am.lines.get a.screen).get c = .ok) → l = .ok))) ∧
  (∀ (a : AlarmEntry) (source : AlarmSource) (trip : Bool) (v : Nat) (l : LineState),
    let limit := if trip then a.tripLimit else a.warnLimit
    (source ≠ .floor → ((a.compare source (.level v) trip).holds = true ↔ limit ≤ v) ∧
      ((a.compare source (.level v) trip).released = true ↔
        (v + a.hysteresis < limit ∨ (limit ≤ a.hysteresis ∧ v = 0)))) ∧
    (((a.compare .floor (.level v) trip).holds = true ↔ v ≤ limit) ∧
      ((a.compare .floor (.level v) trip).released = true ↔
        ((limit + a.hysteresis < 183 ∧ limit + a.hysteresis < v) ∨ (183 ≤ limit + a.hysteresis ∧ v = 183)))) ∧
    ((a.compare source (.line l) trip).holds = true ↔
      (l = .opened ∨ l = .short ∨ (trip = false ∧ l = .unknown))) ∧
    ((a.compare source (.line l) trip).released = !(a.compare source (.line l) trip).holds)) ∧
  ∀ (r : AlarmRecord) (hold : Nat) (warn trip : Comparison),
    let leavesWarn : Prop := warn.released = true ∧ warn.holds = false
    let leavesTrip : Prop := trip.released = true ∧ trip.holds = false
    let becomes (tier : Tier) (warnCount tripCount : Nat) : Prop :=
      r.judge hold warn trip = { r with tier := tier, warnCount := warnCount, tripCount := tripCount }
    let next (c : Comparison) (count : Nat) : Nat := if c.holds then count + 1 else 0
    (r.tier = .trip →
      (¬leavesTrip → becomes .trip 0 0) ∧ (leavesTrip → ¬leavesWarn → becomes .warn 0 0) ∧
      (leavesTrip → leavesWarn → becomes .normal 0 0)) ∧
    (r.tier = .warn → leavesWarn → becomes .normal 0 0) ∧
    (r.tier = .warn ∨ r.tier = .normal → ¬(r.tier = .warn ∧ leavesWarn) → trip.holds = true → hold ≤ r.tripCount →
      becomes .trip 0 0) ∧
    (r.tier = .warn → ¬leavesWarn → ¬(trip.holds = true ∧ hold ≤ r.tripCount) →
      becomes .warn 0 (next trip r.tripCount)) ∧
    (r.tier = .normal → ¬(trip.holds = true ∧ hold ≤ r.tripCount) →
      (warn.holds = true → hold ≤ r.warnCount → becomes .warn 0 (next trip r.tripCount)) ∧
      (¬(warn.holds = true ∧ hold ≤ r.warnCount) →
        becomes .normal (next warn r.warnCount) (next trip r.tripCount)))

/-- What the scan does with one entry (R99, R104): a disabled one or one of an undefined source is skipped; one of an OFFLINE
screen or a FLOOR entry that is not eligible is held at NORMAL, with its FORCED report if it falls and routes one; any other
takes its value and its tier. An entry into a tier sets the flags, queues its report where it routes one, makes its ALARM
trigger, takes the screen to SAFE on a TRIP of a safe-on-trip entry in IDLE, PRESHOW or FEATURE, with the falls of the
screen's FLOOR entries, whose reports join in entry order (assumption 45), and the STATE report behind the ALARM report, and
recomputes the annunciator demands; a fall keeps
the flags and queues its report where it routes one (R10, R108, R109, R110, R113). -/
def Obligations.TierChangesHaveTheirEffects : Prop :=
  ∀ (s : State) (e : Fin 256),
    let a := s.alarmEntry e
    let r := s.am.entries.get e
    let i := a.screen
    let old := s.screenState i
    (a.enabled = false ∨ a.source = none →
      s.scanEntry e = s.modifyAlarm e fun r => { r with lastEvaluation := .skipped }) ∧
    ∀ source, a.enabled = true → a.source = some source →
      let held : Prop := old = .offline ∨ (source = .floor ∧ s.floorEligible a = false)
      let value := s.alarmValue a source
      let judged : AlarmRecord :=
        { r.judge a.hold (a.compare source value false) (a.compare source value true) with
          lastValue := value, lastEvaluation := .evaluated }
      let report (fall : Bool) (new : Tier) (forced : Bool) (after : AlarmRecord) : Report :=
        .alarm e i a.channel source fall r.tier new after.lastValue after.warnSeen after.tripSeen forced
      (held →
        let t := s.modifyAlarm e fun _ => ⟨.normal, r.warnSeen, r.tripSeen, 0, 0, r.lastValue, .held⟩
        s.scanEntry e = if r.tier ≠ .normal ∧ a.reportOnClear = true then t.queueReport (report true .normal true r)
          else t) ∧
      (¬held → judged.tier = r.tier → s.scanEntry e = s.modifyAlarm e fun _ => judged) ∧
      (¬held → judged.tier.rank < r.tier.rank →
        let t := s.modifyAlarm e fun _ => judged
        s.scanEntry e = if a.reportOnClear = true then t.queueReport (report true judged.tier false judged) else t) ∧
      (¬held → r.tier.rank < judged.tier.rank →
        let new := judged.tier
        let marked : AlarmRecord := { judged with warnSeen := true, tripSeen := judged.tripSeen || new == .trip }
        let m := s.modifyAlarm e fun _ => marked
        let q := (if a.reportOnEntry = true then m.queueReport (report false new false marked) else m).pushTrigger
          ⟨.alarm i e new, 0⟩
        (new = .warn ∨ a.safeOnTrip = false ∨ old = .safe → ∃ demands,
          s.scanEntry e = { q with am := { q.am with demands := demands } } ∧ (s.scanEntry e).demandsFollow) ∧
        (new = .trip → a.safeOnTrip = true → old = .idle ∨ old = .preshow ∨ old = .feature →
          let t := s.scanEntry e
          (t.sc.get i).state = .safe ∧ (t.sc.get i).resume = some old ∧ (t.sc.get i).cause = some (.alarm e) ∧
            (t.sc.get i).pendingApply = none ∧
            (t.sc.get i).safeRamp = ⟨(s.sc.get i).safeRamp.value, s.safeGain i, 64, 0⟩ ∧
            (t.sc.get i).fader = (s.sc.get i).fader ∧ (t.sc.get i).mute = (s.sc.get i).mute ∧
            (∀ j, j ≠ i → t.sc.get j = s.sc.get j) ∧
            q.ReportsJoin t [] [[.state i old .safe (.alarm e)], q.fallReports i old .safe, q.handedReports i .safe] ∧
            q.TriggersJoin t [⟨.state i .safe, 0⟩] ∧
            (∀ e', t.am.entries.get e' =
              let r' := q.am.entries.get e'
              let a' := s.alarmEntry e'
              if old.playing = true ∧ a'.source = some .floor ∧ a'.screen = i then
                { r' with tier := .normal, warnCount := 0, tripCount := 0 }
              else r') ∧
            t.demandsFollow ∧ t.am.targets = s.am.targets ∧ t.os = s.os ∧ t.de = s.de ∧ t.ts = s.ts ∧ t.li = s.li ∧
            t.ct = s.ct ∧ t.bl = s.bl ∧ t.ce.cues = s.ce.cues))

/-- The meter window end: the counter returns to 0, the levels of every channel that is not of an OFFLINE screen are
taken and its peak cleared (R89, R90); the line state of every channel is the worst of the slots that carry it, UNKNOWN
where none does (R107); the entries are scanned in order 0 to 255 (R99), and at the end every protect target is the smallest
protect factor of the entries in TRIP that cover the channel, and the protect ramps take them (R85, R111). -/
def Obligations.WindowEndTakesLevelsAndTargets : Prop :=
  ∀ s : State, s.os.windowDue = true → s.li.worked = true →
    ∃ t channels lines, exec .meterWindowEnd s = .next t ∧ t.os.window = 0 ∧ t.os.windowDue = false ∧
      t = State.recomputeTargets ((List.finRange 256).foldl State.scanEntry { s with
        os := { s.os with channels := channels, window := 0, windowDue := false }
        am := { s.am with lines := lines } }) ∧
      (∀ i c, let old := (s.os.channels.get i).get c
        let taken := (channels.get i).get c
        let new := (t.os.channels.get i).get c
        taken.protect = old.protect ∧ new = { taken with
            protect := old.protect.protectTake ((t.am.targets.get i).get c) } ∧
          new.average = old.average ∧ new.flight = old.flight ∧
          (s.screenState i = .offline → new.lastPeak = old.lastPeak ∧ new.lastAverage = old.lastAverage ∧
            new.peak = old.peak) ∧
          (s.screenState i ≠ .offline → new.lastPeak = levelStep old.peak ∧
            new.lastAverage = levelStep old.average ∧ new.peak = 0)) ∧
      (∀ i c, let carries (n : Fin 128) : Prop := field (s.word 0 (128 + n.val)) 0 2 = 1 ∧
          field (s.word 0 (128 + n.val)) 4 3 = i.val ∧ field (s.word 0 (128 + n.val)) 8 4 = c.val
        let some_ (x : LineState) : Prop := ∃ n, carries n ∧ (s.am.slots.get n).state = x
        let line := (lines.get i).get c
        (t.am.lines.get i).get c = line ∧ (some_ .short → line = .short) ∧
          (¬some_ .short → some_ .opened → line = .opened) ∧
          (¬some_ .short → ¬some_ .opened → some_ .unknown ∨ (∀ n, ¬carries n) → line = .unknown) ∧
          ((∃ n, carries n) → (∀ n, carries n → (s.am.slots.get n).state = .ok) → line = .ok)) ∧
      t.targetsFollow ∧
      t.ci.requests = s.ci.requests ∧ t.ci.replies = s.ci.replies ∧ t.ts = s.ts ∧ t.li = s.li ∧ t.ct = s.ct ∧
      t.bl = s.bl ∧ t.ce.cues = s.ce.cues ∧ t.am.slots = s.am.slots

/-- A rack status word of a LOCKED downstream port: VALID sets the slot it names, BUSY restarts its age, and every other slot
ages; a failed frame delivers no word, and a fourth failure in a row leaves the port's loss due. A LOST port's intact run
counts up or returns to 0, its word is not used and every slot ages; the word of the frame that completes its run of 480 is
held for the change of lock (assumption 1). A slot whose age has reached its limit becomes UNKNOWN (R25, R27, R30, R106). -/
def Obligations.RackStatusWordsSetSlotStates : Prop :=
  (∀ (s : State) (intact : Bool) (word : BitVec 16), s.li.downSeen = false →
    let aged (l : SlotLine) : SlotLine := ⟨l.state, min (l.age + 1) 48000⟩
    let code := word.toNat / 256 % 4
    let line := word.toNat / 4096 % 4
    let heard (down : Port) (slots : Tab 128 SlotLine) : State :=
      { s with li := { s.li with downSeen := true, down := down }, am := { s.am with slots := slots } }
    (s.li.down.lock = .locked → ∃ slots,
      exec (.rackStatusWord intact word) s = .next (heard
        { s.li.down with failureRun := if intact then 0 else min (s.li.down.failureRun + 1) 4 } slots) ∧
      ∀ n : Fin 128, slots.get n =
        let l := s.am.slots.get n
        if intact = true ∧ n.val = word.toNat % 128 ∧ code = 1 ∧ line ≤ 2 then
          ⟨[LineState.ok, .opened, .short].getD line .unknown, 0⟩
        else if intact = true ∧ n.val = word.toNat % 128 ∧ code = 2 then ⟨l.state, 0⟩
        else aged l) ∧
    (s.li.down.lock = .lost → intact = false ∨ s.li.down.intactRun < 479 → ∃ slots,
      exec (.rackStatusWord intact word) s = .next (heard
        { s.li.down with intactRun := if intact then s.li.down.intactRun + 1 else 0 } slots) ∧
      ∀ n : Fin 128, slots.get n = aged (s.am.slots.get n)) ∧
    (s.li.down.lock = .lost → intact = true → 479 ≤ s.li.down.intactRun →
      exec (.rackStatusWord intact word) s = .next { s with li := { s.li with
        downSeen := true, down := { s.li.down with intactRun := 480 }, rackWord := some word } })) ∧
  ∀ (s : State) (n : Fin 128) (line : LineState), s.am.slots.get n = ⟨line, 48000⟩ → line ≠ .unknown →
    exec (.slotAgeExpiry n) s =
      .next { s with am := { s.am with slots := s.am.slots.set n ⟨.unknown, 48000⟩ } }

/-! ## The link -/

/-- An intact upstream frame of a LOCKED port: the highest-numbered AUDIO slot mapped to a source supplies it, an
invalid one with zero, the highest-numbered DESCRIPTOR slot gives the screen's result, and no screen changes (R22, R34,
R35); the receiver stands in HUNT and the frame carries no SYNC. A damaged frame is not used: every source is zero, a screen
with a DESCRIPTOR slot mapped sees no descriptor and one without has none mapped, the receiver returns to HUNT, and the
LOCKED port counts the failure (R27, R29, R35). A frame of a LOST port is not used either: its intact run counts up or returns
to 0 (R27, R29); the frame that completes the run of 480 is held for the change of lock (assumption 1). -/
def Obligations.UpstreamFramesAreGathered : Prop :=
  ∀ (s : State) (slots : List InSlot) (first second : Byte), s.li.worked = false → s.li.upSeen = false →
    s.ci.requests = [] →
    let audio (n : Fin 128) (i : Fin 8) (c : Fin 16) : Prop := field (s.word 0 n.val) 0 2 = 1 ∧
      field (s.word 0 n.val) 4 3 = i.val ∧ field (s.word 0 n.val) 8 4 = c.val
    let marks (n : Fin 128) (i : Fin 8) : Prop := field (s.word 0 n.val) 0 2 = 2 ∧ field (s.word 0 n.val) 4 3 = i.val
    (s.li.up.lock = .locked → s.li.receiver = .hunting → first ≠ 0xA5 → second ≠ 0xA5 → ∃ sources descriptors,
      exec (.upstreamFrame true slots first second) s = .next { s with li := { s.li with
        up := { s.li.up with failureRun := 0 }, upSeen := true, sources := sources, descriptors := descriptors } } ∧
      (∀ i c, ((∀ n, ¬audio n i c) → (sources.get i).get c = 0) ∧
        ∀ n, audio n i c → (∀ m, audio m i c → m ≤ n) → (sources.get i).get c =
          match slots[n.val]? with
          | some ⟨x, true⟩ => x
          | _ => 0) ∧
      ∀ i, ((∀ n, ¬marks n i) → descriptors.get i = .unmapped) ∧
        ∀ n, marks n i → (∀ m, marks m i → m ≤ n) → descriptors.get i =
          match slots[n.val]? with
          | some ⟨x, true⟩ => if x.toNat / 65536 = 0x5A then .code (index 16 (x.toNat % 16)) else .none
          | _ => .none) ∧
    let unused (up : Port) (t : State) : Prop := ∃ descriptors, t = { s with li := { s.li with
        up := up, upSeen := true, receiver := .hunting
        sources := .fill 8 (.fill 16 0), descriptors := descriptors } } ∧
      ∀ i, ((∀ n, ¬marks n i) → descriptors.get i = .unmapped) ∧ ∀ n, marks n i → descriptors.get i = .none
    (s.li.up.lock = .locked → ∃ t, exec (.upstreamFrame false slots first second) s = .next t ∧
      unused { s.li.up with failureRun := min (s.li.up.failureRun + 1) 4 } t) ∧
    (s.li.up.lock = .lost →
      (∃ t, exec (.upstreamFrame false slots first second) s = .next t ∧
        unused { s.li.up with intactRun := 0 } t) ∧
      (s.li.up.intactRun < 479 → ∃ t, exec (.upstreamFrame true slots first second) s = .next t ∧
        unused { s.li.up with intactRun := s.li.up.intactRun + 1 } t) ∧
      (479 ≤ s.li.up.intactRun → exec (.upstreamFrame true slots first second) s = .next { s with li := { s.li with
        up := { s.li.up with intactRun := 480 }, upSeen := true, arrival := some ⟨slots, first, second⟩ } }))

/-- The work of a link frame: an outbound slot carries the result of 32 link frames earlier of the channel its entry
names, with the gains that stand, marked valid, and zero marked invalid where the entry is not SPEAKER, the screen is
OFFLINE or no result is in flight (R36, R37, R82, R83, R84); the two lane bytes of the downstream frame are 00h (R24). A
channel with a result meters it: the peak register takes the larger, the average register moves by the distance divided by
2^ka and rounded down, and a channel without one keeps its registers; the last levels stand (R87, R88). The protect ramp
keeps its value in the frame and has the protect target as its target (R85). The effective gain is formed where a result is
sent, and kept for an OFFLINE screen and where no result is in flight (R93; assumption 31). -/
def Obligations.LinkFrameFillsTheOutboundSlots : Prop :=
  ∀ (s : State) (lines : BitVec 16) (keyLocked : Bool), s.workDue →
    let rounded (x gain : Int) : Sample := saturate ((x * gain + 16384) / 32768)
    let gain (r : ScreenRecord) : Nat :=
      r.fader.value * r.mute.value / 32768 * r.safeRamp.value / 32768 * r.dip.value / 32768
    ∃ t, exec (.linkFrame lines keyLocked) s = .next t ∧ t.li.worked = true ∧
      (∀ n : Fin 128, let entry := s.word 0 (128 + n.val)
        let i := index 8 (field entry 4 3)
        let ch := (s.os.channels.get i).get (index 16 (field entry 8 4))
        let r := s.sc.get i
        (field entry 0 2 ≠ 1 ∨ r.state = .offline → t.li.outSlots.get n = ⟨0, false⟩) ∧
        (field entry 0 2 = 1 → r.state ≠ .offline → ch.flight.length < 32 → t.li.outSlots.get n = ⟨0, false⟩) ∧
        ∀ v, field entry 0 2 = 1 → r.state ≠ .offline → ch.flight[31]? = some v →
          t.li.outSlots.get n = ⟨rounded (rounded v.toInt (gain r)).toInt ch.protect.value, true⟩) ∧
      t.li.downLane = ⟨0, 0⟩ ∧
      (∀ i c, let old := (s.os.channels.get i).get c
        let new := (t.os.channels.get i).get c
        let ka := max 6 (min 14 (field (s.word 1 (32 * i.val + 14)) 0 8))
        new.lastPeak = old.lastPeak ∧ new.lastAverage = old.lastAverage ∧ new.protect.value = old.protect.value ∧
          new.protect.target = (t.am.targets.get i).get c ∧
          (s.screenState i = .offline ∨ old.flight.length < 32 → new.peak = old.peak ∧ new.average = old.average) ∧
          ∀ v, s.screenState i ≠ .offline → old.flight[31]? = some v →
            let m : Nat := min (rounded v.toInt (gain (s.sc.get i))).toInt.natAbs 8388607
            new.peak = max old.peak m ∧ (new.average : Int) = old.average + ((m : Int) - old.average) / 2 ^ ka ∧
              t.os.gains.get i = gain (s.sc.get i)) ∧
      (∀ i, s.screenState i = .offline ∨ (∀ c, ((s.os.channels.get i).get c).flight.length < 32) →
        t.os.gains.get i = s.os.gains.get i) ∧
      t.os.window = s.os.window ∧ t.sc = s.sc ∧ t.ts = s.ts ∧ t.ct = s.ct ∧ t.ce = s.ce ∧ t.eq.free = s.eq.free ∧
      t.eq.dips = s.eq.dips ∧ t.ci.requests = [] ∧ t.li.up = s.li.up ∧ t.li.down = s.li.down ∧
      t.li.sources = s.li.sources

/-- The work of a link frame on a channel of a screen that is not OFFLINE: the mix of each profile the screen uses, its
columns the sources or, steered, the derived signals of the steering entry's gains (R47, R48, R51); in a crossfade the blend
of the two mixes at its position (R54); the sections in force one after another, each on its histories, the others' set to
zero (R62, R63, R64); the input of d link frames earlier, the trim and the polarity (R65, R66); and the result enters the
flight (R37). The page list stands. -/
def Obligations.LinkFrameMixesFiltersAndDelays : Prop :=
  ∀ (s : State) (lines : BitVec 16) (keyLocked : Bool), s.workDue →
    ∃ t, exec (.linkFrame lines keyLocked) s = .next t ∧ ∀ (i : Fin 8) (c p : Fin 16), s.screenState i ≠ .offline →
      (t.de.get i).current = some p →
      let source (j : Nat) : Int := ((s.li.sources.get i).get (index 16 j)).toInt
      let gains := s.word 2 (t.de.get i).steering
      let derived (x : Int) (g : Nat) : Int := (saturate ((x * g + 64) / 128)).toInt
      let column (q j : Fin 16) : Int :=
        if flag (s.word 2 (240 + q.val)) 16 = true ∧ j.val < 4 then
          [derived (source 0) (field gains 24 8), derived (source 1) (field gains 16 8),
            derived ((source 0 + source 1) / 2) (field gains 8 8),
            derived ((source 0 - source 1) / 2) (field gains 0 8)].getD j.val 0
        else source j.val
      let mix (q : Fin 16) : Sample :=
        if field (s.word 2 (240 + q.val)) c.val 1 = 1 then
          saturate ((((List.finRange 16).map fun j =>
            column q j * signedField (s.word (3 + q.val) (16 * c.val + j.val)) 0 16).sum + 8192) / 16384)
        else 0
      let y : Sample := match (t.de.get i).incoming with
        | none => mix p
        | some ⟨q, k⟩ => saturate (((mix p).toInt * (512 - k) + (mix q).toInt * k + 256) / 512)
      let b := s.activeBank i
      let old := (s.eq.channels.get i).get c
      let new := (t.eq.channels.get i).get c
      ∃ x : Nat → Sample, x 0 = y ∧
        (∀ k : Fin 6, let h := old.sections.get k
          let coef (n : Nat) : Int := s.sectionCoefficient i b c k.val n
          let sum := coef 0 * (x k.val).toInt + coef 1 * h.x1.toInt + coef 2 * h.x2.toInt - coef 3 * h.y1.toInt -
            coef 4 * h.y2.toInt
          (k.val < s.sectionCount i b c → x (k.val + 1) = saturate ((sum + 134217728) / 268435456) ∧
            new.sections.get k = ⟨x k.val, h.x1, x (k.val + 1), h.y1⟩) ∧
          (s.sectionCount i b c ≤ k.val → x (k.val + 1) = x k.val ∧ new.sections.get k = ⟨0, 0, 0, 0⟩)) ∧
        let w := x 6
        let d := s.delay i b c
        let z := if d = 0 then w else old.line.getD (d - 1) 0
        let trimmed := saturate ((z.toInt * s.trim i b c + 2048) / 4096)
        let v := if s.invert i b c then saturate (-trimmed.toInt) else trimmed
        new.line = (w :: old.line).take (256 * old.pages.length) ∧ new.pages = old.pages ∧
          ((t.os.channels.get i).get c).flight = (v :: ((s.os.channels.get i).get c).flight).take 32

/-- The steering of a link frame: where the current or the incoming profile of a screen that is not OFFLINE is steered, each
envelope moves toward the magnitude of its signal by the distance divided by 2^ks and rounded down, and the steering entry is
taken from the digits of the four new envelopes; otherwise envelopes and entry are held (R49, R50). -/
def Obligations.LinkFrameSteers : Prop :=
  ∀ (s : State) (lines : BitVec 16) (keyLocked : Bool), s.workDue →
    ∃ t, exec (.linkFrame lines keyLocked) s = .next t ∧ ∀ i : Fin 8,
      let old := s.de.get i
      let new := t.de.get i
      let lt := ((s.li.sources.get i).get 0).toInt
      let rt := ((s.li.sources.get i).get 1).toInt
      let ks := max 3 (min 12 (field (s.word 1 (32 * i.val + 13)) 0 8))
      let moved (e : Nat) (x : Int) : Int := e + (((min x.natAbs 8388607 : Nat) : Int) - e) / 2 ^ ks
      let n (v : Nat) : Int := if v = 0 then 0 else Nat.log2 v + 1
      let difference (a b : Nat) : Int := max (-7) (min 7 (n a - n b))
      let steers : Prop := s.screenState i ≠ .offline ∧ ∃ p : Fin 16, flag (s.word 2 (240 + p.val)) 16 = true ∧
        (new.current = some p ∨ ∃ k, new.incoming = some ⟨p, k⟩)
      (steers → (new.envL : Int) = moved old.envL lt ∧ (new.envR : Int) = moved old.envR rt ∧
        (new.envS : Int) = moved old.envS ((lt + rt) / 2) ∧ (new.envD : Int) = moved old.envD ((lt - rt) / 2) ∧
        (new.steering : Int) = (difference new.envL new.envR + 7) * 15 + (difference new.envS new.envD + 7)) ∧
      (¬steers → new.envL = old.envL ∧ new.envR = old.envR ∧ new.envS = old.envS ∧ new.envD = old.envD ∧
        new.steering = old.steering)

/-- The decode record in a link frame's work. In every screen state the descriptor result acts on the accepted format and the
candidate, and the format in use is decided (R41, R42, R44). On a screen that is not OFFLINE a crossfade starts at k = 1 where
the profile to be used is not the current one, a running one goes on with the profile to be used pending where it differs, and
a screen enabled in the frame has the profile to be used at once (R53, R55, R57; assumption 42). Where a crossfade starts, the
screen's FLOOR entries with no channel left in the incoming profile's driven mask, and all of them where the screen does not
play, stand at NORMAL with counters 0 and their flags, and the protect targets are recomputed; other entries stand, and the
targets where none starts (R46, R104, R109). What a default written after a first DESCRIPTOR entry of the same link frame does
is assumption 44. A descriptor code's 480th link frame may be taken as an event of its own before the work (assumption 30). At
k = 512 the incoming profile becomes the current one, the pending profile is removed and the FORMAT report is queued (R56). -/
def Obligations.FormatsAreSelectedAndFaded : Prop :=
  (∀ (s : State) (lines : BitVec 16) (keyLocked : Bool), s.workDue →
    ∃ t, exec (.linkFrame lines keyLocked) s = .next t ∧ ∀ i : Fin 8,
      let old := s.de.get i
      let new := t.de.get i
      let result := s.li.descriptors.get i
      let default : Fin 16 := index 16 (field (s.word 1 (32 * i.val + 1)) 0 4)
      let profile (f : Fin 16) : Fin 16 :=
        index 16 (field (s.word 1 (32 * i.val + (2 + f.val / 8))) (4 * (f.val % 8)) 4)
      let accepts (f : Fin 16) (candidate : Option Candidate) : Prop :=
        new.accepted = f ∧ new.candidate = candidate
      (result = .unmapped → accepts default none) ∧ (result = .none → accepts old.accepted none) ∧
      (∀ f, result = .code f →
        (f = old.accepted → accepts old.accepted none) ∧
        (f ≠ old.accepted →
          (∀ r, old.candidate = some ⟨f, r⟩ →
            (r + 1 < 480 → accepts old.accepted (some ⟨f, r + 1⟩)) ∧ (480 ≤ r + 1 → accepts f none)) ∧
          ((∀ r, old.candidate ≠ some ⟨f, r⟩) → accepts old.accepted (some ⟨f, 1⟩)))) ∧
      new.forced = old.forced ∧
      (∀ f, old.forced = some f → new.usedFormat = f ∧ new.usedSource = .forced) ∧
      (old.forced = none → result = .unmapped → new.usedFormat = default ∧ new.usedSource = .default) ∧
      (old.forced = none → result ≠ .unmapped → new.usedFormat = new.accepted ∧ new.usedSource = .descriptor) ∧
      let p := profile new.usedFormat
      let becomes (current : Option (Fin 16)) (incoming : Option Incoming) (pending : Option (Fin 16)) : Prop :=
        new.current = current ∧ new.incoming = incoming ∧ new.pending = pending
      (s.screenState i = .offline → becomes old.current old.incoming old.pending ∧
        new.justEnabled = old.justEnabled) ∧
      (s.screenState i ≠ .offline → new.justEnabled = false ∧
        (old.justEnabled = true → becomes (some p) none none) ∧
        (old.justEnabled = false →
          (old.incoming = none → old.current = some p → becomes old.current none old.pending) ∧
          (old.incoming = none → old.current ≠ some p → becomes old.current (some ⟨p, 1⟩) old.pending) ∧
          ∀ q k, old.incoming = some ⟨q, k⟩ →
            becomes old.current (some ⟨q, min (k + 1) 512⟩) (if p = q then none else some p)))) ∧
  (∀ (s : State) (lines : BitVec 16) (keyLocked : Bool), s.workDue →
    ∃ t, exec (.linkFrame lines keyLocked) s = .next t ∧
      let starts (i : Fin 8) : Prop := s.screenState i ≠ .offline ∧ (s.de.get i).justEnabled = false ∧
        (s.de.get i).incoming = none ∧ (t.de.get i).incoming ≠ none
      (∀ e, let a := s.alarmEntry e
        let r := s.am.entries.get e
        let watched : Prop := s.playing a.screen = true ∧ ∃ q k, (t.de.get a.screen).incoming = some ⟨q, k⟩ ∧
          let mask := field (s.word 2 (240 + q.val)) 0 16
          (a.channel < 16 → mask / 2 ^ a.channel % 2 = 1) ∧ (16 ≤ a.channel → mask ≠ 0)
        (starts a.screen → a.source = some .floor → ¬watched →
          t.am.entries.get e = { r with tier := .normal, warnCount := 0, tripCount := 0 }) ∧
        (¬starts a.screen ∨ a.source ≠ some .floor ∨ watched → t.am.entries.get e = r)) ∧
      ((∃ i, starts i) → t.targetsFollow) ∧ ((∀ i, ¬starts i) → t.am.targets = s.am.targets) ∧
      t.am.demands = s.am.demands ∧ t.am.slots = s.am.slots ∧ t.am.lines = s.am.lines) ∧
  (∀ (s : State) (i f : Fin 16) (j : Fin 8), s.li.upSeen = true → s.li.worked = false →
    s.li.descriptors.get j = .code f → (s.de.get j).accepted = i → f ≠ i →
    (s.de.get j).candidate = some ⟨f, 479⟩ →
    exec (.descriptorAccept j) s = .next (s.modifyDecode j fun d => { d with accepted := f, candidate := none })) ∧
  ∀ (s : State) (i : Fin 8) (p q : Fin 16), (s.de.get i).current = some p →
    (s.de.get i).incoming = some ⟨q, 512⟩ →
    exec (.crossfadeEnd i) s =
      .next ((s.modifyDecode i fun d => { d with current := some q, incoming := none, pending := none }).queueReport
        (.format i p q (s.de.get i).usedFormat (s.de.get i).usedSource))

/-- A port's change of lock. The upstream port's loss takes every playing screen into SAFE with cause LINK, in ascending
order, with its STATE report and STATE trigger, and leaves the others; the FLOOR entries of those screens stand at NORMAL with
counters 0 and their flags, and the protect targets are recomputed and taken; its LINK report joins before or after the STATE
reports, with the reports of the forced falls, in entry order (assumption 45); the downstream port's loss changes no screen
(R4, R7, R9, R11, R27, R29, R30, R31, R104, R109). A port whose intact run is complete becomes LOCKED with its LINK report,
and the frame that completed the run is used, its control bytes with it (R22, R27, R29, R31); that every message they complete
joins the queue before the interpreter runs is the model's choice (assumption 10); the 480th intact frame of a LOST port is
that frame. -/
def Obligations.PortsAreLostAndLocked : Prop :=
  (∀ (s : State) (intactRun : Nat), s.li.up = ⟨.locked, intactRun, 4⟩ →
    ∃ (t : State) (reports : Fin 8 → List Report), exec (.portLost .upstream) s = .next t ∧
      t.li = { s.li with up := ⟨.lost, 0, 0⟩ } ∧
      (∀ i, s.screenState i = .preshow ∨ s.screenState i = .feature →
        (t.sc.get i).state = .safe ∧ (t.sc.get i).cause = some .link ∧
          (t.sc.get i).resume = some (s.screenState i) ∧ (t.sc.get i).pendingApply = none ∧
          (t.sc.get i).fader = (s.sc.get i).fader ∧ (t.sc.get i).mute = (s.sc.get i).mute ∧
          (t.sc.get i).safeRamp = ⟨(s.sc.get i).safeRamp.value, s.safeGain i, 64, 0⟩ ∧
          ∃ groups : List (List Report), reports i = groups.flatten ∧
            groups.Perm [[.state i (s.screenState i) .safe .link], s.fallReports i (s.screenState i) .safe,
              s.handedReports i .safe]) ∧
      (∀ i, s.screenState i ≠ .preshow → s.screenState i ≠ .feature →
        t.sc.get i = s.sc.get i ∧ reports i = []) ∧
      (∀ e, t.am.entries.get e =
        let r := s.am.entries.get e
        if s.playing (s.alarmEntry e).screen = true ∧ (s.alarmEntry e).source = some .floor then
          { r with tier := .normal, warnCount := 0, tripCount := 0 }
        else r) ∧
      t.am.demands = s.am.demands ∧ t.am.slots = s.am.slots ∧ t.am.lines = s.am.lines ∧
      ((∀ i, s.playing i = false) → t.am.targets = s.am.targets ∧ t.os = s.os) ∧
      ((∃ i, s.playing i = true) → t.targetsFollow ∧ t.os.gains = s.os.gains ∧ t.os.window = s.os.window ∧
        ∀ i c, ∃ protect, protect.value = ((s.os.channels.get i).get c).protect.value ∧
          protect.target = (t.am.targets.get i).get c ∧
          (t.os.channels.get i).get c = { (s.os.channels.get i).get c with protect := protect }) ∧
      s.ReportsJoin t [] [[.link .upstream .lost s.li.down.lock], (List.finRange 8).flatMap reports] ∧
      s.TriggersJoin t (((List.finRange 8).filter fun i => s.playing i).map fun i => ⟨.state i .safe, 0⟩) ∧
      t.ts = s.ts ∧ t.ct = s.ct ∧ t.bl = s.bl ∧ t.de = s.de ∧ t.ci.requests = s.ci.requests ∧
      t.ci.replies = s.ci.replies) ∧
  (∀ (s : State) (intactRun : Nat), s.li.down = ⟨.locked, intactRun, 4⟩ →
    exec (.portLost .downstream) s = .next (State.queueReport
      { s with li := { s.li with down := ⟨.lost, 0, 0⟩ } } (.link .downstream .lost s.li.up.lock))) ∧
  (∀ (s : State) (failures : Nat) (a : Arrival), s.li.up = ⟨.lost, 480, failures⟩ → s.li.arrival = some a →
    let locked : State := State.gather (State.queueReport
      { s with li := { s.li with up := ⟨.locked, 0, 0⟩, arrival := none } }
      (.link .upstream .locked s.li.down.lock)) a.slots
    (∀ receiver bodies, s.li.receiver.take [a.first, a.second] = (receiver, bodies) →
      exec (.portLocked .upstream) s = .next (State.interpret (bodies.foldl (fun s body =>
        match Request.ofBody body with
        | some r => s.joinRequest r
        | none => s) { locked with li := { locked.li with receiver := receiver } }))) ∧
    (s.ci.requests = [] → s.li.receiver = .hunting → a.first ≠ 0xA5 → a.second ≠ 0xA5 →
      exec (.portLocked .upstream) s = .next locked)) ∧
  (∀ (s : State) (slots : List InSlot) (first second : Byte), s.li.worked = false → s.li.upSeen = false →
    s.li.up.lock = .lost → s.li.up.intactRun = 479 → s.ci.requests = [] →
    s.li.receiver = .hunting → first ≠ 0xA5 → second ≠ 0xA5 →
    ∃ m, exec (.upstreamFrame true slots first second) s = .next m ∧ exec (.portLocked .upstream) m =
      .next (State.gather (State.queueReport { s with li := { s.li with
        up := ⟨.locked, 0, 0⟩, upSeen := true, arrival := none } } (.link .upstream .locked s.li.down.lock)) slots)) ∧
  ∀ (s : State) (failures : Nat) (w : BitVec 16), s.li.down = ⟨.lost, 480, failures⟩ → s.li.rackWord = some w →
    s.ci.requests = [] → exec (.portLocked .downstream) s =
      .next (State.takeRackWord (State.queueReport
        { s with li := { s.li with down := ⟨.locked, 0, 0⟩, rackWord := none } }
        (.link .downstream .locked s.li.up.lock)) (.ofBits w))

/-- A ready sender takes the oldest reply, or the oldest report where no reply waits, and frees its place (R23, R182). In a
link frame's work two bytes of the message leave in order; a message that ends in the first position is followed in the second
by the next one's first byte while the port is LOCKED; a LOST port's sender with no message sends 00h, and a LOCKED one's
begins the next message, or sends 00h where none waits (R23). The reports waiting are those of before and, behind them, the
ALARM reports of the falls that crossfades starting in this link frame force (R104), screen by screen and in entry order by
the model's choice (assumptions 45 and 47). A reply's and a report's message are framed with the codes and fields of their
formats (R177, R183, R187, R189). -/
def Obligations.ReplyLaneSendsWholeMessages : Prop :=
  (∀ s : State, s.li.sender.message = [] → s.li.up.lock = .locked → s.ci.requests = [] →
    (∀ r rest, s.ci.replies = r :: rest → exec .replySenderTake s =
      .next { s with ci := { s.ci with replies := rest }, li := { s.li with sender := ⟨r.message, 0⟩ } }) ∧
    (∀ q rest, s.ci.replies = [] → s.ci.reports = q :: rest → exec .replySenderTake s =
      .next { s with ci := { s.ci with reports := rest }, li := { s.li with sender := ⟨q.message, 0⟩ } }) ∧
    (s.ci.replies = [] → s.ci.reports = [] → exec .replySenderTake s = .next s)) ∧
  (∀ (s : State) (lines : BitVec 16) (keyLocked : Bool), s.workDue →
    ∃ t, exec (.linkFrame lines keyLocked) s = .next t ∧
      let message := s.li.sender.message
      let j := s.li.sender.index
      let waiting := (s.queueReports (s.fadeReports t.de)).ci
      let sends (first second : Byte) (sender : Sender) (replies : List Reply) (reports : List QueuedReport) : Prop :=
        t.li.outLane = ⟨first, second⟩ ∧ t.li.sender = sender ∧ t.ci.replies = replies ∧ t.ci.reports = reports ∧
          t.ci.reportLost = waiting.reportLost ∧ t.ci.requests = []
      (j + 2 < message.length →
        sends (message.getD j 0) (message.getD (j + 1) 0) ⟨message, j + 2⟩ s.ci.replies waiting.reports) ∧
      (j + 2 = message.length →
        sends (message.getD j 0) (message.getD (j + 1) 0) ⟨[], 0⟩ s.ci.replies waiting.reports) ∧
      (j + 1 = message.length →
        (s.li.up.lock = .lost → sends (message.getD j 0) 0 ⟨[], 0⟩ s.ci.replies waiting.reports) ∧
        (s.li.up.lock = .locked → ∀ r rest, s.ci.replies = r :: rest →
          sends (message.getD j 0) (r.message.getD 0 0) ⟨r.message, 1⟩ rest waiting.reports) ∧
        (s.li.up.lock = .locked → s.ci.replies = [] → ∀ q rest, waiting.reports = q :: rest →
          sends (message.getD j 0) (q.message.getD 0 0) ⟨q.message, 1⟩ [] rest) ∧
        (s.li.up.lock = .locked → s.ci.replies = [] → waiting.reports = [] →
          sends (message.getD j 0) 0 ⟨[], 0⟩ [] [])) ∧
      (message = [] →
        (s.li.up.lock = .lost → sends 0 0 ⟨[], 0⟩ s.ci.replies waiting.reports) ∧
        (s.li.up.lock = .locked → ∀ r rest, s.ci.replies = r :: rest →
          sends (r.message.getD 0 0) (r.message.getD 1 0) ⟨r.message, 2⟩ rest waiting.reports) ∧
        (s.li.up.lock = .locked → s.ci.replies = [] → ∀ q rest, waiting.reports = q :: rest →
          sends (q.message.getD 0 0) (q.message.getD 1 0) ⟨q.message, 2⟩ [] rest) ∧
        (s.li.up.lock = .locked → s.ci.replies = [] → waiting.reports = [] → sends 0 0 ⟨[], 0⟩ [] []))) ∧
  let one (n : Nat) : Byte := BitVec.ofNat 8 n
  let two (n : Nat) : List Byte := [one (n / 256), one n]
  let mark (b : Bool) : Byte := if b = true then 1 else 0
  let marks (a b : Bool) : Byte := one ((if a = true then 1 else 0) + if b = true then 2 else 0)
  let tier (x : Tier) : Byte := match x with
    | .normal => 0
    | .warn => 1
    | .trip => 2
  let lock (x : Lock) : Byte := match x with
    | .lost => 0
    | .locked => 1
  let state (x : ScreenState) : Byte := match x with
    | .offline => 0
    | .idle => 1
    | .preshow => 2
    | .feature => 3
    | .safe => 4
  let origin (x : Origin) : List Byte := match x with
    | .request tag => [0, tag]
    | .cue e => [1, one e.val]
  let clock (v : ClockValue) : List Byte := [one v.hours, one v.minutes, one v.seconds, one v.frames]
  (∀ r : Reply, r.message = framed ([0x80, r.tag, match r.result with
    | .ok => 0x00
    | .accepted => 0x01
    | .badKind => 0x10
    | .badLength => 0x11
    | .range => 0x12
    | .locked => 0x13
    | .inUse => 0x14
    | .busy => 0x15
    | .state => 0x16
    | .noSpace => 0x17
    | .tripActive => 0x18
    | .deferred => 0x19] ++ r.data)) ∧
  ∀ (q : QueuedReport) (type : Byte) (fields : List Byte),
    (match q.report with
      | .alarm e i c source fall old new value warnSeen tripSeen forced => type = 0xC1 ∧
        fields = [one e.val, one i.val, one c, (match source with
            | .peak => 0
            | .average => 1
            | .screenMax => 2
            | .floor => 3
            | .line => 4), mark fall, tier old, tier new, (match value with
            | .level v => one v
            | .line .ok => 0
            | .line .opened => 1
            | .line .short => 2
            | .line .unknown => 3), marks warnSeen tripSeen, mark forced]
      | .cue by_ i trigger value overrun actions => type = 0xC2 ∧
        fields = origin by_ ++ [one i.val] ++ (match trigger with
            | none => [0xFF, 0, 0, 0, 0, 0]
            | some ⟨.clock _ v, depth⟩ => [0, one depth] ++ clock v
            | some ⟨.timer _ k, depth⟩ => [1, one depth, one k.val, 0, 0, 0]
            | some ⟨.input n edge tag, depth⟩ => [2, one depth, one n.val, (match edge with
                | .rise => 0
                | .fall => 1), one tag.val, 0]
            | some ⟨.alarm _ e x, depth⟩ => [3, one depth, one e.val, tier x, 0, 0]
            | some ⟨.state _ x, depth⟩ => [4, one depth, state x, 0, 0, 0]) ++ clock value ++
          [mark overrun, one actions.length] ++ actions.flatMap fun a => [one a.kind, (match a.outcome with
            | .done => 0
            | .deferred => 1
            | .state => 2
            | .noSpace => 3
            | .lineMode => 4
            | .notSet => 5
            | .badAction => 6
            | .cascadeCut => 7), a.code]
      | .state i old new cause => type = 0xC3 ∧
        fields = [one i.val, state old, state new] ++ match cause with
          | .request tag => [0, tag]
          | .cue e => [1, one e.val]
          | .alarm e => [2, one e.val]
          | .link => [3, 0]
      | .format i previous new f source => type = 0xC4 ∧
        fields = [one i.val, one previous.val, one new.val, one f.val, match source with
          | .forced => 0
          | .descriptor => 1
          | .default => 2]
      | .apply i by_ r => type = 0xC5 ∧
        fields = [one i.val] ++ origin by_ ++ [(match r.outcome with
            | .done => 0
            | .noSpace => 1), one r.activeBank.val] ++ two r.held ++ two r.needed ++ two r.free
      | .store restore badImage tag valid => type = 0xC6 ∧ fields = [mark restore, mark badImage, tag, mark valid]
      | .link port new other => type = 0xC7 ∧
        fields = [(match port with
            | .upstream => 0
            | .downstream => 1), lock new, lock other]) →
    q.message = framed ([type, 0, mark q.lost] ++ fields)

/-! ## Cues -/

/-- CUE ARM sets the armed flag to its setting and leaves the condition memory; any other setting is refused with RANGE
(R147). -/
def Obligations.CueArmSetsTheArmedFlag : Prop :=
  ∀ (s : State) (tag entry setting : Byte), s.ready →
    (setting = 0 → exec (.cueArm tag entry setting) s =
      .next ((s.modifyCue (entryOf entry) fun r => { r with armed := false }).reply tag .ok [])) ∧
    (setting = 1 → exec (.cueArm tag entry setting) s =
      .next ((s.modifyCue (entryOf entry) fun r => { r with armed := true }).reply tag .ok [])) ∧
    (1 < setting.toNat → exec (.cueArm tag entry setting) s = .next (s.reply tag .range []))

/-- A REPORT action of a request queues a CUE report at once, which carries the overrun mark and the lost mark and clears
them, or is dropped where 32 reports wait (R161, R162, R182). -/
def Obligations.ReportActionQueuesACueReport : Prop :=
  ∀ (s : State) (i : Fin 8) (tag screen code : Byte), screenOf screen = some i → s.ready →
    let report : Report := .cue (.request tag) i none (s.ct.clocks.get i).value s.ce.overrun [⟨12, .done, code⟩]
    (s.ci.reports.length < 32 → exec (.reportAction tag screen code) s = .next (State.reply { s with
      ci := { s.ci with reports := s.ci.reports ++ [⟨s.ci.reportLost, report⟩], reportLost := false }
      ce := { s.ce with overrun := false } } tag .ok [12, 0])) ∧
    (32 ≤ s.ci.reports.length → exec (.reportAction tag screen code) s =
      .next (State.reply { s with ci := { s.ci with reportLost := true } } tag .ok [12, 0]))

/-- The oldest trigger is taken and handled against the entries 0 to 255 in order, each on the state that the entries before
it left. An entry fires exactly when it is armed, it is of the trigger's kind and screen (an INPUT trigger's is every
screen), its parameters match, its state mask allows its screen's state as it stood when the trigger was taken, and, of kind
CLOCK, its condition memory is false; the condition memory of a CLOCK entry of the screen of a CLOCK trigger is then its
match, fired or not, and one that does not fire changes nothing else (R150, R151, R152, R153, R155). -/
def Obligations.TriggersAreHandledAgainstEveryEntry : Prop :=
  ∀ (s : State) (trigger : Trigger) (rest : List Trigger), s.ce.triggers = trigger :: rest →
    ∃ at_ : Nat → State, at_ 0 = { s with ce := { s.ce with triggers := rest } } ∧
      exec .triggerHandling s = .next (at_ 256) ∧
      ∀ e : Fin 256, let before := at_ e.val
        let after := at_ (e.val + 1)
        let w0 := s.cueWord e 0
        let w1 := s.cueWord e 1
        let clockMatch (v : ClockValue) : Prop :=
          let equal (low count enable value : Nat) : Prop := flag w1 enable = true → field w1 low count = value
          (flag w1 7 = true ∨ flag w1 15 = true ∨ flag w1 23 = true ∨ flag w1 31 = true) ∧ equal 0 5 7 v.hours ∧
            equal 8 6 15 v.minutes ∧ equal 16 6 23 v.seconds ∧ equal 24 6 31 v.frames
        let follows : Prop := match trigger.event with
          | .clock i v => field w0 16 3 = 0 ∧ field w0 4 3 = i.val ∧ clockMatch v
          | .timer i k => field w0 16 3 = 1 ∧ field w0 4 3 = i.val ∧ field w1 0 1 = k.val
          | .input n edge _ => field w0 16 3 = 2 ∧ field w1 0 4 = n.val ∧
              ((edge = .rise ∧ field w1 8 1 = 0) ∨ (edge = .fall ∧ field w1 8 1 = 1))
          | .alarm i a tier => field w0 16 3 = 3 ∧ field w0 4 3 = i.val ∧ field w1 0 8 = a.val ∧
              ((tier = .warn ∧ field w1 8 2 = 0) ∨ (tier = .trip ∧ field w1 8 2 = 1))
          | .state i st => field w0 16 3 = 4 ∧ field w0 4 3 = i.val ∧ ScreenState.ofCode (field w1 0 3) = some st
        let allowed : Prop := field w0 (8 + (s.screenState (index 8 (field w0 4 3))).code) 1 = 1
        let fires : Prop := (before.ce.cues.get e).armed = true ∧ follows ∧ allowed ∧
          (field w0 16 3 = 0 → (before.ce.cues.get e).memory = false)
        before.cueEntry e = s.cueEntry e ∧
        (∀ i v, trigger.event = .clock i v → field w0 16 3 = 0 → field w0 4 3 = i.val → ∃ holds : Bool,
          (holds = true ↔ clockMatch v) ∧
          (fires → after = (before.fireCue e (s.cueEntry e) trigger).modifyCue e fun r => { r with memory := holds }) ∧
          (¬fires → after = before.modifyCue e fun r => { r with memory := holds })) ∧
        (¬(∃ i v, trigger.event = .clock i v ∧ field w0 16 3 = 0 ∧ field w0 4 3 = i.val) →
          (fires → after = before.fireCue e (s.cueEntry e) trigger) ∧ (¬fires → after = before))

/-- An entry that fires: a ONE_SHOT entry is disarmed first, the actions its count gives are executed in order, each on the
state the one before left, with the entry as their origin and one more than the trigger's depth, and the CUE report is queued
where the report flag is set, an outcome is neither DONE nor DEFERRED or an action is REPORT, with the clock value of before
the first action and the overrun mark, which it clears (R155, R156, R160, R161). The trigger that a CLOCK ZERO, a CLOCK RUN
whose latch changes F, or a STATE or SAFE that changes the state makes is not made above depth 3, and the outcome is then
CASCADE_CUT in place of DONE while the effect stands; the SAFE that a LOST port adds makes its trigger at depth 0; a target
equal to the state or refused makes none, no other action makes one, and its outcome does not depend on the depth (R11, R119,
R158). A kind that names no action is BAD_ACTION and changes nothing (R157). When a RUN corrects F and the sub-frame count is
assumption 11, and the order of the reports of forced falls assumption 45. -/
def Obligations.FiringRunsTheActions : Prop :=
  (∀ (s : State) (e : Fin 256) (trigger : Trigger),
    let c := s.cueEntry e
    let w0 := s.cueWord e 0
    let i : Fin 8 := index 8 (field w0 4 3)
    let codes : List (BitVec 16) := [(s.cueWord e 2).extractLsb' 16 16, (s.cueWord e 2).extractLsb' 0 16,
      (s.cueWord e 3).extractLsb' 16 16, (s.cueWord e 3).extractLsb' 0 16].take (field w0 24 2 + 1)
    ∃ (at_ : Nat → State) (outcome : Nat → ActionOutcome),
      at_ 0 = (if flag w0 1 = true then s.modifyCue e fun r => { r with armed := false } else s) ∧
      (∀ k, k < codes.length → (at_ k).runAction i (.cue e) (trigger.depth + 1) (Action.ofCode (codes.getD k 0)) =
        (at_ (k + 1), outcome k)) ∧
      let done := at_ codes.length
      let kind (k : Nat) : Nat := (codes.getD k 0).toNat / 4096
      let reported : Prop := flag w0 2 = true ∨ ∃ k, k < codes.length ∧
        ((outcome k ≠ .done ∧ outcome k ≠ .deferred) ∨ kind k = 12)
      let report : Report := .cue (.cue e) i (some trigger) (s.ct.clocks.get i).value done.ce.overrun
        ((List.range codes.length).map fun k =>
          ⟨kind k, outcome k, if kind k = 12 then BitVec.ofNat 8 (codes.getD k 0).toNat else 0⟩)
      (¬reported → s.fireCue e c trigger = done) ∧
      (reported → done.ci.reports.length < 32 → s.fireCue e c trigger = { done with
        ci := { done.ci with reports := done.ci.reports ++ [⟨done.ci.reportLost, report⟩], reportLost := false }
        ce := { done.ce with overrun := false } }) ∧
      (reported → 32 ≤ done.ci.reports.length → s.fireCue e c trigger =
        { done with ci := { done.ci with reportLost := true } })) ∧
  ∀ (s : State) (i : Fin 8) (origin : Origin) (depth : Nat),
    let made : ActionOutcome := if depth ≤ 3 then .done else .cascadeCut
    let trigger (event : TriggerEvent) : List Trigger := if depth ≤ 3 then [⟨event, depth⟩] else []
    let rate := s.pictureRate i
    let value := (s.ct.clocks.get i).value
    let zeroed : State := s.modifyClock i fun c => ⟨⟨0, 0, 0, 0⟩, 0, c.running, rate, false⟩
    let corrected : ClockValue := { value with frames := rate.perSecond - 1 }
    let rerated : State := s.modifyClock i fun c =>
      { c with rate := rate, running := true, value := corrected, subFrame := 0 }
    (s.runAction i origin depth (.clock .zero) =
      ((trigger (.clock i ⟨0, 0, 0, 0⟩)).foldl State.pushTrigger zeroed, made)) ∧
    (rate.perSecond ≤ value.frames → s.runAction i origin depth (.clock .run) =
      ((trigger (.clock i corrected)).foldl State.pushTrigger rerated, made)) ∧
    (value.frames < rate.perSecond → s.runAction i origin depth (.clock .run) = (s.modifyClock i fun c =>
      { c with
        rate := rate, running := true
        subFrame := if c.subFrame < rate.frameLength then c.subFrame else 0 }, .done)) ∧
    (∀ (a : Action) (target : ScreenState),
      (∃ code : BitVec 3, a = .state code ∧ ScreenState.ofCode code.toNat = some target) ∨
        (a = .safe ∧ target = .safe) →
      let old := s.screenState i
      let cause : StateCause := match origin with
        | .request tag => .request tag
        | .cue e => .cue e
      let changes : Prop := (old, target) ∈ [(ScreenState.idle, ScreenState.preshow), (.idle, .feature),
          (.idle, .offline), (.idle, .safe), (.preshow, .feature), (.preshow, .idle), (.preshow, .safe),
          (.feature, .idle), (.feature, .safe), (.safe, .idle), (.safe, .offline)] ∨
        (old = .offline ∧ target = .idle ∧ s.ts.state ≠ .restoring ∧ s.bankNeed i (s.activeBank i) ≤ s.freePages)
      (target = old → s.runAction i origin depth a = (s, .done)) ∧
      (target ≠ old → ¬changes → s.runAction i origin depth a =
        (s, if old = .offline ∧ target = .idle ∧ s.ts.state ≠ .restoring then .noSpace else .state)) ∧
      (changes → s.li.up.lock = .locked ∨ target.playing = false → ∃ t, s.runAction i origin depth a = (t, made) ∧
        t.screenState i = target ∧ (∀ j, j ≠ i → t.sc.get j = s.sc.get j) ∧ s.FallsFollow t i old target ∧
        s.ReportsJoin t [] [[.state i old target cause], s.fallReports i old target, s.handedReports i target] ∧
        s.TriggersJoin t (trigger (.state i target))) ∧
      (changes → s.li.up.lock = .lost → target.playing = true → ∃ t, s.runAction i origin depth a = (t, made) ∧
        t.screenState i = .safe ∧ (t.sc.get i).resume = some target ∧ (t.sc.get i).cause = some .link ∧
        (∀ j, j ≠ i → t.sc.get j = s.sc.get j) ∧ s.FallsFollow t i target .safe ∧
        s.ReportsJoin t [.state i old target cause]
          [[.state i target .safe .link], s.fallReports i target .safe, s.handedReports i .safe] ∧
        s.TriggersJoin t (trigger (.state i target) ++ [⟨.state i .safe, 0⟩]))) ∧
    (∀ (code : BitVec 3), ScreenState.ofCode code.toNat = none →
      s.runAction i origin depth (.state code) = (s, .state)) ∧
    (∀ (a : Action) (other : Nat), (s.runAction i origin depth a).1 =
        { (s.runAction i origin other a).1 with ce := (s.runAction i origin depth a).1.ce } ∧
      (a = .clock .stop ∨ (a.kind ≠ 1 ∧ a.kind ≠ 2 ∧ a.kind ≠ 10) →
        s.runAction i origin depth a = s.runAction i origin other a ∧
          (s.runAction i origin depth a).1.ce.triggers = s.ce.triggers ∧
          (s.runAction i origin depth a).2 ≠ .cascadeCut)) ∧
    ∀ k, s.runAction i origin depth (.unnamed k) = (s, .badAction)

/-! ## Queries -/

/-- A query changes nothing but for its one reply, which carries its data byte by byte as the formats give them, a part that
is absent as FFh or FFFFh, at the length they give (R180, R187, R188). The model's readings in it: a dip in RISE carries FFh
for its waiting origins and one in FALL for its swap outcome (assumption 16), a number of waiting origins above 255 is sent
modulo 256 (assumption 41), QUERY CHANNEL of an OFFLINE screen carries the section count and the delay its active bank
stores (assumption 46), and QUERY ALARM of a LINE entry carries the last value of its record, also where the last scan did
not evaluate it or the record was reset since (assumption 48). -/
def Obligations.QueriesOnlyReply : Prop :=
  let one (n : Nat) : Byte := BitVec.ofNat 8 n
  let two (n : Nat) : List Byte := [one (n / 256), one n]
  let three (n : Nat) : List Byte := [one (n / 65536), one (n / 256), one n]
  let mark (b : Bool) : Byte := if b = true then 1 else 0
  let single (x : Option Nat) : List Byte := match x with
    | some n => [one n]
    | none => [0xFF]
  let pair (x : Option Nat) : List Byte := match x with
    | some n => two n
    | none => [0xFF, 0xFF]
  let lock (x : Lock) : Byte := match x with
    | .lost => 0
    | .locked => 1
  let state (x : ScreenState) : Nat := match x with
    | .offline => 0
    | .idle => 1
    | .preshow => 2
    | .feature => 3
    | .safe => 4
  let line (x : LineState) : Byte := match x with
    | .ok => 0
    | .opened => 1
    | .short => 2
    | .unknown => 3
  ∀ (s : State) (tag : Byte), s.ready →
    let answers (c : Instr) (data : List Byte) (length : Nat) : Prop :=
      exec c s = .next (s.reply tag .ok data) ∧ data.length = length
    let input (n : Fin 16) : List Byte :=
      let d := s.bl.inputs.get n
      [mark d.raw, mark d.stable, one d.run]
    let output (n : Fin 16) : List Byte :=
      let o := s.bl.outputs.get n
      let annunciator := field (s.word 27 (16 + 2 * n.val)) 0 2 = 1
      [mark (decide annunciator),
        mark (if annunciator then s.am.demands.get n else o.drive == .high || o.drive == .pulseHigh),
        (match o.drive with
          | .low => 0
          | .high => 1
          | .pulseHigh => 2
          | .pulseLow => 3 : Byte)] ++
        match o.remaining with
          | .pulses k => two k
          | .continuous => [0xFF, 0xFF]
    let pages (i : Fin 8) : Nat :=
      ((List.finRange 16).map fun c => ((s.eq.channels.get i).get c).pages.length).sum
    let record (i : Fin 8) (bank : Nat) (c : Fin 16) : Word :=
      s.word (28 + 4 * i.val + 2 * bank + c.val / 8) (32 * (c.val % 8) + 30)
    let delay (w : Word) : Nat := min 4095 (field w 16 16)
    let need (i : Fin 8) (bank : Nat) : Nat :=
      ((List.finRange 16).map fun c => (delay (record i bank c) + 255) / 256).sum
    answers (.queryDevice tag) ([(0x03 : Byte), 0x30, 3, match s.ts.state with
        | .idle => 0
        | .preserving => 1
        | .restoring => 2] ++ three s.ts.elapsed ++ [mark s.ts.imageValid, (match s.ts.startOrigin with
        | .defaults => 0
        | .restored => 1), mark s.bl.key.stable, lock s.li.up.lock, lock s.li.down.lock, one s.ci.requests.length,
        one s.ci.replies.length, one s.ci.reports.length, mark s.ci.reportLost] ++
      (List.finRange 16).flatMap input ++ (List.finRange 16).flatMap output) 144 ∧
    answers (.queryPool tag) (two 512 ++ two s.eq.free.length ++ (List.finRange 8).flatMap fun i => two (pages i)) 20 ∧
    (∀ e, let r := s.am.entries.get (entryOf e)
      answers (.queryAlarm tag e) [(match r.tier with
          | .normal => 0
          | .warn => 1
          | .trip => 2), one ((if r.warnSeen = true then 1 else 0) + if r.tripSeen = true then 2 else 0),
        one r.warnCount, one r.tripCount, (match r.lastValue with
          | .level v => one v
          | .line x => line x), match r.lastEvaluation with
          | .evaluated => 0
          | .skipped => 1
          | .held => 2] 6) ∧
    (∀ e : Byte, let r := s.ce.cues.get (entryOf e)
      let clockOf (i : Fin 8) (t : Trigger) : Bool := match t.event with
        | .clock j _ => j == i
        | _ => false
      answers (.queryCue tag e) [mark r.armed, mark r.memory,
        mark (flag (s.word (23 + e.toNat / 64) (4 * (e.toNat % 64))) 0),
        one (s.ce.triggers.filter fun t => (List.finRange 8).all fun i => !clockOf i t).length,
        one ((List.finRange 8).map fun i => if s.ce.triggers.any (clockOf i) = true then 2 ^ i.val else 0).sum,
        mark s.ce.overrun] 6) ∧
    ∀ screen i, screenOf screen = some i →
      let r := s.sc.get i
      let d := s.de.get i
      let used : Nat × Byte := match d.forced with
        | some f => (f.val, 0)
        | none => if s.li.descriptors.get i = .unmapped then (field (s.word 1 (32 * i.val + 1)) 0 4, 2)
          else (d.accepted.val, 1)
      let mask : Nat := if r.state = .offline then 0 else
        match d.incoming, d.current with
        | some inc, _ => field (s.word 2 (240 + inc.profile.val)) 0 16
        | none, some p => field (s.word 2 (240 + p.val)) 0 16
        | none, none => 0
      let clock := s.ct.clocks.get i
      let timer (k : Fin 2) : List Byte :=
        let m := (s.ct.timers.get i).get k
        [(match m.base with
          | .millisecond => 0
          | .pictureFrame => 1
          | .second => 2 : Byte)] ++ two m.count ++ [mark m.reload, mark m.running] ++ two m.remaining ++ two m.phase
      answers (.queryScreen tag screen) ([one (state r.state)] ++ single (r.resume.map state) ++ (match r.cause with
          | none => [0xFF, 0xFF]
          | some .command => [4, 0]
          | some (.alarm e) => [2, one e.val]
          | some .link => [3, 0]) ++ [one r.activeBank.val] ++ (match r.pendingApply with
          | none => [0xFF, 0xFF]
          | some (.request tag) => [0, tag]
          | some (.cue e) => [1, one e.val]) ++
        two r.fader.value ++ two r.fader.target ++ two r.mute.value ++ two r.safeRamp.value ++ two r.dip.value ++
        two r.dip.position ++ [one d.accepted.val] ++ single (d.candidate.map fun x => x.code.val) ++
        pair (d.candidate.map fun x => x.run) ++ single (d.forced.map fun f => f.val) ++ [one used.1, used.2] ++
        single (d.current.map fun p => p.val) ++ single (d.incoming.map fun x => x.profile.val) ++
        pair (d.incoming.map fun x => x.position) ++ single (d.pending.map fun p => p.val) ++ two mask ++
        three d.envL ++ three d.envR ++ three d.envS ++ three d.envD ++ [one d.steering] ++
        two (pages i) ++ two (need i r.activeBank.val) ++ two (need i (1 - r.activeBank.val)) ++
        (match s.eq.dips.get i with
          | none => [0, 0xFF, 0xFF]
          | some ⟨.fall, _, waiting⟩ => [1, 0xFF, one waiting.length]
          | some ⟨.rise, none, _⟩ => [2, 0xFF, 0xFF]
          | some ⟨.rise, some result, _⟩ => [2, (match result.outcome with
            | .done => 0
            | .noSpace => 1), 0xFF]) ++
        [one clock.value.hours, one clock.value.minutes, one clock.value.seconds, one clock.value.frames] ++
        two clock.subFrame ++ [mark clock.running] ++ (match clock.rate with
          | .r24 => [24] ++ two 2000
          | .r25 => [25] ++ two 1920
          | .r48 => [48] ++ two 1000) ++ timer 0 ++ timer 1) 83 ∧
      ∀ channel : Byte,
        (15 < channel.toNat → exec (.queryChannel tag screen channel) s = .next (s.reply tag .range [])) ∧
        ∀ c : Fin 16, c.val = channel.toNat →
          let w := record i r.activeBank.val c
          let list := ((s.eq.channels.get i).get c).pages
          let out := (s.os.channels.get i).get c
          let slots := (List.finRange 128).filter fun n =>
            let entry := s.word 0 (128 + n.val)
            field entry 0 2 == 1 && field entry 4 3 == i.val && field entry 8 4 == c.val
          answers (.queryChannel tag screen channel) ([one (min 6 (field w 0 8))] ++ two (delay w) ++
            [one list.length] ++ (list.flatMap fun p => two p.val) ++ [one out.lastPeak, one out.lastAverage] ++
            three out.peak ++ three out.average ++ two out.protect.value ++ two out.protect.target ++
            [mark (out.protect.length ≤ out.protect.position)] ++ two ((s.am.targets.get i).get c) ++
            two (s.os.gains.get i) ++ [line ((s.am.lines.get i).get c), one slots.length] ++
            (slots.take 48).flatMap fun n =>
              let l := s.am.slots.get n
              [one n.val, line l.state] ++ two l.age) (23 + 2 * list.length + 4 * min 48 slots.length)

/-! ## The table store -/

/-- A TABLE WRITE that passes its checks (R170): every word of the run is written and no other. Each written alarm entry,
cue entry and output line is reset (R115, R141, R146); where an alarm entry is written, the protect targets and the annunciator
demands are recomputed and the ramps take the targets (R85, R115). A channel of a screen that is not OFFLINE whose written
delay in the active bank changes its page need returns pages from the end of its list or receives pages at it, and its delay
line is cleared; the pages of the pool stay the same (R69). A screen whose first DESCRIPTOR entry is written accepts its
default format (R42; assumption 43), and an input line whose debounce enable is cleared in its run stays debounced in this
link frame (R133). No screen, clock or link state changes. -/
def Obligations.TableWriteWritesTheRun : Prop :=
  ∀ (s : State) (tag page word : Byte) (data : List Word), s.ready → s.ts.words.wf = true → data ≠ [] →
    let a := 256 * page.toNat + word.toNat
    let written (b count : Nat) : Prop := ∃ k, k < count ∧ a ≤ b + k ∧ b + k < a + data.length
    let alarmsWritten : Prop := written (19 * 256) 1024
    let descriptor (u : State) (i : Fin 8) : Prop := ∃ n : Fin 128,
      field (u.word 0 n.val) 0 2 = 2 ∧ field (u.word 0 n.val) 4 3 = i.val
    s.writeResult page word data = .ok →
    ∃ t, exec (.tableWrite tag page word data) s = .next t ∧
      (∀ b, t.ts.words.read b = if a ≤ b ∧ b < a + data.length then data.getD (b - a) 0 else s.ts.words.read b) ∧
      (∀ e : Fin 256, (written (19 * 256 + 4 * e.val) 4 → t.am.entries.get e = .reset) ∧
        (¬written (19 * 256 + 4 * e.val) 4 → t.am.entries.get e = s.am.entries.get e)) ∧
      t.am.slots = s.am.slots ∧ t.am.lines = s.am.lines ∧
      (alarmsWritten → t.targetsFollow ∧ t.demandsFollow ∧ t.os.gains = s.os.gains ∧ t.os.window = s.os.window ∧
        ∀ i c, let ch := (s.os.channels.get i).get c
          (t.os.channels.get i).get c =
            { ch with protect := ch.protect.protectTake ((t.am.targets.get i).get c) }) ∧
      (¬alarmsWritten → t.am = s.am ∧ t.os = s.os) ∧
      (∀ e : Fin 256, (written (23 * 256 + 4 * e.val) 4 → t.ce.cues.get e = ⟨t.cueEnabled e, false⟩) ∧
        (¬written (23 * 256 + 4 * e.val) 4 → t.ce.cues.get e = s.ce.cues.get e)) ∧
      (∀ n : Fin 16, (written (27 * 256 + 16 + 2 * n.val) 2 → t.bl.outputs.get n = ⟨.low, .pulses 0, 0, false⟩) ∧
        (¬written (27 * 256 + 16 + 2 * n.val) 2 → t.bl.outputs.get n = s.bl.outputs.get n)) ∧
      (∀ i c, let old := (s.eq.channels.get i).get c
        let new := (t.eq.channels.get i).get c
        let need := pageNeed (t.delay i (s.activeBank i) c)
        let changes : Prop := s.screenState i ≠ .offline ∧
          written (256 * (28 + 4 * i.val + 2 * (s.activeBank i).val + c.val / 8) + 32 * (c.val % 8) + 30) 1
        (¬changes ∨ need = old.pages.length → new = old) ∧
        (changes → need < old.pages.length → new = { old with pages := old.pages.take need, line := [] }) ∧
        (changes → old.pages.length < need → ∃ given, given.length = need - old.pages.length ∧
          new = { old with pages := old.pages ++ given, line := [] })) ∧
      t.poolPages.Perm s.poolPages ∧
      (∀ i, (descriptor s i ∨ ¬descriptor t i → t.de.get i = s.de.get i) ∧
        (¬descriptor s i → descriptor t i → t.de.get i =
          { s.de.get i with accepted := index 16 (field (t.word 1 (32 * i.val + 1)) 0 4) })) ∧
      (∀ n : Fin 16, let d := s.bl.inputs.get n
        t.bl.inputs.get n = { d with
          held := d.held || (flag (s.word 27 n.val) 8 && !flag (t.word 27 n.val) 8 && decide (0 < d.run)) }) ∧
      t.bl.key = s.bl.key ∧ t.bl.sampling = s.bl.sampling ∧
      t.ci = { s.ci with replies := s.ci.replies ++ [⟨tag, .ok, []⟩] } ∧ t.sc = s.sc ∧ t.ct = s.ct ∧ t.li = s.li ∧
      t.eq.dips = s.eq.dips ∧ t.ce.triggers = s.ce.triggers ∧ t.ce.overrun = s.ce.overrun ∧
      t.ts.image = s.ts.image ∧ t.ts.state = s.ts.state

/-- The checks of a TABLE WRITE in their order: a write that fails one changes nothing and is answered by the first it fails
(R168). A word is protected that belongs to an alarm entry in TRIP or, of a screen that plays, to its active bank, its settings
block, a profile it holds as current, incoming or pending, page 2 where one of those is steered, or a slot map entry that names
it before the write or would name it after (R169). The page check compares the page needs the written delays in force of
screens that are not OFFLINE would give their channels with the pages those channels hold and the free ones (R69). A TABLE READ
within the store is answered OK with the words of its run, most significant byte first, and otherwise with RANGE; it changes
nothing (R167). -/
def Obligations.RefusedWritesAndReadsChangeNothing : Prop :=
  (∀ (s : State) (tag page word : Byte) (data : List Word), s.ready →
    let a := 256 * page.toNat + word.toNat
    let answers (result : ResultCode) : Prop :=
      exec (.tableWrite tag page word data) s = .next (s.reply tag result [])
    let plays (i : Fin 8) : Prop := s.screenState i = .preshow ∨ s.screenState i = .feature
    let used (p : Fin 16) : Prop := ∃ i, plays i ∧
      ((s.de.get i).current = some p ∨ (s.de.get i).pending = some p ∨ ∃ k, (s.de.get i).incoming = some ⟨p, k⟩)
    let within (b first count : Nat) : Prop := first ≤ b ∧ b < first + count
    let protectedWord (b : Nat) (v : Word) : Prop :=
      (∃ e : Fin 256, (s.am.entries.get e).tier = .trip ∧ within b (256 * 19 + 4 * e.val) 4) ∨
      (∃ i, plays i ∧ within b (256 * (28 + 4 * i.val + 2 * (s.activeBank i).val)) 512) ∨
      (∃ i : Fin 8, plays i ∧ within b (256 + 32 * i.val) 32) ∨
      (∃ p, used p ∧ (within b (256 * (3 + p.val)) 256 ∨ b = 256 * 2 + (240 + p.val))) ∨
      (∃ p, used p ∧ field (s.word 2 (240 + p.val)) 16 1 = 1 ∧ within b (256 * 2) 256) ∨
      (∃ i : Fin 8, plays i ∧ b < 256 ∧ (field (s.ts.words.read b) 4 3 = i.val ∨ field v 4 3 = i.val))
    let inUse : Prop := ∃ k, k < data.length ∧ protectedWord (a + k) (data.getD k 0)
    let delayWord (i : Fin 8) (c : Fin 16) : Nat :=
      256 * (28 + 4 * i.val + 2 * (s.activeBank i).val + c.val / 8) + 32 * (c.val % 8) + 30
    let overWritten (pages : Fin 8 → Fin 16 → Nat) : Nat :=
      ((List.finRange 8).map fun i => ((List.finRange 16).map fun c =>
        if s.screenState i ≠ .offline ∧ a ≤ delayWord i c ∧ delayWord i c < a + data.length then pages i c
        else 0).sum).sum
    let needs := overWritten fun i c => (min 4095 (field (data.getD (delayWord i c - a) 0) 16 16) + 255) / 256
    let holds := overWritten fun i c => (s.pagesOf i c).length
    (15360 < a + data.length → answers .range) ∧
    (a + data.length ≤ 15360 →
      (s.bl.key.stable = true → answers .locked) ∧
      (s.bl.key.stable = false →
        (s.ts.state ≠ .idle → answers .busy) ∧
        (s.ts.state = .idle →
          (inUse → answers .inUse) ∧
          (¬inUse → holds + s.freePages < needs → answers .noSpace) ∧
          (¬inUse → needs ≤ holds + s.freePages → s.writeResult page word data = .ok))))) ∧
  ∀ (s : State) (tag page word count : Byte), s.ready →
    let a := 256 * page.toNat + word.toNat
    (count.toNat ≤ 31 → a + count.toNat ≤ 15359 → exec (.tableRead tag page word count) s =
      .next (s.reply tag .ok ((List.range (count.toNat + 1)).flatMap fun k => bytesOfWord (s.ts.words.read (a + k))))) ∧
    (31 < count.toNat ∨ 15359 < a + count.toNat →
      exec (.tableRead tag page word count) s = .next (s.reply tag .range []))

/-- PRESERVE and RESTORE: their checks in order, and the states they begin (R172, R173). Their completions: the image holds
the store and is valid; the store holds the pages of a valid image, with the effects of a write of every word, or stands with
an image that is not valid; each queues its STORE report (R172, R173). That a screen which comes to have a DESCRIPTOR entry
accepts its default format there is assumption 43. -/
def Obligations.PreserveAndRestoreBeginAndComplete : Prop :=
  (∀ (s : State) (tag : Byte), s.ready →
    (s.bl.key.stable = true → exec (.preserve tag) s = .next (s.reply tag .locked [])) ∧
    (s.bl.key.stable = false → s.ts.state ≠ .idle → exec (.preserve tag) s = .next (s.reply tag .busy [])) ∧
    (s.bl.key.stable = false → s.ts.state = .idle → exec (.preserve tag) s =
      .next (State.reply { s with ts := { s.ts with
        image := { s.ts.image with complete := false }, imageValid := false
        state := .preserving, elapsed := 0, requestTag := tag } } tag .accepted [])) ∧
    (s.ts.state ≠ .idle → exec (.restore tag) s = .next (s.reply tag .busy [])) ∧
    (s.ts.state = .idle → (∃ i, s.screenState i ≠ .offline) → exec (.restore tag) s = .next (s.reply tag .state [])) ∧
    (s.ts.state = .idle → (∀ i, s.screenState i = .offline) → exec (.restore tag) s =
      .next (State.reply { s with ts := { s.ts with state := .restoring, elapsed := 0, requestTag := tag } } tag
        .accepted []))) ∧
  (∀ s : State, s.ts.state = .preserving → s.ts.elapsed = 72000 →
    ∃ image, exec .preserveComplete s = .next (State.queueReport { s with ts := { s.ts with
        image := image, imageValid := true, state := .idle, elapsed := 0, requestTag := 0 } }
        (.store false false s.ts.requestTag true)) ∧
      image.pages = s.ts.words ∧ image.valid = true) ∧
  (∀ s : State, s.ts.state = .restoring → s.ts.elapsed = 24000 → s.ts.image.valid = false →
    exec .restoreComplete s = .next (State.queueReport { s with ts := { s.ts with
      imageValid := false, state := .idle, elapsed := 0, requestTag := 0 } } (.store true true s.ts.requestTag false))) ∧
  ∀ s : State, s.ts.state = .restoring → s.ts.elapsed = 24000 → s.ts.image.valid = true →
    let descriptor (u : State) (i : Fin 8) : Prop := ∃ n : Fin 128,
      field (u.word 0 n.val) 0 2 = 2 ∧ field (u.word 0 n.val) 4 3 = i.val
    ∃ t, exec .restoreComplete s = .next t ∧ t.ts = { s.ts with
        words := s.ts.image.pages, imageValid := true, state := .idle, elapsed := 0, requestTag := 0 } ∧
      (∀ e, t.am.entries.get e = .reset) ∧ (∀ n, t.am.demands.get n = false) ∧
      (∀ i c, (t.am.targets.get i).get c = 32768 ∧ let ch := (s.os.channels.get i).get c
        (t.os.channels.get i).get c = { ch with protect := ch.protect.protectTake 32768 }) ∧
      (∀ e, t.ce.cues.get e = ⟨t.cueEnabled e, false⟩) ∧ (∀ n, t.bl.outputs.get n = ⟨.low, .pulses 0, 0, false⟩) ∧
      (∀ i, (descriptor s i ∨ ¬descriptor t i → t.de.get i = s.de.get i) ∧
        (¬descriptor s i → descriptor t i → t.de.get i =
          { s.de.get i with accepted := index 16 (field (t.word 1 (32 * i.val + 1)) 0 4) })) ∧
      (∀ n : Fin 16, (t.bl.inputs.get n).raw = (s.bl.inputs.get n).raw ∧
        (t.bl.inputs.get n).stable = (s.bl.inputs.get n).stable ∧ (t.bl.inputs.get n).run = (s.bl.inputs.get n).run) ∧
      t.bl.key = s.bl.key ∧ t.ci = (s.queueReport (.store true false s.ts.requestTag true)).ci ∧
      t.sc = s.sc ∧ t.eq = s.eq ∧ t.ct = s.ct ∧ t.li = s.li ∧ t.ce.triggers = s.ce.triggers

/-! ## Resets -/

/-- RESET is refused with STATE while a screen plays. Otherwise the ports, the receiver, the sender, the queues, every
screen, decode and dip record, the meters, the alarm and cue records, the slots, clocks, timers and booth lines take
their values after a reset, the store, its image and its marks are kept, and the one OK reply is queued. The screens whose
settings give auto-enable, in order, are IDLE where the free pages hold bank 0, with its pages, cleared histories and delay
lines and the default format's profile, and every other screen is OFFLINE with no page (R20, R32, R40, R79, R94, R98,
R106, R118, R125, R142, R164, R181). Of booth inputs the raw levels of the last sampling are taken, or those of the sampling
still to come (assumption 21 and 22). -/
def Obligations.ResetRestartsEveryBlock : Prop :=
  ∀ (s : State) (tag : Byte), s.ready →
    ((∃ i, s.screenState i = .preshow ∨ s.screenState i = .feature) →
      exec (.reset tag) s = .next (s.reply tag .state [])) ∧
    ((∀ i, s.screenState i ≠ .preshow ∧ s.screenState i ≠ .feature) → ∃ t, exec (.reset tag) s = .next t ∧
      t.ci = ⟨[], [⟨tag, .ok, []⟩], [], false⟩ ∧
      t.ts = { s.ts with state := .idle, elapsed := 0, requestTag := 0 } ∧
      t.li.up = ⟨.lost, 0, 0⟩ ∧ t.li.down = ⟨.lost, 0, 0⟩ ∧ t.li.receiver = ⟨.hunt, []⟩ ∧ t.li.sender.message = [] ∧
      (∀ i, t.screenState i = .offline ∨ t.screenState i = .idle) ∧
      (∀ i, t.screenState i = .idle ↔ s.autoEnable i = true ∧ s.bankNeed i 0 +
        ((List.finRange 8).map fun j => if j < i ∧ t.screenState j = .idle then s.bankNeed j 0 else 0).sum ≤ 512) ∧
      (∀ i, (t.sc.get i).resume = none ∧ (t.sc.get i).cause = none ∧ (t.sc.get i).activeBank = 0 ∧
        (t.sc.get i).pendingApply = none ∧
        (t.sc.get i).fader = ⟨s.levelPreset i 0, s.levelPreset i 0, 256, 256⟩ ∧
        (t.sc.get i).mute = ⟨32768, 32768, 256, 256⟩ ∧ (t.sc.get i).safeRamp = ⟨32768, 32768, 64, 64⟩ ∧
        (t.sc.get i).dip = ⟨32768, 32768, 256, 256⟩) ∧
      (∀ i, (t.de.get i).accepted = s.defaultFormat i ∧ (t.de.get i).candidate = none ∧ (t.de.get i).forced = none ∧
        (t.de.get i).current =
          (if t.screenState i = .idle then some (s.formatMap i (s.defaultFormat i)) else none) ∧
        (t.de.get i).incoming = none ∧ (t.de.get i).pending = none ∧ (t.de.get i).envL = 0 ∧
        (t.de.get i).envR = 0 ∧ (t.de.get i).envS = 0 ∧ (t.de.get i).envD = 0 ∧ (t.de.get i).steering = 0) ∧
      t.poolWhole ∧
      (∀ i c, let ch := (t.eq.channels.get i).get c
        ch.pages.length = (if t.screenState i = .idle then pageNeed (s.delay i 0 c) else 0) ∧ ch.line = [] ∧
          ∀ k, ch.sections.get k = ⟨0, 0, 0, 0⟩) ∧
      (∀ i, t.eq.dips.get i = none) ∧ t.os.window = 0 ∧ (∀ i, t.os.gains.get i = 0) ∧
      (∀ i c, let ch := (t.os.channels.get i).get c
        ch.peak = 0 ∧ ch.average = 0 ∧ ch.lastPeak = 0 ∧ ch.lastAverage = 0 ∧ ch.flight = [] ∧
          ch.protect.start = 32768 ∧ ch.protect.target = 32768 ∧ ch.protect.atRest = true ∧
          (t.am.targets.get i).get c = 32768 ∧ (t.am.lines.get i).get c = .unknown) ∧
      (∀ e, t.am.entries.get e = ⟨.normal, false, false, 0, 0, .level 0, .skipped⟩) ∧
      (∀ n, t.am.slots.get n = ⟨.unknown, 0⟩) ∧ (∀ n, t.am.demands.get n = false) ∧
      (∀ i, t.ct.clocks.get i = ⟨⟨0, 0, 0, 0⟩, 0, false, .r24, false⟩) ∧
      (∀ i k, (t.ct.timers.get i).get k = ⟨.millisecond, 0, false, false, 0, 0, false, false⟩) ∧
      (∀ n, t.bl.outputs.get n = ⟨.low, .pulses 0, 0, false⟩) ∧
      (∀ n, let level := (s.bl.inputs.get n).raw
        t.bl.inputs.get n = ⟨level, level, 0, false, false⟩) ∧
      t.bl.key = ⟨s.bl.key.raw, s.bl.key.raw, 0, false, false⟩ ∧
      t.bl.sampling = (if s.bl.sampling = .taken then .taken else .asReset) ∧
      t.ce.triggers = [] ∧ t.ce.overrun = false ∧ ∀ e, t.ce.cues.get e = ⟨s.cueEnabled e, false⟩)

/-- Power-up: a valid image gives the store its pages and any other leaves it all zero, the levels at the booth inputs
are taken, and the queues, ports, screens, decode and dip records, the output stage, the alarm monitor, the clocks, the timers
and the cue records start as after a reset, auto-enable included (R20, R32, R40, R79, R94, R98, R106, R113, R118, R125, R135,
R136, R142, R164, R171). -/
def Obligations.PowerUpLoadsTheImage : Prop :=
  ∀ (s : State) (lines : BitVec 16) (keyLocked : Bool), ∃ t, exec (.powerUp lines keyLocked) s = .next t ∧
    t.ts.image = s.ts.image ∧ t.ts.state = .idle ∧ t.ts.elapsed = 0 ∧ t.ts.imageValid = s.ts.image.valid ∧
    (s.ts.image.valid = true → t.ts.words = s.ts.image.pages ∧ t.ts.startOrigin = .restored) ∧
    (s.ts.image.valid = false → t.ts.words = [] ∧ t.ts.startOrigin = .defaults) ∧
    t.ci = ⟨[], [], [], false⟩ ∧ t.li.up = ⟨.lost, 0, 0⟩ ∧ t.li.down = ⟨.lost, 0, 0⟩ ∧
    t.li.receiver = ⟨.hunt, []⟩ ∧ t.li.sender.message = [] ∧
    (∀ n : Fin 16, t.bl.inputs.get n = ⟨lines.getLsb n, lines.getLsb n, 0, false, false⟩) ∧
    t.bl.key = ⟨keyLocked, keyLocked, 0, false, false⟩ ∧
    (∀ n, t.bl.outputs.get n = ⟨.low, .pulses 0, 0, false⟩) ∧
    (s.ts.image.valid = false → ∀ i, t.screenState i = .offline ∧ (t.sc.get i).fader = ⟨0, 0, 256, 256⟩) ∧
    (∀ i, t.screenState i = .offline ∨ t.screenState i = .idle) ∧
    (∀ i, t.screenState i = .idle ↔ t.autoEnable i = true ∧ t.bankNeed i 0 +
      ((List.finRange 8).map fun j => if j < i ∧ t.screenState j = .idle then t.bankNeed j 0 else 0).sum ≤ 512) ∧
    t.poolWhole ∧
    (∀ i c, let ch := (t.eq.channels.get i).get c
      ch.pages.length = (if t.screenState i = .idle then pageNeed (t.delay i 0 c) else 0) ∧ ch.line = [] ∧
        ∀ k, ch.sections.get k = ⟨0, 0, 0, 0⟩) ∧
    (∀ i, (t.sc.get i).resume = none ∧ (t.sc.get i).cause = none ∧ (t.sc.get i).activeBank = 0 ∧
      (t.sc.get i).pendingApply = none ∧
      (t.sc.get i).fader = ⟨t.levelPreset i 0, t.levelPreset i 0, 256, 256⟩ ∧
      (t.sc.get i).mute = ⟨32768, 32768, 256, 256⟩ ∧ (t.sc.get i).safeRamp = ⟨32768, 32768, 64, 64⟩ ∧
      (t.sc.get i).dip = ⟨32768, 32768, 256, 256⟩) ∧
    (∀ i, (t.de.get i).accepted = t.defaultFormat i ∧ (t.de.get i).candidate = none ∧ (t.de.get i).forced = none ∧
      (t.de.get i).current =
        (if t.screenState i = .idle then some (t.formatMap i (t.defaultFormat i)) else none) ∧
      (t.de.get i).incoming = none ∧ (t.de.get i).pending = none ∧ (t.de.get i).envL = 0 ∧ (t.de.get i).envR = 0 ∧
      (t.de.get i).envS = 0 ∧ (t.de.get i).envD = 0 ∧ (t.de.get i).steering = 0) ∧
    (∀ i, t.eq.dips.get i = none) ∧ t.os.window = 0 ∧ (∀ i, t.os.gains.get i = 0) ∧
    (∀ i c, let ch := (t.os.channels.get i).get c
      ch.peak = 0 ∧ ch.average = 0 ∧ ch.lastPeak = 0 ∧ ch.lastAverage = 0 ∧ ch.flight = [] ∧
        ch.protect.start = 32768 ∧ ch.protect.target = 32768 ∧ ch.protect.atRest = true ∧
        (t.am.targets.get i).get c = 32768 ∧ (t.am.lines.get i).get c = .unknown) ∧
    (∀ e, t.am.entries.get e = ⟨.normal, false, false, 0, 0, .level 0, .skipped⟩) ∧
    (∀ n, t.am.slots.get n = ⟨.unknown, 0⟩) ∧ (∀ n, t.am.demands.get n = false) ∧
    (∀ i, t.ct.clocks.get i = ⟨⟨0, 0, 0, 0⟩, 0, false, .r24, false⟩) ∧
    (∀ i k, (t.ct.timers.get i).get k = ⟨.millisecond, 0, false, false, 0, 0, false, false⟩) ∧
    t.ce.triggers = [] ∧ t.ce.overrun = false ∧ ∀ e, t.ce.cues.get e = ⟨t.cueEnabled e, false⟩

/-! ## Arithmetic -/

/-- A ramp ends at its target: after the link frames that are left it stands at rest there, and before that its value is
the start plus the part of the way rounded toward zero (R15). A protect ramp keeps a target it has; a new one below its
value is an attack over 64 link frames, one above it a release over 4800, and one equal to it rest at that value (R85; the
length at rest is assumption 18). A screen's effective gain is the product of its four ramps, rounded down after each factor:
it never exceeds the fader, and is 0 where any of the four is 0; it equals the fader where the other three stand at unity
and nowhere else, but for a fader of 0, which is the model's reading of R82's "exactly when" beside its own "0 whenever any
of the four is 0" (R82). -/
def Obligations.RampsAndGainsFollowTheirFormulas : Prop :=
  (∀ (r : Ramp) (k : Nat), r.sound → r.position + k ≤ r.length →
    (Ramp.advance^[k] r).position = r.position + k ∧
      ((Ramp.advance^[k] r).value : Int) =
        r.start + (((r.target : Int) - r.start) * (r.position + k : Nat)).tdiv r.length ∧
      (r.position + k = r.length →
        (Ramp.advance^[k] r).value = r.target ∧ Ramp.advance (Ramp.advance^[k] r) = Ramp.advance^[k] r)) ∧
  (∀ (r : Ramp) (target : Nat), (target = r.target → r.protectTake target = r) ∧
    (target ≠ r.target → target < r.value → r.protectTake target = ⟨r.value, target, 64, 0⟩) ∧
    (target ≠ r.target → r.value < target → r.protectTake target = ⟨r.value, target, 4800, 0⟩) ∧
    (target ≠ r.target → r.value = target → ∃ length, r.protectTake target = ⟨target, target, length, length⟩) ∧
    (r.protectTake target).value = r.value) ∧
  ∀ r : ScreenRecord, r.fader.sound → r.mute.sound → r.safeRamp.sound → r.dip.sound →
    r.effectiveGain =
      r.fader.value * r.mute.value / 32768 * r.safeRamp.value / 32768 * r.dip.value / 32768 ∧
    r.effectiveGain ≤ r.fader.value ∧ r.effectiveGain ≤ 32768 ∧
    (r.effectiveGain = r.fader.value ↔
      r.fader.value = 0 ∨ (r.mute.value = 32768 ∧ r.safeRamp.value = 32768 ∧ r.dip.value = 32768)) ∧
    (r.fader.value = 0 ∨ r.mute.value = 0 ∨ r.safeRamp.value = 0 ∨ r.dip.value = 0 → r.effectiveGain = 0)

/-- The level step function: its values, its range 0 to 183 and its order (R91). -/
def Obligations.LevelStepsFollowTheOctaves : Prop :=
  levelStep 0 = 0 ∧
  (∀ n v, 1 ≤ n → 2 ^ (n - 1) ≤ v → v < 2 ^ n → levelStep v = 8 * (n - 1) + v * 8 / 2 ^ (n - 1) - 8) ∧
  (∀ v w, v ≤ w → levelStep v ≤ levelStep w) ∧
  (∀ v, v ≤ 8388607 → levelStep v ≤ 183) ∧
  (∀ v, v ≤ 8388607 → (levelStep v = 183 ↔ 7864320 ≤ v)) ∧
  ∀ n k, 5 ≤ n → k < 8 → ∃ v, 2 ^ (n - 1) ≤ v ∧ v < 2 ^ n ∧ levelStep v = 8 * (n - 1) + k
end

