-- ==== Sys2Proof/Laws/Encoding.lean ====
section
/-!
SUPPORT. The bytes of messages and action codes read back as what they were written from.
-/

namespace Sys2Proof.Machine

-- One lemma at a time: a kernel decision waits for every check before it.
set_option Elab.async false

@[simp] theorem byte_toNat (b : Byte) : byte b.toNat = b := by simp [byte]

@[simp] theorem entryOf_byte (e : Fin 256) : entryOf (byte e.val) = e := by
  apply Fin.ext
  simp [entryOf, byte]

@[simp] theorem byte_entryOf (b : Byte) : byte (entryOf b).val = b := by simp [entryOf]

theorem toNat_ofBytes2 (a b : Byte) : (ofBytes2 a b).toNat = 256 * a.toNat + b.toNat := by
  have h : b.toNat < 2 ^ 8 := b.isLt
  rw [ofBytes2, BitVec.toNat_append, Nat.shiftLeft_eq, Nat.mul_comm, ← Nat.two_pow_add_eq_or_of_lt h]

/-- Two bytes of a number read back as the number. -/
theorem ofBytes2_bytes (v : BitVec 16) : ofBytes2 (byte (v.toNat / 256)) (byte v.toNat) = v := by
  apply BitVec.eq_of_toNat_eq
  have h : v.toNat < 2 ^ 16 := v.isLt
  rw [toNat_ofBytes2]
  simp only [byte, BitVec.toNat_ofNat]
  omega

theorem toNat_ofBytes4 (a b c d : Byte) :
    (ofBytes4 a b c d).toNat = 16777216 * a.toNat + 65536 * b.toNat + 256 * c.toNat + d.toNat := by
  have hc : c.toNat < 2 ^ 8 := c.isLt
  have hd : d.toNat < 2 ^ 8 := d.isLt
  have hb : b.toNat < 2 ^ 8 := b.isLt
  have h1 : (a ++ b : BitVec (8 + 8)).toNat = 256 * a.toNat + b.toNat := toNat_ofBytes2 a b
  have h2 : (c ++ d : BitVec (8 + 8)).toNat = 256 * c.toNat + d.toNat := toNat_ofBytes2 c d
  have h3 : (c ++ d : BitVec (8 + 8)).toNat < 2 ^ (8 + 8) := BitVec.isLt _
  rw [ofBytes4, BitVec.toNat_append, Nat.shiftLeft_eq, Nat.mul_comm, ← Nat.two_pow_add_eq_or_of_lt h3, h1, h2]
  omega

/-- Four bytes of a word read back as the word. -/
theorem ofBytes4_bytes (w : Word) :
    ofBytes4 (byte (w.toNat / 16777216)) (byte (w.toNat / 65536)) (byte (w.toNat / 256)) (byte w.toNat) = w := by
  apply BitVec.eq_of_toNat_eq
  have h : w.toNat < 2 ^ 32 := w.isLt
  rw [toNat_ofBytes4]
  simp only [byte, BitVec.toNat_ofNat]
  omega

theorem length_bytesOfWord (w : Word) : (bytesOfWord w).length = 4 := rfl

theorem length_flatMap_bytesOfWord (data : List Word) : (data.flatMap bytesOfWord).length = 4 * data.length := by
  induction data with
  | nil => rfl
  | cons w rest ih => rw [List.flatMap_cons, List.length_append, length_bytesOfWord, ih, List.length_cons]; omega

/-- The data bytes of a run read back as its words. -/
theorem wordsOf_bytes (data : List Word) : wordsOf (data.flatMap bytesOfWord) = data := by
  induction data with
  | nil => rfl
  | cons w rest ih =>
    rw [List.flatMap_cons]
    show ofBytes4 _ _ _ _ :: wordsOf (rest.flatMap bytesOfWord) = _
    rw [ofBytes4_bytes, ih]

/-- The field of a number below 2^16 is its digits' place. -/
theorem field_setWidth (n low count : Nat) (h : n < 65536) :
    field ((BitVec.ofNat 16 n).setWidth 32) low count = n / 2 ^ low % 2 ^ count := by
  have h1 : n % 2 ^ 16 = n := Nat.mod_eq_of_lt (by omega)
  have h2 : n % 2 ^ 32 = n := Nat.mod_eq_of_lt (by omega)
  rw [field, BitVec.toNat_setWidth, BitVec.toNat_ofNat, h1, h2]

theorem Action.operands_lt (a : Action) : a.operands < 4096 := by
  cases a with
  | state target => have : target.toNat < 2 ^ 3 := target.isLt; simp only [Action.operands]; omega
  | level p r => have := p.isLt; have := r.isLt; simp only [Action.operands]; omega
  | mute on => simp only [Action.operands]; split <;> omega
  | format f => have := f.isLt; simp only [Action.operands]; omega
  | line n op => have := n.isLt; cases op <;> simp only [Action.operands, LineOp.code] <;> omega
  | clock op => cases op <;> simp [Action.operands, ClockOp.code]
  | timer t op => have := t.isLt; cases op <;> simp only [Action.operands, TimerOp.code] <;> omega
  | report code => have : code.toNat < 2 ^ 8 := code.isLt; simp only [Action.operands]; omega
  | _ => simp [Action.operands]

/-- The action code of a named action names it. -/
theorem Action.ofCode_encode (a : Action) (h : ∀ k, a ≠ .unnamed k) : Action.ofCode a.encode = a := by
  cases a with
  | state target => revert target; decide +kernel
  | safe => decide +kernel
  | level p r => revert p r; decide +kernel
  | mute on => revert on; decide +kernel
  | format f => revert f; decide +kernel
  | release => decide +kernel
  | apply => decide +kernel
  | safepoint => decide +kernel
  | line n op => cases op <;> (revert n; decide +kernel)
  | clock op => cases op <;> decide +kernel
  | timer t op => cases op <;> (revert t; decide +kernel)
  | report code => revert code; decide +kernel
  | unnamed k => exact absurd rfl (h k)

end Sys2Proof.Machine
end

