-- ==== Sys2Proof/Laws/State.lean ====
section
/-!
SUPPORT. One lemma for each field of the state under each of its updates, so that no proof unfolds an update.
-/

namespace Sys2Proof.Machine

variable (s : State)

/-! ## modifyScreen -/

@[simp] theorem State.modifyScreen_pending (i : Fin 8) (f : ScreenRecord → ScreenRecord) :
    (s.modifyScreen i f).pending = s.pending := rfl
@[simp] theorem State.modifyScreen_draws (i : Fin 8) (f : ScreenRecord → ScreenRecord) :
    (s.modifyScreen i f).draws = s.draws := rfl
@[simp] theorem State.modifyScreen_li (i : Fin 8) (f : ScreenRecord → ScreenRecord) :
    (s.modifyScreen i f).li = s.li := rfl
@[simp] theorem State.modifyScreen_ci (i : Fin 8) (f : ScreenRecord → ScreenRecord) :
    (s.modifyScreen i f).ci = s.ci := rfl
@[simp] theorem State.modifyScreen_ts (i : Fin 8) (f : ScreenRecord → ScreenRecord) :
    (s.modifyScreen i f).ts = s.ts := rfl
@[simp] theorem State.modifyScreen_sc (i : Fin 8) (f : ScreenRecord → ScreenRecord) :
    (s.modifyScreen i f).sc = s.sc.modify i f := rfl
@[simp] theorem State.modifyScreen_de (i : Fin 8) (f : ScreenRecord → ScreenRecord) :
    (s.modifyScreen i f).de = s.de := rfl
@[simp] theorem State.modifyScreen_eq (i : Fin 8) (f : ScreenRecord → ScreenRecord) :
    (s.modifyScreen i f).eq = s.eq := rfl
@[simp] theorem State.modifyScreen_os (i : Fin 8) (f : ScreenRecord → ScreenRecord) :
    (s.modifyScreen i f).os = s.os := rfl
@[simp] theorem State.modifyScreen_am (i : Fin 8) (f : ScreenRecord → ScreenRecord) :
    (s.modifyScreen i f).am = s.am := rfl
@[simp] theorem State.modifyScreen_ct (i : Fin 8) (f : ScreenRecord → ScreenRecord) :
    (s.modifyScreen i f).ct = s.ct := rfl
@[simp] theorem State.modifyScreen_bl (i : Fin 8) (f : ScreenRecord → ScreenRecord) :
    (s.modifyScreen i f).bl = s.bl := rfl
@[simp] theorem State.modifyScreen_ce (i : Fin 8) (f : ScreenRecord → ScreenRecord) :
    (s.modifyScreen i f).ce = s.ce := rfl

/-! ## modifyDecode -/

@[simp] theorem State.modifyDecode_pending (i : Fin 8) (f : DecodeRecord → DecodeRecord) :
    (s.modifyDecode i f).pending = s.pending := rfl
@[simp] theorem State.modifyDecode_draws (i : Fin 8) (f : DecodeRecord → DecodeRecord) :
    (s.modifyDecode i f).draws = s.draws := rfl
@[simp] theorem State.modifyDecode_li (i : Fin 8) (f : DecodeRecord → DecodeRecord) :
    (s.modifyDecode i f).li = s.li := rfl
@[simp] theorem State.modifyDecode_ci (i : Fin 8) (f : DecodeRecord → DecodeRecord) :
    (s.modifyDecode i f).ci = s.ci := rfl
@[simp] theorem State.modifyDecode_ts (i : Fin 8) (f : DecodeRecord → DecodeRecord) :
    (s.modifyDecode i f).ts = s.ts := rfl
@[simp] theorem State.modifyDecode_sc (i : Fin 8) (f : DecodeRecord → DecodeRecord) :
    (s.modifyDecode i f).sc = s.sc := rfl
@[simp] theorem State.modifyDecode_de (i : Fin 8) (f : DecodeRecord → DecodeRecord) :
    (s.modifyDecode i f).de = s.de.modify i f := rfl
@[simp] theorem State.modifyDecode_eq (i : Fin 8) (f : DecodeRecord → DecodeRecord) :
    (s.modifyDecode i f).eq = s.eq := rfl
@[simp] theorem State.modifyDecode_os (i : Fin 8) (f : DecodeRecord → DecodeRecord) :
    (s.modifyDecode i f).os = s.os := rfl
@[simp] theorem State.modifyDecode_am (i : Fin 8) (f : DecodeRecord → DecodeRecord) :
    (s.modifyDecode i f).am = s.am := rfl
@[simp] theorem State.modifyDecode_ct (i : Fin 8) (f : DecodeRecord → DecodeRecord) :
    (s.modifyDecode i f).ct = s.ct := rfl
@[simp] theorem State.modifyDecode_bl (i : Fin 8) (f : DecodeRecord → DecodeRecord) :
    (s.modifyDecode i f).bl = s.bl := rfl
@[simp] theorem State.modifyDecode_ce (i : Fin 8) (f : DecodeRecord → DecodeRecord) :
    (s.modifyDecode i f).ce = s.ce := rfl

/-! ## modifyEq -/

@[simp] theorem State.modifyEq_pending (i : Fin 8) (c : Fin 16) (f : EqChannel → EqChannel) :
    (s.modifyEq i c f).pending = s.pending := rfl
@[simp] theorem State.modifyEq_draws (i : Fin 8) (c : Fin 16) (f : EqChannel → EqChannel) :
    (s.modifyEq i c f).draws = s.draws := rfl
@[simp] theorem State.modifyEq_li (i : Fin 8) (c : Fin 16) (f : EqChannel → EqChannel) :
    (s.modifyEq i c f).li = s.li := rfl
@[simp] theorem State.modifyEq_ci (i : Fin 8) (c : Fin 16) (f : EqChannel → EqChannel) :
    (s.modifyEq i c f).ci = s.ci := rfl
@[simp] theorem State.modifyEq_ts (i : Fin 8) (c : Fin 16) (f : EqChannel → EqChannel) :
    (s.modifyEq i c f).ts = s.ts := rfl
@[simp] theorem State.modifyEq_sc (i : Fin 8) (c : Fin 16) (f : EqChannel → EqChannel) :
    (s.modifyEq i c f).sc = s.sc := rfl
@[simp] theorem State.modifyEq_de (i : Fin 8) (c : Fin 16) (f : EqChannel → EqChannel) :
    (s.modifyEq i c f).de = s.de := rfl
@[simp] theorem State.modifyEq_eq (i : Fin 8) (c : Fin 16) (f : EqChannel → EqChannel) :
    (s.modifyEq i c f).eq = { s.eq with channels := s.eq.channels.modify i fun row => row.modify c f } := rfl
@[simp] theorem State.modifyEq_os (i : Fin 8) (c : Fin 16) (f : EqChannel → EqChannel) :
    (s.modifyEq i c f).os = s.os := rfl
@[simp] theorem State.modifyEq_am (i : Fin 8) (c : Fin 16) (f : EqChannel → EqChannel) :
    (s.modifyEq i c f).am = s.am := rfl
@[simp] theorem State.modifyEq_ct (i : Fin 8) (c : Fin 16) (f : EqChannel → EqChannel) :
    (s.modifyEq i c f).ct = s.ct := rfl
@[simp] theorem State.modifyEq_bl (i : Fin 8) (c : Fin 16) (f : EqChannel → EqChannel) :
    (s.modifyEq i c f).bl = s.bl := rfl
@[simp] theorem State.modifyEq_ce (i : Fin 8) (c : Fin 16) (f : EqChannel → EqChannel) :
    (s.modifyEq i c f).ce = s.ce := rfl

/-! ## setDip -/

@[simp] theorem State.setDip_pending (i : Fin 8) (d : Option Dip) : (s.setDip i d).pending = s.pending := rfl
@[simp] theorem State.setDip_draws (i : Fin 8) (d : Option Dip) : (s.setDip i d).draws = s.draws := rfl
@[simp] theorem State.setDip_li (i : Fin 8) (d : Option Dip) : (s.setDip i d).li = s.li := rfl
@[simp] theorem State.setDip_ci (i : Fin 8) (d : Option Dip) : (s.setDip i d).ci = s.ci := rfl
@[simp] theorem State.setDip_ts (i : Fin 8) (d : Option Dip) : (s.setDip i d).ts = s.ts := rfl
@[simp] theorem State.setDip_sc (i : Fin 8) (d : Option Dip) : (s.setDip i d).sc = s.sc := rfl
@[simp] theorem State.setDip_de (i : Fin 8) (d : Option Dip) : (s.setDip i d).de = s.de := rfl
@[simp] theorem State.setDip_eq (i : Fin 8) (d : Option Dip) :
    (s.setDip i d).eq = { s.eq with dips := s.eq.dips.set i d } := rfl
@[simp] theorem State.setDip_os (i : Fin 8) (d : Option Dip) : (s.setDip i d).os = s.os := rfl
@[simp] theorem State.setDip_am (i : Fin 8) (d : Option Dip) : (s.setDip i d).am = s.am := rfl
@[simp] theorem State.setDip_ct (i : Fin 8) (d : Option Dip) : (s.setDip i d).ct = s.ct := rfl
@[simp] theorem State.setDip_bl (i : Fin 8) (d : Option Dip) : (s.setDip i d).bl = s.bl := rfl
@[simp] theorem State.setDip_ce (i : Fin 8) (d : Option Dip) : (s.setDip i d).ce = s.ce := rfl

/-! ## modifyOut -/

@[simp] theorem State.modifyOut_pending (i : Fin 8) (f : OutChannel → OutChannel) :
    (s.modifyOut i f).pending = s.pending := rfl
@[simp] theorem State.modifyOut_draws (i : Fin 8) (f : OutChannel → OutChannel) :
    (s.modifyOut i f).draws = s.draws := rfl
@[simp] theorem State.modifyOut_li (i : Fin 8) (f : OutChannel → OutChannel) : (s.modifyOut i f).li = s.li := rfl
@[simp] theorem State.modifyOut_ci (i : Fin 8) (f : OutChannel → OutChannel) : (s.modifyOut i f).ci = s.ci := rfl
@[simp] theorem State.modifyOut_ts (i : Fin 8) (f : OutChannel → OutChannel) : (s.modifyOut i f).ts = s.ts := rfl
@[simp] theorem State.modifyOut_sc (i : Fin 8) (f : OutChannel → OutChannel) : (s.modifyOut i f).sc = s.sc := rfl
@[simp] theorem State.modifyOut_de (i : Fin 8) (f : OutChannel → OutChannel) : (s.modifyOut i f).de = s.de := rfl
@[simp] theorem State.modifyOut_eq (i : Fin 8) (f : OutChannel → OutChannel) : (s.modifyOut i f).eq = s.eq := rfl
@[simp] theorem State.modifyOut_os (i : Fin 8) (f : OutChannel → OutChannel) :
    (s.modifyOut i f).os = { s.os with channels := s.os.channels.modify i fun row => row.map f } := rfl
@[simp] theorem State.modifyOut_am (i : Fin 8) (f : OutChannel → OutChannel) : (s.modifyOut i f).am = s.am := rfl
@[simp] theorem State.modifyOut_ct (i : Fin 8) (f : OutChannel → OutChannel) : (s.modifyOut i f).ct = s.ct := rfl
@[simp] theorem State.modifyOut_bl (i : Fin 8) (f : OutChannel → OutChannel) : (s.modifyOut i f).bl = s.bl := rfl
@[simp] theorem State.modifyOut_ce (i : Fin 8) (f : OutChannel → OutChannel) : (s.modifyOut i f).ce = s.ce := rfl

/-! ## modifyAlarm -/

@[simp] theorem State.modifyAlarm_pending (e : Fin 256) (f : AlarmRecord → AlarmRecord) :
    (s.modifyAlarm e f).pending = s.pending := rfl
@[simp] theorem State.modifyAlarm_draws (e : Fin 256) (f : AlarmRecord → AlarmRecord) :
    (s.modifyAlarm e f).draws = s.draws := rfl
@[simp] theorem State.modifyAlarm_li (e : Fin 256) (f : AlarmRecord → AlarmRecord) :
    (s.modifyAlarm e f).li = s.li := rfl
@[simp] theorem State.modifyAlarm_ci (e : Fin 256) (f : AlarmRecord → AlarmRecord) :
    (s.modifyAlarm e f).ci = s.ci := rfl
@[simp] theorem State.modifyAlarm_ts (e : Fin 256) (f : AlarmRecord → AlarmRecord) :
    (s.modifyAlarm e f).ts = s.ts := rfl
@[simp] theorem State.modifyAlarm_sc (e : Fin 256) (f : AlarmRecord → AlarmRecord) :
    (s.modifyAlarm e f).sc = s.sc := rfl
@[simp] theorem State.modifyAlarm_de (e : Fin 256) (f : AlarmRecord → AlarmRecord) :
    (s.modifyAlarm e f).de = s.de := rfl
@[simp] theorem State.modifyAlarm_eq (e : Fin 256) (f : AlarmRecord → AlarmRecord) :
    (s.modifyAlarm e f).eq = s.eq := rfl
@[simp] theorem State.modifyAlarm_os (e : Fin 256) (f : AlarmRecord → AlarmRecord) :
    (s.modifyAlarm e f).os = s.os := rfl
@[simp] theorem State.modifyAlarm_am (e : Fin 256) (f : AlarmRecord → AlarmRecord) :
    (s.modifyAlarm e f).am = { s.am with entries := s.am.entries.modify e f } := rfl
@[simp] theorem State.modifyAlarm_ct (e : Fin 256) (f : AlarmRecord → AlarmRecord) :
    (s.modifyAlarm e f).ct = s.ct := rfl
@[simp] theorem State.modifyAlarm_bl (e : Fin 256) (f : AlarmRecord → AlarmRecord) :
    (s.modifyAlarm e f).bl = s.bl := rfl
@[simp] theorem State.modifyAlarm_ce (e : Fin 256) (f : AlarmRecord → AlarmRecord) :
    (s.modifyAlarm e f).ce = s.ce := rfl

/-! ## modifyClock -/

@[simp] theorem State.modifyClock_pending (i : Fin 8) (f : Clock → Clock) :
    (s.modifyClock i f).pending = s.pending := rfl
@[simp] theorem State.modifyClock_draws (i : Fin 8) (f : Clock → Clock) : (s.modifyClock i f).draws = s.draws := rfl
@[simp] theorem State.modifyClock_li (i : Fin 8) (f : Clock → Clock) : (s.modifyClock i f).li = s.li := rfl
@[simp] theorem State.modifyClock_ci (i : Fin 8) (f : Clock → Clock) : (s.modifyClock i f).ci = s.ci := rfl
@[simp] theorem State.modifyClock_ts (i : Fin 8) (f : Clock → Clock) : (s.modifyClock i f).ts = s.ts := rfl
@[simp] theorem State.modifyClock_sc (i : Fin 8) (f : Clock → Clock) : (s.modifyClock i f).sc = s.sc := rfl
@[simp] theorem State.modifyClock_de (i : Fin 8) (f : Clock → Clock) : (s.modifyClock i f).de = s.de := rfl
@[simp] theorem State.modifyClock_eq (i : Fin 8) (f : Clock → Clock) : (s.modifyClock i f).eq = s.eq := rfl
@[simp] theorem State.modifyClock_os (i : Fin 8) (f : Clock → Clock) : (s.modifyClock i f).os = s.os := rfl
@[simp] theorem State.modifyClock_am (i : Fin 8) (f : Clock → Clock) : (s.modifyClock i f).am = s.am := rfl
@[simp] theorem State.modifyClock_ct (i : Fin 8) (f : Clock → Clock) :
    (s.modifyClock i f).ct = { s.ct with clocks := s.ct.clocks.modify i f } := rfl
@[simp] theorem State.modifyClock_bl (i : Fin 8) (f : Clock → Clock) : (s.modifyClock i f).bl = s.bl := rfl
@[simp] theorem State.modifyClock_ce (i : Fin 8) (f : Clock → Clock) : (s.modifyClock i f).ce = s.ce := rfl

/-! ## modifyTimer -/

@[simp] theorem State.modifyTimer_pending (i : Fin 8) (t : Fin 2) (f : Timer → Timer) :
    (s.modifyTimer i t f).pending = s.pending := rfl
@[simp] theorem State.modifyTimer_draws (i : Fin 8) (t : Fin 2) (f : Timer → Timer) :
    (s.modifyTimer i t f).draws = s.draws := rfl
@[simp] theorem State.modifyTimer_li (i : Fin 8) (t : Fin 2) (f : Timer → Timer) :
    (s.modifyTimer i t f).li = s.li := rfl
@[simp] theorem State.modifyTimer_ci (i : Fin 8) (t : Fin 2) (f : Timer → Timer) :
    (s.modifyTimer i t f).ci = s.ci := rfl
@[simp] theorem State.modifyTimer_ts (i : Fin 8) (t : Fin 2) (f : Timer → Timer) :
    (s.modifyTimer i t f).ts = s.ts := rfl
@[simp] theorem State.modifyTimer_sc (i : Fin 8) (t : Fin 2) (f : Timer → Timer) :
    (s.modifyTimer i t f).sc = s.sc := rfl
@[simp] theorem State.modifyTimer_de (i : Fin 8) (t : Fin 2) (f : Timer → Timer) :
    (s.modifyTimer i t f).de = s.de := rfl
@[simp] theorem State.modifyTimer_eq (i : Fin 8) (t : Fin 2) (f : Timer → Timer) :
    (s.modifyTimer i t f).eq = s.eq := rfl
@[simp] theorem State.modifyTimer_os (i : Fin 8) (t : Fin 2) (f : Timer → Timer) :
    (s.modifyTimer i t f).os = s.os := rfl
@[simp] theorem State.modifyTimer_am (i : Fin 8) (t : Fin 2) (f : Timer → Timer) :
    (s.modifyTimer i t f).am = s.am := rfl
@[simp] theorem State.modifyTimer_ct (i : Fin 8) (t : Fin 2) (f : Timer → Timer) :
    (s.modifyTimer i t f).ct = { s.ct with timers := s.ct.timers.modify i fun row => row.modify t f } := rfl
@[simp] theorem State.modifyTimer_bl (i : Fin 8) (t : Fin 2) (f : Timer → Timer) :
    (s.modifyTimer i t f).bl = s.bl := rfl
@[simp] theorem State.modifyTimer_ce (i : Fin 8) (t : Fin 2) (f : Timer → Timer) :
    (s.modifyTimer i t f).ce = s.ce := rfl

/-! ## setOutput -/

@[simp] theorem State.setOutput_pending (n : Fin 16) (o : OutputLine) : (s.setOutput n o).pending = s.pending := rfl
@[simp] theorem State.setOutput_draws (n : Fin 16) (o : OutputLine) : (s.setOutput n o).draws = s.draws := rfl
@[simp] theorem State.setOutput_li (n : Fin 16) (o : OutputLine) : (s.setOutput n o).li = s.li := rfl
@[simp] theorem State.setOutput_ci (n : Fin 16) (o : OutputLine) : (s.setOutput n o).ci = s.ci := rfl
@[simp] theorem State.setOutput_ts (n : Fin 16) (o : OutputLine) : (s.setOutput n o).ts = s.ts := rfl
@[simp] theorem State.setOutput_sc (n : Fin 16) (o : OutputLine) : (s.setOutput n o).sc = s.sc := rfl
@[simp] theorem State.setOutput_de (n : Fin 16) (o : OutputLine) : (s.setOutput n o).de = s.de := rfl
@[simp] theorem State.setOutput_eq (n : Fin 16) (o : OutputLine) : (s.setOutput n o).eq = s.eq := rfl
@[simp] theorem State.setOutput_os (n : Fin 16) (o : OutputLine) : (s.setOutput n o).os = s.os := rfl
@[simp] theorem State.setOutput_am (n : Fin 16) (o : OutputLine) : (s.setOutput n o).am = s.am := rfl
@[simp] theorem State.setOutput_ct (n : Fin 16) (o : OutputLine) : (s.setOutput n o).ct = s.ct := rfl
@[simp] theorem State.setOutput_bl (n : Fin 16) (o : OutputLine) :
    (s.setOutput n o).bl = { s.bl with outputs := s.bl.outputs.set n o } := rfl
@[simp] theorem State.setOutput_ce (n : Fin 16) (o : OutputLine) : (s.setOutput n o).ce = s.ce := rfl

/-! ## setInput -/

@[simp] theorem State.setInput_pending (n : Fin 16) (d : Debouncer) : (s.setInput n d).pending = s.pending := rfl
@[simp] theorem State.setInput_draws (n : Fin 16) (d : Debouncer) : (s.setInput n d).draws = s.draws := rfl
@[simp] theorem State.setInput_li (n : Fin 16) (d : Debouncer) : (s.setInput n d).li = s.li := rfl
@[simp] theorem State.setInput_ci (n : Fin 16) (d : Debouncer) : (s.setInput n d).ci = s.ci := rfl
@[simp] theorem State.setInput_ts (n : Fin 16) (d : Debouncer) : (s.setInput n d).ts = s.ts := rfl
@[simp] theorem State.setInput_sc (n : Fin 16) (d : Debouncer) : (s.setInput n d).sc = s.sc := rfl
@[simp] theorem State.setInput_de (n : Fin 16) (d : Debouncer) : (s.setInput n d).de = s.de := rfl
@[simp] theorem State.setInput_eq (n : Fin 16) (d : Debouncer) : (s.setInput n d).eq = s.eq := rfl
@[simp] theorem State.setInput_os (n : Fin 16) (d : Debouncer) : (s.setInput n d).os = s.os := rfl
@[simp] theorem State.setInput_am (n : Fin 16) (d : Debouncer) : (s.setInput n d).am = s.am := rfl
@[simp] theorem State.setInput_ct (n : Fin 16) (d : Debouncer) : (s.setInput n d).ct = s.ct := rfl
@[simp] theorem State.setInput_bl (n : Fin 16) (d : Debouncer) :
    (s.setInput n d).bl = { s.bl with inputs := s.bl.inputs.set n d } := rfl
@[simp] theorem State.setInput_ce (n : Fin 16) (d : Debouncer) : (s.setInput n d).ce = s.ce := rfl

/-! ## modifyCue -/

@[simp] theorem State.modifyCue_pending (e : Fin 256) (f : CueRecord → CueRecord) :
    (s.modifyCue e f).pending = s.pending := rfl
@[simp] theorem State.modifyCue_draws (e : Fin 256) (f : CueRecord → CueRecord) :
    (s.modifyCue e f).draws = s.draws := rfl
@[simp] theorem State.modifyCue_li (e : Fin 256) (f : CueRecord → CueRecord) : (s.modifyCue e f).li = s.li := rfl
@[simp] theorem State.modifyCue_ci (e : Fin 256) (f : CueRecord → CueRecord) : (s.modifyCue e f).ci = s.ci := rfl
@[simp] theorem State.modifyCue_ts (e : Fin 256) (f : CueRecord → CueRecord) : (s.modifyCue e f).ts = s.ts := rfl
@[simp] theorem State.modifyCue_sc (e : Fin 256) (f : CueRecord → CueRecord) : (s.modifyCue e f).sc = s.sc := rfl
@[simp] theorem State.modifyCue_de (e : Fin 256) (f : CueRecord → CueRecord) : (s.modifyCue e f).de = s.de := rfl
@[simp] theorem State.modifyCue_eq (e : Fin 256) (f : CueRecord → CueRecord) : (s.modifyCue e f).eq = s.eq := rfl
@[simp] theorem State.modifyCue_os (e : Fin 256) (f : CueRecord → CueRecord) : (s.modifyCue e f).os = s.os := rfl
@[simp] theorem State.modifyCue_am (e : Fin 256) (f : CueRecord → CueRecord) : (s.modifyCue e f).am = s.am := rfl
@[simp] theorem State.modifyCue_ct (e : Fin 256) (f : CueRecord → CueRecord) : (s.modifyCue e f).ct = s.ct := rfl
@[simp] theorem State.modifyCue_bl (e : Fin 256) (f : CueRecord → CueRecord) : (s.modifyCue e f).bl = s.bl := rfl
@[simp] theorem State.modifyCue_ce (e : Fin 256) (f : CueRecord → CueRecord) :
    (s.modifyCue e f).ce = { s.ce with cues := s.ce.cues.modify e f } := rfl

/-! ## reply -/

@[simp] theorem State.reply_pending (tag : Byte) (r : ResultCode) (data : List Byte) :
    (s.reply tag r data).pending = s.pending := rfl
@[simp] theorem State.reply_draws (tag : Byte) (r : ResultCode) (data : List Byte) :
    (s.reply tag r data).draws = s.draws := rfl
@[simp] theorem State.reply_li (tag : Byte) (r : ResultCode) (data : List Byte) :
    (s.reply tag r data).li = s.li := rfl
@[simp] theorem State.reply_ci (tag : Byte) (r : ResultCode) (data : List Byte) :
    (s.reply tag r data).ci = { s.ci with replies := s.ci.replies ++ [⟨tag, r, data⟩] } := rfl
@[simp] theorem State.reply_ts (tag : Byte) (r : ResultCode) (data : List Byte) :
    (s.reply tag r data).ts = s.ts := rfl
@[simp] theorem State.reply_sc (tag : Byte) (r : ResultCode) (data : List Byte) :
    (s.reply tag r data).sc = s.sc := rfl
@[simp] theorem State.reply_de (tag : Byte) (r : ResultCode) (data : List Byte) :
    (s.reply tag r data).de = s.de := rfl
@[simp] theorem State.reply_eq (tag : Byte) (r : ResultCode) (data : List Byte) :
    (s.reply tag r data).eq = s.eq := rfl
@[simp] theorem State.reply_os (tag : Byte) (r : ResultCode) (data : List Byte) :
    (s.reply tag r data).os = s.os := rfl
@[simp] theorem State.reply_am (tag : Byte) (r : ResultCode) (data : List Byte) :
    (s.reply tag r data).am = s.am := rfl
@[simp] theorem State.reply_ct (tag : Byte) (r : ResultCode) (data : List Byte) :
    (s.reply tag r data).ct = s.ct := rfl
@[simp] theorem State.reply_bl (tag : Byte) (r : ResultCode) (data : List Byte) :
    (s.reply tag r data).bl = s.bl := rfl
@[simp] theorem State.reply_ce (tag : Byte) (r : ResultCode) (data : List Byte) :
    (s.reply tag r data).ce = s.ce := rfl

end Sys2Proof.Machine
end

