-- ==== Sys2Proof/Laws/Outer.lean ====
section
/-!
SUPPORT. What the operations on the screens, the alarms, the cues, the clocks and the booth lines leave alone: the
waiting commands, the table store, the link interface, the requests and the replies.
-/

namespace Sys2Proof.Machine

/-- The parts of the state that no operation on a screen, an alarm, a cue, a clock or a booth line changes. -/
structure Outer where
  pending : List Instr
  ts : TableStore
  li : LinkInterface
  requests : List Request
  replies : List Reply

/-- These parts of a state. -/
def State.outer (s : State) : Outer := ⟨s.pending, s.ts, s.li, s.ci.requests, s.ci.replies⟩

theorem State.outer_pending {s t : State} (h : s.outer = t.outer) : s.pending = t.pending := congrArg Outer.pending h
theorem State.outer_ts {s t : State} (h : s.outer = t.outer) : s.ts = t.ts := congrArg Outer.ts h
theorem State.outer_li {s t : State} (h : s.outer = t.outer) : s.li = t.li := congrArg Outer.li h
theorem State.outer_requests {s t : State} (h : s.outer = t.outer) : s.ci.requests = t.ci.requests :=
  congrArg Outer.requests h
theorem State.outer_replies {s t : State} (h : s.outer = t.outer) : s.ci.replies = t.ci.replies :=
  congrArg Outer.replies h

/-- A fold of operations that keep a part of the state keeps it. -/
theorem foldl_keeps {α β σ : Type} (π : σ → β) (f : σ → α → σ) (h : ∀ s a, π (f s a) = π s) (l : List α) (s : σ) :
    π (l.foldl f s) = π s := by
  induction l generalizing s with
  | nil => rfl
  | cons a l ih => rw [List.foldl_cons, ih, h]

variable (s : State)

/-! ## Updates of one record -/

@[simp] theorem State.outer_modifyScreen (i : Fin 8) (f : ScreenRecord → ScreenRecord) :
    (s.modifyScreen i f).outer = s.outer := rfl
@[simp] theorem State.outer_modifyDecode (i : Fin 8) (f : DecodeRecord → DecodeRecord) :
    (s.modifyDecode i f).outer = s.outer := rfl
@[simp] theorem State.outer_modifyEq (i : Fin 8) (c : Fin 16) (f : EqChannel → EqChannel) :
    (s.modifyEq i c f).outer = s.outer := rfl
@[simp] theorem State.outer_setDip (i : Fin 8) (d : Option Dip) : (s.setDip i d).outer = s.outer := rfl
@[simp] theorem State.outer_modifyOut (i : Fin 8) (f : OutChannel → OutChannel) :
    (s.modifyOut i f).outer = s.outer := rfl
@[simp] theorem State.outer_modifyAlarm (e : Fin 256) (f : AlarmRecord → AlarmRecord) :
    (s.modifyAlarm e f).outer = s.outer := rfl
@[simp] theorem State.outer_modifyClock (i : Fin 8) (f : Clock → Clock) : (s.modifyClock i f).outer = s.outer := rfl
@[simp] theorem State.outer_modifyTimer (i : Fin 8) (t : Fin 2) (f : Timer → Timer) :
    (s.modifyTimer i t f).outer = s.outer := rfl
@[simp] theorem State.outer_setOutput (n : Fin 16) (o : OutputLine) : (s.setOutput n o).outer = s.outer := rfl
@[simp] theorem State.outer_setInput (n : Fin 16) (d : Debouncer) : (s.setInput n d).outer = s.outer := rfl
@[simp] theorem State.outer_modifyCue (e : Fin 256) (f : CueRecord → CueRecord) :
    (s.modifyCue e f).outer = s.outer := rfl

@[simp] theorem State.outer_sc (x : Tab 8 ScreenRecord) : State.outer { s with sc := x } = s.outer := rfl
@[simp] theorem State.outer_eq (x : Equaliser) : State.outer { s with eq := x } = s.outer := rfl
@[simp] theorem State.outer_os (x : OutputStage) : State.outer { s with os := x } = s.outer := rfl
@[simp] theorem State.outer_am (x : AlarmMonitor) : State.outer { s with am := x } = s.outer := rfl
@[simp] theorem State.outer_bl (x : BoothLines) : State.outer { s with bl := x } = s.outer := rfl
@[simp] theorem State.outer_ce (x : CueEngine) : State.outer { s with ce := x } = s.outer := rfl
@[simp] theorem State.outer_draws (x : Nat) : State.outer { s with draws := x } = s.outer := rfl
@[simp] theorem State.outer_eq_draws (x : Equaliser) (k : Nat) :
    State.outer { s with eq := x, draws := k } = s.outer := rfl

/-! ## Reports and triggers -/

@[simp] theorem State.outer_queueReport (r : Report) : (s.queueReport r).outer = s.outer := by
  unfold State.queueReport; split <;> rfl

@[simp] theorem State.outer_queueReports (rs : List Report) : (s.queueReports rs).outer = s.outer :=
  foldl_keeps State.outer _ (fun s r => s.outer_queueReport r) rs s

@[simp] theorem State.outer_queueCueReport (origin : Origin) (i : Fin 8) (trigger : Option Trigger)
    (clock : ClockValue) (actions : List ActionRecord) :
    (s.queueCueReport origin i trigger clock actions).outer = s.outer := by
  unfold State.queueCueReport; dsimp only; split <;> simp

@[simp] theorem State.outer_mergeReports (groups : List (List Report)) : (s.mergeReports groups).1.outer = s.outer :=
  rfl

@[simp] theorem State.outer_pushTrigger (t : Trigger) : (s.pushTrigger t).outer = s.outer := by
  unfold State.pushTrigger; split <;> split <;> rfl

@[simp] theorem State.outer_makeTrigger (event : TriggerEvent) (depth : Nat) :
    (s.makeTrigger event depth).outer = s.outer := by
  unfold State.makeTrigger; split <;> simp

/-! ## Delay pages -/

@[simp] theorem State.outer_givePages (i : Fin 8) (c : Fin 16) (n : Nat) : (s.givePages i c n).outer = s.outer := rfl

@[simp] theorem State.outer_returnPages (i : Fin 8) (c : Fin 16) (n : Nat) :
    (s.returnPages i c n).outer = s.outer := rfl

@[simp] theorem State.outer_releaseScreen (i : Fin 8) : (s.releaseScreen i).outer = s.outer := by
  unfold State.releaseScreen
  exact foldl_keeps State.outer _ (fun _ _ => by simp) _ _

@[simp] theorem State.outer_allocateBank (i : Fin 8) (b : Fin 2) : (s.allocateBank i b).outer = s.outer := by
  unfold State.allocateBank
  exact foldl_keeps State.outer _ (fun _ _ => by simp) _ _

@[simp] theorem State.outer_clearScreen (i : Fin 8) : (s.clearScreen i).outer = s.outer := by
  unfold State.clearScreen
  exact foldl_keeps State.outer _ (fun _ _ => by simp) _ _

@[simp] theorem State.outer_reallocate (ws : List WrittenDelay) : (s.reallocate ws).outer = s.outer := by
  unfold State.reallocate
  dsimp only
  rw [foldl_keeps State.outer _ (fun _ _ => by simp), foldl_keeps State.outer _ (fun _ _ => by simp)]

/-! ## Alarms -/

@[simp] theorem State.outer_forceNormal (e : Fin 256) : (s.forceNormal e).1.outer = s.outer := rfl

@[simp] theorem State.outer_forceEntries (pick : AlarmEntry → Bool) : (s.forceEntries pick).1.outer = s.outer := by
  unfold State.forceEntries
  refine foldl_keeps (fun acc : State × List Report => acc.1.outer) _ ?_ _ _
  intro acc e
  dsimp only
  split <;> simp

@[simp] theorem State.outer_forceFloors (i : Fin 8) : (s.forceFloors i).1.outer = s.outer := s.outer_forceEntries _

@[simp] theorem State.outer_takeTargets : s.takeTargets.outer = s.outer := rfl

@[simp] theorem State.outer_recomputeTargets : s.recomputeTargets.outer = s.outer := rfl

@[simp] theorem State.outer_recomputeDemands : s.recomputeDemands.outer = s.outer := rfl

@[simp] theorem State.outer_takeRackWord (w : RackWord) : (s.takeRackWord w).outer = s.outer := rfl

@[simp] theorem State.outer_expireSlot (n : Fin 128) : (s.expireSlot n).outer = s.outer := by
  unfold State.expireSlot; split <;> rfl

@[simp] theorem State.outer_deriveLines : s.deriveLines.outer = s.outer := rfl

/-! ## Screens -/

@[simp] theorem State.outer_beginDip (i : Fin 8) (w : Waiting) : (s.beginDip i w).outer = s.outer := rfl

@[simp] theorem State.outer_handApply (i : Fin 8) (o : Origin) : (s.handApply i o).1.outer = s.outer := by
  unfold State.handApply; split
  · rfl
  · split <;> rfl

@[simp] theorem State.outer_exchangeBanks (i : Fin 8) : (s.exchangeBanks i).outer = s.outer := rfl

@[simp] theorem State.outer_swapBanks (i : Fin 8) : (s.swapBanks i).1.outer = s.outer := by
  unfold State.swapBanks; split
  · rfl
  · split
    · exact (State.outer_allocateBank _ _ _).trans ((State.outer_exchangeBanks _ _).trans (State.outer_releaseScreen _ _))
    · rfl

@[simp] theorem State.outer_swapMoment (i : Fin 8) : (s.swapMoment i).outer = s.outer := by
  unfold State.swapMoment; split <;> simp

@[simp] theorem State.outer_enable (i : Fin 8) : (s.enable i).outer = s.outer := by
  unfold State.enable
  exact (State.outer_modifyDecode _ _ _).trans ((State.outer_clearScreen _ _).trans (State.outer_allocateBank _ _ _))

@[simp] theorem State.outer_disable (i : Fin 8) : (s.disable i).1.outer = s.outer := by
  unfold State.disable; dsimp only
  simp only [State.outer_recomputeTargets, State.outer_forceEntries]
  have h := s.outer_releaseScreen i
  generalize s.releaseScreen i = r at h ⊢
  exact h

@[simp] theorem State.outer_handPending (i : Fin 8) (old : ScreenRecord) (t : ScreenState) :
    (s.handPending i old t).1.outer = s.outer := by
  unfold State.handPending; split
  · split <;> simp
  · rfl

@[simp] theorem State.outer_followMove (i : Fin 8) (old t : ScreenState) (b : Bool) :
    (s.followMove i old t b).1.outer = s.outer := by
  unfold State.followMove; split
  · simp
  · split
    · simp
    · split
      · dsimp only; split <;> simp
      · rfl

@[simp] theorem State.outer_moveScreen (i : Fin 8) (t : ScreenState) (c : StateCause) (sc : SafeCause) (d : Nat)
    (b : Bool) : (s.moveScreen i t c sc d b).1.outer = s.outer := by
  simp [State.moveScreen]

@[simp] theorem State.outer_safeIfLost (i : Fin 8) : (s.safeIfLost i).1.outer = s.outer := by
  unfold State.safeIfLost; split <;> simp

@[simp] theorem State.outer_goTo (i : Fin 8) (t : ScreenState) (c : StateCause) (d : Nat) :
    (s.goTo i t c d).outer = s.outer := by
  simp [State.goTo]

@[simp] theorem State.outer_askState (i : Fin 8) (t : Option ScreenState) (c : StateCause) (d : Nat) :
    (s.askState i t c d).1.outer = s.outer := by
  unfold State.askState
  repeat' (first | (simp; done) | split)

@[simp] theorem State.outer_alarmSafe (i : Fin 8) (e : Fin 256) : (s.alarmSafe i e).outer = s.outer := by
  unfold State.alarmSafe; split <;> simp

@[simp] theorem State.outer_resumeScreen (i : Fin 8) (tag : Byte) : (s.resumeScreen i tag).1.outer = s.outer := by
  unfold State.resumeScreen
  repeat' (first | (simp; done) | split)

@[simp] theorem State.outer_safeAll : s.safeAll.1.outer = s.outer := by
  unfold State.safeAll
  refine foldl_keeps (fun acc : State × List Report => acc.1.outer) _ ?_ _ _
  intro acc e
  dsimp only
  split <;> simp

@[simp] theorem State.outer_fade (i : Fin 8) (t l : Nat) : (s.fade i t l).outer = s.outer := rfl

@[simp] theorem State.outer_muteTo (i : Fin 8) (on : Bool) : (s.muteTo i on).outer = s.outer := rfl

@[simp] theorem State.outer_applyBank (i : Fin 8) (o : Origin) : (s.applyBank i o).1.outer = s.outer := by
  unfold State.applyBank
  repeat' (first | (simp; done) | split)

@[simp] theorem State.outer_safepoint (i : Fin 8) : (s.safepoint i).outer = s.outer := by
  unfold State.safepoint; split <;> simp

/-! ## The scan and the window end -/

@[simp] theorem State.outer_enterTier (e : Fin 256) (a : AlarmEntry) (old new : Tier) :
    (s.enterTier e a old new).outer = s.outer := by
  unfold State.enterTier; dsimp only
  repeat' (first | (simp; done) | split)

@[simp] theorem State.outer_leaveTier (e : Fin 256) (a : AlarmEntry) (old new : Tier) :
    (s.leaveTier e a old new).outer = s.outer := by
  unfold State.leaveTier; split <;> simp

@[simp] theorem State.outer_evaluateEntry (e : Fin 256) (a : AlarmEntry) (x : AlarmSource) :
    (s.evaluateEntry e a x).outer = s.outer := by
  unfold State.evaluateEntry; dsimp only
  repeat' (first | (simp; done) | split)

@[simp] theorem State.outer_holdEntry (e : Fin 256) : (s.holdEntry e).outer = s.outer := by
  simp [State.holdEntry]

@[simp] theorem State.outer_scanEntry (e : Fin 256) : (s.scanEntry e).outer = s.outer := by
  unfold State.scanEntry; dsimp only
  repeat' (first | (simp; done) | split)

@[simp] theorem State.outer_scan : s.scan.outer = s.outer :=
  (State.outer_recomputeTargets _).trans
    ((foldl_keeps State.outer _ (fun s e => s.outer_scanEntry e) _ _).trans s.outer_deriveLines)

@[simp] theorem State.outer_takeLevels : s.takeLevels.outer = s.outer := rfl

@[simp] theorem State.outer_endWindow : s.endWindow.outer = s.outer := by simp [State.endWindow]

/-! ## Clocks, timers and booth lines -/

@[simp] theorem State.outer_settleClock (i : Fin 8) : (s.settleClock i).outer = s.outer := by
  unfold State.settleClock; dsimp only; split <;> simp

@[simp] theorem State.outer_clockAction (i : Fin 8) (op : ClockOp) (d : Nat) :
    (s.clockAction i op d).1.outer = s.outer := by
  unfold State.clockAction; dsimp only
  repeat' (first | (simp; done) | split)

@[simp] theorem State.outer_settleTimer (i : Fin 8) (t : Fin 2) : (s.settleTimer i t).outer = s.outer := by
  unfold State.settleTimer; dsimp only; split <;> simp

@[simp] theorem State.outer_timerAction (i : Fin 8) (t : Fin 2) (op : TimerOp) :
    (s.timerAction i t op).1.outer = s.outer := by
  unfold State.timerAction
  repeat' (first | (simp; done) | split)

@[simp] theorem State.outer_settleInput (n : Fin 16) : (s.settleInput n).outer = s.outer := by
  unfold State.settleInput; dsimp only; split <;> simp

@[simp] theorem State.outer_settleKey : s.settleKey.outer = s.outer := rfl

@[simp] theorem State.outer_sampleLines (lines : BitVec 16) (k : Bool) : (s.sampleLines lines k).outer = s.outer := by
  unfold State.sampleLines; split <;> rfl

@[simp] theorem State.outer_settlePulse (n : Fin 16) : (s.settlePulse n).outer = s.outer := rfl

@[simp] theorem State.outer_lineAction (n : Fin 16) (op : LineOp) : (s.lineAction n op).1.outer = s.outer := by
  unfold State.lineAction; split <;> rfl

/-! ## Cues -/

@[simp] theorem State.outer_reportAction (i : Fin 8) (o : Origin) (code : Byte) :
    (s.reportAction i o code).outer = s.outer := by
  unfold State.reportAction; split <;> simp

@[simp] theorem State.outer_runAction (i : Fin 8) (o : Origin) (d : Nat) (a : Action) :
    (s.runAction i o d a).1.outer = s.outer := by
  cases a <;> simp [State.runAction]

@[simp] theorem State.outer_runActions (i : Fin 8) (o : Origin) (d : Nat) (as : List Action) :
    (s.runActions i o d as).1.outer = s.outer :=
  foldl_keeps (fun acc : State × List ActionRecord => acc.1.outer) _
    (fun acc a => acc.1.outer_runAction i o d a) as (s, [])

@[simp] theorem State.outer_fireCue (e : Fin 256) (c : CueEntry) (t : Trigger) : (s.fireCue e c t).outer = s.outer := by
  unfold State.fireCue; dsimp only
  repeat' (first | (simp; done) | split)

@[simp] theorem State.outer_testCue (t : Trigger) (states : Tab 8 ScreenState) (e : Fin 256) :
    (State.testCue t states s e).outer = s.outer := by
  unfold State.testCue; dsimp only
  repeat' (first | (simp; done) | split)

@[simp] theorem State.outer_handleTrigger : s.handleTrigger.outer = s.outer := by
  unfold State.handleTrigger; split
  · rfl
  · exact foldl_keeps State.outer _ (fun s e => State.outer_testCue s _ _ e) _ _

@[simp] theorem State.outer_handleTriggers (n : Nat) : (State.handleTriggers n s).outer = s.outer := by
  induction n generalizing s with
  | zero => rfl
  | succ n ih => unfold State.handleTriggers; split <;> simp [ih]

/-! ## The effects of a write on the blocks that own the words -/

@[simp] theorem State.outer_resetAlarms (es : List (Fin 256)) : (s.resetAlarms es).outer = s.outer := by
  unfold State.resetAlarms; split
  · rfl
  · simp only [State.outer_recomputeDemands, State.outer_recomputeTargets]
    exact foldl_keeps State.outer (fun s e => s.modifyAlarm e fun _ => .reset) (fun _ _ => by simp) _ _

@[simp] theorem State.outer_rearmCues (es : List (Fin 256)) : (s.rearmCues es).outer = s.outer := by
  unfold State.rearmCues
  exact foldl_keeps State.outer _ (fun _ _ => by simp) _ _

@[simp] theorem State.outer_lowerOutputs (ns : List (Fin 16)) : (s.lowerOutputs ns).outer = s.outer := by
  unfold State.lowerOutputs
  exact foldl_keeps State.outer _ (fun _ _ => by simp) _ _

@[simp] theorem State.outer_followWrite (a n : Nat) : (s.followWrite a n).outer = s.outer := by
  simp [State.followWrite]

/-! ## The work of a link frame on the screens -/

@[simp] theorem State.outer_fadeStarted (i : Fin 8) : (s.fadeStarted i).outer = s.outer := by
  simp [State.fadeStarted]

@[simp] theorem State.outer_selectFormat (i : Fin 8) : (s.selectFormat i).outer = s.outer := rfl

@[simp] theorem State.outer_runDecode (i : Fin 8) : (s.runDecode i).outer = s.outer := by
  unfold State.runDecode; dsimp only
  repeat' (first | (simp; done) | split)

@[simp] theorem State.outer_decodeFrame (i : Fin 8) : (s.decodeFrame i).outer = s.outer := by
  unfold State.decodeFrame; dsimp only; split <;> simp

end Sys2Proof.Machine
end

