-- ==== Sys2Proof/Laws/Pool.lean ====
section
/-!
SUPPORT. The delay page pool (R67–R69): what drawing, giving, returning, releasing and allocating pages do, and that none of
them loses or copies a page.
-/

namespace Sys2Proof.Machine

/-! ## Drawing pages -/

/-- A draw gives the pages asked for, or every page there is, and with those left they are the pages there were. -/
theorem drawPages_spec (n : Nat) (free : List (Fin 512)) (k : Nat) :
    (drawPages n free k).1.length = min n free.length ∧
      ((drawPages n free k).1 ++ (drawPages n free k).2.1).Perm free := by
  induction n generalizing free k with
  | zero => exact ⟨by simp [drawPages], List.Perm.refl _⟩
  | succ n ih =>
    unfold drawPages
    dsimp only
    generalize hat : Config.freePage k % free.length = at_
    cases hget : free[at_]? with
    | none =>
      have hlen : free.length = 0 := by
        by_contra hne
        have : at_ < free.length := hat ▸ Nat.mod_lt _ (Nat.pos_of_ne_zero hne)
        rw [List.getElem?_eq_getElem this] at hget
        cases hget
      exact ⟨by simp [hlen], List.Perm.refl _⟩
    | some page =>
      obtain ⟨hlt, hval⟩ := List.getElem?_eq_some_iff.mp hget
      obtain ⟨h1, h2⟩ := ih (free.eraseIdx at_) (k + 1)
      have hel : (free.eraseIdx at_).length = free.length - 1 := List.length_eraseIdx_of_lt hlt
      refine ⟨?_, ?_⟩
      · simp only [List.length_cons, h1, hel]; omega
      · rw [List.cons_append]
        refine (List.Perm.cons page h2).trans ?_
        rw [← hval]
        exact List.getElem_cons_eraseIdx_perm hlt

/-! ## One channel -/

/-- A channel's page list after a gift: its own pages, then those drawn. -/
theorem State.givePages_pages (s : State) (i : Fin 8) (c : Fin 16) (n : Nat) (j : Fin 8) (d : Fin 16) :
    (s.givePages i c n).pagesOf j d =
      if j = i ∧ d = c then s.pagesOf i c ++ (drawPages n s.eq.free s.draws).1 else s.pagesOf j d := by
  simp only [State.givePages, State.pagesOf, State.modifyEq, Tab.get_modify]
  by_cases hj : j = i
  · subst hj
    by_cases hd : d = c
    · subst hd; simp
    · simp [hd, Tab.get_modify]
  · simp [hj]

@[simp] theorem State.givePages_free (s : State) (i : Fin 8) (c : Fin 16) (n : Nat) :
    (s.givePages i c n).eq.free = (drawPages n s.eq.free s.draws).2.1 := rfl

/-- A channel's page list after it returns pages: the first ones it keeps. -/
theorem State.returnPages_pages (s : State) (i : Fin 8) (c : Fin 16) (keep : Nat) (j : Fin 8) (d : Fin 16) :
    (s.returnPages i c keep).pagesOf j d =
      if j = i ∧ d = c then (s.pagesOf i c).take keep else s.pagesOf j d := by
  simp only [State.returnPages, State.pagesOf, State.modifyEq, Tab.get_modify]
  by_cases hj : j = i
  · subst hj
    by_cases hd : d = c
    · subst hd; simp
    · simp [hd, Tab.get_modify]
  · simp [hj]

@[simp] theorem State.returnPages_free (s : State) (i : Fin 8) (c : Fin 16) (keep : Nat) :
    (s.returnPages i c keep).eq.free = s.eq.free ++ (s.pagesOf i c).drop keep := rfl

/-! ## What these operations leave alone -/

/-- The parts of the state no operation on delay pages changes. -/
structure Unpaged where
  outer : Outer
  ci : Interpreter
  sc : Tab 8 ScreenRecord
  de : Tab 8 DecodeRecord
  dips : Tab 8 (Option Dip)
  os : OutputStage
  am : AlarmMonitor
  ct : ClockUnit
  bl : BoothLines
  ce : CueEngine

/-- These parts of a state. -/
def State.unpaged (s : State) : Unpaged :=
  ⟨s.outer, s.ci, s.sc, s.de, s.eq.dips, s.os, s.am, s.ct, s.bl, s.ce⟩

theorem State.unpaged_outer {s t : State} (h : s.unpaged = t.unpaged) : s.outer = t.outer := congrArg Unpaged.outer h
theorem State.unpaged_ci {s t : State} (h : s.unpaged = t.unpaged) : s.ci = t.ci := congrArg Unpaged.ci h
theorem State.unpaged_sc {s t : State} (h : s.unpaged = t.unpaged) : s.sc = t.sc := congrArg Unpaged.sc h
theorem State.unpaged_de {s t : State} (h : s.unpaged = t.unpaged) : s.de = t.de := congrArg Unpaged.de h
theorem State.unpaged_dips {s t : State} (h : s.unpaged = t.unpaged) : s.eq.dips = t.eq.dips :=
  congrArg Unpaged.dips h
theorem State.unpaged_os {s t : State} (h : s.unpaged = t.unpaged) : s.os = t.os := congrArg Unpaged.os h
theorem State.unpaged_am {s t : State} (h : s.unpaged = t.unpaged) : s.am = t.am := congrArg Unpaged.am h
theorem State.unpaged_ct {s t : State} (h : s.unpaged = t.unpaged) : s.ct = t.ct := congrArg Unpaged.ct h
theorem State.unpaged_bl {s t : State} (h : s.unpaged = t.unpaged) : s.bl = t.bl := congrArg Unpaged.bl h
theorem State.unpaged_ce {s t : State} (h : s.unpaged = t.unpaged) : s.ce = t.ce := congrArg Unpaged.ce h

variable (s : State)

@[simp] theorem State.unpaged_modifyEq (i : Fin 8) (c : Fin 16) (f : EqChannel → EqChannel) :
    (s.modifyEq i c f).unpaged = s.unpaged := rfl

@[simp] theorem State.unpaged_givePages (i : Fin 8) (c : Fin 16) (n : Nat) :
    (s.givePages i c n).unpaged = s.unpaged := rfl

@[simp] theorem State.unpaged_returnPages (i : Fin 8) (c : Fin 16) (n : Nat) :
    (s.returnPages i c n).unpaged = s.unpaged := rfl

@[simp] theorem State.unpaged_releaseScreen (i : Fin 8) : (s.releaseScreen i).unpaged = s.unpaged := by
  unfold State.releaseScreen
  exact foldl_keeps State.unpaged _ (fun _ _ => by simp) _ _

@[simp] theorem State.unpaged_allocateBank (i : Fin 8) (b : Fin 2) : (s.allocateBank i b).unpaged = s.unpaged := by
  unfold State.allocateBank
  exact foldl_keeps State.unpaged _ (fun _ _ => by simp) _ _

@[simp] theorem State.unpaged_clearScreen (i : Fin 8) : (s.clearScreen i).unpaged = s.unpaged := by
  unfold State.clearScreen
  exact foldl_keeps State.unpaged _ (fun _ _ => by simp) _ _

@[simp] theorem State.unpaged_reallocate (ws : List WrittenDelay) : (s.reallocate ws).unpaged = s.unpaged := by
  unfold State.reallocate
  dsimp only
  rw [foldl_keeps State.unpaged _ (fun _ _ => by simp), foldl_keeps State.unpaged _ (fun _ _ => by simp)]

/-! ## A whole screen -/

/-- A channel after a step of a fold over channels that changes only the channel at hand. -/
theorem foldl_channels {s : State} {i : Fin 8} (f : State → Fin 16 → State) (g : State → Fin 16 → EqChannel → EqChannel)
    (hf : ∀ t c j d, ((f t c).eq.channels.get j).get d =
      if j = i ∧ d = c then g t c ((t.eq.channels.get i).get c) else (t.eq.channels.get j).get d)
    (l : List (Fin 16)) (j : Fin 8) (d : Fin 16) (h : j ≠ i ∨ d ∉ l) :
    ((l.foldl f s).eq.channels.get j).get d = (s.eq.channels.get j).get d := by
  induction l generalizing s with
  | nil => rfl
  | cons c l ih =>
    have h' : j ≠ i ∨ d ∉ l := h.imp_right fun h hm => h (List.mem_cons_of_mem _ hm)
    rw [List.foldl_cons, ih h', hf, if_neg]
    rintro ⟨hj, hd⟩
    rcases h with h | h
    · exact h hj
    · exact h (hd ▸ List.mem_cons_self)

theorem State.release_channel (t : State) (i : Fin 8) (c : Fin 16) (j : Fin 8) (d : Fin 16) :
    (((t.returnPages i c 0).modifyEq i c fun _ => .cleared).eq.channels.get j).get d =
      if j = i ∧ d = c then .cleared else (t.eq.channels.get j).get d := by
  simp only [State.returnPages, State.modifyEq, Tab.get_modify]
  by_cases hj : j = i
  · subst hj
    by_cases hd : d = c
    · subst hd; simp
    · simp [hd, Tab.get_modify]
  · simp [hj]

theorem release_fold (i : Fin 8) (l : List (Fin 16)) (hl : l.Nodup) (s : State) :
    let t := l.foldl (fun s c => (s.returnPages i c 0).modifyEq i c fun _ => .cleared) s
    (∀ d ∈ l, (t.eq.channels.get i).get d = .cleared) ∧
      t.eq.free = s.eq.free ++ l.flatMap fun c => s.pagesOf i c := by
  induction l generalizing s with
  | nil => exact ⟨fun d hd => absurd hd (by simp), by simp⟩
  | cons c l ih =>
    rw [List.nodup_cons] at hl
    dsimp only [List.foldl_cons]
    obtain ⟨h1, h2⟩ := ih hl.2 ((s.returnPages i c 0).modifyEq i c fun _ => .cleared)
    refine ⟨fun d hd => ?_, ?_⟩
    · rcases List.mem_cons.mp hd with rfl | hd
      · rw [foldl_channels _ (fun _ _ _ => .cleared) (fun t c j d => t.release_channel i c j d) l i d (.inr hl.1),
          State.release_channel, if_pos ⟨rfl, rfl⟩]
      · exact h1 d hd
    · rw [h2]
      have hfree : ((s.returnPages i c 0).modifyEq i c fun _ => .cleared).eq.free = s.eq.free ++ s.pagesOf i c := by
        simp [State.modifyEq_eq]
      have hother : (l.flatMap fun d => ((s.returnPages i c 0).modifyEq i c fun _ => .cleared).pagesOf i d) =
          l.flatMap fun d => s.pagesOf i d := by
        apply List.flatMap_congr
        intro d hd
        have hne : d ≠ c := fun h => hl.1 (h ▸ hd)
        rw [State.pagesOf, State.release_channel, if_neg fun h => hne h.2]; rfl
      rw [hfree, hother, List.flatMap_cons, List.append_assoc]

/-- A screen released: its channels are cleared and hold no page, its pages are free, and no other channel changes. -/
theorem State.releaseScreen_spec (i : Fin 8) :
    (∀ c, ((s.releaseScreen i).eq.channels.get i).get c = .cleared) ∧
      (∀ j c, j ≠ i → ((s.releaseScreen i).eq.channels.get j).get c = (s.eq.channels.get j).get c) ∧
      (s.releaseScreen i).freePages = s.freePages + s.pagesHeld i ∧
      (s.releaseScreen i).eq.free = s.eq.free ++ (List.finRange 16).flatMap fun c => s.pagesOf i c := by
  obtain ⟨h1, h2⟩ := release_fold i (List.finRange 16) (List.nodup_finRange 16) s
  refine ⟨fun c => h1 c (List.mem_finRange c), fun j c hj =>
    foldl_channels _ (fun _ _ _ => .cleared) (fun t c j d => t.release_channel i c j d) _ j c (.inl hj), ?_, h2⟩
  rw [State.freePages, State.releaseScreen, h2, List.length_append, List.length_flatMap]; rfl

theorem State.give_channel (t : State) (i : Fin 8) (c : Fin 16) (n : Nat) (j : Fin 8) (d : Fin 16) :
    ((t.givePages i c n).eq.channels.get j).get d =
      if j = i ∧ d = c then
        { (t.eq.channels.get i).get c with pages := t.pagesOf i c ++ (drawPages n t.eq.free t.draws).1 }
      else (t.eq.channels.get j).get d := by
  simp only [State.givePages, State.modifyEq, Tab.get_modify]
  by_cases hj : j = i
  · subst hj
    by_cases hd : d = c
    · subst hd; simp [State.pagesOf]
    · simp [hd, Tab.get_modify]
  · simp [hj]

theorem allocate_fold (i : Fin 8) (need : State → Fin 16 → Nat) (n : Fin 16 → Nat)
    (l : List (Fin 16)) (hl : l.Nodup) (s : State) (hneed : ∀ t : State, t.ts = s.ts → ∀ c, need t c = n c)
    (hfree : (l.map n).sum ≤ s.freePages) :
    let t := l.foldl (fun s c => s.givePages i c (need s c)) s
    (∀ d ∈ l, ∃ taken, taken.length = n d ∧ (∀ p ∈ taken, p ∈ s.eq.free) ∧
      (t.eq.channels.get i).get d = { (s.eq.channels.get i).get d with pages := s.pagesOf i d ++ taken }) ∧
      t.freePages + (l.map n).sum = s.freePages := by
  induction l generalizing s with
  | nil => exact ⟨fun d hd => absurd hd (by simp), by simp⟩
  | cons c l ih =>
    rw [List.nodup_cons] at hl
    rw [List.map_cons, List.sum_cons] at hfree
    have hn : need s c = n c := hneed s rfl c
    dsimp only [List.foldl_cons]
    obtain ⟨hlen, hperm⟩ := drawPages_spec (need s c) s.eq.free s.draws
    have hfl : s.freePages = s.eq.free.length := rfl
    have htaken : (drawPages (need s c) s.eq.free s.draws).1.length = n c := by rw [hlen, hn]; omega
    have hleft : (s.givePages i c (need s c)).freePages + n c = s.freePages := by
      have := hperm.length_eq
      rw [List.length_append, htaken] at this
      rw [State.freePages, State.givePages_free]; omega
    obtain ⟨h1, h2⟩ := ih hl.2 (s.givePages i c (need s c)) (fun t ht => hneed t ht) (by omega)
    refine ⟨fun d hd => ?_, ?_⟩
    · rcases List.mem_cons.mp hd with rfl | hd
      · refine ⟨_, htaken, fun p hp => hperm.mem_iff.mp (List.mem_append_left _ hp), ?_⟩
        rw [foldl_channels _ (fun t c _ => { (t.eq.channels.get i).get c with
            pages := t.pagesOf i c ++ (drawPages (need t c) t.eq.free t.draws).1 })
          (fun t c j d => t.give_channel i c (need t c) j d) l i d (.inr hl.1), State.give_channel, if_pos ⟨rfl, rfl⟩]
      · obtain ⟨taken, ht, hm, he⟩ := h1 d hd
        have hne : ¬(i = i ∧ d = c) := fun h => hl.1 (h.2 ▸ hd)
        refine ⟨taken, ht, fun p hp => hperm.mem_iff.mp (List.mem_append_right _ (hm p hp)), ?_⟩
        rw [he, State.give_channel, if_neg hne, State.givePages_pages, if_neg hne]
    · rw [List.map_cons, List.sum_cons]; omega

/-- A bank allocated from enough free pages: every channel gains as many free pages as its delay needs, keeping what else it
holds, the free pages fall by their number, and no channel of another screen changes. -/
theorem State.allocateBank_spec (i : Fin 8) (b : Fin 2) (h : s.bankNeed i b ≤ s.freePages) :
    (∀ c, ∃ taken, taken.length = pageNeed (s.delay i b c) ∧ (∀ p ∈ taken, p ∈ s.eq.free) ∧
      ((s.allocateBank i b).eq.channels.get i).get c =
        { (s.eq.channels.get i).get c with pages := s.pagesOf i c ++ taken }) ∧
      (∀ j c, j ≠ i → ((s.allocateBank i b).eq.channels.get j).get c = (s.eq.channels.get j).get c) ∧
      (s.allocateBank i b).freePages + s.bankNeed i b = s.freePages := by
  have hneed : ∀ t : State, t.ts = s.ts → ∀ c, pageNeed (t.delay i b c) = pageNeed (s.delay i b c) := by
    intro t ht c
    rw [State.delay, State.recordWord, ht]; rfl
  obtain ⟨h1, h2⟩ := allocate_fold i (fun t c => pageNeed (t.delay i b c)) (fun c => pageNeed (s.delay i b c))
    (List.finRange 16) (List.nodup_finRange 16) s hneed h
  exact ⟨fun c => h1 c (List.mem_finRange c), fun j c hj =>
    foldl_channels _ (fun t c _ => { (t.eq.channels.get i).get c with
        pages := t.pagesOf i c ++ (drawPages (pageNeed (t.delay i b c)) t.eq.free t.draws).1 })
      (fun t c j d => t.give_channel i c _ j d) _ j c (.inl hj), h2⟩

/-- A screen cleared: its channels keep their pages and nothing else, and nothing else changes. -/
theorem State.clearScreen_spec (i : Fin 8) :
    (∀ c, ((s.clearScreen i).eq.channels.get i).get c =
      { EqChannel.cleared with pages := ((s.eq.channels.get i).get c).pages }) ∧
      (∀ j c, j ≠ i → ((s.clearScreen i).eq.channels.get j).get c = (s.eq.channels.get j).get c) ∧
      (s.clearScreen i).eq.free = s.eq.free := by
  have hf : ∀ (t : State) (c : Fin 16) (j : Fin 8) (d : Fin 16),
      ((t.modifyEq i c fun ch => { EqChannel.cleared with pages := ch.pages }).eq.channels.get j).get d =
        if j = i ∧ d = c then { EqChannel.cleared with pages := ((t.eq.channels.get i).get c).pages }
        else (t.eq.channels.get j).get d := by
    intro t c j d
    simp only [State.modifyEq, Tab.get_modify]
    by_cases hj : j = i
    · subst hj
      by_cases hd : d = c
      · subst hd; simp
      · simp [hd, Tab.get_modify]
    · simp [hj]
  have hfree : ∀ (l : List (Fin 16)) (t : State),
      (l.foldl (fun s c => s.modifyEq i c fun ch => { EqChannel.cleared with pages := ch.pages }) t).eq.free =
        t.eq.free := by
    intro l
    induction l with
    | nil => intro t; rfl
    | cons x l ih => intro t; exact (ih _).trans rfl
  unfold State.clearScreen
  refine ⟨fun c => ?_, fun j c hj => ?_, hfree _ _⟩
  swap
  · exact foldl_channels _ (fun _ _ ch => { EqChannel.cleared with pages := ch.pages }) hf _ j c (.inl hj)
  have key : ∀ (l : List (Fin 16)) (t : State), l.Nodup → c ∈ l →
      ((l.foldl (fun s c => s.modifyEq i c fun ch => { EqChannel.cleared with pages := ch.pages }) t).eq.channels.get i).get c
        = { EqChannel.cleared with pages := ((t.eq.channels.get i).get c).pages } := by
    intro l
    induction l with
    | nil => intro t _ h; cases h
    | cons x l ih =>
      intro t hl hc
      rw [List.nodup_cons] at hl
      rw [List.foldl_cons]
      by_cases hx : c = x
      · subst hx
        rw [foldl_channels _ (fun _ _ ch => { EqChannel.cleared with pages := ch.pages }) hf l i c (.inr hl.1), hf, if_pos ⟨rfl, rfl⟩]
      · rw [ih _ hl.2 ((List.mem_cons.mp hc).resolve_left hx), hf, if_neg fun h => hx h.2]
  exact key _ s (List.nodup_finRange 16) (List.mem_finRange c)

/-! ## No page is lost or copied (R67) -/

/-- A sum over a list without repeats whose terms differ at one place. -/
theorem sum_map_change {α : Type} {l : List α} (hl : l.Nodup) {a : α} (ha : a ∈ l) {f g : α → Nat}
    (h : ∀ b, b ≠ a → f b = g b) : (l.map f).sum + g a = (l.map g).sum + f a := by
  induction l with
  | nil => exact absurd ha (by simp)
  | cons b l ih =>
    rw [List.nodup_cons] at hl
    simp only [List.map_cons, List.sum_cons]
    by_cases hb : b = a
    · subst hb
      have : l.map f = l.map g := List.map_congr_left fun x hx => h x fun e => hl.1 (e ▸ hx)
      rw [this]; omega
    · have := ih hl.2 ((List.mem_cons.mp ha).resolve_left fun e => hb e.symm)
      have := h b hb
      omega

/-- The places a page stands in: in the free list, and in each channel's page list. -/
theorem State.count_poolPages (s : State) (p : Fin 512) : s.poolPages.count p = s.eq.free.count p +
    ((List.finRange 8).map fun i => ((List.finRange 16).map fun c => (s.pagesOf i c).count p).sum).sum := by
  simp only [State.poolPages, List.count_append, List.count_flatMap, Function.comp_def]

/-- A change of one channel's page list that takes from the free list what it gives, or the reverse, loses no page. -/
theorem State.poolPages_of_exchange {s t : State} {i : Fin 8} {c : Fin 16}
    (hother : ∀ j d, ¬(j = i ∧ d = c) → t.pagesOf j d = s.pagesOf j d)
    (hsame : (t.eq.free ++ t.pagesOf i c).Perm (s.eq.free ++ s.pagesOf i c)) : t.poolPages.Perm s.poolPages := by
  rw [List.perm_iff_count]
  intro p
  rw [State.count_poolPages, State.count_poolPages]
  have hc := hsame.count_eq p
  rw [List.count_append, List.count_append] at hc
  have hrow := sum_map_change (List.nodup_finRange 16) (List.mem_finRange c)
    (f := fun d => (t.pagesOf i d).count p) (g := fun d => (s.pagesOf i d).count p)
    fun d hd => by rw [hother i d fun h => hd h.2]
  have hall := sum_map_change (List.nodup_finRange 8) (List.mem_finRange i)
    (f := fun j => ((List.finRange 16).map fun d => (t.pagesOf j d).count p).sum)
    (g := fun j => ((List.finRange 16).map fun d => (s.pagesOf j d).count p).sum)
    fun j hj => by simp only [fun d => hother j d fun h => hj h.1]
  omega

theorem State.givePages_pool (s : State) (i : Fin 8) (c : Fin 16) (n : Nat) :
    (s.givePages i c n).poolPages.Perm s.poolPages := by
  refine State.poolPages_of_exchange (i := i) (c := c) (fun j d h => by rw [State.givePages_pages, if_neg h]) ?_
  rw [State.givePages_pages, if_pos ⟨rfl, rfl⟩, State.givePages_free]
  have h := (drawPages_spec n s.eq.free s.draws).2
  refine List.Perm.trans ?_ (h.append_right (s.pagesOf i c))
  rw [List.perm_iff_count]; intro p; simp only [List.count_append]; omega

theorem State.returnPages_pool (s : State) (i : Fin 8) (c : Fin 16) (keep : Nat) :
    (s.returnPages i c keep).poolPages.Perm s.poolPages := by
  refine State.poolPages_of_exchange (i := i) (c := c) (fun j d h => by rw [State.returnPages_pages, if_neg h]) ?_
  rw [State.returnPages_pages, if_pos ⟨rfl, rfl⟩, State.returnPages_free, List.append_assoc]
  refine List.Perm.append_left _ ?_
  have h := List.take_append_drop keep (s.pagesOf i c)
  refine List.perm_append_comm.trans ?_
  rw [h]

/-- A change of a channel that leaves its page list leaves the pool. -/
theorem State.modifyEq_pages (s : State) (i : Fin 8) (c : Fin 16) (f : EqChannel → EqChannel)
    (h : ∀ ch, (f ch).pages = ch.pages) (j : Fin 8) (d : Fin 16) : (s.modifyEq i c f).pagesOf j d = s.pagesOf j d := by
  simp only [State.pagesOf, State.modifyEq, Tab.get_modify]
  by_cases hj : j = i
  · subst hj
    by_cases hd : d = c
    · subst hd; simp [h]
    · simp [hd, Tab.get_modify]
  · simp [hj]

theorem State.modifyEq_pool (s : State) (i : Fin 8) (c : Fin 16) (f : EqChannel → EqChannel)
    (h : ∀ ch, (f ch).pages = ch.pages) : (s.modifyEq i c f).poolPages = s.poolPages := by
  unfold State.poolPages
  simp only [s.modifyEq_pages i c f h]
  rfl

/-- An allocation and a clearing of a screen lose no page. -/
theorem State.allocateBank_pool (s : State) (i : Fin 8) (b : Fin 2) :
    (s.allocateBank i b).poolPages.Perm s.poolPages := by
  unfold State.allocateBank
  generalize List.finRange 16 = l
  induction l generalizing s with
  | nil => exact List.Perm.refl _
  | cons c l ih => exact (ih _).trans (s.givePages_pool i c _)

theorem State.clearScreen_pool (s : State) (i : Fin 8) : (s.clearScreen i).poolPages = s.poolPages := by
  unfold State.clearScreen
  generalize List.finRange 16 = l
  induction l generalizing s with
  | nil => rfl
  | cons c l ih => exact (ih _).trans (s.modifyEq_pool i c _ fun _ => rfl)

/-- The pool is a matter of the equaliser's state alone. -/
theorem State.poolPages_congr {s t : State} (h : s.eq = t.eq) : s.poolPages = t.poolPages := by
  unfold State.poolPages State.pagesOf
  rw [h]

/-! ## The channels a write gives another delay (R69) -/

/-- The channel of a written delay. -/
def WrittenDelay.place (w : WrittenDelay) : Fin 8 × Fin 16 := (w.screen, w.channel)

/-- A channel of the equaliser. -/
def State.eqAt (s : State) (x : Fin 8 × Fin 16) : EqChannel := (s.eq.channels.get x.1).get x.2

theorem State.eqAt_modifyEq (s : State) (w : WrittenDelay) (f : EqChannel → EqChannel) (x : Fin 8 × Fin 16) :
    (s.modifyEq w.screen w.channel f).eqAt x = if x = w.place then f (s.eqAt x) else s.eqAt x := by
  obtain ⟨j, d⟩ := x
  simp only [State.eqAt, State.modifyEq, Tab.get_modify, WrittenDelay.place, Prod.mk.injEq]
  by_cases hj : j = w.screen
  · subst hj
    by_cases hd : d = w.channel
    · subst hd; simp
    · simp [hd, Tab.get_modify]
  · simp [hj]

/-- The pages returned: every channel listed keeps what it now needs and its delay line is cleared. -/
theorem returned_fold (ws : List WrittenDelay) (hn : (ws.map WrittenDelay.place).Nodup) (s : State) :
    let t := ws.foldl (fun s w => (s.returnPages w.screen w.channel w.need).modifyEq w.screen w.channel
      fun ch => { ch with line := [] }) s
    (∀ w ∈ ws, t.eqAt w.place = { s.eqAt w.place with pages := (s.eqAt w.place).pages.take w.need, line := [] }) ∧
      (∀ x, x ∉ ws.map WrittenDelay.place → t.eqAt x = s.eqAt x) ∧
      t.freePages = s.freePages + (ws.map fun w => (s.eqAt w.place).pages.length - w.need).sum ∧
      t.poolPages.Perm s.poolPages := by
  induction ws generalizing s with
  | nil => exact ⟨fun w h => absurd h (by simp), fun _ _ => rfl, rfl, List.Perm.refl _⟩
  | cons w ws ih =>
    rw [List.map_cons, List.nodup_cons] at hn
    dsimp only [List.foldl_cons]
    generalize hm : (s.returnPages w.screen w.channel w.need).modifyEq w.screen w.channel
      (fun ch => { ch with line := [] }) = m
    have hat : ∀ x, m.eqAt x = if x = w.place then
        { s.eqAt x with pages := (s.eqAt x).pages.take w.need, line := [] } else s.eqAt x := by
      intro x
      have hr : ∀ x, (s.returnPages w.screen w.channel w.need).eqAt x =
          (s.modifyEq w.screen w.channel fun ch => { ch with pages := ch.pages.take w.need }).eqAt x := fun _ => rfl
      rw [← hm, State.eqAt_modifyEq, hr, State.eqAt_modifyEq]
      split <;> rfl
    have hfree : m.freePages = s.freePages + ((s.eqAt w.place).pages.length - w.need) := by
      rw [← hm]
      show (s.eq.free ++ (s.pagesOf w.screen w.channel).drop w.need).length = _
      rw [List.length_append, List.length_drop]; rfl
    have hpool : m.poolPages.Perm s.poolPages := by
      rw [← hm, State.modifyEq_pool _ _ _ (fun ch => { ch with line := [] }) fun _ => rfl]
      exact s.returnPages_pool _ _ _
    obtain ⟨h1, h2, h3, h4⟩ := ih hn.2 m
    have hne : ∀ v ∈ ws, v.place ≠ w.place := fun v hv h => hn.1 (h ▸ List.mem_map_of_mem hv)
    refine ⟨fun v hv => ?_, fun x hx => ?_, ?_, h4.trans hpool⟩
    · rcases List.mem_cons.mp hv with rfl | hv
      · rw [h2 _ hn.1, hat, if_pos rfl]
      · rw [h1 v hv, hat, if_neg (hne v hv)]
    · rw [List.map_cons, List.mem_cons] at hx
      rw [h2 x fun h => hx (.inr h), hat, if_neg fun h => hx (.inl h)]
    · have : ws.map (fun v => (m.eqAt v.place).pages.length - v.need) =
          ws.map fun v => (s.eqAt v.place).pages.length - v.need :=
        List.map_congr_left fun v hv => by rw [hat, if_neg (hne v hv)]
      rw [h3, this, hfree, List.map_cons, List.sum_cons]; omega

/-- The pages received: every channel listed gains what it lacks, where the free pages are enough. -/
theorem given_fold (ws : List WrittenDelay) (hn : (ws.map WrittenDelay.place).Nodup) (s : State)
    (hfree : (ws.map fun w => w.need - (s.eqAt w.place).pages.length).sum ≤ s.freePages) :
    let t := ws.foldl (fun s w => s.givePages w.screen w.channel (w.need - s.heldNow w)) s
    (∀ w ∈ ws, ∃ given, given.length = w.need - (s.eqAt w.place).pages.length ∧
        t.eqAt w.place = { s.eqAt w.place with pages := (s.eqAt w.place).pages ++ given }) ∧
      (∀ x, x ∉ ws.map WrittenDelay.place → t.eqAt x = s.eqAt x) ∧ t.poolPages.Perm s.poolPages := by
  induction ws generalizing s with
  | nil => exact ⟨fun w h => absurd h (by simp), fun _ _ => rfl, List.Perm.refl _⟩
  | cons w ws ih =>
    rw [List.map_cons, List.nodup_cons] at hn
    rw [List.map_cons, List.sum_cons] at hfree
    dsimp only [List.foldl_cons]
    have hheld : s.heldNow w = (s.eqAt w.place).pages.length := rfl
    rw [hheld]
    generalize hk : w.need - (s.eqAt w.place).pages.length = k at hfree ⊢
    obtain ⟨hlen, hperm⟩ := drawPages_spec k s.eq.free s.draws
    have hfl : s.freePages = s.eq.free.length := rfl
    generalize hm : s.givePages w.screen w.channel k = m
    have hat : ∀ x, m.eqAt x = if x = w.place then
        { s.eqAt x with pages := (s.eqAt x).pages ++ (drawPages k s.eq.free s.draws).1 } else s.eqAt x := by
      intro x
      have hr : ∀ x, (s.givePages w.screen w.channel k).eqAt x = (s.modifyEq w.screen w.channel fun ch =>
          { ch with pages := ch.pages ++ (drawPages k s.eq.free s.draws).1 }).eqAt x := fun _ => rfl
      rw [← hm, hr, State.eqAt_modifyEq]
    have hpool : m.poolPages.Perm s.poolPages := hm ▸ s.givePages_pool _ _ _
    have hleft : m.freePages + k = s.freePages := by
      have := hperm.length_eq
      rw [List.length_append, hlen] at this
      have hf : m.freePages = (drawPages k s.eq.free s.draws).2.1.length := by rw [← hm]; rfl
      omega
    have hne : ∀ v ∈ ws, v.place ≠ w.place := fun v hv h => hn.1 (h ▸ List.mem_map_of_mem hv)
    have hsum : ws.map (fun v => v.need - (m.eqAt v.place).pages.length) =
        ws.map fun v => v.need - (s.eqAt v.place).pages.length :=
      List.map_congr_left fun v hv => by rw [hat, if_neg (hne v hv)]
    obtain ⟨h1, h2, h3⟩ := ih hn.2 m (by rw [hsum]; omega)
    refine ⟨fun v hv => ?_, fun x hx => ?_, h3.trans hpool⟩
    · rcases List.mem_cons.mp hv with rfl | hv
      · refine ⟨(drawPages k s.eq.free s.draws).1, by rw [hlen, hk]; omega, ?_⟩
        rw [h2 _ hn.1, hat, if_pos rfl]
      · obtain ⟨given, hg, he⟩ := h1 v hv
        rw [hat, if_neg (hne v hv)] at hg he
        exact ⟨given, hg, he⟩
    · rw [List.map_cons, List.mem_cons] at hx
      rw [h2 x fun h => hx (.inr h), hat, if_neg fun h => hx (.inl h)]

/-- The channels a write gives another delay, said whole: one whose page need stands is untouched, one that needs fewer
returns the pages at the end of its list, one that needs more receives pages at it, either with its delay line cleared, and no
page of the pool is lost or copied (R69). -/
theorem State.reallocate_spec (s : State) (ws : List WrittenDelay) (hn : (ws.map WrittenDelay.place).Nodup)
    (hfit : s.delaysFit ws = true) :
    (∀ w ∈ ws, let old := s.eqAt w.place
      let new := (s.reallocate ws).eqAt w.place
      (w.need = old.pages.length → new = old) ∧
        (w.need < old.pages.length → new = { old with pages := old.pages.take w.need, line := [] }) ∧
        (old.pages.length < w.need → ∃ given, given.length = w.need - old.pages.length ∧
          new = { old with pages := old.pages ++ given, line := [] })) ∧
      (∀ x, x ∉ ws.map WrittenDelay.place → (s.reallocate ws).eqAt x = s.eqAt x) ∧
      (s.reallocate ws).poolPages.Perm s.poolPages := by
  unfold State.reallocate
  dsimp only
  have hheld : ∀ w, s.heldNow w = (s.eqAt w.place).pages.length := fun _ => rfl
  generalize hch : ws.filter (fun w => w.need != s.heldNow w) = changed
  have hmem : ∀ w, w ∈ changed ↔ w ∈ ws ∧ w.need ≠ (s.eqAt w.place).pages.length := by
    intro w; rw [← hch, List.mem_filter, bne_iff_ne, hheld]
  have hsub : changed.Sublist ws := hch ▸ List.filter_sublist
  have hnc : (changed.map WrittenDelay.place).Nodup := (hsub.map _).nodup hn
  obtain ⟨r1, r2, r3, r4⟩ := returned_fold changed hnc s
  generalize changed.foldl (fun s w => (s.returnPages w.screen w.channel w.need).modifyEq w.screen w.channel
    fun ch => { ch with line := [] }) s = r at r1 r2 r3 r4 ⊢
  have hfree : (changed.map fun w => w.need - (r.eqAt w.place).pages.length).sum ≤ r.freePages := by
    have e1 : changed.map (fun w => w.need - (r.eqAt w.place).pages.length) =
        changed.map fun w => w.need - (s.eqAt w.place).pages.length :=
      List.map_congr_left fun w hw => by rw [r1 w hw]; simp only [List.length_take]; omega
    rw [e1, r3]
    have hf : (ws.map fun w => w.need).sum ≤ (ws.map fun w => (s.eqAt w.place).pages.length).sum + s.freePages := by
      rw [State.delaysFit, decide_eq_true_eq, List.map_congr_left fun w _ => hheld w] at hfit
      exact hfit
    have key : ∀ l : List WrittenDelay,
        ((l.filter fun w => w.need != s.heldNow w).map fun w => w.need - (s.eqAt w.place).pages.length).sum +
          (l.map fun w => (s.eqAt w.place).pages.length).sum =
        ((l.filter fun w => w.need != s.heldNow w).map fun w => (s.eqAt w.place).pages.length - w.need).sum +
          (l.map fun w => w.need).sum := by
      intro l
      induction l with
      | nil => rfl
      | cons w l ih =>
        by_cases hw : (w.need != s.heldNow w) = true
        · rw [List.filter_cons_of_pos (by exact hw)]
          simp only [List.map_cons, List.sum_cons]
          omega
        · rw [List.filter_cons_of_neg (by exact hw)]
          rw [bne_iff_ne, not_not, hheld] at hw
          simp only [List.map_cons, List.sum_cons]
          omega
    have := key ws
    rw [hch] at this
    omega
  obtain ⟨g1, g2, g3⟩ := given_fold changed hnc r hfree
  generalize changed.foldl (fun s w => s.givePages w.screen w.channel (w.need - s.heldNow w)) r = g at g1 g2 g3 ⊢
  refine ⟨fun w hw => ⟨fun h => ?_, fun h => ?_, fun h => ?_⟩, fun x hx => ?_, g3.trans r4⟩
  · have hx : w.place ∉ changed.map WrittenDelay.place := by
      intro hx
      obtain ⟨v, hv, he⟩ := List.mem_map.mp hx
      have hvw : v = w := List.inj_on_of_nodup_map hn ((hmem v).mp hv).1 hw he
      exact ((hmem v).mp hv).2 (hvw ▸ h)
    rw [g2 _ hx, r2 _ hx]
  · have hc := (hmem w).mpr ⟨hw, by omega⟩
    obtain ⟨given, hl, he⟩ := g1 w hc
    rw [r1 w hc] at hl he
    have : given = [] := by
      apply List.eq_nil_of_length_eq_zero
      rw [hl]; simp only [List.length_take]; omega
    rw [he, this, List.append_nil]
  · have hc := (hmem w).mpr ⟨hw, by omega⟩
    obtain ⟨given, hl, he⟩ := g1 w hc
    have ht : (s.eqAt w.place).pages.take w.need = (s.eqAt w.place).pages := List.take_of_length_le (by omega)
    rw [r1 w hc, ht] at hl he
    exact ⟨given, hl, he⟩
  · have hx' : x ∉ changed.map WrittenDelay.place := fun h => hx ((hsub.map _).subset h)
    rw [g2 _ hx', r2 _ hx']

end Sys2Proof.Machine
end

