-- ==== Sys2Proof/Laws/Screens.lean ====
section
/-!
SUPPORT. What the operations on screens do and leave alone: reports and triggers, forced falls, a change of a screen's
state, the entry of several screens into SAFE, and the alarm scan.
-/

namespace Sys2Proof.Machine

/-! ## Reports and triggers change nothing but their queues -/

/-- The parts of the state that no report and no trigger changes. -/
structure Silent where
  outer : Outer
  sc : Tab 8 ScreenRecord
  de : Tab 8 DecodeRecord
  eq : Equaliser
  os : OutputStage
  am : AlarmMonitor
  ct : ClockUnit
  bl : BoothLines
  cues : Tab 256 CueRecord

/-- These parts of a state. -/
def State.silent (s : State) : Silent := ⟨s.outer, s.sc, s.de, s.eq, s.os, s.am, s.ct, s.bl, s.ce.cues⟩

/-- The parts of the state that no change of a screen's state and no alarm entry changes. -/
structure Aside where
  outer : Outer
  ct : ClockUnit
  bl : BoothLines
  cues : Tab 256 CueRecord
  slots : Tab 128 SlotLine
  lines : Tab 8 (Tab 16 LineState)

/-- These parts of a state. -/
def State.aside (s : State) : Aside := ⟨s.outer, s.ct, s.bl, s.ce.cues, s.am.slots, s.am.lines⟩

theorem State.silent_sc {s t : State} (h : s.silent = t.silent) : s.sc = t.sc := congrArg Silent.sc h
theorem State.silent_de {s t : State} (h : s.silent = t.silent) : s.de = t.de := congrArg Silent.de h
theorem State.silent_eq {s t : State} (h : s.silent = t.silent) : s.eq = t.eq := congrArg Silent.eq h
theorem State.silent_os {s t : State} (h : s.silent = t.silent) : s.os = t.os := congrArg Silent.os h
theorem State.silent_am {s t : State} (h : s.silent = t.silent) : s.am = t.am := congrArg Silent.am h
theorem State.silent_ct {s t : State} (h : s.silent = t.silent) : s.ct = t.ct := congrArg Silent.ct h
theorem State.silent_bl {s t : State} (h : s.silent = t.silent) : s.bl = t.bl := congrArg Silent.bl h
theorem State.silent_cues {s t : State} (h : s.silent = t.silent) : s.ce.cues = t.ce.cues := congrArg Silent.cues h

theorem State.aside_outer {s t : State} (h : s.aside = t.aside) : s.outer = t.outer := congrArg Aside.outer h
theorem State.aside_ct {s t : State} (h : s.aside = t.aside) : s.ct = t.ct := congrArg Aside.ct h
theorem State.aside_bl {s t : State} (h : s.aside = t.aside) : s.bl = t.bl := congrArg Aside.bl h
theorem State.aside_cues {s t : State} (h : s.aside = t.aside) : s.ce.cues = t.ce.cues := congrArg Aside.cues h
theorem State.aside_slots {s t : State} (h : s.aside = t.aside) : s.am.slots = t.am.slots := congrArg Aside.slots h
theorem State.aside_lines {s t : State} (h : s.aside = t.aside) : s.am.lines = t.am.lines := congrArg Aside.lines h

theorem State.aside_of_silent {s t : State} (h : s.silent = t.silent) : s.aside = t.aside := by
  have h1 : s.outer = t.outer := congrArg Silent.outer h
  simp only [State.aside, h1, State.silent_ct h, State.silent_bl h, State.silent_cues h, State.silent_am h]

theorem State.aside_of_unpaged {s t : State} (h : s.unpaged = t.unpaged) : s.aside = t.aside := by
  simp only [State.aside, State.unpaged_outer h, State.unpaged_ct h, State.unpaged_bl h, State.unpaged_ce h,
    State.unpaged_am h]

variable (s : State)

@[simp] theorem State.silent_queueReport (r : Report) : (s.queueReport r).silent = s.silent := by
  unfold State.queueReport; split <;> rfl

@[simp] theorem State.silent_queueReports (rs : List Report) : (s.queueReports rs).silent = s.silent :=
  foldl_keeps State.silent _ (fun s r => s.silent_queueReport r) rs s

@[simp] theorem State.silent_queueCueReport (origin : Origin) (i : Fin 8) (trigger : Option Trigger)
    (clock : ClockValue) (actions : List ActionRecord) :
    (s.queueCueReport origin i trigger clock actions).silent = s.silent := by
  unfold State.queueCueReport
  dsimp only
  split
  · exact s.silent_queueReport _
  · exact s.silent_queueReport _

@[simp] theorem State.silent_mergeReports (groups : List (List Report)) :
    (s.mergeReports groups).1.silent = s.silent := rfl

@[simp] theorem State.silent_pushTrigger (t : Trigger) : (s.pushTrigger t).silent = s.silent := by
  unfold State.pushTrigger; split <;> split <;> rfl

@[simp] theorem State.silent_makeTrigger (event : TriggerEvent) (depth : Nat) :
    (s.makeTrigger event depth).silent = s.silent := by
  unfold State.makeTrigger; split <;> simp

@[simp] theorem State.queueReports_sc (rs : List Report) : (s.queueReports rs).sc = s.sc :=
  State.silent_sc (s.silent_queueReports rs)
@[simp] theorem State.queueReports_de (rs : List Report) : (s.queueReports rs).de = s.de :=
  State.silent_de (s.silent_queueReports rs)
@[simp] theorem State.queueReports_eq (rs : List Report) : (s.queueReports rs).eq = s.eq :=
  State.silent_eq (s.silent_queueReports rs)
@[simp] theorem State.queueReports_os (rs : List Report) : (s.queueReports rs).os = s.os :=
  State.silent_os (s.silent_queueReports rs)
@[simp] theorem State.queueReports_am (rs : List Report) : (s.queueReports rs).am = s.am :=
  State.silent_am (s.silent_queueReports rs)
@[simp] theorem State.queueReports_ct (rs : List Report) : (s.queueReports rs).ct = s.ct :=
  State.silent_ct (s.silent_queueReports rs)
@[simp] theorem State.queueReports_bl (rs : List Report) : (s.queueReports rs).bl = s.bl :=
  State.silent_bl (s.silent_queueReports rs)
@[simp] theorem State.queueReports_ce (rs : List Report) : (s.queueReports rs).ce = s.ce := by
  refine foldl_keeps State.ce State.queueReport (fun s r => ?_) rs s
  unfold State.queueReport; split <;> rfl

@[simp] theorem State.makeTrigger_sc (e : TriggerEvent) (d : Nat) : (s.makeTrigger e d).sc = s.sc :=
  State.silent_sc (s.silent_makeTrigger e d)
@[simp] theorem State.makeTrigger_de (e : TriggerEvent) (d : Nat) : (s.makeTrigger e d).de = s.de :=
  State.silent_de (s.silent_makeTrigger e d)
@[simp] theorem State.makeTrigger_eq (e : TriggerEvent) (d : Nat) : (s.makeTrigger e d).eq = s.eq :=
  State.silent_eq (s.silent_makeTrigger e d)
@[simp] theorem State.makeTrigger_os (e : TriggerEvent) (d : Nat) : (s.makeTrigger e d).os = s.os :=
  State.silent_os (s.silent_makeTrigger e d)
@[simp] theorem State.makeTrigger_am (e : TriggerEvent) (d : Nat) : (s.makeTrigger e d).am = s.am :=
  State.silent_am (s.silent_makeTrigger e d)

/-! ## Forced falls and protect targets (R104, R111, R112) -/

/-- The entries picked stand at NORMAL with their counters 0, and nothing else changes. -/
theorem State.forceEntries_spec (pick : AlarmEntry → Bool) :
    (s.forceEntries pick).1 = { s with am := { s.am with
      entries := .ofFn fun e => if pick (s.alarmEntry e) then (s.am.entries.get e).fallen else s.am.entries.get e } } := by
  have key : ∀ (l : List (Fin 256)), l.Nodup → ∀ acc : State × List Report,
      (l.foldl (fun (acc : State × List Report) e =>
        if pick (acc.1.alarmEntry e) then
          let (s, rs) := acc.1.forceNormal e
          (s, acc.2 ++ rs)
        else acc) acc).1 = { acc.1 with am := { acc.1.am with
          entries := .ofFn fun e => if e ∈ l ∧ pick (acc.1.alarmEntry e) = true then (acc.1.am.entries.get e).fallen
            else acc.1.am.entries.get e } } := by
    intro l
    induction l with
    | nil =>
      intro _ acc
      have : (Tab.ofFn fun e => if e ∈ ([] : List (Fin 256)) ∧ pick (acc.1.alarmEntry e) = true then
          (acc.1.am.entries.get e).fallen else acc.1.am.entries.get e) = acc.1.am.entries := by
        apply Tab.ext_get; intro e; simp
      rw [this]; rfl
    | cons e l ih =>
      intro hl acc
      rw [List.nodup_cons] at hl
      rw [List.foldl_cons, ih hl.2]
      by_cases hp : pick (acc.1.alarmEntry e) = true
      · simp only [if_pos hp]
        have hentry : ∀ x, (acc.1.forceNormal e).1.alarmEntry x = acc.1.alarmEntry x := fun _ => rfl
        have : (Tab.ofFn fun x => if x ∈ l ∧ pick ((acc.1.forceNormal e).1.alarmEntry x) = true then
            ((acc.1.forceNormal e).1.am.entries.get x).fallen else (acc.1.forceNormal e).1.am.entries.get x) =
            Tab.ofFn fun x => if x ∈ e :: l ∧ pick (acc.1.alarmEntry x) = true then
              (acc.1.am.entries.get x).fallen else acc.1.am.entries.get x := by
          apply Tab.ext_get; intro x
          rw [Tab.get_ofFn, Tab.get_ofFn, hentry]
          have hget : (acc.1.forceNormal e).1.am.entries.get x =
              if x = e then (acc.1.am.entries.get e).fallen else acc.1.am.entries.get x := Tab.get_modify _ _ _ _
          by_cases hx : x = e
          · subst hx
            rw [if_neg (fun h => hl.1 h.1), if_pos ⟨List.mem_cons_self, hp⟩, hget, if_pos rfl]
          · rw [hget, if_neg hx]
            simp only [List.mem_cons, hx, false_or]
        rw [this]; rfl
      · simp only [if_neg hp]
        congr 2
        apply Tab.ext_get; intro x
        rw [Tab.get_ofFn, Tab.get_ofFn]
        by_cases hx : x = e
        · subst hx
          rw [if_neg (fun h => hl.1 h.1), if_neg (fun h => hp h.2)]
        · simp only [List.mem_cons, hx, false_or]
  have h := key (List.finRange 256) (List.nodup_finRange 256) (s, [])
  rw [State.forceEntries, h]
  simp only [List.mem_finRange, true_and]

@[simp] theorem State.forceEntries_sc (pick : AlarmEntry → Bool) : (s.forceEntries pick).1.sc = s.sc := by
  rw [s.forceEntries_spec]
@[simp] theorem State.forceEntries_de (pick : AlarmEntry → Bool) : (s.forceEntries pick).1.de = s.de := by
  rw [s.forceEntries_spec]
@[simp] theorem State.forceEntries_eq (pick : AlarmEntry → Bool) : (s.forceEntries pick).1.eq = s.eq := by
  rw [s.forceEntries_spec]
@[simp] theorem State.forceEntries_os (pick : AlarmEntry → Bool) : (s.forceEntries pick).1.os = s.os := by
  rw [s.forceEntries_spec]
@[simp] theorem State.forceEntries_aside (pick : AlarmEntry → Bool) : (s.forceEntries pick).1.aside = s.aside := by
  rw [s.forceEntries_spec]; rfl

@[simp] theorem State.forceFloors_sc (i : Fin 8) : (s.forceFloors i).1.sc = s.sc := s.forceEntries_sc _
@[simp] theorem State.forceFloors_de (i : Fin 8) : (s.forceFloors i).1.de = s.de := s.forceEntries_de _
@[simp] theorem State.forceFloors_eq (i : Fin 8) : (s.forceFloors i).1.eq = s.eq := s.forceEntries_eq _
@[simp] theorem State.forceFloors_os (i : Fin 8) : (s.forceFloors i).1.os = s.os := s.forceEntries_os _
@[simp] theorem State.forceFloors_aside (i : Fin 8) : (s.forceFloors i).1.aside = s.aside := s.forceEntries_aside _

@[simp] theorem State.recomputeTargets_sc : s.recomputeTargets.sc = s.sc := rfl
@[simp] theorem State.recomputeTargets_de : s.recomputeTargets.de = s.de := rfl
@[simp] theorem State.recomputeTargets_eq : s.recomputeTargets.eq = s.eq := rfl
@[simp] theorem State.recomputeTargets_entries : s.recomputeTargets.am.entries = s.am.entries := rfl
@[simp] theorem State.recomputeTargets_aside : s.recomputeTargets.aside = s.aside := rfl

theorem protectTarget_spec (trips : List AlarmEntry) (i : Fin 8) (c : Fin 16) :
    protectTarget trips i c ≤ 32768 ∧ (∀ a ∈ trips, a.covers i c = true → protectTarget trips i c ≤ a.protectFactor) ∧
      (protectTarget trips i c = 32768 ∨
        ∃ a ∈ trips, a.covers i c = true ∧ protectTarget trips i c = a.protectFactor) := by
  have key : ∀ (l : List AlarmEntry) (t : Nat),
      let m := l.foldl (fun t a => if a.covers i c then min t a.protectFactor else t) t
      m ≤ t ∧ (∀ a ∈ l, a.covers i c = true → m ≤ a.protectFactor) ∧
        (m = t ∨ ∃ a ∈ l, a.covers i c = true ∧ m = a.protectFactor) := by
    intro l
    induction l with
    | nil => intro t; exact ⟨le_refl _, fun a h => absurd h (by simp), .inl rfl⟩
    | cons a l ih =>
      intro t
      dsimp only [List.foldl_cons]
      obtain ⟨h1, h2, h3⟩ := ih (if a.covers i c then min t a.protectFactor else t)
      by_cases hc : a.covers i c = true
      · rw [if_pos hc] at h1 h2 h3 ⊢
        refine ⟨by omega, fun b hb hbc => ?_, ?_⟩
        · rcases List.mem_cons.mp hb with rfl | hb
          · omega
          · exact h2 b hb hbc
        · rcases h3 with h3 | ⟨b, hb, hbc, hbe⟩
          · rcases Nat.le_total t a.protectFactor with hle | hle
            · exact .inl (by rw [h3, Nat.min_eq_left hle])
            · exact .inr ⟨a, List.mem_cons_self, hc, by rw [h3, Nat.min_eq_right hle]⟩
          · exact .inr ⟨b, List.mem_cons_of_mem _ hb, hbc, hbe⟩
      · rw [if_neg hc] at h1 h2 h3 ⊢
        refine ⟨h1, fun b hb hbc => ?_, ?_⟩
        · rcases List.mem_cons.mp hb with rfl | hb
          · exact absurd hbc hc
          · exact h2 b hb hbc
        · exact h3.imp_right fun ⟨b, hb, h⟩ => ⟨b, List.mem_cons_of_mem _ hb, h⟩
  exact key trips 32768

/-- Every protect target after a recomputation: no larger than the factor of an entry in TRIP that covers the channel,
and one of these, or 32768. -/
theorem State.recomputeTargets_spec (i : Fin 8) (c : Fin 16) :
    let target := (s.recomputeTargets.am.targets.get i).get c
    (∀ e, (s.am.entries.get e).tier = .trip → (s.alarmEntry e).covers i c = true →
        target ≤ (s.alarmEntry e).protectFactor) ∧
      (target = 32768 ∨ ∃ e, (s.am.entries.get e).tier = .trip ∧ (s.alarmEntry e).covers i c = true ∧
        target = (s.alarmEntry e).protectFactor) := by
  have htarget : (s.recomputeTargets.am.targets.get i).get c = protectTarget s.tripping i c := by
    simp only [State.recomputeTargets, State.takeTargets, Tab.get_ofFn]
  have hmem : ∀ a, a ∈ s.tripping ↔ ∃ e, (s.am.entries.get e).tier = .trip ∧ s.alarmEntry e = a := by
    intro a
    simp [State.tripping]
  dsimp only
  rw [htarget]
  obtain ⟨-, h2, h3⟩ := protectTarget_spec s.tripping i c
  refine ⟨fun e he hc => h2 _ ((hmem _).mpr ⟨e, he, rfl⟩) hc, h3.imp_right ?_⟩
  rintro ⟨a, ha, hc, hm⟩
  obtain ⟨e, he, rfl⟩ := (hmem a).mp ha
  exact ⟨e, he, hc, hm⟩

/-- The targets follow the entries after a recomputation. -/
theorem State.recomputeTargets_follow : s.recomputeTargets.targetsFollow := by
  have he : ∀ e, s.recomputeTargets.alarmEntry e = s.alarmEntry e := fun _ => rfl
  intro i c
  simp only [State.recomputeTargets_entries, he]
  exact s.recomputeTargets_spec i c

/-- The demands follow the entries after a recomputation. -/
theorem State.recomputeDemands_follow : s.recomputeDemands.demandsFollow := by
  have he : ∀ e, s.recomputeDemands.alarmEntry e = s.alarmEntry e := fun _ => rfl
  have hr : s.recomputeDemands.am.entries = s.am.entries := rfl
  intro n
  simp only [he, hr]
  simp only [State.recomputeDemands, Tab.get_ofFn, List.any_filter, List.any_eq_true, List.mem_finRange, true_and,
    Bool.and_eq_true, AlarmEntry.lights, beq_iff_eq, and_assoc]
  refine exists_congr fun e => ?_
  cases (s.alarmEntry e).annunciatorTier <;> cases (s.am.entries.get e).warnSeen <;>
    cases (s.am.entries.get e).tripSeen <;> simp

/-! ## One change of a screen's state (R4–R9, R13) -/

/-- A hand-over changes only the screen's dip ramp and its dip record, and nothing where no apply is pending. -/
theorem State.handPending_spec (i : Fin 8) (old : ScreenRecord) (target : ScreenState) :
    let t := (s.handPending i old target).1
    (∃ dip, t.sc = s.sc.modify i fun r => { r with dip := dip }) ∧ t.de = s.de ∧ t.os = s.os ∧ t.am = s.am ∧
      t.aside = s.aside ∧ t.eq.channels = s.eq.channels ∧ t.eq.free = s.eq.free ∧
      (old.pendingApply = none ∨ target.playing = true → t = s) := by
  have hsame : s.sc = s.sc.modify i fun r => { r with dip := (s.sc.get i).dip } := by
    apply Tab.ext_get; intro j
    rw [Tab.get_modify]
    split
    · next h => rw [h]
    · rfl
  dsimp only
  unfold State.handPending
  cases hp : old.pendingApply with
  | none => exact ⟨⟨_, hsame⟩, rfl, rfl, rfl, rfl, rfl, rfl, fun _ => rfl⟩
  | some origin =>
    dsimp only
    split
    · exact ⟨⟨_, hsame⟩, rfl, rfl, rfl, rfl, rfl, rfl, fun _ => rfl⟩
    · next ht =>
      have hno : ∀ {p : Prop}, (some origin = none ∨ target.playing = true) → p := by
        rintro p (h | h)
        · cases h
        · exact absurd h ht
      unfold State.handApply
      split
      · refine ⟨⟨(s.sc.get i).dip.retarget 0 256, ?_⟩, rfl, rfl, rfl, rfl, rfl, rfl, hno⟩
        rfl
      · split
        · exact ⟨⟨_, hsame⟩, rfl, rfl, rfl, rfl, rfl, rfl, hno⟩
        · exact ⟨⟨_, hsame⟩, rfl, rfl, rfl, rfl, rfl, rfl, hno⟩

/-- The equaliser, screen records and the rest after a released screen's decode record and output channels are cleared and
its alarm entries forced. -/
theorem State.disable_rest (r : State) (i : Fin 8) (d : DecodeRecord → DecodeRecord) (o : OutChannel → OutChannel)
    (g : Tab 8 Nat) (pick : AlarmEntry → Bool) :
    let u : State := (r.modifyDecode i d).modifyOut i o
    let t := (State.forceEntries { u with os := { u.os with gains := g } } pick).1.recomputeTargets
    t.sc = r.sc ∧ t.aside = r.aside ∧ t.eq = r.eq := by
  dsimp only
  simp only [State.recomputeTargets_sc, State.forceEntries_sc, State.recomputeTargets_aside,
    State.forceEntries_aside, State.recomputeTargets_eq, State.forceEntries_eq]
  exact ⟨rfl, rfl, rfl⟩

/-- Entering OFFLINE leaves the screen records and the dip records alone. -/
theorem State.disable_spec (i : Fin 8) :
    let t := (s.disable i).1
    t.sc = s.sc ∧ t.aside = s.aside ∧ t.eq = (s.releaseScreen i).eq ∧ t.eq.dips = s.eq.dips := by
  have hu := s.unpaged_releaseScreen i
  obtain ⟨h1, h2, h3⟩ := (s.releaseScreen i).disable_rest i DecodeRecord.idled (fun _ => OutChannel.reset)
    ((((s.releaseScreen i).modifyDecode i DecodeRecord.idled).modifyOut i fun _ => OutChannel.reset).os.gains.set i 0)
    (fun a => a.screen == i)
  exact ⟨h1.trans (State.unpaged_sc hu), h2.trans (State.aside_of_unpaged hu), h3,
    (congrArg Equaliser.dips h3).trans (State.unpaged_dips hu)⟩

/-- Entering OFFLINE, said whole: the screen's decode record, output channels and pages, then the forced falls of its alarm
entries and the protect targets that follow. -/
theorem State.disable_eq (i : Fin 8) :
    ∃ z : State, (s.disable i).1 = (z.forceEntries fun a => a.screen == i).1.recomputeTargets ∧
      z.eq = (s.releaseScreen i).eq ∧ z.de = s.de.modify i DecodeRecord.idled ∧ z.am = s.am ∧ z.ts = s.ts ∧
      z.sc = s.sc ∧
      z.os = { s.os with
        channels := s.os.channels.modify i fun row => row.map fun _ => OutChannel.reset
        gains := s.os.gains.set i 0 } := by
  have key : ∀ r : State, r.unpaged = s.unpaged → ∃ z : State,
      (let u := (r.modifyDecode i DecodeRecord.idled).modifyOut i fun _ => OutChannel.reset;
        ({ u with os := { u.os with gains := u.os.gains.set i 0 } } : State)) = z ∧
      z.eq = r.eq ∧ z.de = s.de.modify i DecodeRecord.idled ∧ z.am = s.am ∧ z.ts = s.ts ∧ z.sc = s.sc ∧
      z.os = { s.os with
        channels := s.os.channels.modify i fun row => row.map fun _ => OutChannel.reset
        gains := s.os.gains.set i 0 } := by
    intro r h
    refine ⟨_, rfl, rfl, ?_, (State.unpaged_am h : r.am = s.am),
      (State.outer_ts (State.unpaged_outer h) : r.ts = s.ts), (State.unpaged_sc h : r.sc = s.sc), ?_⟩
    · rw [← State.unpaged_de h]; rfl
    · rw [← State.unpaged_os h]; rfl
  obtain ⟨z, hz, h⟩ := key (s.releaseScreen i) (s.unpaged_releaseScreen i)
  refine ⟨z, ?_, h⟩
  unfold State.disable
  dsimp only at hz ⊢
  rw [hz]

/-- An enable leaves the screen records and the dip records alone. -/
theorem State.enable_spec (i : Fin 8) :
    (s.enable i).sc = s.sc ∧ (s.enable i).aside = s.aside ∧ (s.enable i).eq.dips = s.eq.dips := by
  have hu : ((s.allocateBank i (s.activeBank i)).clearScreen i).unpaged = s.unpaged := by simp
  have hd : ∀ (r : State) (f : DecodeRecord → DecodeRecord),
      (r.modifyDecode i f).sc = r.sc ∧ (r.modifyDecode i f).aside = r.aside ∧ (r.modifyDecode i f).eq = r.eq :=
    fun _ _ => ⟨rfl, rfl, rfl⟩
  unfold State.enable
  dsimp only
  obtain ⟨h1, h2, h3⟩ := hd ((s.allocateBank i (s.activeBank i)).clearScreen i)
    fun d => d.enabled (s.profileToUse i) (!s.li.worked)
  exact ⟨h1.trans (State.unpaged_sc hu), h2.trans (State.aside_of_unpaged hu),
    (congrArg Equaliser.dips h3).trans (State.unpaged_dips hu)⟩

/-- What the blocks do with a change of state leaves every screen record alone; between two states other than OFFLINE it
also leaves the decode records and the equaliser alone. -/
theorem State.followMove_spec (i : Fin 8) (old target : ScreenState) (b : Bool) :
    let t := (s.followMove i old target b).1
    t.sc = s.sc ∧ t.aside = s.aside ∧ t.eq.dips = s.eq.dips ∧
      (target ≠ .offline → old ≠ .offline → t.de = s.de ∧ t.eq = s.eq ∧ (b = true → t.os = s.os)) := by
  dsimp only
  unfold State.followMove
  split
  · next h =>
    obtain ⟨h1, h2, -, h4⟩ := s.disable_spec i
    exact ⟨h1, h2, h4, fun hn => absurd h hn⟩
  · split
    · next h =>
      obtain ⟨h1, h2, h3⟩ := s.enable_spec i
      exact ⟨h1, h2, h3, fun _ hn => absurd h hn⟩
    · split
      · dsimp only
        cases b
        · refine ⟨?_, ?_, ?_, fun _ _ => ⟨?_, ?_, fun h => nomatch h⟩⟩ <;> simp
        · refine ⟨?_, ?_, ?_, fun _ _ => ⟨?_, ?_, fun _ => ?_⟩⟩ <;> simp
      · exact ⟨rfl, rfl, rfl, fun _ _ => ⟨rfl, rfl, fun _ => rfl⟩⟩

/-- One change of a screen's state: its record moves and no other screen's record changes, nor do the clocks, the booth
lines, the cues and the link; between two states other than OFFLINE the decode records stand, and without a hand-over the
equaliser and the dip ramp stand too. -/
theorem State.moveScreen_spec (i : Fin 8) (target : ScreenState) (cause : StateCause) (safeCause : SafeCause)
    (depth : Nat) (inScan : Bool) :
    let t := (s.moveScreen i target cause safeCause depth inScan).1
    let moved := (s.sc.get i).move target safeCause (s.safeGain i)
    let quiet : Prop := (s.sc.get i).pendingApply = none ∨ target.playing = true
    (∀ j, j ≠ i → t.sc.get j = s.sc.get j) ∧
      (∃ dip, t.sc.get i = { moved with dip := dip } ∧ (quiet → dip = (s.sc.get i).dip)) ∧
      t.aside = s.aside ∧ (quiet → t.eq.dips = s.eq.dips) ∧
      (target ≠ .offline → s.screenState i ≠ .offline →
        t.de = s.de ∧ t.eq.channels = s.eq.channels ∧ t.eq.free = s.eq.free ∧ (quiet → t.eq = s.eq) ∧
          (inScan = true → t.os = s.os)) := by
  dsimp only
  unfold State.moveScreen
  dsimp only
  have h1 : ∀ r : State, ∀ gs, (r.mergeReports gs).1.silent = r.silent := fun r gs => r.silent_mergeReports gs
  generalize hm : (s.modifyScreen i fun r => r.move target safeCause (s.safeGain i)) = m
  obtain ⟨⟨dip, hp1⟩, hp2, hp3, hp4, hp5, hp6, hp7, hp8⟩ := m.handPending_spec i (s.sc.get i) target
  generalize m.handPending i (s.sc.get i) target = hand at hp1 hp2 hp3 hp4 hp5 hp6 hp7 hp8 ⊢
  obtain ⟨hf1, hf2, hf3, hf4⟩ := hand.1.followMove_spec i (s.sc.get i).state target inScan
  generalize hand.1.followMove i (s.sc.get i).state target inScan = follow at hf1 hf2 hf3 hf4 ⊢
  have hsil := follow.1.silent_makeTrigger (.state i target) depth
  generalize follow.1.makeTrigger (.state i target) depth = made at hsil ⊢
  have hsil2 := (h1 made [[.state i (s.sc.get i).state target cause], follow.2, hand.2]).trans hsil
  generalize made.mergeReports [[.state i (s.sc.get i).state target cause], follow.2, hand.2] = done at hsil2 ⊢
  have hsc : done.1.sc = m.sc.modify i fun r => { r with dip := dip } :=
    (State.silent_sc hsil2).trans (hf1.trans hp1)
  have hmsc : m.sc = s.sc.modify i fun r => r.move target safeCause (s.safeGain i) := by rw [← hm]; rfl
  refine ⟨fun j hj => ?_, ⟨dip, ?_, fun hq => ?_⟩, ?_, fun hq => ?_, fun ht ho => ⟨?_, ?_, ?_, fun hq => ?_, fun hb => ?_⟩⟩
  · rw [hsc, hmsc, Tab.get_modify_other _ _ hj, Tab.get_modify_other _ _ hj]
  · rw [hsc, hmsc, Tab.get_modify_same, Tab.get_modify_same]
  · have := congrArg (fun x : State => (x.sc.get i).dip) (hp8 hq)
    rw [hp1, hmsc, Tab.get_modify_same, Tab.get_modify_same] at this
    exact this
  · refine (State.aside_of_silent hsil2).trans (hf2.trans (hp5.trans ?_))
    rw [← hm]; rfl
  · have : done.1.eq.dips = follow.1.eq.dips := congrArg Equaliser.dips (State.silent_eq hsil2)
    rw [this, hf3, hp8 hq, ← hm]; rfl
  · have : done.1.de = follow.1.de := State.silent_de hsil2
    rw [this, (hf4 ht ho).1, hp2, ← hm]; rfl
  · have : done.1.eq = follow.1.eq := State.silent_eq hsil2
    rw [this, (hf4 ht ho).2.1, hp6, ← hm]; rfl
  · have : done.1.eq = follow.1.eq := State.silent_eq hsil2
    rw [this, (hf4 ht ho).2.1, hp7, ← hm]; rfl
  · have : done.1.eq = follow.1.eq := State.silent_eq hsil2
    rw [this, (hf4 ht ho).2.1, hp8 hq, ← hm]; rfl
  · have : done.1.os = follow.1.os := State.silent_os hsil2
    rw [this, (hf4 ht ho).2.2 hb, hp3, ← hm]; rfl

/-- A change of state asked for while the upstream port is LOCKED, or to a state that does not play, is one change. -/
theorem State.goTo_once (i : Fin 8) (target : ScreenState) (cause : StateCause) (depth : Nat)
    (h : target.playing = false ∨ s.li.up.lock = .locked) :
    (s.goTo i target cause depth) =
      (s.moveScreen i target cause .command depth false).1.queueReports
        (s.moveScreen i target cause .command depth false).2 := by
  unfold State.goTo
  dsimp only
  obtain ⟨-, ⟨dip, hd, -⟩, -⟩ := s.moveScreen_spec i target cause .command depth false
  have hli : (s.moveScreen i target cause .command depth false).1.li = s.li :=
    State.outer_li (s.outer_moveScreen i target cause .command depth false)
  generalize s.moveScreen i target cause .command depth false = m at hd hli ⊢
  have hst : m.1.screenState i = target := by rw [State.screenState, hd]; rfl
  have : m.1.safeIfLost i = (m.1, []) := by
    unfold State.safeIfLost
    rw [if_neg]
    rw [State.playing, hst, hli, Bool.and_eq_true, beq_iff_eq]
    rintro ⟨h1, h2⟩
    rcases h with h | h
    · rw [h] at h1; cases h1
    · rw [h] at h2; cases h2
  rw [this]
  simp

/-! ## The loss of the upstream port (R11) -/

/-- One screen of the fold that takes every playing screen into SAFE. -/
def safeStep (acc : State × List Report) (i : Fin 8) : State × List Report :=
  if acc.1.playing i then
    let (s, rs) := acc.1.moveScreen i .safe .link .link 0 false
    (s, acc.2 ++ rs)
  else acc

theorem safeStep_spec (acc : State × List Report) (i : Fin 8) :
    let t := (safeStep acc i).1
    (∀ j, j ≠ i → t.sc.get j = acc.1.sc.get j) ∧
      (acc.1.playing i = true →
        ∃ dip, t.sc.get i = { (acc.1.sc.get i).move .safe .link (acc.1.safeGain i) with dip := dip }) ∧
      (acc.1.playing i = false → t.sc.get i = acc.1.sc.get i) ∧ t.aside = acc.1.aside ∧ t.de = acc.1.de ∧
      t.eq.channels = acc.1.eq.channels ∧ t.eq.free = acc.1.eq.free := by
  dsimp only
  unfold safeStep
  split
  · next h =>
    obtain ⟨h1, ⟨dip, h2, -⟩, h3, -, h4⟩ := acc.1.moveScreen_spec i .safe .link .link 0 false
    have ho : acc.1.screenState i ≠ .offline := by
      intro ho
      rw [State.playing, ho] at h
      cases h
    obtain ⟨h5, h6, h7, -⟩ := h4 (by simp) ho
    exact ⟨h1, fun _ => ⟨dip, h2⟩, fun hn => absurd h (by rw [hn]; simp), h3, h5, h6, h7⟩
  · next h => exact ⟨fun _ _ => rfl, fun hp => absurd hp h, fun _ => rfl, rfl, rfl, rfl, rfl⟩

theorem safeStep_fold (l : List (Fin 8)) (hl : l.Nodup) (acc : State × List Report) :
    let t := (l.foldl safeStep acc).1
    (∀ j, j ∉ l → t.sc.get j = acc.1.sc.get j) ∧
      (∀ i ∈ l, (acc.1.playing i = true →
        ∃ dip, t.sc.get i = { (acc.1.sc.get i).move .safe .link (acc.1.safeGain i) with dip := dip }) ∧
        (acc.1.playing i = false → t.sc.get i = acc.1.sc.get i)) ∧ t.aside = acc.1.aside ∧ t.de = acc.1.de ∧
      t.eq.channels = acc.1.eq.channels ∧ t.eq.free = acc.1.eq.free := by
  induction l generalizing acc with
  | nil => exact ⟨fun _ _ => rfl, fun i hi => absurd hi (by simp), rfl, rfl, rfl, rfl⟩
  | cons i l ih =>
    rw [List.nodup_cons] at hl
    dsimp only [List.foldl_cons]
    obtain ⟨a1, a2, a3, a4, a5, a6, a7⟩ := safeStep_spec acc i
    generalize safeStep acc i = next at a1 a2 a3 a4 a5 a6 a7 ⊢
    obtain ⟨b1, b2, b3, b4, b5, b6⟩ := ih hl.2 next
    have hgain : ∀ j, next.1.safeGain j = acc.1.safeGain j := by
      intro j
      rw [State.safeGain, State.setting, State.word, State.outer_ts (State.aside_outer a4)]; rfl
    have hplay : ∀ j, j ≠ i → next.1.playing j = acc.1.playing j := by
      intro j hj
      rw [State.playing, State.screenState, a1 j hj]; rfl
    refine ⟨fun j hj => ?_, fun j hj => ?_, b3.trans a4, b4.trans a5, b5.trans a6, b6.trans a7⟩
    · rw [List.mem_cons, not_or] at hj
      rw [b1 j hj.2, a1 j hj.1]
    · rcases List.mem_cons.mp hj with rfl | hj
      · rw [b1 j hl.1]
        exact ⟨a2, a3⟩
      · have hne : j ≠ i := fun h => hl.1 (h ▸ hj)
        have := b2 j hj
        rw [hplay j hne, a1 j hne, hgain j] at this
        exact this

/-- Every playing screen enters SAFE with cause LINK and every other record stands. -/
theorem State.safeAll_spec :
    let t := s.safeAll.1
    (∀ i, (s.playing i = true →
        ∃ dip, t.sc.get i = { (s.sc.get i).move .safe .link (s.safeGain i) with dip := dip }) ∧
      (s.playing i = false → t.sc.get i = s.sc.get i)) ∧
      t.aside = s.aside ∧ t.de = s.de ∧ t.eq.channels = s.eq.channels ∧ t.eq.free = s.eq.free := by
  have hs : s.safeAll = (List.finRange 8).foldl safeStep (s, []) := by unfold State.safeAll safeStep; rfl
  obtain ⟨-, h2, h3⟩ := safeStep_fold (List.finRange 8) (List.nodup_finRange 8) (s, [])
  rw [hs]
  generalize (List.finRange 8).foldl safeStep (s, []) = t at h2 h3 ⊢
  exact ⟨fun i => h2 i (List.mem_finRange i), h3⟩

/-! ## The alarm scan (R99, R108–R110) -/

theorem State.alarmSafe_aside (i : Fin 8) (e : Fin 256) : (s.alarmSafe i e).aside = s.aside := by
  have h : ((s.moveScreen i .safe (.alarm e) (.alarm e) 0 true).1.queueReports
      (s.moveScreen i .safe (.alarm e) (.alarm e) 0 true).2).aside = s.aside :=
    (State.aside_of_silent (State.silent_queueReports _ _)).trans (s.moveScreen_spec i .safe _ _ 0 true).2.2.1
  unfold State.alarmSafe
  split
  · exact h
  · exact h
  · exact h
  · rfl

theorem State.alarmSafe_os (i : Fin 8) (e : Fin 256) : (s.alarmSafe i e).os = s.os := by
  have h : s.screenState i ≠ .offline → ((s.moveScreen i .safe (.alarm e) (.alarm e) 0 true).1.queueReports
      (s.moveScreen i .safe (.alarm e) (.alarm e) 0 true).2).os = s.os := fun ho =>
    (State.queueReports_os _ _).trans
      (((s.moveScreen_spec i .safe (.alarm e) (.alarm e) 0 true).2.2.2.2 (by simp) ho).2.2.2.2 rfl)
  unfold State.alarmSafe
  split
  · next hs => exact h (by rw [hs]; simp)
  · next hs => exact h (by rw [hs]; simp)
  · next hs => exact h (by rw [hs]; simp)
  · rfl

theorem State.enterTier_keeps (e : Fin 256) (a : AlarmEntry) (old new : Tier) :
    (s.enterTier e a old new).aside = s.aside ∧ (s.enterTier e a old new).os = s.os := by
  unfold State.enterTier
  dsimp only
  have hm : (s.modifyAlarm e AlarmRecord.mark).aside = s.aside ∧ (s.modifyAlarm e AlarmRecord.mark).os = s.os :=
    ⟨rfl, rfl⟩
  generalize s.modifyAlarm e AlarmRecord.mark = m at hm ⊢
  have hr : ∀ r, (if a.reportOnEntry = true then m.queueReport r else m).silent = m.silent := by
    intro r; split <;> simp
  have hr' := hr (alarmReport e a (m.am.entries.get e) false old new false)
  generalize (if a.reportOnEntry = true then m.queueReport (alarmReport e a (m.am.entries.get e) false old new false)
    else m) = r at hr' ⊢
  have ht : (r.makeTrigger (.alarm a.screen e new) 0).silent = m.silent := (r.silent_makeTrigger _ _).trans hr'
  generalize r.makeTrigger (.alarm a.screen e new) 0 = t at ht ⊢
  have hd : ∀ u : State, u.recomputeDemands.aside = u.aside ∧ u.recomputeDemands.os = u.os := fun _ => ⟨rfl, rfl⟩
  split
  · exact ⟨(hd _).1.trans ((t.alarmSafe_aside _ _).trans ((State.aside_of_silent ht).trans hm.1)),
      (hd _).2.trans ((t.alarmSafe_os _ _).trans ((State.silent_os ht).trans hm.2))⟩
  · exact ⟨(hd _).1.trans ((State.aside_of_silent ht).trans hm.1), (hd _).2.trans ((State.silent_os ht).trans hm.2)⟩

theorem State.changeTier_keeps (e : Fin 256) (a : AlarmEntry) (old new : Tier) :
    let t := if old.rank < new.rank then s.enterTier e a old new
      else if new.rank < old.rank then s.leaveTier e a old new else s
    t.aside = s.aside ∧ t.os = s.os := by
  dsimp only
  split
  · exact s.enterTier_keeps e a old new
  · split
    · unfold State.leaveTier
      split
      · exact ⟨State.aside_of_silent (s.silent_queueReport _), State.silent_os (s.silent_queueReport _)⟩
      · exact ⟨rfl, rfl⟩
    · exact ⟨rfl, rfl⟩

theorem State.modifyAlarm_keeps (e : Fin 256) (f : AlarmRecord → AlarmRecord) :
    (s.modifyAlarm e f).aside = s.aside ∧ (s.modifyAlarm e f).os = s.os := ⟨rfl, rfl⟩

theorem State.evaluateEntry_keeps (e : Fin 256) (a : AlarmEntry) (source : AlarmSource) :
    (s.evaluateEntry e a source).aside = s.aside ∧ (s.evaluateEntry e a source).os = s.os := by
  unfold State.evaluateEntry
  extract_lets value old t new
  have hc := t.changeTier_keeps e a old new
  have hm : t.aside = s.aside ∧ t.os = s.os := s.modifyAlarm_keeps e _
  exact ⟨hc.1.trans hm.1, hc.2.trans hm.2⟩

theorem State.holdEntry_keeps (e : Fin 256) : (s.holdEntry e).aside = s.aside ∧ (s.holdEntry e).os = s.os := by
  have h1 : (s.forceNormal e).1.aside = s.aside ∧ (s.forceNormal e).1.os = s.os := ⟨rfl, rfl⟩
  unfold State.holdEntry
  generalize s.forceNormal e = t at h1 ⊢
  have h2 := t.1.modifyAlarm_keeps e fun r => { r with lastEvaluation := .held }
  exact ⟨(State.aside_of_silent (State.silent_queueReports _ _)).trans (h2.1.trans h1.1),
    (State.queueReports_os _ _).trans (h2.2.trans h1.2)⟩

/-- One entry of the scan changes nothing of the output stage, the clocks, the lines, the cues and the link. -/
theorem State.scanEntry_keeps (e : Fin 256) : (s.scanEntry e).aside = s.aside ∧ (s.scanEntry e).os = s.os := by
  unfold State.scanEntry
  generalize s.alarmEntry e = a
  dsimp only
  split
  · split
    · exact s.holdEntry_keeps e
    · split
      · exact s.holdEntry_keeps e
      · exact s.evaluateEntry_keeps e a _
  · exact s.modifyAlarm_keeps e _

/-- The scan's entries change nothing of the output stage, the clocks, the lines, the cues and the link. -/
theorem State.scanEntries_keep (l : List (Fin 256)) :
    (l.foldl State.scanEntry s).aside = s.aside ∧ (l.foldl State.scanEntry s).os = s.os :=
  ⟨foldl_keeps State.aside _ (fun s e => (s.scanEntry_keeps e).1) l s,
    foldl_keeps State.os _ (fun s e => (s.scanEntry_keeps e).2) l s⟩

end Sys2Proof.Machine
end

