-- ==== Sys2Proof/Laws/Frame.lean ====
section
/-!
SUPPORT. What the work of a link frame does: the decode pass changes the decode records one by one and leaves the channel
path alone, and the work fills the outbound slots from it.
-/

namespace Sys2Proof.Machine

/-! ## Ramps take a target with their value unchanged (R15, R85) -/

@[simp] theorem Ramp.value_retarget (r : Ramp) (t n : Nat) : (r.retarget t n).value = r.value := by
  show ((r.value : Int) + (((t : Int) - r.value) * (0 : Nat)).tdiv n).toNat = r.value
  simp

@[simp] theorem Ramp.value_rest (v n : Nat) : (Ramp.rest v n).value = v := by simp [Ramp.rest, Ramp.value]

@[simp] theorem Ramp.value_protectTake (r : Ramp) (t : Nat) : (r.protectTake t).value = r.value := by
  unfold Ramp.protectTake
  split
  · rfl
  · split
    · simp
    · split
      · simp
      · rw [Ramp.value_rest]; omega

/-- An output channel with its protect ramp reduced to its value. -/
def OutChannel.still (ch : OutChannel) : OutChannel := { ch with protect := .rest ch.protect.value 64 }

/-- The output stage with every protect ramp reduced to its value. -/
def OutputStage.still (os : OutputStage) : OutputStage := { os with channels := os.channels.map fun row => row.map .still }

theorem OutputStage.still_channel {a b : OutputStage} (h : a.still = b.still) (i : Fin 8) (c : Fin 16) :
    ((a.channels.get i).get c).still = ((b.channels.get i).get c).still := by
  have := congrArg (fun o => ((OutputStage.channels o).get i).get c) h
  simpa [OutputStage.still] using this

theorem OutputStage.still_gains {a b : OutputStage} (h : a.still = b.still) : a.gains = b.gains := by
  have := congrArg OutputStage.gains h
  exact this

/-! ## The decode pass -/

/-- The parts of the state that the decode pass of a link frame keeps. -/
structure Undecoded where
  outer : Outer
  sc : Tab 8 ScreenRecord
  eq : Equaliser
  os : OutputStage
  slots : Tab 128 SlotLine
  ct : ClockUnit
  bl : BoothLines
  ce : CueEngine

/-- These parts of a state. -/
def State.undecoded (s : State) : Undecoded := ⟨s.outer, s.sc, s.eq, s.os.still, s.am.slots, s.ct, s.bl, s.ce⟩

theorem State.undecoded_outer {s t : State} (h : s.undecoded = t.undecoded) : s.outer = t.outer :=
  congrArg Undecoded.outer h
theorem State.undecoded_sc {s t : State} (h : s.undecoded = t.undecoded) : s.sc = t.sc := congrArg Undecoded.sc h
theorem State.undecoded_eq {s t : State} (h : s.undecoded = t.undecoded) : s.eq = t.eq := congrArg Undecoded.eq h
theorem State.undecoded_os {s t : State} (h : s.undecoded = t.undecoded) : s.os.still = t.os.still :=
  congrArg Undecoded.os h
theorem State.undecoded_ct {s t : State} (h : s.undecoded = t.undecoded) : s.ct = t.ct := congrArg Undecoded.ct h
theorem State.undecoded_bl {s t : State} (h : s.undecoded = t.undecoded) : s.bl = t.bl := congrArg Undecoded.bl h
theorem State.undecoded_ce {s t : State} (h : s.undecoded = t.undecoded) : s.ce = t.ce := congrArg Undecoded.ce h
theorem State.undecoded_ts {s t : State} (h : s.undecoded = t.undecoded) : s.ts = t.ts :=
  State.outer_ts (State.undecoded_outer h)
theorem State.undecoded_li {s t : State} (h : s.undecoded = t.undecoded) : s.li = t.li :=
  State.outer_li (State.undecoded_outer h)

variable (s : State)

theorem State.still_takeTargets : s.takeTargets.os.still = s.os.still := by
  simp only [State.takeTargets, OutputStage.still]
  congr 1
  apply Tab.ext_get
  intro i
  apply Tab.ext_get
  intro c
  simp [OutChannel.still, OutChannel.protectTake]

theorem State.undecoded_takeTargets : s.takeTargets.undecoded = s.undecoded := by
  simp only [State.undecoded, State.still_takeTargets, State.outer_takeTargets]
  rfl

theorem State.undecoded_of_silent {s t : State} (h : s.silent = t.silent) (hc : s.ce = t.ce) :
    s.undecoded = t.undecoded := by
  have h1 : s.outer = t.outer := congrArg Silent.outer h
  simp only [State.undecoded, h1, State.silent_sc h, State.silent_eq h, State.silent_os h, State.silent_am h,
    State.silent_ct h, State.silent_bl h, hc]

theorem State.undecoded_fadeStarted (i : Fin 8) : (s.fadeStarted i).undecoded = s.undecoded := by
  unfold State.fadeStarted
  dsimp only
  refine (State.undecoded_of_silent (State.silent_queueReports _ _) (State.queueReports_ce _ _)).trans ?_
  refine (State.undecoded_takeTargets _).trans ?_
  rw [State.forceFloors, State.forceEntries_spec]
  rfl

theorem State.fadeStarted_de (i : Fin 8) : (s.fadeStarted i).de = s.de := by
  unfold State.fadeStarted
  dsimp only
  rw [State.queueReports_de, State.forceFloors, State.forceEntries_spec]
  rfl

/-- The format a screen uses with a decode record, and its source (R44). -/
def State.formatOf (s : State) (i : Fin 8) (d : DecodeRecord) : Fin 16 × FormatSource :=
  match d.forced with
  | some f => (f, .forced)
  | none =>
    match s.li.descriptors.get i with
    | .unmapped => (s.defaultFormat i, .default)
    | _ => (d.accepted, .descriptor)

/-- A decode record after the format selection of a link frame (R41, R44). -/
def State.selectedRecord (s : State) (i : Fin 8) (d : DecodeRecord) : DecodeRecord :=
  let d := d.observe (s.li.descriptors.get i) (s.defaultFormat i)
  { d with usedFormat := (s.formatOf i d).1, usedSource := (s.formatOf i d).2 }

/-- A decode record of a screen that is not OFFLINE after its crossfade and its steering (R49, R53, R55). -/
def State.runRecord (s : State) (i : Fin 8) (d : DecodeRecord) : DecodeRecord :=
  let d := (d.crossfade (s.formatMap i (s.formatOf i d).1)).1
  if s.usesSteering d then d.steer (s.source i 0) (s.source i 1) (s.envelopeShift i) else d

/-- A decode record after its part of a link frame. -/
def State.decodedRecord (s : State) (i : Fin 8) (d : DecodeRecord) : DecodeRecord :=
  if s.screenState i = .offline then s.selectedRecord i d else s.runRecord i (s.selectedRecord i d)

theorem State.decodedRecord_congr {s t : State} (h : s.undecoded = t.undecoded) (i : Fin 8) (d : DecodeRecord) :
    s.decodedRecord i d = t.decodedRecord i d := by
  have key : ∀ r : State, r.decodedRecord i d =
      State.decodedRecord { State.reset with li := r.li, ts := r.ts, sc := r.sc } i d := fun _ => rfl
  rw [key s, key t, State.undecoded_li h, State.undecoded_ts h, State.undecoded_sc h]

theorem State.modifyDecode_twice (i : Fin 8) (f g : DecodeRecord → DecodeRecord) :
    (s.modifyDecode i f).modifyDecode i g = s.modifyDecode i fun d => g (f d) := by
  have : (s.de.modify i f).modify i g = s.de.modify i fun d => g (f d) := by
    apply Tab.ext_get; intro j; simp only [Tab.get_modify]; split <;> simp
  show { s with de := (s.de.modify i f).modify i g } = _
  rw [this]; rfl

theorem State.selectFormat_eq (i : Fin 8) : s.selectFormat i = s.modifyDecode i (s.selectedRecord i) := by
  unfold State.selectFormat
  dsimp only
  rw [State.modifyDecode_twice]
  have : ∀ f : DecodeRecord → DecodeRecord, (s.modifyDecode i f).chosenFormat i = s.formatOf i (f (s.de.get i)) := by
    intro f
    show State.formatOf s i ((s.de.modify i f).get i) = _
    rw [Tab.get_modify_same]
  rw [this]
  have hm : ∀ f g : DecodeRecord → DecodeRecord, f (s.de.get i) = g (s.de.get i) →
      s.modifyDecode i f = s.modifyDecode i g := by
    intro f g h
    show { s with de := s.de.set i _ } = { s with de := s.de.set i _ }
    rw [h]
  exact hm _ _ rfl

theorem State.runDecode_spec (i : Fin 8) :
    (s.runDecode i).undecoded = s.undecoded ∧ (s.runDecode i).de = s.de.set i (s.runRecord i (s.de.get i)) := by
  have hp : s.profileToUse i = s.formatMap i (s.formatOf i (s.de.get i)).1 := rfl
  unfold State.runDecode State.runRecord
  rw [hp]
  generalize (s.de.get i).crossfade (s.formatMap i (s.formatOf i (s.de.get i)).1) = x
  obtain ⟨d, started⟩ := x
  dsimp only
  obtain ⟨n, hn, h1, h2⟩ : ∃ n, n = (if started = true then (s.modifyDecode i fun _ => d).fadeStarted i
      else s.modifyDecode i fun _ => d) ∧ n.undecoded = s.undecoded ∧ n.de = s.de.set i d := by
    refine ⟨_, rfl, ?_, ?_⟩
    · split
      · rw [State.undecoded_fadeStarted]; rfl
      · rfl
    · split
      · rw [State.fadeStarted_de]; rfl
      · rfl
  rw [← hn]
  have hs : n.usesSteering d = s.usesSteering d := by
    unfold State.usesSteering State.profileSteered State.profileHeader State.word
    rw [State.undecoded_ts h1]
  have he : n.envelopeShift i = s.envelopeShift i := by
    unfold State.envelopeShift State.setting State.word
    rw [State.undecoded_ts h1]
  have hx : ∀ c, n.source i c = s.source i c := by
    intro c; unfold State.source; rw [State.undecoded_li h1]
  rw [hs, he, hx, hx]
  split
  · refine ⟨h1, ?_⟩
    rw [State.modifyDecode_de, h2]
    apply Tab.ext_get; intro j; simp only [Tab.get_modify, Tab.get_set]; split <;> simp
  · exact ⟨h1, h2⟩

/-- A screen's part of the decode pass changes its decode record, and what a crossfade's start does to its alarm
entries. -/
theorem State.decodeFrame_spec (i : Fin 8) :
    (s.decodeFrame i).undecoded = s.undecoded ∧
      (s.decodeFrame i).de = s.de.set i (s.decodedRecord i (s.de.get i)) := by
  unfold State.decodeFrame State.decodedRecord
  dsimp only
  rw [State.selectFormat_eq]
  have hsc : (s.modifyDecode i (s.selectedRecord i)).screenState i = s.screenState i := rfl
  rw [hsc]
  split
  · exact ⟨rfl, rfl⟩
  · obtain ⟨h1, h2⟩ := (s.modifyDecode i (s.selectedRecord i)).runDecode_spec i
    refine ⟨h1, ?_⟩
    rw [h2]
    have hd : (s.modifyDecode i (s.selectedRecord i)).de = s.de.set i (s.selectedRecord i (s.de.get i)) := rfl
    have hr : ∀ d, (s.modifyDecode i (s.selectedRecord i)).runRecord i d = s.runRecord i d := fun _ => rfl
    rw [hr, hd]
    apply Tab.ext_get; intro j; simp only [Tab.get_set]; split <;> simp

/-- The decode pass: every screen's decode record takes its link frame. -/
theorem State.decodePass_spec :
    ((List.finRange 8).foldl State.decodeFrame s).undecoded = s.undecoded ∧
      ∀ i, ((List.finRange 8).foldl State.decodeFrame s).de.get i = s.decodedRecord i (s.de.get i) := by
  have key : ∀ (l : List (Fin 8)), l.Nodup → ∀ s : State, (l.foldl State.decodeFrame s).undecoded = s.undecoded ∧
      ∀ i, (l.foldl State.decodeFrame s).de.get i =
        if i ∈ l then s.decodedRecord i (s.de.get i) else s.de.get i := by
    intro l
    induction l with
    | nil => intro _ s; exact ⟨rfl, fun i => by simp⟩
    | cons j l ih =>
      intro hl s
      rw [List.nodup_cons] at hl
      obtain ⟨h1, h2⟩ := s.decodeFrame_spec j
      obtain ⟨g1, g2⟩ := ih hl.2 (s.decodeFrame j)
      rw [List.foldl_cons]
      refine ⟨g1.trans h1, fun i => ?_⟩
      rw [g2, h2, Tab.get_set]
      by_cases hi : i = j
      · subst hi; simp [hl.1]
      · simp [hi, State.decodedRecord_congr h1]
  obtain ⟨h1, h2⟩ := key (List.finRange 8) (List.nodup_finRange 8) s
  exact ⟨h1, fun i => by rw [h2, if_pos (List.mem_finRange i)]⟩

/-! ## The work of a link frame -/

/-- A protect ramp that has taken a target has it. -/
@[simp] theorem Ramp.target_protectTake (r : Ramp) (t : Nat) : (r.protectTake t).target = t := by
  unfold Ramp.protectTake
  split
  · next h => exact h.symm
  · split
    · rfl
    · split <;> rfl

/-- The sender's two byte positions change the sender, the bytes sent, the replies and the reports only. -/
theorem State.sendByte_spec : ∃ ci sender, s.sendByte.2 = { s with ci := ci, li := { s.li with sender := sender } } ∧
    ci.requests = s.ci.requests := by
  unfold State.sendByte State.senderTake
  dsimp only
  split
  · split
    · exact ⟨_, _, rfl, rfl⟩
    · exact ⟨_, _, rfl, rfl⟩
    · exact ⟨s.ci, _, rfl, rfl⟩
  · exact ⟨s.ci, _, rfl, rfl⟩

theorem State.sendBytes_spec : ∃ ci sender lane,
    s.sendBytes = { s with ci := ci, li := { s.li with sender := sender, outLane := lane } } ∧
      ci.requests = s.ci.requests := by
  unfold State.sendBytes
  obtain ⟨ci, d, h1, h2⟩ := s.sendByte_spec
  obtain ⟨ci', d', h1', h2'⟩ := s.sendByte.2.sendByte_spec
  dsimp only
  rw [h1', h1]
  refine ⟨ci', d', _, rfl, ?_⟩
  rw [h2', h1, ← h2]

/-- The work of a link frame whose upstream frame has come, with no change of lock due and no request waiting, said whole:
the decode pass and the protect targets give a state d, its channels are worked on, and two bytes are sent. -/
theorem State.work_eq (lines : BitVec 16) (keyLocked : Bool) (h1 : s.li.upSeen = true) (h2 : s.li.up.lockDue = false)
    (h3 : s.li.up.lossDue = false) (h4 : s.ci.requests = []) :
    ∃ d : State,
      d.undecoded = State.undecoded { s with bl := (s.sampleLines lines keyLocked).bl } ∧
      (∀ i, d.de.get i = s.decodedRecord i (s.de.get i)) ∧
      (∀ i c, ((d.os.channels.get i).get c).protect.target = (d.am.targets.get i).get c) ∧
      d.ci = ((List.finRange 8).foldl State.decodeFrame (s.sampleLines lines keyLocked)).ci ∧
      s.work lines keyLocked =
        { d.runChannels.sendBytes with li := { d.runChannels.sendBytes.li with worked := true } } := by
  have ha : s.awaitUpstream.interpret = s := by
    have : s.awaitUpstream = s := by
      unfold State.awaitUpstream State.settlePort State.port
      simp [h1, h2, h3]
    rw [this, State.interpret, h4]
    rfl
  have hl : s.sampleLines lines keyLocked = { s with bl := (s.sampleLines lines keyLocked).bl } := by
    unfold State.sampleLines; split <;> rfl
  unfold State.work
  dsimp only
  rw [ha]
  generalize hb : s.sampleLines lines keyLocked = b at hl ⊢
  obtain ⟨g1, g2⟩ := b.decodePass_spec
  generalize (List.finRange 8).foldl State.decodeFrame b = p at g1 g2 ⊢
  refine ⟨p.takeTargets, ?_, fun i => ?_, fun i c => ?_, rfl, ?_⟩
  · rw [State.undecoded_takeTargets, g1, hl]
  · show p.de.get i = _
    rw [g2, hl]
    rfl
  · have ht : p.takeTargets.am = p.am := rfl
    rw [ht]
    simp only [State.takeTargets, Tab.get_ofFn, OutChannel.protectTake, Ramp.target_protectTake]
  · obtain ⟨ci, d, lane, e1, e2⟩ := p.takeTargets.runChannels.sendBytes_spec
    have ho : p.outer = s.outer := by rw [State.undecoded_outer g1, hl]; rfl
    have hreq : p.takeTargets.runChannels.sendBytes.ci.requests = [] := by
      rw [e1, ← h4]
      exact e2.trans (State.outer_requests ho : p.ci.requests = s.ci.requests)
    generalize p.takeTargets.runChannels.sendBytes = x at hreq ⊢
    unfold State.interpret
    rw [show (State.ci { x with li := { x.li with worked := true } }).requests = [] from hreq]
    rfl

/-- The same, with what the sender changes left open. -/
theorem State.work_spec (lines : BitVec 16) (keyLocked : Bool) (h1 : s.li.upSeen = true) (h2 : s.li.up.lockDue = false)
    (h3 : s.li.up.lossDue = false) (h4 : s.ci.requests = []) :
    ∃ (d : State) (ci : Interpreter) (sender : Sender) (lane : LaneBytes),
      d.undecoded = State.undecoded { s with bl := (s.sampleLines lines keyLocked).bl } ∧
      (∀ i, d.de.get i = s.decodedRecord i (s.de.get i)) ∧
      (∀ i c, ((d.os.channels.get i).get c).protect.target = (d.am.targets.get i).get c) ∧ ci.requests = [] ∧
      s.work lines keyLocked = { d.runChannels with
        ci := ci, li := { d.runChannels.li with sender := sender, outLane := lane, worked := true } } := by
  obtain ⟨d, g1, g2, g3, -, g5⟩ := s.work_eq lines keyLocked h1 h2 h3 h4
  obtain ⟨ci, x, lane, e1, e2⟩ := d.runChannels.sendBytes_spec
  refine ⟨d, ci, x, lane, g1, g2, g3, ?_, ?_⟩
  · rw [e2, ← h4]
    exact (State.outer_requests (State.undecoded_outer g1) : d.ci.requests = _)
  · rw [g5, e1]

end Sys2Proof.Machine
end

