-- ==== Sys2Proof/Laws/Memory.lean ====
section
/-!
SUPPORT. The laws of the table store: a read after a write, the canonical form, and the addresses a store lists.
-/

namespace Sys2Proof.Machine

/-! ## The canonical form -/

theorem Memory.wfFrom_mono {m : Memory} {a b : Nat} (h : b ≤ a) (hm : m.wfFrom a = true) : m.wfFrom b = true := by
  cases m with
  | nil => rfl
  | cons p rest =>
    obtain ⟨x, v⟩ := p
    simp only [Memory.wfFrom, Bool.and_eq_true, decide_eq_true_eq] at hm ⊢
    exact ⟨⟨by omega, hm.1.2⟩, hm.2⟩

theorem Memory.read_below {m : Memory} {low b : Nat} (h : m.wfFrom low = true) (hb : b < low) : m.read b = 0 := by
  induction m generalizing low with
  | nil => rfl
  | cons p rest ih =>
    obtain ⟨x, v⟩ := p
    simp only [Memory.wfFrom, Bool.and_eq_true, decide_eq_true_eq] at h
    rw [Memory.read, if_neg (by omega)]
    exact ih h.2 (by omega)

theorem Memory.wfFrom_cons {low a : Nat} {v : Word} {rest : Memory} :
    Memory.wfFrom low ((a, v) :: rest) = true ↔ low ≤ a ∧ v ≠ 0 ∧ Memory.wfFrom (a + 1) rest = true := by
  simp [Memory.wfFrom, and_assoc]

theorem Memory.write_wfFrom {m : Memory} {low b : Nat} (v : Word) (h : m.wfFrom low = true) (hb : low ≤ b) :
    (m.write b v).wfFrom low = true := by
  induction m generalizing low with
  | nil =>
    unfold Memory.write
    split
    · rfl
    · next hv => exact Memory.wfFrom_cons.mpr ⟨hb, hv, rfl⟩
  | cons p rest ih =>
    obtain ⟨x, w⟩ := p
    have h' := h
    rw [Memory.wfFrom_cons] at h'
    obtain ⟨h1, h2, h3⟩ := h'
    unfold Memory.write
    split
    · split
      · exact h
      · next hlt hv => exact Memory.wfFrom_cons.mpr ⟨hb, hv, Memory.wfFrom_cons.mpr ⟨by omega, h2, h3⟩⟩
    · split
      · next heq =>
        subst heq
        split
        · exact Memory.wfFrom_mono (by omega) h3
        · next hv => exact Memory.wfFrom_cons.mpr ⟨hb, hv, h3⟩
      · exact Memory.wfFrom_cons.mpr ⟨h1, h2, ih h3 (by omega)⟩

/-- A write keeps the canonical form. -/
theorem Memory.write_wf {m : Memory} (b : Nat) (v : Word) (h : m.wf = true) : (m.write b v).wf = true :=
  Memory.write_wfFrom v h (Nat.zero_le b)

/-- The write of a run keeps the canonical form. -/
theorem Memory.writeRun_wf {m : Memory} (b : Nat) (data : List Word) (h : m.wf = true) :
    (m.writeRun b data).wf = true := by
  induction data generalizing m b with
  | nil => exact h
  | cons v rest ih => exact ih (b + 1) (Memory.write_wf b v h)

/-! ## A read after a write -/

theorem Memory.read_write_from {m : Memory} {low b : Nat} (v : Word) (c : Nat) (h : m.wfFrom low = true)
    (hb : low ≤ b) : (m.write b v).read c = if c = b then v else m.read c := by
  induction m generalizing low with
  | nil =>
    unfold Memory.write
    by_cases hv : v = 0
    · simp [hv, Memory.read]
    · simp only [hv, if_false, Memory.read, eq_comm]
  | cons p rest ih =>
    obtain ⟨x, w⟩ := p
    simp only [Memory.wfFrom, Bool.and_eq_true, decide_eq_true_eq] at h
    unfold Memory.write
    split
    · next hlt =>
      by_cases hv : v = 0
      · rw [if_pos hv]
        by_cases hc : c = b
        · subst hc
          rw [if_pos rfl, Memory.read, if_neg (by omega), hv]
          exact Memory.read_below h.2 (by omega)
        · rw [if_neg hc]
      · rw [if_neg hv, Memory.read]
        by_cases hc : c = b
        · simp [hc]
        · rw [if_neg (Ne.symm hc), if_neg hc]
    · split
      · next heq =>
        subst heq
        by_cases hv : v = 0
        · rw [if_pos hv]
          by_cases hc : c = x
          · subst hc
            rw [if_pos rfl, hv]
            exact Memory.read_below h.2 (by omega)
          · rw [if_neg hc, Memory.read, if_neg (Ne.symm hc)]
        · rw [if_neg hv, Memory.read, Memory.read]
          by_cases hc : c = x
          · simp [hc]
          · simp [hc, Ne.symm hc]
      · next hnlt hne =>
        rw [Memory.read, Memory.read, ih h.2 (by omega)]
        by_cases hx : x = c
        · rw [if_pos hx, if_pos hx, if_neg (by omega)]
        · rw [if_neg hx, if_neg hx]

/-- A read after a write gives the word written at its address and the old word elsewhere. -/
theorem Memory.read_write {m : Memory} (h : m.wf = true) (b : Nat) (v : Word) (c : Nat) :
    (m.write b v).read c = if c = b then v else m.read c :=
  Memory.read_write_from v c h (Nat.zero_le b)

/-- A read after the write of a run gives the run's word within it and the old word elsewhere. -/
theorem Memory.read_writeRun {m : Memory} (h : m.wf = true) (b : Nat) (data : List Word) (c : Nat) :
    (m.writeRun b data).read c = if b ≤ c ∧ c < b + data.length then data.getD (c - b) 0 else m.read c := by
  induction data generalizing m b with
  | nil => rw [Memory.writeRun, if_neg (by simp)]
  | cons v rest ih =>
    rw [Memory.writeRun, ih (Memory.write_wf b v h), Memory.read_write h, List.length_cons]
    by_cases hc : c = b
    · subst hc
      rw [if_neg (by omega), if_pos rfl, if_pos (by omega)]
      simp
    · by_cases hr : b + 1 ≤ c ∧ c < b + 1 + rest.length
      · obtain ⟨k, rfl⟩ : ∃ k, c = b + 1 + k := ⟨c - (b + 1), by omega⟩
        rw [if_pos hr, if_pos (by omega)]
        have h1 : b + 1 + k - (b + 1) = k := by omega
        have h2 : b + 1 + k - b = k + 1 := by omega
        rw [h1, h2, List.getD_cons_succ]
      · rw [if_neg hr, if_neg hc, if_neg (by omega)]

/-! ## The addresses a store lists -/

/-- A write below the limit keeps a store within its addresses. -/
theorem Memory.write_within {m : Memory} {b : Nat} (v : Word) (h : m.within) (hb : b < Config.storeWords) :
    (m.write b v).within := by
  induction m with
  | nil =>
    unfold Memory.write
    split
    · exact h
    · intro p hp
      rw [List.mem_singleton] at hp
      subst hp
      exact hb
  | cons q rest ih =>
    obtain ⟨x, w⟩ := q
    have hx := h (x, w) List.mem_cons_self
    have hrest : Memory.within rest := fun p hp => h p (List.mem_cons_of_mem _ hp)
    have hset : ∀ {l : Memory} {a : Nat} {u : Word}, a < Config.storeWords → Memory.within l →
        Memory.within ((a, u) :: l) := by
      intro l a u ha hl p hp
      rcases List.mem_cons.mp hp with rfl | hp
      · exact ha
      · exact hl p hp
    unfold Memory.write
    split
    · split
      · exact h
      · exact hset hb h
    · split
      · split
        · exact hrest
        · exact hset hb hrest
      · exact hset hx (ih hrest)

/-- The write of a run below the limit keeps a store within its addresses. -/
theorem Memory.writeRun_within {m : Memory} {b : Nat} {data : List Word} (h : m.within)
    (hb : b + data.length ≤ Config.storeWords) : (m.writeRun b data).within := by
  induction data generalizing m b with
  | nil => exact h
  | cons v rest ih =>
    rw [List.length_cons] at hb
    exact ih (Memory.write_within v h (by omega)) (by omega)

end Sys2Proof.Machine
end

