-- ==== Sys2Proof/Laws/Store.lean ====
section
/-!
SUPPORT. What a write of the table store does to the blocks that own the words (R170), and what the enables by the screens'
settings do after a reset, and what they leave alone (R20).
-/

namespace Sys2Proof.Machine

/-! ## The words replaced, and what reads them at once (R42, R133) -/

/-- The store's words are replaced; an accepted format can become the default format of the new words and an input line can
be held debounced for this link frame; nothing else changes. -/
theorem State.putWords_spec (s : State) (words : Memory) : ∃ de inputs,
    s.putWords words = { s with ts := { s.ts with words }, de, bl := { s.bl with inputs } } ∧
      (∀ i, de.get i =
        if s.descriptorMapped i = false ∧ (s.putWords words).descriptorMapped i = true then
          { s.de.get i with accepted := (s.putWords words).defaultFormat i }
        else s.de.get i) ∧
      ∀ n, inputs.get n = (s.bl.inputs.get n).rewritten (s.debounced n) ((s.putWords words).debounced n) := by
  refine ⟨_, _, rfl, fun i => ?_, fun n => ?_⟩
  · rw [Tab.get_ofFn]
    simp only [Bool.and_eq_true, Bool.not_eq_true']
    rfl
  · rw [Tab.get_ofFn]
    rfl

@[simp] theorem State.putWords_ts (s : State) (words : Memory) : (s.putWords words).ts = { s.ts with words } := rfl
@[simp] theorem State.putWords_ci (s : State) (words : Memory) : (s.putWords words).ci = s.ci := rfl
@[simp] theorem State.putWords_li (s : State) (words : Memory) : (s.putWords words).li = s.li := rfl
@[simp] theorem State.putWords_sc (s : State) (words : Memory) : (s.putWords words).sc = s.sc := rfl
@[simp] theorem State.putWords_eq (s : State) (words : Memory) : (s.putWords words).eq = s.eq := rfl
@[simp] theorem State.putWords_os (s : State) (words : Memory) : (s.putWords words).os = s.os := rfl
@[simp] theorem State.putWords_am (s : State) (words : Memory) : (s.putWords words).am = s.am := rfl
@[simp] theorem State.putWords_ct (s : State) (words : Memory) : (s.putWords words).ct = s.ct := rfl
@[simp] theorem State.putWords_ce (s : State) (words : Memory) : (s.putWords words).ce = s.ce := rfl
@[simp] theorem State.putWords_outputs (s : State) (words : Memory) :
    (s.putWords words).bl.outputs = s.bl.outputs := rfl
@[simp] theorem State.putWords_pending (s : State) (words : Memory) : (s.putWords words).pending = s.pending := rfl

/-! ## The records that a write resets -/

theorem State.resetAlarms_fold (es : List (Fin 256)) (s : State) :
    es.foldl (fun s e => s.modifyAlarm e fun _ => .reset) s = { s with am := { s.am with
      entries := .ofFn fun e => if e ∈ es then .reset else s.am.entries.get e } } := by
  induction es generalizing s with
  | nil =>
    have : (Tab.ofFn fun e => if e ∈ ([] : List (Fin 256)) then AlarmRecord.reset else s.am.entries.get e) =
        s.am.entries := by
      apply Tab.ext_get; intro e; simp
    rw [this]; rfl
  | cons a l ih =>
    rw [List.foldl_cons, ih]
    have : (Tab.ofFn fun e => if e ∈ l then AlarmRecord.reset
        else (s.modifyAlarm a fun _ => .reset).am.entries.get e) =
        Tab.ofFn fun e => if e ∈ a :: l then AlarmRecord.reset else s.am.entries.get e := by
      apply Tab.ext_get; intro e
      simp only [Tab.get_ofFn, State.modifyAlarm_am, Tab.get_modify, List.mem_cons]
      by_cases h : e ∈ l <;> by_cases h2 : e = a <;> simp [h, h2]
    rw [this]; rfl

/-- The cue records written are set from their stored enabled flags, and nothing else changes (R146). -/
theorem State.rearmCues_spec (es : List (Fin 256)) (s : State) :
    s.rearmCues es = { s with ce := { s.ce with
      cues := .ofFn fun e => if e ∈ es then s.armedAsStored e else s.ce.cues.get e } } := by
  unfold State.rearmCues
  induction es generalizing s with
  | nil =>
    have : (Tab.ofFn fun e => if e ∈ ([] : List (Fin 256)) then s.armedAsStored e else s.ce.cues.get e) =
        s.ce.cues := by
      apply Tab.ext_get; intro e; simp
    rw [this]; rfl
  | cons a l ih =>
    rw [List.foldl_cons, ih]
    have : (Tab.ofFn fun e => if e ∈ l then (s.modifyCue a fun _ => s.armedAsStored a).armedAsStored e
        else (s.modifyCue a fun _ => s.armedAsStored a).ce.cues.get e) =
        Tab.ofFn fun e => if e ∈ a :: l then s.armedAsStored e else s.ce.cues.get e := by
      apply Tab.ext_get; intro e
      have : (s.modifyCue a fun _ => s.armedAsStored a).armedAsStored e = s.armedAsStored e := rfl
      simp only [Tab.get_ofFn, State.modifyCue_ce, Tab.get_modify, List.mem_cons, this]
      by_cases h : e ∈ l <;> by_cases h2 : e = a <;> simp [h, h2]
    rw [this]; rfl

/-- The output lines written return to LOW, and nothing else changes (R141). -/
theorem State.lowerOutputs_spec (ns : List (Fin 16)) (s : State) :
    s.lowerOutputs ns = { s with bl := { s.bl with
      outputs := .ofFn fun n => if n ∈ ns then .lowered else s.bl.outputs.get n } } := by
  unfold State.lowerOutputs
  induction ns generalizing s with
  | nil =>
    have : (Tab.ofFn fun n => if n ∈ ([] : List (Fin 16)) then OutputLine.lowered else s.bl.outputs.get n) =
        s.bl.outputs := by
      apply Tab.ext_get; intro e; simp
    rw [this]; rfl
  | cons a l ih =>
    rw [List.foldl_cons, ih]
    have : (Tab.ofFn fun n => if n ∈ l then OutputLine.lowered else (s.setOutput a .lowered).bl.outputs.get n) =
        Tab.ofFn fun n => if n ∈ a :: l then OutputLine.lowered else s.bl.outputs.get n := by
      apply Tab.ext_get; intro e
      simp only [Tab.get_ofFn, State.setOutput_bl, Tab.get_set, List.mem_cons]
      by_cases h : e ∈ l <;> by_cases h2 : e = a <;> simp [h, h2]
    rw [this]; rfl

/-- The alarm records written are reset; beyond the alarm monitor and the protect ramps nothing changes, and with every
record reset every annunciator demand is false (R113, R115). -/
theorem State.resetAlarms_spec (es : List (Fin 256)) (s : State) :
    let t := s.resetAlarms es
    t.outer = s.outer ∧ t.ci = s.ci ∧ t.sc = s.sc ∧ t.de = s.de ∧ t.eq = s.eq ∧ t.ct = s.ct ∧ t.bl = s.bl ∧
      t.ce = s.ce ∧ (∀ e, t.am.entries.get e = if e ∈ es then .reset else s.am.entries.get e) ∧
      ((∀ e, e ∈ es) → ∀ n, t.am.demands.get n = false) := by
  dsimp only
  unfold State.resetAlarms
  split
  · next h =>
    rw [List.isEmpty_iff] at h
    subst h
    exact ⟨rfl, rfl, rfl, rfl, rfl, rfl, rfl, rfl, fun e => by simp, fun h => absurd (h 0) (by simp)⟩
  · rw [State.resetAlarms_fold]
    refine ⟨rfl, rfl, rfl, rfl, rfl, rfl, rfl, rfl, fun e => ?_, fun h n => ?_⟩
    · show (Tab.ofFn _).get e = _
      rw [Tab.get_ofFn]
    · simp only [State.recomputeDemands, Tab.get_ofFn]
      rw [List.any_eq_false]
      intro e he
      rw [List.mem_filter] at he
      have : (State.recomputeTargets { s with am := { s.am with
          entries := Tab.ofFn fun e => if e ∈ es then AlarmRecord.reset else s.am.entries.get e } }).am.entries.get e =
          .reset := by
        show (Tab.ofFn _).get e = _
        rw [Tab.get_ofFn, if_pos (h e)]
      rw [this] at he
      exact absurd he.2 (by simp [AlarmRecord.reset])

/-- The effects of a write of a run beyond its words: the alarm entries, cue entries and output lines it meets (R170). -/
theorem State.followWrite_spec (a n : Nat) (s : State) :
    let t := s.followWrite a n
    t.outer = s.outer ∧ t.ci = s.ci ∧ t.sc = s.sc ∧ t.de = s.de ∧ t.eq = s.eq ∧ t.ct = s.ct ∧
      t.bl.inputs = s.bl.inputs ∧ t.ce.triggers = s.ce.triggers ∧
      (∀ e, t.am.entries.get e = if e ∈ writtenAlarms a n then .reset else s.am.entries.get e) ∧
      ((∀ e, e ∈ writtenAlarms a n) → ∀ n, t.am.demands.get n = false) ∧
      (∀ e, t.ce.cues.get e = if e ∈ writtenCues a n then s.armedAsStored e else s.ce.cues.get e) ∧
      ∀ l, t.bl.outputs.get l = if l ∈ writtenOutputs a n then .lowered else s.bl.outputs.get l := by
  dsimp only
  unfold State.followWrite
  obtain ⟨r1, r2, r3, r4, r5, r6, r7, r8, r9, r10⟩ := State.resetAlarms_spec (writtenAlarms a n) s
  generalize s.resetAlarms (writtenAlarms a n) = r at r1 r2 r3 r4 r5 r6 r7 r8 r9 r10 ⊢
  rw [State.rearmCues_spec, State.lowerOutputs_spec]
  have has : ∀ e, r.armedAsStored e = s.armedAsStored e := by
    intro e
    rw [State.armedAsStored, State.cueEnabled, State.cueWord, State.word, State.outer_ts r1]; rfl
  refine ⟨r1, r2, r3, r4, r5, r6, ?_, ?_, r9, r10, fun e => ?_, fun l => ?_⟩
  · rw [← r7]
  · rw [← r8]
  · show (Tab.ofFn _).get e = _
    rw [Tab.get_ofFn, has, r8]
  · show (Tab.ofFn _).get l = _
    rw [Tab.get_ofFn]
    simp only [r7]

/-- Two runs of words meet in a word. -/
theorem meets_iff (a n b c : Nat) (hn : 0 < n) (hc : 0 < c) :
    meets a n b c = true ↔ ∃ k, k < c ∧ a ≤ b + k ∧ b + k < a + n := by
  simp only [meets, Bool.and_eq_true, decide_eq_true_eq]
  constructor
  · rintro ⟨h1, h2⟩
    exact ⟨a - b, by omega, by omega, by omega⟩
  · rintro ⟨k, h1, h2, h3⟩
    omega

/-- What a write of alarm entries recomputes: nothing where no entry is written, otherwise every target, its protect ramp
and every demand (R115). -/
theorem State.resetAlarms_follow (es : List (Fin 256)) (s : State) :
    let t := s.resetAlarms es
    t.am.slots = s.am.slots ∧ t.am.lines = s.am.lines ∧ (es = [] → t = s) ∧
      (es ≠ [] → t.targetsFollow ∧ t.demandsFollow ∧ t.os.gains = s.os.gains ∧ t.os.window = s.os.window ∧
        ∀ i c, (t.os.channels.get i).get c =
          ((s.os.channels.get i).get c).protectTake ((t.am.targets.get i).get c)) := by
  dsimp only
  unfold State.resetAlarms
  split
  · next h =>
    rw [List.isEmpty_iff] at h
    exact ⟨rfl, rfl, fun _ => rfl, fun hne => absurd h hne⟩
  · next h =>
    rw [List.isEmpty_iff] at h
    rw [State.resetAlarms_fold]
    generalize hm : ({ s with am := { s.am with
      entries := .ofFn fun e => if e ∈ es then .reset else s.am.entries.get e } } : State) = m
    have hos : m.os = s.os := by rw [← hm]
    have hslots : m.am.slots = s.am.slots := by rw [← hm]
    have hlines : m.am.lines = s.am.lines := by rw [← hm]
    refine ⟨hslots, hlines, fun he => absurd he h, fun _ => ⟨m.recomputeTargets_follow,
      m.recomputeTargets.recomputeDemands_follow, ?_, ?_,
      fun i c => ?_⟩⟩
    · rw [← hos]
      rfl
    · rw [← hos]
      rfl
    rw [← hos]
    simp only [State.recomputeDemands, State.recomputeTargets, State.takeTargets, Tab.get_ofFn]

/-- The same of a write of a run, whose cue entries and output lines leave the alarm monitor and the protect ramps. -/
theorem State.followWrite_follow (a n : Nat) (s : State) :
    let t := s.followWrite a n
    t.am.slots = s.am.slots ∧ t.am.lines = s.am.lines ∧ t.ce.overrun = s.ce.overrun ∧ t.bl.key = s.bl.key ∧
      t.bl.sampling = s.bl.sampling ∧ (writtenAlarms a n = [] → t.am = s.am ∧ t.os = s.os) ∧
      (writtenAlarms a n ≠ [] → t.targetsFollow ∧ t.demandsFollow ∧ t.os.gains = s.os.gains ∧
        t.os.window = s.os.window ∧ ∀ i c, (t.os.channels.get i).get c =
          ((s.os.channels.get i).get c).protectTake ((t.am.targets.get i).get c)) := by
  dsimp only
  unfold State.followWrite
  obtain ⟨-, -, -, -, -, -, hbl, hce, -, -⟩ := State.resetAlarms_spec (writtenAlarms a n) s
  obtain ⟨r1, r2, r3, r4⟩ := State.resetAlarms_follow (writtenAlarms a n) s
  generalize s.resetAlarms (writtenAlarms a n) = r at hbl hce r1 r2 r3 r4 ⊢
  rw [State.rearmCues_spec, State.lowerOutputs_spec]
  refine ⟨r1, r2, ?_, ?_, ?_, fun h => ?_, r4⟩
  · rw [← hce]
  · rw [← hbl]
  · rw [← hbl]
  · rw [← r3 h]
    exact ⟨rfl, rfl⟩

/-! ## What a write reads of the store (R35, R69) -/

/-- A descriptor slot is mapped for a screen: some inbound entry has role DESCRIPTOR and names it. -/
theorem State.descriptorMapped_iff (s : State) (i : Fin 8) : s.descriptorMapped i = true ↔
    ∃ n : Fin 128, field (s.word 0 n.val) 0 2 = 2 ∧ field (s.word 0 n.val) 4 3 = i.val := by
  have hrole : ∀ w : Word, inboundRole w = .descriptor ↔ field w 0 2 = 2 := by
    intro w
    unfold inboundRole
    split <;> simp_all
  have hscreen : ∀ w : Word, entryScreen w = i ↔ field w 4 3 = i.val := by
    intro w
    have : field w 4 3 % 8 = field w 4 3 := Nat.mod_eq_of_lt (Nat.mod_lt _ (by decide))
    rw [entryScreen, index, Fin.ext_iff, Fin.val_ofNat, this]
  simp only [State.descriptorMapped, List.any_eq_true, List.mem_range, Bool.and_eq_true, beq_iff_eq, hrole, hscreen,
    State.inboundEntry]
  exact ⟨fun ⟨n, hn, h⟩ => ⟨⟨n, hn⟩, h⟩, fun ⟨n, h⟩ => ⟨n.val, n.isLt, h⟩⟩

/-- The channels whose delay in force a run writes are written once each. -/
theorem State.writtenDelays_places (s : State) (a : Nat) (data : List Word) :
    ((s.writtenDelays a data).map WrittenDelay.place).Nodup := by
  have hplace : ∀ i, ∀ w ∈ (if s.screenState i = .offline then [] else (List.finRange 16).filterMap fun c =>
      let at_ := recordAddress i (s.activeBank i) c + 30
      if a ≤ at_ ∧ at_ < a + data.length then
        some (⟨i, c, pageNeed (delayOf (data.getD (at_ - a) 0))⟩ : WrittenDelay) else none), w.screen = i := by
    intro i w hw
    split at hw
    · simp at hw
    · rw [List.mem_filterMap] at hw
      obtain ⟨c, -, hc⟩ := hw
      dsimp only at hc
      split at hc
      · cases hc; rfl
      · cases hc
  rw [State.writtenDelays, List.map_flatMap, List.nodup_flatMap]
  refine ⟨fun i _ => ?_, ?_⟩
  · split
    · simp
    · rw [List.map_filterMap]
      refine List.Nodup.filterMap ?_ (List.nodup_finRange 16)
      intro c d x hc hd
      dsimp only at hc hd
      split at hc <;> split at hd <;> simp_all [WrittenDelay.place]
      have := hc.trans hd.symm
      simpa using this
  · refine (List.nodup_finRange 8).imp fun {i j} hij => ?_
    rw [Function.onFun, List.disjoint_left]
    intro x hx hy
    obtain ⟨v, hv, rfl⟩ := List.mem_map.mp hx
    obtain ⟨w, hw, he⟩ := List.mem_map.mp hy
    have h1 := hplace i v hv
    have h2 := hplace j w hw
    have : w.screen = v.screen := congrArg Prod.fst he
    exact hij (by rw [← h1, ← h2, this])

/-- The channels whose delay in force a run writes (R69). -/
theorem State.mem_writtenDelays (s : State) (a : Nat) (data : List Word) (w : WrittenDelay) :
    w ∈ s.writtenDelays a data ↔
      let at_ := recordAddress w.screen (s.activeBank w.screen) w.channel + 30
      s.screenState w.screen ≠ .offline ∧ a ≤ at_ ∧ at_ < a + data.length ∧
        w.need = pageNeed (delayOf (data.getD (at_ - a) 0)) := by
  rw [State.writtenDelays, List.mem_flatMap]
  constructor
  · rintro ⟨i, -, h⟩
    split at h
    · simp at h
    · next ho =>
      rw [List.mem_filterMap] at h
      obtain ⟨c, -, hc⟩ := h
      dsimp only at hc
      split at hc
      · next hr => cases hc; exact ⟨ho, hr.1, hr.2, rfl⟩
      · cases hc
  · rintro ⟨ho, h1, h2, h3⟩
    refine ⟨w.screen, List.mem_finRange _, ?_⟩
    rw [if_neg ho, List.mem_filterMap]
    refine ⟨w.channel, List.mem_finRange _, ?_⟩
    rw [if_pos ⟨h1, h2⟩, ← h3]

/-! ## Screens enabled by their settings (R20) -/

/-- The parts of the state that enabling screens leaves alone. -/
structure Unenabled where
  outer : Outer
  ci : Interpreter
  dips : Tab 8 (Option Dip)
  os : OutputStage
  am : AlarmMonitor
  ct : ClockUnit
  bl : BoothLines
  ce : CueEngine

/-- These parts of a state. -/
def State.unenabled (s : State) : Unenabled := ⟨s.outer, s.ci, s.eq.dips, s.os, s.am, s.ct, s.bl, s.ce⟩

theorem State.unenabled_outer {s t : State} (h : s.unenabled = t.unenabled) : s.outer = t.outer :=
  congrArg Unenabled.outer h
theorem State.unenabled_ci {s t : State} (h : s.unenabled = t.unenabled) : s.ci = t.ci := congrArg Unenabled.ci h
theorem State.unenabled_dips {s t : State} (h : s.unenabled = t.unenabled) : s.eq.dips = t.eq.dips :=
  congrArg Unenabled.dips h
theorem State.unenabled_os {s t : State} (h : s.unenabled = t.unenabled) : s.os = t.os := congrArg Unenabled.os h
theorem State.unenabled_am {s t : State} (h : s.unenabled = t.unenabled) : s.am = t.am := congrArg Unenabled.am h
theorem State.unenabled_ct {s t : State} (h : s.unenabled = t.unenabled) : s.ct = t.ct := congrArg Unenabled.ct h
theorem State.unenabled_bl {s t : State} (h : s.unenabled = t.unenabled) : s.bl = t.bl := congrArg Unenabled.bl h
theorem State.unenabled_ce {s t : State} (h : s.unenabled = t.unenabled) : s.ce = t.ce := congrArg Unenabled.ce h

theorem State.enable_unenabled (s : State) (i : Fin 8) :
    (s.enable i).unenabled = s.unenabled ∧ (s.enable i).sc = s.sc ∧
      (s.enable i).de = s.de.modify i fun d => d.enabled (s.profileToUse i) (!s.li.worked) := by
  have hu : ((s.allocateBank i (s.activeBank i)).clearScreen i).unpaged = s.unpaged := by simp
  have hr : ∀ (r : State), r.unpaged = s.unpaged → r.unenabled = s.unenabled := by
    intro r h
    simp only [State.unenabled, State.unpaged_outer h, State.unpaged_ci h, State.unpaged_dips h, State.unpaged_os h,
      State.unpaged_am h, State.unpaged_ct h, State.unpaged_bl h, State.unpaged_ce h]
  have hd : ∀ (r : State) (f : DecodeRecord → DecodeRecord),
      (r.modifyDecode i f).unenabled = r.unenabled ∧ (r.modifyDecode i f).sc = r.sc := fun _ _ => ⟨rfl, rfl⟩
  unfold State.enable
  dsimp only
  generalize (s.allocateBank i (s.activeBank i)).clearScreen i = r at hu ⊢
  exact ⟨(hd _ _).1.trans (hr r hu), (hd _ _).2.trans (State.unpaged_sc hu),
    by rw [State.modifyDecode_de, State.unpaged_de hu]⟩

/-- What the enables after a reset can do to a screen's records: both stand, or the screen's settings enable it, its state
becomes IDLE and its decode record takes a profile at once. -/
def State.EnabledAt (s t : State) (j : Fin 8) : Prop :=
  (t.sc.get j = s.sc.get j ∧ t.de.get j = s.de.get j) ∨
    (s.autoEnable j = true ∧ t.sc.get j = { s.sc.get j with state := .idle } ∧
      ∃ p fresh, t.de.get j = (s.de.get j).enabled p fresh)

/-- One screen of the enables after a reset. -/
theorem State.autoEnableScreen_spec (s : State) (i : Fin 8) :
    (s.autoEnableScreen i).unenabled = s.unenabled ∧ ∀ j, s.EnabledAt (s.autoEnableScreen i) j := by
  unfold State.autoEnableScreen
  split
  · next h =>
    rw [Bool.and_eq_true] at h
    have hm : ∀ f : ScreenRecord → ScreenRecord, (s.modifyScreen i f).unenabled = s.unenabled ∧
        (s.modifyScreen i f).de = s.de := fun _ => ⟨rfl, rfl⟩
    obtain ⟨e1, e2, e3⟩ := (s.modifyScreen i fun r => { r with state := .idle }).enable_unenabled i
    refine ⟨e1.trans (hm _).1, fun j => ?_⟩
    rw [State.EnabledAt, e2, e3, (hm _).2, State.modifyScreen_sc, Tab.get_modify, Tab.get_modify]
    by_cases hj : j = i
    · subst hj
      rw [if_pos rfl, if_pos rfl]
      exact .inr ⟨h.1, rfl, _, _, rfl⟩
    · rw [if_neg hj, if_neg hj]
      exact .inl ⟨rfl, rfl⟩
  · exact ⟨rfl, fun _ => .inl ⟨rfl, rfl⟩⟩

/-- The enables after a reset: the formats, the dips and the other blocks stand. -/
theorem State.autoEnableAll_spec (s : State) :
    s.autoEnableAll.unenabled = s.unenabled ∧ ∀ j, s.EnabledAt s.autoEnableAll j := by
  have key : ∀ (l : List (Fin 8)) (s : State), (l.foldl State.autoEnableScreen s).unenabled = s.unenabled ∧
      ∀ j, s.EnabledAt (l.foldl State.autoEnableScreen s) j := by
    intro l
    induction l with
    | nil => exact fun s => ⟨rfl, fun _ => .inl ⟨rfl, rfl⟩⟩
    | cons i l ih =>
      intro s
      rw [List.foldl_cons]
      obtain ⟨a1, a2⟩ := s.autoEnableScreen_spec i
      generalize s.autoEnableScreen i = n at a1 a2 ⊢
      obtain ⟨b1, b2⟩ := ih n
      have hset : ∀ j, n.autoEnable j = s.autoEnable j := by
        intro j
        rw [State.autoEnable, State.setting, State.word, State.outer_ts (State.unenabled_outer a1)]; rfl
      refine ⟨b1.trans a1, fun j => ?_⟩
      rcases b2 j with ⟨h1, h2⟩ | ⟨he, h1, p, fresh, h2⟩
      · rw [State.EnabledAt, h1, h2]; exact a2 j
      · rw [hset] at he
        refine .inr ⟨he, ?_, p, fresh, ?_⟩
        · rcases a2 j with ⟨g, -⟩ | ⟨-, g, -⟩ <;> rw [h1, g]
        · rcases a2 j with ⟨-, g⟩ | ⟨-, -, q, _, g⟩ <;> rw [h2, g]
          rfl
  exact key (List.finRange 8) s

/-! ## The pages the enables after a reset give (R20, R68) -/

theorem State.enable_pool (s : State) (i : Fin 8) : (s.enable i).poolPages.Perm s.poolPages := by
  have : (s.enable i).poolPages = ((s.allocateBank i (s.activeBank i)).clearScreen i).poolPages :=
    State.poolPages_congr rfl
  rw [this, State.clearScreen_pool]
  exact s.allocateBank_pool i _

/-- What an enable that fits does to the channels: the screen's own hold the pages of its bank, cleared, and the free pages
fall by their number. -/
theorem State.enable_pages (s : State) (i : Fin 8) (h : s.bankNeed i (s.activeBank i) ≤ s.freePages)
    (hnone : ∀ c, s.pagesOf i c = []) :
    (∀ c, ∃ taken, taken.length = pageNeed (s.delay i (s.activeBank i) c) ∧
      ((s.enable i).eq.channels.get i).get c = { EqChannel.cleared with pages := taken }) ∧
      (∀ j c, j ≠ i → ((s.enable i).eq.channels.get j).get c = (s.eq.channels.get j).get c) ∧
      (s.enable i).freePages + s.bankNeed i (s.activeBank i) = s.freePages := by
  obtain ⟨a1, a2, a3⟩ := s.allocateBank_spec i (s.activeBank i) h
  obtain ⟨b1, b2, b3⟩ := (s.allocateBank i (s.activeBank i)).clearScreen_spec i
  have he : (s.enable i).eq = ((s.allocateBank i (s.activeBank i)).clearScreen i).eq := rfl
  refine ⟨fun c => ?_, fun j c hj => ?_, ?_⟩
  · obtain ⟨taken, t1, -, t2⟩ := a1 c
    refine ⟨taken, t1, ?_⟩
    rw [he, b1, t2, hnone, List.nil_append]
  · rw [he, b2 j c hj, a2 j c hj]
  · rw [State.freePages, he, b3]; exact a3

/-- The screens that the enables after a reset bring up: each in order whose settings ask for it and whose bank the pages
left by those before it hold. -/
theorem State.autoEnable_fold (l : List (Fin 8)) (hl : l.Pairwise (· < ·)) (s : State)
    (hoff : ∀ i ∈ l, s.screenState i = .offline ∧ s.activeBank i = 0 ∧
      ∀ c, (s.eq.channels.get i).get c = EqChannel.cleared) :
    let t := l.foldl State.autoEnableScreen s
    (∀ i ∈ l, (t.screenState i = .offline ∨ t.screenState i = .idle) ∧
      (t.screenState i = .idle ↔ s.autoEnable i = true ∧ s.bankNeed i 0 +
        (l.map fun j => if j < i ∧ t.screenState j = .idle then s.bankNeed j 0 else 0).sum ≤ s.freePages) ∧
      (t.screenState i = .idle → t.de.get i = (s.de.get i).enabled (s.profileToUse i) (!s.li.worked)) ∧
      (t.screenState i ≠ .idle → t.de.get i = s.de.get i) ∧
      ∀ c, ∃ pages, pages.length = (if t.screenState i = .idle then pageNeed (s.delay i 0 c) else 0) ∧
        (t.eq.channels.get i).get c = { EqChannel.cleared with pages := pages }) ∧
    (∀ i, i ∉ l → t.sc.get i = s.sc.get i ∧ t.de.get i = s.de.get i ∧
      ∀ c, (t.eq.channels.get i).get c = (s.eq.channels.get i).get c) ∧
    t.poolPages.Perm s.poolPages := by
  induction l generalizing s with
  | nil => exact ⟨fun i h => absurd h (by simp), fun _ _ => ⟨rfl, rfl, fun _ => rfl⟩, List.Perm.refl _⟩
  | cons i l ih =>
    rw [List.pairwise_cons] at hl
    obtain ⟨hlt, hl⟩ := hl
    have hil : i ∉ l := fun h => absurd (hlt i h) (lt_irrefl i)
    obtain ⟨hi1, hi2, hi3⟩ := hoff i (by simp)
    have hnone : ∀ c, s.pagesOf i c = [] := fun c => by rw [State.pagesOf, hi3]; rfl
    dsimp only [List.foldl_cons]
    -- what the first screen's turn does
    have hm : (s.autoEnableScreen i).unenabled = s.unenabled := (s.autoEnableScreen_spec i).1
    have hone : ((s.autoEnableScreen i).screenState i = .idle ∧ s.autoEnable i = true ∧ s.bankNeed i 0 ≤ s.freePages ∧
          (s.autoEnableScreen i).de.get i = (s.de.get i).enabled (s.profileToUse i) (!s.li.worked) ∧
          (∀ c, ∃ taken, taken.length = pageNeed (s.delay i 0 c) ∧
            ((s.autoEnableScreen i).eq.channels.get i).get c = { EqChannel.cleared with pages := taken }) ∧
          (s.autoEnableScreen i).freePages + s.bankNeed i 0 = s.freePages ∨
        s.autoEnableScreen i = s ∧ ¬(s.autoEnable i = true ∧ s.bankNeed i 0 ≤ s.freePages)) ∧
        (∀ j, j ≠ i → (s.autoEnableScreen i).sc.get j = s.sc.get j ∧ (s.autoEnableScreen i).de.get j = s.de.get j ∧
          ∀ c, ((s.autoEnableScreen i).eq.channels.get j).get c = (s.eq.channels.get j).get c) ∧
        (s.autoEnableScreen i).poolPages.Perm s.poolPages := by
      unfold State.autoEnableScreen
      split
      · next h =>
        rw [Bool.and_eq_true, State.enableFits, decide_eq_true_eq, hi2] at h
        have e : ∀ b, (s.modifyScreen i fun r => { r with state := .idle }).bankNeed i b = s.bankNeed i b := fun _ => rfl
        have hb : (s.modifyScreen i fun r => { r with state := .idle }).activeBank i = 0 := by
          rw [State.activeBank, State.modifyScreen_sc, Tab.get_modify_same]; exact hi2
        obtain ⟨-, e2, e3⟩ := (s.modifyScreen i fun r => { r with state := .idle }).enable_unenabled i
        obtain ⟨p1, p2, p3⟩ := (s.modifyScreen i fun r => { r with state := .idle }).enable_pages i
          (by rw [hb]; exact h.2) hnone
        have hpool := (s.modifyScreen i fun r => { r with state := .idle }).enable_pool i
        rw [hb] at p1 p3
        refine ⟨.inl ⟨?_, h.1, h.2, ?_, p1, p3⟩, fun j hj => ⟨?_, ?_, fun c => p2 j c hj⟩, hpool⟩
        · rw [State.screenState, e2, State.modifyScreen_sc, Tab.get_modify_same]
        · rw [e3, Tab.get_modify_same]; rfl
        · rw [e2, State.modifyScreen_sc, Tab.get_modify_other _ _ hj]
        · rw [e3, Tab.get_modify_other _ _ hj]; rfl
      · next h =>
        rw [Bool.and_eq_true, State.enableFits, decide_eq_true_eq, hi2] at h
        exact ⟨.inr ⟨rfl, h⟩, fun _ _ => ⟨rfl, rfl, fun _ => rfl⟩, List.Perm.refl _⟩
    generalize s.autoEnableScreen i = m at hm hone ⊢
    obtain ⟨hcase, hother, hpool⟩ := hone
    have hne : ∀ j ∈ l, j ≠ i := fun j hj h => hil (h ▸ hj)
    have hts : m.ts = s.ts := State.outer_ts (State.unenabled_outer hm)
    have hli : m.li = s.li := State.outer_li (State.unenabled_outer hm)
    have hbn : ∀ j b, m.bankNeed j b = s.bankNeed j b := by
      intro j b; simp only [State.bankNeed, State.delay, State.recordWord, hts]
    have hdl : ∀ j b c, m.delay j b c = s.delay j b c := by
      intro j b c; simp only [State.delay, State.recordWord, hts]
    have hau : ∀ j, m.autoEnable j = s.autoEnable j := by
      intro j; simp only [State.autoEnable, State.setting, State.word, hts]
    have hpr : ∀ j ∈ l, m.profileToUse j = s.profileToUse j := by
      intro j hj
      simp only [State.profileToUse, State.chosenFormat, (hother j (hne j hj)).2.1, hli, State.formatMap,
        State.defaultFormat, State.setting, State.word, hts]
    obtain ⟨t1, t2, t3⟩ := ih hl m fun j hj => by
      obtain ⟨o1, o2, o3⟩ := hoff j (List.mem_cons_of_mem _ hj)
      obtain ⟨q1, q2, q3⟩ := hother j (hne j hj)
      exact ⟨by rw [State.screenState, q1]; exact o1, by rw [State.activeBank, q1]; exact o2, fun c => by rw [q3, o3]⟩
    dsimp only at t1 t2 t3
    generalize l.foldl State.autoEnableScreen m = t at t1 t2 t3 ⊢
    obtain ⟨u1, u2, u3⟩ := t2 i hil
    have hsi : t.screenState i = m.screenState i := by rw [State.screenState, u1]; rfl
    refine ⟨fun j hj => ?_, fun j hj => ?_, t3.trans hpool⟩
    · rcases List.mem_cons.mp hj with rfl | hj
      · have hz : ((j :: l).map fun k => if k < j ∧ t.screenState k = .idle then s.bankNeed k 0 else 0).sum = 0 := by
          rw [List.sum_eq_zero]
          intro x hx
          obtain ⟨k, hk, rfl⟩ := List.mem_map.mp hx
          rw [if_neg]
          rintro ⟨h, -⟩
          rcases List.mem_cons.mp hk with rfl | hk
          · exact lt_irrefl _ h
          · exact lt_asymm h (hlt k hk)
        rw [hz, Nat.add_zero, hsi, u2]
        simp only [u3]
        rcases hcase with ⟨c1, c2, c3, c4, c5, -⟩ | ⟨rfl, c1⟩
        · rw [c1]
          refine ⟨.inr rfl, ⟨fun _ => ⟨c2, c3⟩, fun _ => rfl⟩, fun _ => c4, fun h => absurd rfl h, fun c => ?_⟩
          obtain ⟨taken, k1, k2⟩ := c5 c
          exact ⟨taken, by rw [if_pos rfl, k1], k2⟩
        · rw [hi1]
          refine ⟨.inl rfl, ⟨fun h => (by cases h), fun h => absurd h c1⟩, fun h => (by cases h), fun _ => rfl, fun c => ?_⟩
          exact ⟨[], by simp, by rw [hi3]; rfl⟩
      · obtain ⟨v1, v2, v3, v4, v5⟩ := t1 j hj
        obtain ⟨-, q2, -⟩ := hother j (hne j hj)
        rw [q2] at v3 v4
        rw [hpr j hj, hli] at v3
        simp only [hbn, hau] at v2
        simp only [hdl] at v5
        refine ⟨v1, v2.trans (and_congr_right fun _ => ?_), v3, v4, v5⟩
        rw [List.map_cons, List.sum_cons, hsi]
        rcases hcase with ⟨c1, -, -, -, -, c6⟩ | ⟨rfl, -⟩
        · rw [c1, if_pos ⟨hlt j hj, rfl⟩]; omega
        · rw [hi1, if_neg (by simp)]; omega
    · rw [List.mem_cons, not_or] at hj
      obtain ⟨q1, q2, q3⟩ := hother j hj.1
      obtain ⟨r1, r2, r3⟩ := t2 j hj.2
      exact ⟨r1.trans q1, r2.trans q2, fun c => (r3 c).trans (q3 c)⟩

end Sys2Proof.Machine
end

