-- ==== Sys2Proof/Laws/Reports.lean ====
section
/-!
SUPPORT. The reports and triggers that a change of a screen's state makes, and how the reports of several blocks join the
report part.
-/

namespace Sys2Proof.Machine

variable (s : State)

/-! ## Groups of reports in a free order (R182) -/

theorem orderReports_perm (n : Nat) (groups : List (List Report)) (k : Nat) :
    ∃ gs : List (List Report), gs.Perm groups ∧ (orderReports n groups k).1 = gs.flatten := by
  induction n generalizing groups k with
  | zero => exact ⟨groups, .refl _, rfl⟩
  | succ n ih =>
    unfold orderReports
    split
    · exact ⟨groups, .refl _, rfl⟩
    · next h =>
      have hl : Config.reportOrder k % groups.length < groups.length := Nat.mod_lt _ (by omega)
      obtain ⟨gs, h1, h2⟩ := ih (groups.eraseIdx (Config.reportOrder k % groups.length)) (k + 1)
      refine ⟨groups[Config.reportOrder k % groups.length] :: gs, ?_, ?_⟩
      · exact (h1.cons _).trans (List.getElem_cons_eraseIdx_perm hl)
      · dsimp only
        rw [h2, List.getD_eq_getElem _ _ hl]; rfl

/-- The reports of a merge are those of the groups, each group in its order, and the merge changes nothing else but the
count of free choices. -/
theorem State.mergeReports_spec (groups : List (List Report)) :
    (∃ gs : List (List Report), gs.Perm groups ∧ (s.mergeReports groups).2 = gs.flatten) ∧
      (s.mergeReports groups).1 = { s with draws := (s.mergeReports groups).1.draws } := by
  refine ⟨?_, rfl⟩
  obtain ⟨gs, h1, h2⟩ := orderReports_perm (groups.filter fun g => !g.isEmpty).length
    (groups.filter fun g => !g.isEmpty) s.draws
  refine ⟨gs ++ groups.filter fun g => g.isEmpty, ?_, ?_⟩
  · refine (h1.append_right _).trans ?_
    have := List.filter_append_perm (fun g : List Report => g.isEmpty) groups
    exact List.perm_append_comm.trans this
  · have hn : ∀ l : List (List Report), (l.filter fun g => g.isEmpty).flatten = [] := by
      intro l
      rw [List.flatten_eq_nil_iff]
      intro g hg
      simpa using (List.mem_filter.mp hg).2
    show (orderReports _ _ _).1 = _
    rw [h2, List.flatten_append, hn, List.append_nil]

/-! ## The reports of forced falls (R104, R110, R112) -/

/-- A forced entry's report, if it falls and routes one. -/
def State.forcedReport (s : State) (e : Fin 256) : Option Report :=
  let r := s.am.entries.get e
  let a := s.alarmEntry e
  if r.tier ≠ .normal ∧ a.reportOnClear then some (alarmReport e a r true r.tier .normal true) else none

/-- The reports of the entries picked, in entry order. -/
theorem State.forceEntries_reports (pick : AlarmEntry → Bool) :
    (s.forceEntries pick).2 =
      (List.finRange 256).filterMap fun e => if pick (s.alarmEntry e) then s.forcedReport e else none := by
  have key : ∀ (l : List (Fin 256)), l.Nodup → ∀ acc : State × List Report,
      (l.foldl (fun (acc : State × List Report) e =>
        if pick (acc.1.alarmEntry e) then
          let (s, rs) := acc.1.forceNormal e
          (s, acc.2 ++ rs)
        else acc) acc).2 =
        acc.2 ++ l.filterMap fun e => if pick (acc.1.alarmEntry e) then acc.1.forcedReport e else none := by
    intro l
    induction l with
    | nil => intro _ acc; simp
    | cons e l ih =>
      intro hl acc
      rw [List.nodup_cons] at hl
      rw [List.foldl_cons, ih hl.2, List.filterMap_cons]
      by_cases hp : pick (acc.1.alarmEntry e) = true
      · simp only [if_pos hp]
        have hrest : (l.filterMap fun x => if pick ((acc.1.forceNormal e).1.alarmEntry x) then
            (acc.1.forceNormal e).1.forcedReport x else none) =
            l.filterMap fun x => if pick (acc.1.alarmEntry x) then acc.1.forcedReport x else none := by
          apply List.filterMap_congr
          intro x hx
          have hne : x ≠ e := fun h => hl.1 (h ▸ hx)
          have hget : (acc.1.forceNormal e).1.am.entries.get x = acc.1.am.entries.get x :=
            Tab.get_modify_other _ _ hne
          have hentry : ∀ x, (acc.1.forceNormal e).1.alarmEntry x = acc.1.alarmEntry x := fun _ => rfl
          simp only [State.forcedReport, hget, hentry]
        rw [hrest]
        by_cases hr : (acc.1.am.entries.get e).tier ≠ .normal ∧ (acc.1.alarmEntry e).reportOnClear = true
        · simp only [State.forceNormal, State.forcedReport, if_pos hr, List.append_assoc, List.singleton_append]
        · simp only [State.forceNormal, State.forcedReport, if_neg hr, List.append_nil]
      · simp only [if_neg hp]
  have h := key (List.finRange 256) (List.nodup_finRange 256) (s, [])
  rw [State.forceEntries, h]
  simp only [List.nil_append]

/-! ## One change of a screen's state (R4, R6, R7, R8) -/

/-- A hand-over queues no report itself, makes no trigger, and gives back the APPLY report of a dip in RISE. -/
theorem State.handPending_reports (i : Fin 8) (target : ScreenState) (t : State) (h : t.eq = s.eq) :
    (t.handPending i (s.sc.get i) target).2 = s.handedReports i target ∧
      (t.handPending i (s.sc.get i) target).1.ci = t.ci ∧ (t.handPending i (s.sc.get i) target).1.ce = t.ce := by
  unfold State.handPending State.handedReports State.handApply
  rw [h]
  cases hp : (s.sc.get i).pendingApply with
  | none => exact ⟨rfl, rfl, rfl⟩
  | some origin =>
    rcases s.eq.dips.get i with _ | ⟨phase, swap, waiting⟩
    · cases target.playing <;> exact ⟨rfl, rfl, rfl⟩
    · cases target.playing <;> cases phase <;> cases swap <;> exact ⟨rfl, rfl, rfl⟩

theorem State.enable_queues (i : Fin 8) : (s.enable i).ci = s.ci ∧ (s.enable i).ce = s.ce :=
  ⟨State.unenabled_ci (s.enable_unenabled i).1, State.unenabled_ce (s.enable_unenabled i).1⟩

@[simp] theorem State.forceEntries_ci (pick : AlarmEntry → Bool) : (s.forceEntries pick).1.ci = s.ci := by
  rw [s.forceEntries_spec]

@[simp] theorem State.forceEntries_ce (pick : AlarmEntry → Bool) : (s.forceEntries pick).1.ce = s.ce := by
  rw [s.forceEntries_spec]

/-- A released screen's entering OFFLINE leaves the report part and the cue engine alone and gives back the reports of its
entries. -/
theorem State.disable_queues (i : Fin 8) :
    (s.disable i).1.ci = s.ci ∧ (s.disable i).1.ce = s.ce ∧
      (s.disable i).2 = (List.finRange 256).filterMap fun e =>
        if (s.alarmEntry e).screen == i then s.forcedReport e else none := by
  have hu := s.unpaged_releaseScreen i
  have key : ∀ (r : State) (d : DecodeRecord → DecodeRecord) (o : OutChannel → OutChannel) (g : Tab 8 Nat),
      r.ts = s.ts → r.am = s.am →
      let u : State := (r.modifyDecode i d).modifyOut i o
      let f := State.forceEntries { u with os := { u.os with gains := g } } fun a => a.screen == i
      f.1.recomputeTargets.ci = r.ci ∧ f.1.recomputeTargets.ce = r.ce ∧
        f.2 = (List.finRange 256).filterMap fun e =>
          if (s.alarmEntry e).screen == i then s.forcedReport e else none := by
    intro r d o g hts ham
    dsimp only
    refine ⟨?_, ?_, ?_⟩
    · rw [show ∀ v : State, v.recomputeTargets.ci = v.ci from fun _ => rfl, State.forceEntries_ci]; rfl
    · rw [show ∀ v : State, v.recomputeTargets.ce = v.ce from fun _ => rfl, State.forceEntries_ce]; rfl
    · rw [State.forceEntries_reports]
      have hentry : ∀ v : State, v.ts = s.ts → ∀ e, v.alarmEntry e = s.alarmEntry e := by
        intro v hv e; unfold State.alarmEntry State.alarmWord State.word; rw [hv]
      have hforced : ∀ v : State, v.ts = s.ts → v.am = s.am → ∀ e, v.forcedReport e = s.forcedReport e := by
        intro v hv hm e; unfold State.forcedReport; rw [hentry v hv, hm]
      have heach : ∀ v : State, v.ts = s.ts → v.am = s.am → ∀ e,
          (if (v.alarmEntry e).screen == i then v.forcedReport e else none) =
            if (s.alarmEntry e).screen == i then s.forcedReport e else none := by
        intro v hv hm e; rw [hentry v hv, hforced v hv hm]
      exact List.filterMap_congr fun e _ => heach _ hts ham e
  obtain ⟨h1, h2, h3⟩ := key (s.releaseScreen i) DecodeRecord.idled (fun _ => OutChannel.reset)
    ((((s.releaseScreen i).modifyDecode i DecodeRecord.idled).modifyOut i fun _ => OutChannel.reset).os.gains.set i 0)
    (State.outer_ts (State.unpaged_outer hu)) (State.unpaged_am hu)
  unfold State.disable
  dsimp only
  exact ⟨h1.trans (State.unpaged_ci hu), h2.trans (State.unpaged_ce hu), h3⟩

theorem State.fallReports_eq (i : Fin 8) (old target : ScreenState) (pick : AlarmEntry → Bool)
    (h : ∀ e, pick (s.alarmEntry e) = ((s.alarmEntry e).screen == i &&
      (target == .offline || (old.playing && !target.playing && (s.alarmEntry e).source == some .floor)))) :
    ((List.finRange 256).filterMap fun e => if pick (s.alarmEntry e) then s.forcedReport e else none) =
      s.fallReports i old target := by
  unfold State.fallReports
  apply List.filterMap_congr
  intro e _
  rw [h]
  unfold State.forcedReport alarmReport
  dsimp only
  by_cases h1 : (s.alarmEntry e).screen = i
  · rw [h1]
    cases (target == ScreenState.offline || (old.playing && !target.playing && (s.alarmEntry e).source == some .floor)) <;>
      cases (s.am.entries.get e).tier <;> cases (s.alarmEntry e).reportOnClear <;> simp
  · simp [h1]

/-- What the blocks do with a change of state queues no report itself and makes no trigger, and gives back the reports of
the forced falls. -/
theorem State.followMove_reports (i : Fin 8) (old target : ScreenState) (b : Bool) (t : State) (hts : t.ts = s.ts)
    (ham : t.am = s.am) (hst : t.screenState i = target) :
    (t.followMove i old target b).2 = s.fallReports i old target ∧
      (t.followMove i old target b).1.ci = t.ci ∧ (t.followMove i old target b).1.ce = t.ce := by
  have hentry : ∀ u : State, u.ts = s.ts → ∀ e, u.alarmEntry e = s.alarmEntry e := by
    intro u hu e; unfold State.alarmEntry State.alarmWord State.word; rw [hu]
  have hforced : ∀ u : State, u.ts = s.ts → u.am = s.am → ∀ e, u.forcedReport e = s.forcedReport e := by
    intro u hu hm e; unfold State.forcedReport; rw [hentry u hu, hm]
  have hlist : ∀ (u : State) (pick : AlarmEntry → Bool), u.ts = s.ts → u.am = s.am →
      (u.forceEntries pick).2 =
        (List.finRange 256).filterMap fun e => if pick (s.alarmEntry e) then s.forcedReport e else none := by
    intro u pick hu hm
    rw [State.forceEntries_reports]
    simp only [hentry u hu, hforced u hu hm]
  unfold State.followMove
  by_cases h1 : target = .offline
  · rw [if_pos h1]
    obtain ⟨d1, d2, d3⟩ := t.disable_queues i
    refine ⟨?_, d1, d2⟩
    rw [d3]
    simp only [hentry t hts, hforced t hts ham]
    exact s.fallReports_eq i old target (fun a => a.screen == i) fun e => by simp [h1]
  · rw [if_neg h1]
    by_cases h2 : old = .offline
    · rw [if_pos h2]
      refine ⟨?_, t.enable_queues i⟩
      have := s.fallReports_eq i old target (fun _ => false) fun e => by simp [h1, h2, ScreenState.playing]
      rw [← this]
      simp
    · rw [if_neg h2]
      by_cases h3 : (old.playing && !target.playing) = true
      · rw [if_pos h3]
        dsimp only
        refine ⟨?_, ?_, ?_⟩
        · refine (hlist t _ hts ham).trans ?_
          refine s.fallReports_eq i old target (fun a => a.source == some .floor && a.screen == i && !t.floorEligible a)
            fun e => ?_
          have hn : target.playing = false := by simpa using (Bool.and_eq_true_iff.mp h3).2
          rw [h3]
          by_cases h4 : (s.alarmEntry e).screen = i
          · have : t.floorEligible (s.alarmEntry e) = false := by
              unfold State.floorEligible State.playing
              rw [h4, hst, hn, Bool.false_and]
            rw [this]
            cases h5 : (s.alarmEntry e).source == some AlarmSource.floor <;> simp [h1, h4]
          · have : ((s.alarmEntry e).screen == i) = false := by simpa using h4
            rw [this]; simp
        · rw [State.forceFloors, State.forceEntries_spec]; split <;> rfl
        · rw [State.forceFloors, State.forceEntries_spec]; split <;> rfl
      · rw [if_neg h3]
        refine ⟨?_, rfl, rfl⟩
        have h3' : (old.playing && !target.playing) = false := by simpa using h3
        have := s.fallReports_eq i old target (fun _ => false) fun e => by rw [h3']; simp [h1]
        rw [← this]
        simp

/-- One change of a screen's state queues no report itself: it gives back its STATE report, the reports of the forced falls
and the APPLY report of a hand-over, each block's in its order; it makes the STATE trigger. -/
theorem State.moveScreen_reports (i : Fin 8) (target : ScreenState) (cause : StateCause) (safeCause : SafeCause)
    (depth : Nat) (inScan : Bool) :
    let m := s.moveScreen i target cause safeCause depth inScan
    (∃ gs : List (List Report), gs.Perm [[.state i (s.screenState i) target cause],
        s.fallReports i (s.screenState i) target, s.handedReports i target] ∧ m.2 = gs.flatten) ∧
      m.1.ci = s.ci ∧ m.1.ce = (s.makeTrigger (.state i target) depth).ce := by
  have h0 : ∀ f : ScreenRecord → ScreenRecord, (s.modifyScreen i f).eq = s.eq := fun _ => rfl
  obtain ⟨a1, a2, a3⟩ := s.handPending_reports i target
    (s.modifyScreen i fun r => r.move target safeCause (s.safeGain i)) rfl
  obtain ⟨⟨dip, b1⟩, -, -, b2, b3, -⟩ :=
    (s.modifyScreen i fun r => r.move target safeCause (s.safeGain i)).handPending_spec i (s.sc.get i) target
  unfold State.moveScreen
  dsimp only
  generalize (s.modifyScreen i fun r => r.move target safeCause (s.safeGain i)).handPending i (s.sc.get i) target = p
    at a1 a2 a3 b1 b2 b3 ⊢
  have hst : p.1.screenState i = target := by
    rw [State.screenState, b1, Tab.get_modify_same]
    show (Tab.get (s.sc.modify i _) i).state = _
    rw [Tab.get_modify_same]; rfl
  obtain ⟨c1, c2, c3⟩ := s.followMove_reports i (s.sc.get i).state target inScan p.1
    (State.outer_ts (State.aside_outer b3)) b2 hst
  generalize p.1.followMove i (s.sc.get i).state target inScan = q at c1 c2 c3 ⊢
  obtain ⟨⟨gs, d1, d2⟩, d3⟩ :=
    (q.1.makeTrigger (.state i target) depth).mergeReports_spec [[.state i (s.sc.get i).state target cause], q.2, p.2]
  rw [c1, a1] at d1
  refine ⟨⟨gs, d1, d2⟩, ?_, ?_⟩
  · rw [d3]
    show (q.1.makeTrigger (.state i target) depth).ci = s.ci
    have : ∀ u : State, (u.makeTrigger (.state i target) depth).ci = u.ci := by
      intro u; unfold State.makeTrigger State.pushTrigger; split <;> (try split) <;> (try split) <;> rfl
    rw [this, c2, a2]; rfl
  · rw [d3]
    show (q.1.makeTrigger (.state i target) depth).ce = _
    have : ∀ u : State, u.ce = s.ce → (u.makeTrigger (.state i target) depth).ce =
        (s.makeTrigger (.state i target) depth).ce := by
      intro u hu; unfold State.makeTrigger State.pushTrigger; rw [hu]; split <;> (try split) <;> (try split) <;> first | rfl | exact hu
    exact this _ (c3.trans (a3.trans rfl))

/-! ## Reports and triggers that join (R149, R182) -/

theorem State.queueReport_ci {t : State} (h : t.ci = s.ci) (r : Report) :
    (t.queueReport r).ci = (s.queueReport r).ci := by
  unfold State.queueReport; rw [h]; split <;> rfl

/-- What the report part holds after reports arrive depends on the report part alone. -/
theorem State.queueReports_ci {s t : State} (h : t.ci = s.ci) (rs : List Report) :
    (t.queueReports rs).ci = (s.queueReports rs).ci := by
  induction rs generalizing s t with
  | nil => exact h
  | cons r rs ih => exact ih (s.queueReport_ci h r)

theorem State.queueReports_append (first second : List Report) :
    s.queueReports (first ++ second) = (s.queueReports first).queueReports second := List.foldl_append

/-- What the trigger queue and its mark hold after a trigger arrives depends on the cue engine alone. -/
theorem State.pushTrigger_ce {s t : State} (h : t.ce = s.ce) (x : Trigger) :
    (t.pushTrigger x).ce = (s.pushTrigger x).ce := by
  unfold State.pushTrigger; rw [h]; split <;> split <;> rfl

/-- One change of a screen's state with its reports queued: the reports join the report part and the STATE trigger joins the
trigger queue where its depth allows it. -/
theorem State.moveScreen_joins (i : Fin 8) (target : ScreenState) (cause : StateCause) (safeCause : SafeCause)
    (depth : Nat) (inScan : Bool) :
    let m := s.moveScreen i target cause safeCause depth inScan
    s.ReportsJoin (m.1.queueReports m.2) [] [[.state i (s.screenState i) target cause],
        s.fallReports i (s.screenState i) target, s.handedReports i target] ∧
      (depth ≤ 3 → s.TriggersJoin (m.1.queueReports m.2) [⟨.state i target, depth⟩]) ∧
      (3 < depth → s.TriggersJoin (m.1.queueReports m.2) []) := by
  obtain ⟨⟨gs, h1, h2⟩, h3, h4⟩ := s.moveScreen_reports i target cause safeCause depth inScan
  generalize s.moveScreen i target cause safeCause depth inScan = m at h2 h3 h4 ⊢
  have hci := State.queueReports_ci h3 m.2
  refine ⟨⟨gs, h1, ?_⟩, fun hd => ?_, fun hd => ?_⟩
  · rw [hci, h2]; exact ⟨rfl, rfl⟩
  · have : s.makeTrigger (.state i target) depth = s.pushTrigger ⟨.state i target, depth⟩ := if_pos hd
    unfold State.TriggersJoin
    rw [State.queueReports_ce, h4, this]; exact ⟨rfl, rfl⟩
  · have : s.makeTrigger (.state i target) depth = s := if_neg (Nat.not_le.mpr hd)
    unfold State.TriggersJoin
    rw [State.queueReports_ce, h4, this]; exact ⟨rfl, rfl⟩

/-! ## The loss of the upstream port (R11) -/

theorem State.handPending_dips (i : Fin 8) (old : ScreenRecord) (target : ScreenState) (j : Fin 8) (h : j ≠ i) :
    (s.handPending i old target).1.eq.dips.get j = s.eq.dips.get j := by
  unfold State.handPending State.handApply
  split
  · split
    · rfl
    · split
      · exact Tab.get_set_other _ _ h
      · split
        · rfl
        · exact Tab.get_set_other _ _ h
  · rfl

theorem State.forceEntries_other (pick : AlarmEntry → Bool) (e : Fin 256) (h : pick (s.alarmEntry e) = false) :
    (s.forceEntries pick).1.am.entries.get e = s.am.entries.get e := by
  rw [s.forceEntries_spec]
  show Tab.get (Tab.ofFn _) e = _
  rw [Tab.get_ofFn, h]; rfl

/-- What the blocks do with a change of state leaves the entries of other screens alone. -/
theorem State.followMove_entries (i : Fin 8) (old target : ScreenState) (b : Bool) (e : Fin 256)
    (h : (s.alarmEntry e).screen ≠ i) :
    (s.followMove i old target b).1.am.entries.get e = s.am.entries.get e := by
  unfold State.followMove
  split
  · obtain ⟨z, h1, -, -, h2, h3, -⟩ := s.disable_eq i
    have hz : z.alarmEntry e = s.alarmEntry e := by
      unfold State.alarmEntry State.alarmWord State.word; rw [h3]
    rw [h1, State.recomputeTargets_entries, z.forceEntries_other _ e (by rw [hz]; simpa using h), h2]
  · split
    · rw [State.unenabled_am (s.enable_unenabled i).1]
    · split
      · have hf : (s.forceFloors i).1.am.entries.get e = s.am.entries.get e :=
          s.forceEntries_other _ e (by simp [h])
        dsimp only
        split
        · exact hf
        · rw [State.recomputeTargets_entries]; exact hf
      · rfl

/-- One change of a screen's state leaves the dips and the alarm entries of other screens alone. -/
theorem State.moveScreen_others (i : Fin 8) (target : ScreenState) (cause : StateCause) (safeCause : SafeCause)
    (depth : Nat) (inScan : Bool) :
    let t := (s.moveScreen i target cause safeCause depth inScan).1
    (∀ j, j ≠ i → t.eq.dips.get j = s.eq.dips.get j) ∧
      ∀ e, (s.alarmEntry e).screen ≠ i → t.am.entries.get e = s.am.entries.get e := by
  dsimp only
  generalize hm : (s.modifyScreen i fun r => r.move target safeCause (s.safeGain i)) = m
  have hdips : ∀ j, j ≠ i → (m.handPending i (s.sc.get i) target).1.eq.dips.get j = s.eq.dips.get j := by
    intro j hj; rw [m.handPending_dips i _ _ j hj, ← hm]; rfl
  obtain ⟨-, -, -, ham, hasi, -⟩ := m.handPending_spec i (s.sc.get i) target
  unfold State.moveScreen
  dsimp only
  rw [hm]
  generalize m.handPending i (s.sc.get i) target = p at hdips ham hasi ⊢
  have hent : ∀ e, p.1.alarmEntry e = s.alarmEntry e := by
    intro e; unfold State.alarmEntry State.alarmWord State.word; rw [State.outer_ts (State.aside_outer hasi), ← hm]; rfl
  have h1 := (p.1.followMove_spec i (s.sc.get i).state target inScan).2.2.1
  have h2 := fun e => p.1.followMove_entries i (s.sc.get i).state target inScan e
  generalize p.1.followMove i (s.sc.get i).state target inScan = q at h1 h2 ⊢
  have hsil : ∀ gs, ((q.1.makeTrigger (.state i target) depth).mergeReports gs).1.silent = q.1.silent := fun gs =>
    (State.silent_mergeReports _ gs).trans (State.silent_makeTrigger _ _ _)
  generalize hgs : [[Report.state i (s.sc.get i).state target cause], q.2, p.2] = gs
  replace hsil := hsil gs
  generalize (q.1.makeTrigger (.state i target) depth).mergeReports gs = d at hsil ⊢
  refine ⟨fun j hj => ?_, fun e he => ?_⟩
  · rw [State.silent_eq hsil, h1, hdips j hj]
  · rw [State.silent_am hsil, h2 e (by rw [hent]; exact he), ham, ← hm]; rfl

/-- The reports of another screen's change of state stand when one screen's state has changed. -/
theorem State.moveScreen_otherReports (i : Fin 8) (cause : StateCause) (safeCause : SafeCause) (depth : Nat)
    (inScan : Bool) (target next : ScreenState) (j : Fin 8) (h : j ≠ i) (old : ScreenState) :
    let t := (s.moveScreen i next cause safeCause depth inScan).1
    t.fallReports j old target = s.fallReports j old target ∧ t.handedReports j target = s.handedReports j target := by
  obtain ⟨h1, h2⟩ := s.moveScreen_others i next cause safeCause depth inScan
  obtain ⟨h3, -, h4, -⟩ := s.moveScreen_spec i next cause safeCause depth inScan
  generalize s.moveScreen i next cause safeCause depth inScan = m at h1 h2 h3 h4 ⊢
  have hent : ∀ e, m.1.alarmEntry e = s.alarmEntry e := by
    intro e; unfold State.alarmEntry State.alarmWord State.word; rw [State.outer_ts (State.aside_outer h4)]
  dsimp only
  refine ⟨?_, ?_⟩
  · unfold State.fallReports
    apply List.filterMap_congr
    intro e _
    dsimp only
    rw [hent]
    by_cases hs : (s.alarmEntry e).screen = j
    · rw [h2 e (by rw [hs]; exact h)]
    · have : ((s.alarmEntry e).screen == j) = false := by simpa using hs
      rw [this]; simp
  · unfold State.handedReports
    rw [h1 j h, h3 j h]

theorem safeStep_reports (l : List (Fin 8)) (hl : l.Nodup) (acc : State × List Report) :
    let t := l.foldl safeStep acc
    (∃ reports : Fin 8 → List Report, t.2 = acc.2 ++ l.flatMap reports ∧
      ∀ i ∈ l, (acc.1.playing i = true → ∃ gs : List (List Report), reports i = gs.flatten ∧
          gs.Perm [[.state i (acc.1.screenState i) .safe .link], acc.1.fallReports i (acc.1.screenState i) .safe,
            acc.1.handedReports i .safe]) ∧
        (acc.1.playing i = false → reports i = [])) ∧
      t.1.ci = acc.1.ci ∧
      t.1.ce = (((l.filter fun i => acc.1.playing i).map fun i => ⟨.state i .safe, 0⟩).foldl State.pushTrigger
        acc.1).ce := by
  induction l generalizing acc with
  | nil => exact ⟨⟨fun _ => [], by simp, fun i hi => absurd hi (by simp)⟩, rfl, rfl⟩
  | cons i l ih =>
    rw [List.nodup_cons] at hl
    dsimp only [List.foldl_cons]
    obtain ⟨a1, -⟩ := safeStep_spec acc i
    have hstep : safeStep acc i = if acc.1.playing i then
        ((acc.1.moveScreen i .safe .link .link 0 false).1, acc.2 ++ (acc.1.moveScreen i .safe .link .link 0 false).2)
        else acc := rfl
    have hother : ∀ j, j ≠ i → (safeStep acc i).1.fallReports j (acc.1.screenState j) .safe =
        acc.1.fallReports j (acc.1.screenState j) .safe ∧
        (safeStep acc i).1.handedReports j .safe = acc.1.handedReports j .safe := by
      intro j hj
      rw [hstep]
      split
      · exact acc.1.moveScreen_otherReports i .link .link 0 false .safe .safe j hj _
      · exact ⟨rfl, rfl⟩
    have hplay : ∀ j, j ≠ i → (safeStep acc i).1.playing j = acc.1.playing j ∧
        (safeStep acc i).1.screenState j = acc.1.screenState j := by
      intro j hj
      constructor
      · rw [State.playing, State.screenState, a1 j hj]; rfl
      · rw [State.screenState, a1 j hj]; rfl
    have hown : ∃ own, (safeStep acc i).2 = acc.2 ++ own ∧
        (acc.1.playing i = true → ∃ gs : List (List Report), own = gs.flatten ∧
          gs.Perm [[.state i (acc.1.screenState i) .safe .link], acc.1.fallReports i (acc.1.screenState i) .safe,
            acc.1.handedReports i .safe]) ∧
        (acc.1.playing i = false → own = []) ∧ (safeStep acc i).1.ci = acc.1.ci ∧
        (safeStep acc i).1.ce =
          (if acc.1.playing i then (acc.1.pushTrigger ⟨.state i .safe, 0⟩).ce else acc.1.ce) := by
      rw [hstep]
      by_cases hp : acc.1.playing i = true
      · rw [if_pos hp, if_pos hp]
        obtain ⟨⟨gs, g1, g2⟩, g3, g4⟩ := acc.1.moveScreen_reports i .safe .link .link 0 false
        exact ⟨_, rfl, fun _ => ⟨gs, g2, g1⟩, fun h => absurd hp (by rw [h]; simp), g3, g4⟩
      · rw [if_neg hp, if_neg hp]
        exact ⟨[], by simp, fun h => absurd h hp, fun _ => rfl, rfl, rfl⟩
    obtain ⟨own, o1, o2, o3, o4, o5⟩ := hown
    obtain ⟨⟨reports, b1, b2⟩, b3, b4⟩ := ih hl.2 (safeStep acc i)
    refine ⟨⟨fun j => if j = i then own else reports j, ?_, fun j hj => ?_⟩, b3.trans o4, ?_⟩
    · rw [b1, o1, List.flatMap_cons, if_pos rfl, List.append_assoc]
      congr 2
      apply List.flatMap_congr
      intro j hj
      rw [if_neg]; rintro rfl; exact hl.1 hj
    · rcases List.mem_cons.mp hj with rfl | hj
      · dsimp only; rw [if_pos rfl]; exact ⟨o2, o3⟩
      · have hne : j ≠ i := fun h => hl.1 (h ▸ hj)
        have := b2 j hj
        rw [(hplay j hne).1, (hplay j hne).2, (hother j hne).1, (hother j hne).2] at this
        dsimp only; rw [if_neg hne]; exact this
    · rw [b4]
      have hfil : (l.filter fun j => (safeStep acc i).1.playing j) = l.filter fun j => acc.1.playing j :=
        List.filter_congr fun j hj => (hplay j (fun h => hl.1 (h ▸ hj))).1
      have hpush : ∀ (ts : List Trigger) (u v : State), u.ce = v.ce →
          (ts.foldl State.pushTrigger u).ce = (ts.foldl State.pushTrigger v).ce := by
        intro ts
        induction ts with
        | nil => intro u v h; exact h
        | cons x ts ih => intro u v h; exact ih _ _ (State.pushTrigger_ce h x)
      rw [hfil, List.filter_cons]
      by_cases hp : acc.1.playing i = true
      · rw [if_pos hp, List.map_cons, List.foldl_cons]
        exact hpush _ _ _ (o5.trans (if_pos hp))
      · rw [if_neg hp]
        exact hpush _ _ _ (o5.trans (if_neg hp))

/-- The reports and the triggers of the playing screens' entries into SAFE, in ascending order. -/
theorem State.safeAll_reports :
    (∃ reports : Fin 8 → List Report, s.safeAll.2 = (List.finRange 8).flatMap reports ∧
      ∀ i, (s.playing i = true → ∃ gs : List (List Report), reports i = gs.flatten ∧
          gs.Perm [[.state i (s.screenState i) .safe .link], s.fallReports i (s.screenState i) .safe,
            s.handedReports i .safe]) ∧
        (s.playing i = false → reports i = [])) ∧
      s.safeAll.1.ci = s.ci ∧
      s.safeAll.1.ce = ((((List.finRange 8).filter fun i => s.playing i).map fun i => ⟨.state i .safe, 0⟩).foldl
        State.pushTrigger s).ce := by
  have hs : s.safeAll = (List.finRange 8).foldl safeStep (s, []) := by unfold State.safeAll safeStep; rfl
  obtain ⟨⟨reports, h1, h2⟩, h3, h4⟩ := safeStep_reports (List.finRange 8) (List.nodup_finRange 8) (s, [])
  rw [hs]
  exact ⟨⟨reports, by rw [h1]; rfl, fun i => h2 i (List.mem_finRange i)⟩, h3, h4⟩

end Sys2Proof.Machine
end

