-- ==== Sys2Proof/Laws/Falls.lean ====
section
/-! SUPPORT. What a change of a screen's state, a loss of the upstream port and the start of a crossfade do to the alarm
monitor and the protect ramps, and what becomes of a pending apply: one lemma for each; and the reports of a crossfade's
start. -/

namespace Sys2Proof.Machine

variable (s : State)

/-- What a change does to the alarm monitor and the protect ramps is a matter of these and of the tables alone. -/
theorem State.FallsFollow.congr {s t u v : State} {i : Fin 8} {old target : ScreenState} (h : s.FallsFollow t i old target)
    (ham : u.am = s.am) (hos : u.os = s.os) (hts : u.ts = s.ts) (ham' : v.am = t.am) (hos' : v.os = t.os)
    (hts' : v.ts = t.ts) : u.FallsFollow v i old target := by
  have he : ∀ e, u.alarmEntry e = s.alarmEntry e := by
    intro e; simp only [State.alarmEntry, State.alarmWord, State.word, hts]
  have he' : ∀ e, v.alarmEntry e = t.alarmEntry e := by
    intro e; simp only [State.alarmEntry, State.alarmWord, State.word, hts']
  have hf : v.targetsFollow ↔ t.targetsFollow := by simp only [State.targetsFollow, ham', he']
  unfold State.FallsFollow at h ⊢
  simp only [ham, hos, ham', hos', he, hf]
  exact h

/-- Records of the entries a test picks fall; nothing else of the alarm monitor changes. -/
theorem State.forceEntries_am (pick : AlarmEntry → Bool) :
    let t := (s.forceEntries pick).1
    (∀ e, t.am.entries.get e =
      if pick (s.alarmEntry e) = true then (s.am.entries.get e).fallen else s.am.entries.get e) ∧
      t.am.demands = s.am.demands ∧ t.am.slots = s.am.slots ∧ t.am.lines = s.am.lines ∧
      t.am.targets = s.am.targets ∧ t.ts = s.ts := by
  rw [s.forceEntries_spec]
  exact ⟨fun e => by simp only [Tab.get_ofFn], rfl, rfl, rfl, rfl, rfl⟩

/-- What a recomputation of the targets leaves, and that the protect ramps take them. -/
theorem State.recomputeTargets_keeps :
    let t := s.recomputeTargets
    t.am.entries = s.am.entries ∧ t.am.demands = s.am.demands ∧ t.am.slots = s.am.slots ∧ t.am.lines = s.am.lines ∧
      t.ts = s.ts ∧ t.os.gains = s.os.gains ∧ t.os.window = s.os.window ∧
      ∀ i c, (t.os.channels.get i).get c =
        ((s.os.channels.get i).get c).protectTake ((t.am.targets.get i).get c) :=
  ⟨rfl, rfl, rfl, rfl, rfl, rfl, rfl, fun i c => by
    simp only [State.recomputeTargets, State.takeTargets, Tab.get_ofFn]⟩

/-- What the blocks do with a change of a screen's state outside a scan, in the alarm monitor and the protect ramps. -/
theorem State.followMove_falls (i : Fin 8) (old target : ScreenState) (hst : s.screenState i = target) :
    s.FallsFollow (s.followMove i old target false).1 i old target := by
  have hstand : ∀ t : State, t.am = s.am → t.os = s.os → t.ts = s.ts → target ≠ .offline →
      ¬(old.playing = true ∧ target.playing = false) → s.FallsFollow t i old target := by
    intro t ham hos hts ho hp
    refine ⟨fun e => ?_, by rw [ham], by rw [ham], by rw [ham], by rw [hos], fun _ _ => by rw [hos], fun h => ?_,
      fun _ _ => ⟨by rw [ham], by rw [hos]⟩⟩
    · rw [ham]
      dsimp only
      rw [if_neg]
      rintro ⟨-, h | ⟨h1, h2, -⟩⟩
      · exact ho h
      · exact hp ⟨h1, h2⟩
    · rcases h with h | h
      · exact absurd h ho
      · exact absurd h hp
  unfold State.followMove
  split
  · next ho =>
    subst ho
    obtain ⟨z, hz, -, -, z1, z2, -, z3⟩ := s.disable_eq i
    have he : ∀ e, z.alarmEntry e = s.alarmEntry e := by
      intro e; simp only [State.alarmEntry, State.alarmWord, State.word, z2]
    obtain ⟨f1, f2, f3, f4, -, f6⟩ := z.forceEntries_am fun a => a.screen == i
    have f7 := z.forceEntries_os fun a => a.screen == i
    rw [hz]
    generalize (z.forceEntries fun a => a.screen == i).1 = f at *
    obtain ⟨k1, k2, k3, k4, -, k6, k7, k8⟩ := f.recomputeTargets_keeps
    have hfollow := f.recomputeTargets_follow
    generalize f.recomputeTargets = y at *
    refine ⟨fun e => ?_, by rw [k2, f2, z1], by rw [k3, f3, z1], by rw [k4, f4, z1], by rw [k7, f7, z3], fun j hj => ?_,
      fun _ => ⟨hfollow, fun j c hj => ?_⟩, fun h => absurd rfl h⟩
    · rw [k1, f1, he, z1]
      simp only [true_or, and_true, beq_iff_eq]
      rfl
    · have : j ≠ i := hj.resolve_right fun h => h rfl
      rw [k6, f7, z3]
      exact Tab.get_set_other _ _ this
    · have : j ≠ i := hj.resolve_right fun h => h rfl
      rw [k8, f7, z3, Tab.get_modify_other _ _ this]
      rfl
  · next ho =>
    split
    · next hold =>
      have hu : ((s.allocateBank i (s.activeBank i)).clearScreen i).unpaged = s.unpaged := by simp
      have hd : ∀ (r : State) (f : DecodeRecord → DecodeRecord),
          (r.modifyDecode i f).am = r.am ∧ (r.modifyDecode i f).os = r.os ∧ (r.modifyDecode i f).ts = r.ts :=
        fun _ _ => ⟨rfl, rfl, rfl⟩
      have he : (s.enable i).am = s.am ∧ (s.enable i).os = s.os ∧ (s.enable i).ts = s.ts := by
        unfold State.enable
        dsimp only
        generalize (s.allocateBank i (s.activeBank i)).clearScreen i = r at hu ⊢
        exact ⟨(hd _ _).1.trans (State.unpaged_am hu), (hd _ _).2.1.trans (State.unpaged_os hu),
          (hd _ _).2.2.trans (State.outer_ts (State.unpaged_outer hu))⟩
      exact hstand _ he.1 he.2.1 he.2.2 ho (by rw [hold]; rintro ⟨h, -⟩; cases h)
    · split
      · next hp =>
        rw [Bool.and_eq_true, Bool.not_eq_true'] at hp
        have hno : ∀ a : AlarmEntry, a.screen = i → s.floorEligible a = false := by
          intro a ha
          rw [State.floorEligible, ha, State.playing, hst, hp.2, Bool.false_and]
        obtain ⟨f1, f2, f3, f4, -, -⟩ := s.forceEntries_am fun a =>
          a.source == some .floor && a.screen == i && !s.floorEligible a
        have f7 := s.forceEntries_os fun a => a.source == some .floor && a.screen == i && !s.floorEligible a
        have hfl : s.forceFloors i = s.forceEntries fun a =>
          a.source == some .floor && a.screen == i && !s.floorEligible a := rfl
        rw [hfl]
        dsimp only
        rw [if_neg Bool.false_ne_true]
        generalize (s.forceEntries fun a => a.source == some .floor && a.screen == i && !s.floorEligible a).1 = f at *
        obtain ⟨k1, k2, k3, k4, -, k6, k7, k8⟩ := f.recomputeTargets_keeps
        have hfollow := f.recomputeTargets_follow
        generalize f.recomputeTargets = y at *
        refine ⟨fun e => ?_, by rw [k2, f2], by rw [k3, f3], by rw [k4, f4], by rw [k7, f7], fun j _ => by rw [k6, f7],
          fun _ => ⟨hfollow, fun j c _ => by rw [k8, f7]; rfl⟩, fun _ h => absurd hp h⟩
        rw [k1, f1]
        dsimp only
        by_cases hs : (s.alarmEntry e).screen = i
        · rw [hno _ hs]
          simp only [hs, ho, hp, true_and, false_or, beq_self_eq_true, Bool.and_true, Bool.not_false,
            beq_iff_eq]
          rfl
        · simp [hs]
      · next hp =>
        exact hstand s rfl rfl rfl ho fun h => hp (by simp [h])

/-- A change of a screen's state outside a scan: what it does to the alarm monitor and the protect ramps, and to a pending
apply (R8, R104, R109, R112). -/
theorem State.moveScreen_falls (i : Fin 8) (target : ScreenState) (cause : StateCause) (safeCause : SafeCause)
    (depth : Nat) :
    let t := (s.moveScreen i target cause safeCause depth false).1
    s.FallsFollow t i (s.screenState i) target ∧ s.ApplyHanded t i target := by
  dsimp only
  unfold State.moveScreen
  dsimp only
  have h1 : ∀ r : State, ∀ gs, (r.mergeReports gs).1.silent = r.silent := fun r gs => r.silent_mergeReports gs
  have hdips : ∀ m : State, (s.modifyScreen i fun r => r.move target safeCause (s.safeGain i)) = m →
      let hand := (m.handPending i (s.sc.get i) target).1
      hand.screenState i = target ∧ s.ApplyHanded hand i target := by
    intro m hm
    dsimp only
    have hsc : m.sc.get i = (s.sc.get i).move target safeCause (s.safeGain i) := by
      rw [← hm]; exact Tab.get_modify_same _ _ _
    have hst : m.screenState i = target := by rw [State.screenState, hsc]; rfl
    have hme : m.eq = s.eq := by rw [← hm]; rfl
    have hpend : (m.sc.get i).pendingApply = if target.playing = true then (s.sc.get i).pendingApply else none := by
      rw [hsc]; rfl
    unfold State.handPending
    cases hp : (s.sc.get i).pendingApply with
    | none =>
      refine ⟨by rw [State.screenState, hsc]; rfl, by rw [hpend], fun _ => ⟨by rw [hme], by rw [hsc]; rfl⟩,
        fun o h => (by rw [hp] at h; cases h)⟩
    | some origin =>
      dsimp only
      by_cases ht : target.playing = true
      · rw [if_pos ht]
        exact ⟨by rw [State.screenState, hsc]; rfl, hpend, fun _ => ⟨by rw [hme], by rw [hsc]; rfl⟩,
          fun o _ h => (by rw [ht] at h; cases h)⟩
      · rw [if_neg ht]
        unfold State.handApply
        have hno : target.playing = true ∨ (s.sc.get i).pendingApply = none → False := by
          rintro (h | h)
          · exact ht h
          · rw [hp] at h; cases h
        rw [hme]
        cases hd : s.eq.dips.get i with
        | none =>
          dsimp only
          have hb : (m.beginDip i ⟨origin, true⟩).sc.get i =
              { m.sc.get i with dip := (m.sc.get i).dip.retarget 0 256 } := Tab.get_modify_same _ _ _
          refine ⟨by rw [State.screenState, hb, hsc]; rfl, by rw [hb]; exact hpend, fun h => (hno h).elim,
            fun o ho _ => ⟨fun _ => ⟨?_, by rw [hb, hsc]; rfl⟩, fun a b h => ?_, fun a b h => ?_⟩⟩
          · rw [hp] at ho
            cases ho
            show m.eq.dips.set i _ = _
            rw [hme]
          · rw [hd] at h; cases h
          · rw [hd] at h; cases h
        | some d =>
          obtain ⟨phase, swap, waiting⟩ := d
          dsimp only
          have hset : ∀ x, (m.setDip i x).sc = m.sc ∧ (m.setDip i x).eq.dips = m.eq.dips.set i x := fun _ => ⟨rfl, rfl⟩
          have hfall : ∀ x : Dip, s.ApplyHanded (m.setDip i (some x)) i target ↔
              (∀ o, (s.sc.get i).pendingApply = some o → target.playing = false →
                (∀ a b, s.eq.dips.get i = some ⟨.fall, a, b⟩ →
                  s.eq.dips.set i (some x) = s.eq.dips.set i (some ⟨.fall, a, b ++ [⟨o, true⟩]⟩)) ∧
                ∀ a b, s.eq.dips.get i = some ⟨.rise, some a, b⟩ → s.eq.dips.set i (some x) = s.eq.dips) := by
            intro x
            have hD : ((m.setDip i (some x)).sc.get i).dip = (s.sc.get i).dip := by rw [(hset _).1, hsc]; rfl
            have hP : ((m.setDip i (some x)).sc.get i).pendingApply =
              if target.playing = true then (s.sc.get i).pendingApply else none := by rw [(hset _).1]; exact hpend
            unfold State.ApplyHanded
            simp only [hD, hP, (hset _).2, hme, and_true, true_and]
            constructor
            · exact fun h o ho hq => ⟨(h.2 o ho hq).2.1, (h.2 o ho hq).2.2⟩
            · exact fun h => ⟨fun hn => (hno hn).elim, fun o ho hq =>
                ⟨fun hn => (by rw [hd] at hn; cases hn), (h o ho hq).1, (h o ho hq).2⟩⟩
          cases phase with
          | fall =>
            refine ⟨hst, (hfall _).2 fun o ho _ => ⟨fun a b h => ?_, fun a b h => ?_⟩⟩
            · rw [hp] at ho; cases ho
              rw [hd] at h; cases h; rfl
            · rw [hd] at h; cases h
          | rise =>
            cases swap with
            | none =>
              refine ⟨hst,
                (hfall _).2 fun o ho _ => ⟨fun a b h => ?_, fun a b h => ?_⟩⟩
              · rw [hd] at h; cases h
              · rw [hd] at h; cases h
            | some result =>
              refine ⟨by rw [State.screenState, hsc]; rfl, hpend, fun h => (hno h).elim, fun o ho _ =>
                ⟨fun h => (by rw [hd] at h; cases h), fun a b h => (by rw [hd] at h; cases h),
                  fun a b _ => ⟨by rw [hme], by rw [hsc]; rfl⟩⟩⟩
  obtain ⟨d1, d2⟩ := hdips _ rfl
  generalize hm : (s.modifyScreen i fun r => r.move target safeCause (s.safeGain i)) = m at d1 d2 ⊢
  obtain ⟨-, -, hp3, hp4, hp5, -⟩ := m.handPending_spec i (s.sc.get i) target
  generalize m.handPending i (s.sc.get i) target = hand at d1 d2 hp3 hp4 hp5 ⊢
  obtain ⟨hf1, hf2, hf3, -⟩ := hand.1.followMove_spec i (s.sc.get i).state target false
  have hfall := hand.1.followMove_falls i (s.sc.get i).state target d1
  generalize hand.1.followMove i (s.sc.get i).state target false = follow at hf1 hf2 hf3 hfall ⊢
  have hsil := follow.1.silent_makeTrigger (.state i target) depth
  generalize follow.1.makeTrigger (.state i target) depth = made at hsil ⊢
  have hsil2 := (h1 made [[.state i (s.sc.get i).state target cause], follow.2, hand.2]).trans hsil
  generalize made.mergeReports [[.state i (s.sc.get i).state target cause], follow.2, hand.2] = done at hsil2 ⊢
  constructor
  · refine hfall.congr ?_ ?_ ?_ (State.silent_am hsil2) (State.silent_os hsil2)
      (State.outer_ts (congrArg Silent.outer hsil2))
    · rw [hp4, ← hm]; rfl
    · rw [hp3, ← hm]; rfl
    · rw [State.outer_ts (State.aside_outer hp5), ← hm]; rfl
  · have e1 : done.1.sc = hand.1.sc := (State.silent_sc hsil2).trans hf1
    have e2 : done.1.eq.dips = hand.1.eq.dips := (congrArg Equaliser.dips (State.silent_eq hsil2)).trans hf3
    unfold State.ApplyHanded at d2 ⊢
    rw [e1, e2]
    exact d2

/-- The targets follow the entries where the entries, the tables and the targets are those of a state whose targets do. -/
theorem State.targetsFollow.congr {s t : State} (h : s.targetsFollow) (hts : t.ts = s.ts)
    (he : ∀ e, t.am.entries.get e = s.am.entries.get e) (ht : t.am.targets = s.am.targets) : t.targetsFollow := by
  have ha : ∀ e, t.alarmEntry e = s.alarmEntry e := by
    intro e; simp only [State.alarmEntry, State.alarmWord, State.word, hts]
  unfold State.targetsFollow at h ⊢
  simp only [he, ht, ha]
  exact h

/-- The alarm monitor and the protect ramps after the fold that takes the playing screens of a list into SAFE. -/
theorem safeStep_falls (l : List (Fin 8)) (hl : l.Nodup) (acc : State × List Report) :
    let t := (l.foldl safeStep acc).1
    (∀ e, t.am.entries.get e =
      if acc.1.playing (acc.1.alarmEntry e).screen = true ∧ (acc.1.alarmEntry e).screen ∈ l ∧
          (acc.1.alarmEntry e).source = some .floor then (acc.1.am.entries.get e).fallen
      else acc.1.am.entries.get e) ∧
      t.am.demands = acc.1.am.demands ∧ t.am.slots = acc.1.am.slots ∧ t.am.lines = acc.1.am.lines ∧
      t.os.gains = acc.1.os.gains ∧ t.os.window = acc.1.os.window ∧
      (∀ i c, ∃ protect, protect.value = ((acc.1.os.channels.get i).get c).protect.value ∧
        (t.os.channels.get i).get c = { (acc.1.os.channels.get i).get c with protect := protect }) ∧
      ((∀ i ∈ l, acc.1.playing i = false) → t.am.targets = acc.1.am.targets ∧ t.os = acc.1.os) ∧
      ((∃ i ∈ l, acc.1.playing i = true) → t.targetsFollow ∧
        ∀ i c, ((t.os.channels.get i).get c).protect.target = (t.am.targets.get i).get c) := by
  induction l generalizing acc with
  | nil =>
    exact ⟨fun e => by simp, rfl, rfl, rfl, rfl, rfl, fun i c => ⟨_, rfl, rfl⟩, fun _ => ⟨rfl, rfl⟩,
      fun ⟨i, h, _⟩ => absurd h (by simp)⟩
  | cons i l ih =>
    rw [List.nodup_cons] at hl
    dsimp only [List.foldl_cons]
    obtain ⟨a1, -, -, a4, -⟩ := safeStep_spec acc i
    have hts : (safeStep acc i).1.ts = acc.1.ts := State.outer_ts (State.aside_outer a4)
    -- the first screen's turn
    have hone : (acc.1.playing i = false → (safeStep acc i).1 = acc.1) ∧
        (acc.1.playing i = true → acc.1.FallsFollow (safeStep acc i).1 i (acc.1.screenState i) .safe) := by
      unfold safeStep
      by_cases hp : acc.1.playing i = true
      · rw [if_pos hp]
        refine ⟨fun h => absurd h (by rw [hp]; simp), fun _ => ?_⟩
        exact (acc.1.moveScreen_falls i .safe .link .link 0).1
      · rw [if_neg hp]
        exact ⟨fun _ => rfl, fun h => absurd h hp⟩
    generalize safeStep acc i = next at a1 a4 hts hone ⊢
    have hent : ∀ e, next.1.alarmEntry e = acc.1.alarmEntry e := by
      intro e; simp only [State.alarmEntry, State.alarmWord, State.word, hts]
    have hplay : ∀ j, j ≠ i → next.1.playing j = acc.1.playing j := by
      intro j hj; rw [State.playing, State.screenState, a1 j hj]; rfl
    have hmem : ∀ j ∈ l, j ≠ i := fun j hj h => hl.1 (h ▸ hj)
    obtain ⟨b1, b2, b3, b4, b5, b6, b7, b8, b9⟩ := ih hl.2 next
    dsimp only at b1 b2 b3 b4 b5 b6 b7 b8 b9
    have hts' : (l.foldl safeStep next).1.ts = next.1.ts :=
      State.outer_ts (State.aside_outer (safeStep_fold l hl.2 next).2.2.1)
    generalize (l.foldl safeStep next).1 = t at b1 b2 b3 b4 b5 b6 b7 b8 b9 hts' ⊢
    have hb1 : ∀ e, t.am.entries.get e =
        if acc.1.playing (acc.1.alarmEntry e).screen = true ∧ (acc.1.alarmEntry e).screen ∈ l ∧
          (acc.1.alarmEntry e).source = some .floor then (next.1.am.entries.get e).fallen
        else next.1.am.entries.get e := by
      intro e
      rw [b1, hent]
      by_cases hs : (acc.1.alarmEntry e).screen ∈ l
      · rw [hplay _ (hmem _ hs)]
      · rw [if_neg fun h => hs h.2.1, if_neg fun h => hs h.2.1]
    by_cases hp : acc.1.playing i = true
    · have hstops : (acc.1.screenState i).playing = true ∧ ScreenState.safe.playing = false := ⟨hp, rfl⟩
      obtain ⟨c1, c2, c3, c4, c5, c6, c7, -⟩ := hone.2 hp
      obtain ⟨d1, d2⟩ := c7 (.inr hstops)
      refine ⟨fun e => ?_, b2.trans c2, b3.trans c3, b4.trans c4, ?_, b6.trans c5, fun j c => ?_,
        fun h => absurd (h i (by simp)) (by rw [hp]; simp), fun _ => ?_⟩
      · rw [hb1, c1]
        dsimp only
        by_cases hs : (acc.1.alarmEntry e).screen = i
        · have hnl : (acc.1.alarmEntry e).screen ∉ l := by rw [hs]; exact hl.1
          rw [if_neg fun h => hnl h.2.1, hs]
          simp only [hp, hstops, true_and, List.mem_cons_self, reduceCtorEq, false_or]
          rfl
        · have : ¬((acc.1.alarmEntry e).screen = i ∧ (ScreenState.safe = .offline ∨
              ((acc.1.screenState i).playing = true ∧ ScreenState.safe.playing = false ∧
                (acc.1.alarmEntry e).source = some .floor))) := fun h => hs h.1
          rw [if_neg this]
          simp only [List.mem_cons, hs, false_or]
      · rw [b5]
        apply Tab.ext_get
        intro j
        exact c6 j (.inr (by simp))
      · obtain ⟨protect, h1, h2⟩ := b7 j c
        rw [d2 j c (.inr (by simp))] at h1 h2
        exact ⟨protect, h1.trans (Ramp.value_protectTake _ _), h2⟩
      · by_cases hq : ∃ j ∈ l, next.1.playing j = true
        · exact b9 hq
        · have hno : ∀ j ∈ l, next.1.playing j = false := by
            intro j hj
            rw [← Bool.not_eq_true]
            exact fun h => hq ⟨j, hj, h⟩
          obtain ⟨e1, e2⟩ := b8 hno
          refine ⟨d1.congr hts' (fun e => ?_) e1, fun j c => ?_⟩
          · rw [b1, if_neg]
            rintro ⟨h1, h2, -⟩
            rw [hno _ h2] at h1
            cases h1
          · rw [e2, e1, d2 j c (.inr (by simp))]
            exact Ramp.target_protectTake _ _
    · have hpf : acc.1.playing i = false := by simpa using hp
      have hn := hone.1 hpf
      rw [hn] at b1 b2 b3 b4 b5 b6 b7 b8 b9
      refine ⟨fun e => ?_, b2, b3, b4, b5, b6, b7, fun h => b8 fun j hj => h j (List.mem_cons_of_mem _ hj), ?_⟩
      · rw [b1]
        by_cases hs : (acc.1.alarmEntry e).screen = i
        · rw [hs, if_neg fun h => hp h.1, if_neg fun h => hp h.1]
        · simp only [List.mem_cons, hs, false_or]
      · rintro ⟨j, hj, h⟩
        rcases List.mem_cons.mp hj with rfl | hj
        · exact absurd h hp
        · exact b9 ⟨j, hj, h⟩

/-- The alarm monitor and the protect ramps after every playing screen has entered SAFE (R104, R109). -/
theorem State.safeAll_falls :
    let t := s.safeAll.1
    (∀ e, t.am.entries.get e =
      if s.playing (s.alarmEntry e).screen = true ∧ (s.alarmEntry e).source = some .floor then
        (s.am.entries.get e).fallen
      else s.am.entries.get e) ∧
      t.am.demands = s.am.demands ∧ t.am.slots = s.am.slots ∧ t.am.lines = s.am.lines ∧
      t.os.gains = s.os.gains ∧ t.os.window = s.os.window ∧
      (∀ i c, ∃ protect, protect.value = ((s.os.channels.get i).get c).protect.value ∧
        (t.os.channels.get i).get c = { (s.os.channels.get i).get c with protect := protect }) ∧
      ((∀ i, s.playing i = false) → t.am.targets = s.am.targets ∧ t.os = s.os) ∧
      ((∃ i, s.playing i = true) → t.targetsFollow ∧
        ∀ i c, ((t.os.channels.get i).get c).protect.target = (t.am.targets.get i).get c) := by
  have hs : s.safeAll = (List.finRange 8).foldl safeStep (s, []) := by unfold State.safeAll safeStep; rfl
  obtain ⟨h1, h2, h3, h4, h5, h6, h7, h8, h9⟩ := safeStep_falls (List.finRange 8) (List.nodup_finRange 8) (s, [])
  rw [hs]
  simp only [List.mem_finRange, true_and] at h1
  exact ⟨h1, h2, h3, h4, h5, h6, h7, fun h => h8 fun i _ => h i, fun ⟨i, h⟩ => h9 ⟨i, List.mem_finRange i, h⟩⟩

/-- A FLOOR entry's channels as a decode record leaves them: its screen plays and the incoming profile drives a channel of
the entry's (R104). -/
def State.WatchedBy (s : State) (a : AlarmEntry) (d : DecodeRecord) : Prop :=
  s.playing a.screen = true ∧ ∃ q k, d.incoming = some ⟨q, k⟩ ∧
    (a.channel < 16 → s.profileMask q / 2 ^ a.channel % 2 = 1) ∧ (16 ≤ a.channel → s.profileMask q ≠ 0)

/-- A crossfade of a screen starts in a link frame whose decode pass leaves the record `d` (R53). -/
def State.FadeStarts (s : State) (i : Fin 8) (d : DecodeRecord) : Prop :=
  s.screenState i ≠ .offline ∧ (s.de.get i).justEnabled = false ∧ (s.de.get i).incoming = none ∧ d.incoming ≠ none

/-- The start of a crossfade, by the record before it and the record after it. -/
theorem DecodeRecord.crossfade_starts (d : DecodeRecord) (p : Fin 16) :
    (d.crossfade p).2 = true ↔ d.justEnabled = false ∧ d.incoming = none ∧ (d.crossfade p).1.incoming ≠ none := by
  unfold DecodeRecord.crossfade DecodeRecord.enabled
  cases hj : d.justEnabled
  · cases hi : d.incoming with
    | none =>
      simp only [Bool.false_eq_true, if_false]
      by_cases hc : d.current = some p <;> simp [hc, hi]
    | some inc => simp
  · simp

/-- The parts of a decode record that the format selection keeps. -/
theorem State.selectedRecord_keeps (i : Fin 8) (d : DecodeRecord) :
    (s.selectedRecord i d).incoming = d.incoming ∧ (s.selectedRecord i d).justEnabled = d.justEnabled := by
  have h : ∀ r f, (d.observe r f).incoming = d.incoming ∧ (d.observe r f).justEnabled = d.justEnabled := by
    intro r f
    unfold DecodeRecord.observe
    split
    · exact ⟨rfl, rfl⟩
    · exact ⟨rfl, rfl⟩
    · split
      · exact ⟨rfl, rfl⟩
      · split
        · split
          · split <;> exact ⟨rfl, rfl⟩
          · exact ⟨rfl, rfl⟩
        · exact ⟨rfl, rfl⟩
  exact h _ _

/-- A screen's part of the decode pass leaves the alarm monitor and the queues alone where no crossfade starts, and otherwise
does to them what a crossfade's start does in a state with the screen's new incoming profile. -/
theorem State.decodeFrame_cases (i : Fin 8) :
    let t := s.decodeFrame i
    let d := s.decodedRecord i (s.de.get i)
    (¬s.FadeStarts i d → t.am = s.am ∧ t.ci = s.ci) ∧
      (s.FadeStarts i d → ∃ u : State, u.am = s.am ∧ u.ts = s.ts ∧ u.sc = s.sc ∧ u.ci = s.ci ∧
        (u.de.get i).incoming = d.incoming ∧ t.am = (u.fadeStarted i).am ∧ t.ts = (u.fadeStarted i).ts ∧
        t.ci = (u.fadeStarted i).ci) := by
  dsimp only
  unfold State.decodeFrame
  dsimp only
  rw [State.selectFormat_eq]
  have hsc : (s.modifyDecode i (s.selectedRecord i)).screenState i = s.screenState i := rfl
  rw [hsc]
  split
  · next ho => exact ⟨fun _ => ⟨rfl, rfl⟩, fun h => absurd ho h.1⟩
  · next ho =>
    obtain ⟨m, hm⟩ : ∃ m, s.modifyDecode i (s.selectedRecord i) = m := ⟨_, rfl⟩
    have hmd : m.de.get i = s.selectedRecord i (s.de.get i) := by rw [← hm]; exact Tab.get_modify_same _ _ _
    have hp : m.profileToUse i = s.formatMap i (s.formatOf i (s.selectedRecord i (s.de.get i))).1 := by
      have : m.profileToUse i = m.formatMap i (m.formatOf i (m.de.get i)).1 := rfl
      rw [this, hmd, ← hm]; rfl
    rw [hm]
    unfold State.runDecode
    rw [hp, hmd]
    obtain ⟨k1, k2⟩ := s.selectedRecord_keeps i (s.de.get i)
    have hcf := (s.selectedRecord i (s.de.get i)).crossfade_starts
      (s.formatMap i (s.formatOf i (s.selectedRecord i (s.de.get i))).1)
    have hrec : (s.decodedRecord i (s.de.get i)).incoming = ((s.selectedRecord i (s.de.get i)).crossfade
        (s.formatMap i (s.formatOf i (s.selectedRecord i (s.de.get i))).1)).1.incoming := by
      unfold State.decodedRecord State.runRecord
      rw [if_neg ho]
      dsimp only
      split <;> rfl
    generalize s.decodedRecord i (s.de.get i) = final at hrec ⊢
    generalize (s.selectedRecord i (s.de.get i)).crossfade
      (s.formatMap i (s.formatOf i (s.selectedRecord i (s.de.get i))).1) = x at hcf hrec ⊢
    obtain ⟨d, started⟩ := x
    dsimp only at hcf hrec ⊢
    rw [k1, k2, ← hrec] at hcf
    have hst : s.FadeStarts i final ↔ started = true :=
      ⟨fun h => hcf.2 ⟨h.2.1, h.2.2.1, h.2.2.2⟩, fun h => ⟨ho, hcf.1 h⟩⟩
    have hlast : ∀ (n : State) (f : DecodeRecord → DecodeRecord),
        (if n.usesSteering d then n.modifyDecode i f else n).am = n.am ∧
          (if n.usesSteering d then n.modifyDecode i f else n).ts = n.ts ∧
          (if n.usesSteering d then n.modifyDecode i f else n).ci = n.ci := by
      intro n f; split <;> exact ⟨rfl, rfl, rfl⟩
    rw [hst]
    refine ⟨fun hn => ?_, fun hs => ⟨m.modifyDecode i fun _ => d, ?_, ?_, ?_, ?_, ?_, ?_⟩⟩
    · rw [if_neg hn, (hlast _ _).1, (hlast _ _).2.2, ← hm]
      exact ⟨rfl, rfl⟩
    · rw [← hm]; rfl
    · rw [← hm]; rfl
    · rw [← hm]; rfl
    · rw [← hm]; rfl
    · rw [hrec]
      exact congrArg DecodeRecord.incoming (Tab.get_modify_same _ _ _)
    · rw [if_pos hs]
      exact hlast _ _

/-- A FLOOR entry is eligible in a state with the screen's new incoming profile exactly when that profile watches its
channel. -/
theorem State.floorEligible_incoming {s u : State} {i : Fin 8} {d : DecodeRecord} (hts : u.ts = s.ts) (hsc : u.sc = s.sc)
    (hde : (u.de.get i).incoming = d.incoming) (hs : s.FadeStarts i d) (a : AlarmEntry) (ha : a.screen = i) :
    (u.floorEligible a = true ↔ s.WatchedBy a d) ∧
      ∀ inc, d.incoming = some inc → u.floorEligible a = s.floorWatched i a.channel inc.profile := by
  obtain ⟨inc, hinc⟩ := Option.ne_none_iff_exists'.mp hs.2.2.2
  have hmask : u.drivenMask i = s.profileMask inc.profile := by
    have hoff : u.screenState i ≠ .offline := by rw [State.screenState, hsc]; exact hs.1
    unfold State.drivenMask
    rw [if_neg hoff, hde, hinc]
    simp only [State.profileMask, State.profileHeader, State.word, hts]
  have hplay : u.playing i = s.playing i := by rw [State.playing, State.screenState, hsc]; rfl
  unfold State.floorEligible State.WatchedBy State.floorWatched
  rw [ha, hmask, hplay, hinc, Bool.and_eq_true]
  constructor
  · refine and_congr_right fun _ => ?_
    obtain ⟨q, k⟩ := inc
    by_cases hc : a.channel < 16
    · rw [dif_pos hc]
      simp only [marked, beq_iff_eq]
      constructor
      · exact fun h => ⟨q, k, rfl, fun _ => h, fun h' => absurd hc (Nat.not_lt.mpr h')⟩
      · rintro ⟨q', k', h1, h2, -⟩
        cases h1
        exact h2 hc
    · rw [dif_neg hc]
      simp only [bne_iff_ne]
      constructor
      · exact fun h => ⟨q, k, rfl, fun h' => absurd h' hc, fun _ => h⟩
      · rintro ⟨q', k', h1, -, h2⟩
        cases h1
        exact h2 (Nat.not_lt.mp hc)
  · rintro _ ⟨⟩
    dsimp only
    by_cases hc : a.channel < 16
    · rw [dif_pos hc, if_pos hc]; rfl
    · rw [dif_neg hc, if_neg hc]; rfl

/-- A screen's part of the decode pass, in the alarm monitor: the FLOOR entries that lose their channels in a crossfade's
start fall, and the targets follow (R53, R104). -/
theorem State.decodeFrame_falls (i : Fin 8) :
    let t := s.decodeFrame i
    let d := s.decodedRecord i (s.de.get i)
    (∀ e, let a := s.alarmEntry e
      (a.screen = i → s.FadeStarts i d → a.source = some .floor → ¬s.WatchedBy a d →
        t.am.entries.get e = (s.am.entries.get e).fallen) ∧
      (a.screen ≠ i ∨ ¬s.FadeStarts i d ∨ a.source ≠ some .floor ∨ s.WatchedBy a d →
        t.am.entries.get e = s.am.entries.get e)) ∧
      t.am.demands = s.am.demands ∧ t.am.slots = s.am.slots ∧ t.am.lines = s.am.lines ∧
      (s.FadeStarts i d → t.targetsFollow) ∧ (¬s.FadeStarts i d → t.am.targets = s.am.targets) := by
  dsimp only
  have hstand : ∀ t : State, t.am = s.am → ¬s.FadeStarts i (s.decodedRecord i (s.de.get i)) →
      (∀ e, ((s.alarmEntry e).screen = i → s.FadeStarts i (s.decodedRecord i (s.de.get i)) →
        (s.alarmEntry e).source = some .floor → ¬s.WatchedBy (s.alarmEntry e) (s.decodedRecord i (s.de.get i)) →
        t.am.entries.get e = (s.am.entries.get e).fallen) ∧
      ((s.alarmEntry e).screen ≠ i ∨ ¬s.FadeStarts i (s.decodedRecord i (s.de.get i)) ∨
        (s.alarmEntry e).source ≠ some .floor ∨ s.WatchedBy (s.alarmEntry e) (s.decodedRecord i (s.de.get i)) →
        t.am.entries.get e = s.am.entries.get e)) ∧
      t.am.demands = s.am.demands ∧ t.am.slots = s.am.slots ∧ t.am.lines = s.am.lines ∧
      (s.FadeStarts i (s.decodedRecord i (s.de.get i)) → t.targetsFollow) ∧
      (¬s.FadeStarts i (s.decodedRecord i (s.de.get i)) → t.am.targets = s.am.targets) := by
    intro t ht hn
    rw [ht]
    exact ⟨fun e => ⟨fun _ h => absurd h hn, fun _ => rfl⟩, rfl, rfl, rfl, fun h => absurd h hn, fun _ => rfl⟩
  obtain ⟨hno, hyes⟩ := s.decodeFrame_cases i
  by_cases hs : s.FadeStarts i (s.decodedRecord i (s.de.get i))
  · obtain ⟨u, huam, huts, husc, -, hude, l1, l2, -⟩ := hyes hs
    have helig := fun a ha => (State.floorEligible_incoming huts husc hude hs a ha).1
    generalize s.decodedRecord i (s.de.get i) = final at *
    have hent : ∀ e, u.alarmEntry e = s.alarmEntry e := by
      intro e; simp only [State.alarmEntry, State.alarmWord, State.word, huts]
    obtain ⟨f1, f2, f3, f4, -, f6⟩ := u.forceEntries_am fun a =>
      a.source == some .floor && a.screen == i && !u.floorEligible a
    have hfs : (u.fadeStarted i).am = (State.recomputeTargets (u.forceEntries fun a =>
          a.source == some .floor && a.screen == i && !u.floorEligible a).1).am ∧
        (u.fadeStarted i).ts = u.ts := by
      unfold State.fadeStarted
      have hfl : u.forceFloors i = u.forceEntries fun a =>
        a.source == some .floor && a.screen == i && !u.floorEligible a := rfl
      rw [hfl]
      generalize (u.forceEntries fun a => a.source == some .floor && a.screen == i && !u.floorEligible a) = f at f6 ⊢
      dsimp only
      have hsil := f.1.recomputeTargets.silent_queueReports f.2
      exact ⟨State.silent_am hsil, (State.outer_ts (congrArg Silent.outer hsil)).trans f6⟩
    generalize (u.forceEntries fun a => a.source == some .floor && a.screen == i && !u.floorEligible a).1 = f at *
    obtain ⟨y1, y2, y3, y4, y5, -⟩ := f.recomputeTargets_keeps
    have hfollow := f.recomputeTargets_follow
    generalize f.recomputeTargets = y at *
    refine ⟨fun e => ⟨fun h1 _ h2 h3 => ?_, fun h => ?_⟩, ?_, ?_, ?_, fun _ => ?_, fun h => absurd hs h⟩
    · rw [l1, hfs.1, y1, f1, huam, hent, if_pos]
      have : u.floorEligible (s.alarmEntry e) = false := by
        rw [← Bool.not_eq_true, helig _ h1]; exact h3
      simp [h1, h2, this]
    · rw [l1, hfs.1, y1, f1, huam, hent, if_neg]
      rw [Bool.and_eq_true, Bool.and_eq_true, beq_iff_eq, beq_iff_eq, Bool.not_eq_true']
      rintro ⟨⟨g1, g2⟩, g3⟩
      rcases h with h | h | h | h
      · exact h g2
      · exact h hs
      · exact h g1
      · rw [(helig _ g2).2 h] at g3
        cases g3
    · rw [l1, hfs.1, y2, f2, huam]
    · rw [l1, hfs.1, y3, f3, huam]
    · rw [l1, hfs.1, y4, f4, huam]
    · refine hfollow.congr ?_ (fun e => ?_) ?_
      · rw [l2, hfs.2, y5, f6]
      · rw [l1, hfs.1]
      · rw [l1, hfs.1]
  · exact hstand _ (hno hs).1 hs

/-- The decode pass in the alarm monitor: what every crossfade's start does to it. -/
theorem State.decodePass_falls :
    let t := (List.finRange 8).foldl State.decodeFrame s
    let starts (i : Fin 8) : Prop := s.FadeStarts i (s.decodedRecord i (s.de.get i))
    (∀ e, let a := s.alarmEntry e
      let watched : Prop := s.WatchedBy a (s.decodedRecord a.screen (s.de.get a.screen))
      (starts a.screen → a.source = some .floor → ¬watched →
        t.am.entries.get e = (s.am.entries.get e).fallen) ∧
      (¬starts a.screen ∨ a.source ≠ some .floor ∨ watched → t.am.entries.get e = s.am.entries.get e)) ∧
      t.am.demands = s.am.demands ∧ t.am.slots = s.am.slots ∧ t.am.lines = s.am.lines ∧
      ((∃ i, starts i) → t.targetsFollow) ∧ ((∀ i, ¬starts i) → t.am.targets = s.am.targets) := by
  have key : ∀ (l : List (Fin 8)), l.Nodup → ∀ u : State, u.undecoded = s.undecoded →
      (∀ i ∈ l, u.de.get i = s.de.get i) →
      let t := l.foldl State.decodeFrame u
      let starts (i : Fin 8) : Prop := s.FadeStarts i (s.decodedRecord i (s.de.get i))
      (∀ e, let a := s.alarmEntry e
        let watched : Prop := s.WatchedBy a (s.decodedRecord a.screen (s.de.get a.screen))
        (a.screen ∈ l → starts a.screen → a.source = some .floor → ¬watched →
          t.am.entries.get e = (u.am.entries.get e).fallen) ∧
        (a.screen ∉ l ∨ ¬starts a.screen ∨ a.source ≠ some .floor ∨ watched →
          t.am.entries.get e = u.am.entries.get e)) ∧
        t.am.demands = u.am.demands ∧ t.am.slots = u.am.slots ∧ t.am.lines = u.am.lines ∧
        ((∃ i ∈ l, starts i) → t.targetsFollow) ∧ ((∀ i ∈ l, ¬starts i) → t.am.targets = u.am.targets) ∧
        t.ts = s.ts := by
    intro l
    induction l with
    | nil =>
      intro _ u hu _
      exact ⟨fun e => ⟨fun h => absurd h (by simp), fun _ => rfl⟩, rfl, rfl, rfl, fun ⟨i, h, _⟩ => absurd h (by simp),
        fun _ => rfl, State.undecoded_ts hu⟩
    | cons i l ih =>
      intro hl u hu hde
      rw [List.nodup_cons] at hl
      dsimp only [List.foldl_cons]
      obtain ⟨d1, d2⟩ := u.decodeFrame_spec i
      obtain ⟨c1, c2, c3, c4, c5, c6⟩ := u.decodeFrame_falls i
      have hts : u.ts = s.ts := State.undecoded_ts hu
      have hui := hde i (by simp)
      have hdr : u.decodedRecord i (u.de.get i) = s.decodedRecord i (s.de.get i) := by
        rw [hui, State.decodedRecord_congr hu]
      have hfs : u.FadeStarts i (u.decodedRecord i (u.de.get i)) ↔ s.FadeStarts i (s.decodedRecord i (s.de.get i)) := by
        rw [hdr]
        unfold State.FadeStarts State.screenState
        rw [State.undecoded_sc hu, hui]
      have hent : ∀ e, u.alarmEntry e = s.alarmEntry e := by
        intro e; simp only [State.alarmEntry, State.alarmWord, State.word, hts]
      have hwb : ∀ a : AlarmEntry, a.screen = i → (u.WatchedBy a (u.decodedRecord i (u.de.get i)) ↔
          s.WatchedBy a (s.decodedRecord a.screen (s.de.get a.screen))) := by
        intro a ha
        rw [hdr, ha]
        unfold State.WatchedBy State.playing State.screenState
        simp only [State.profileMask, State.profileHeader, State.word, hts, State.undecoded_sc hu]
      simp only [hfs, hent] at c1 c5 c6
      obtain ⟨b1, b2, b3, b4, b5, b6, b7⟩ := ih hl.2 (u.decodeFrame i) (d1.trans hu) fun j hj => by
        have : j ≠ i := fun h => hl.1 (h ▸ hj)
        rw [d2, Tab.get_set_other _ _ this]
        exact hde j (List.mem_cons_of_mem _ hj)
      dsimp only at b1 b2 b3 b4 b5 b6 b7
      have hts1 : (u.decodeFrame i).ts = u.ts := State.undecoded_ts d1
      generalize u.decodeFrame i = n at *
      generalize l.foldl State.decodeFrame n = t at *
      refine ⟨fun e => ⟨fun h1 h2 h3 h4 => ?_, fun h => ?_⟩, b2.trans c2, b3.trans c3, b4.trans c4,
        fun h => ?_, fun h => ?_, b7⟩
      · by_cases hs : (s.alarmEntry e).screen = i
        · rw [(b1 e).2 (.inl (by rw [hs]; exact hl.1)), (c1 e).1 hs (hs ▸ h2) h3 fun h => h4 ((hwb _ hs).1 h)]
        · have hm := (List.mem_cons.mp h1).resolve_left hs
          rw [(b1 e).1 hm h2 h3 h4, (c1 e).2 (.inl hs)]
      · have hn : n.am.entries.get e = u.am.entries.get e := by
          by_cases hs : (s.alarmEntry e).screen = i
          · refine (c1 e).2 (.inr ?_)
            rcases h with h | h | h | h
            · exact absurd (by rw [hs]; simp) h
            · exact .inl (hs ▸ h)
            · exact .inr (.inl h)
            · exact .inr (.inr ((hwb _ hs).2 h))
          · exact (c1 e).2 (.inl hs)
        rw [← hn]
        refine (b1 e).2 ?_
        rcases h with h | h
        · exact .inl fun h' => h (List.mem_cons_of_mem _ h')
        · exact .inr h
      · by_cases hq : ∃ j ∈ l, s.FadeStarts j (s.decodedRecord j (s.de.get j))
        · exact b5 hq
        · have hno : ∀ j ∈ l, ¬s.FadeStarts j (s.decodedRecord j (s.de.get j)) := fun j hj h => hq ⟨j, hj, h⟩
          obtain ⟨j, hj, hs⟩ := h
          have hji : j = i := (List.mem_cons.mp hj).resolve_right fun h => hno j h hs
          subst hji
          refine (c5 hs).congr ?_ (fun e => ?_) (b6 hno)
          · rw [b7, hts1, hts]
          · refine (b1 e).2 ?_
            by_cases hm : (s.alarmEntry e).screen ∈ l
            · exact .inr (.inl (hno _ hm))
            · exact .inl hm
      · rw [b6 fun j hj => h j (List.mem_cons_of_mem _ hj)]
        exact c6 (h i (by simp))
  obtain ⟨k1, k2, k3, k4, k5, k6, -⟩ := key (List.finRange 8) (List.nodup_finRange 8) s rfl fun _ _ => rfl
  dsimp only at k1 k2 k3 k4 k5 k6 ⊢
  refine ⟨fun e => ⟨(k1 e).1 (List.mem_finRange _), fun h => (k1 e).2 (.inr h)⟩, k2, k3, k4,
    fun ⟨i, h⟩ => k5 ⟨i, List.mem_finRange i, h⟩,
    fun h => k6 fun i _ => h i⟩

/-- A screen's part of the decode pass queues the reports of the falls that its crossfade's start forces, and nothing else
(R53, R104). -/
theorem State.decodeFrame_ci (i : Fin 8) :
    (s.decodeFrame i).ci = (s.queueReports (s.screenFadeReports i (s.decodedRecord i (s.de.get i)))).ci := by
  obtain ⟨hno, hyes⟩ := s.decodeFrame_cases i
  by_cases hs : s.FadeStarts i (s.decodedRecord i (s.de.get i))
  · obtain ⟨u, huam, huts, husc, huci, hude, -, -, l3⟩ := hyes hs
    have helig := fun a ha => (State.floorEligible_incoming huts husc hude hs a ha).2
    generalize s.decodedRecord i (s.de.get i) = final at *
    obtain ⟨inc, hinc⟩ := Option.ne_none_iff_exists'.mp hs.2.2.2
    have hent : ∀ e, u.alarmEntry e = s.alarmEntry e := by
      intro e; simp only [State.alarmEntry, State.alarmWord, State.word, huts]
    have hrep : (u.forceFloors i).2 = s.screenFadeReports i final := by
      unfold State.screenFadeReports
      have hcond : (s.screenState i != .offline && !(s.de.get i).justEnabled && (s.de.get i).incoming.isNone) = true := by
        simp [hs.1, hs.2.1, hs.2.2.1]
      simp only [hinc, hcond, if_true]
      rw [State.forceFloors, State.forceEntries_reports]
      apply List.filterMap_congr
      intro e _
      unfold State.forcedReport alarmReport
      rw [hent, huam]
      dsimp only
      by_cases hsc : (s.alarmEntry e).screen = i
      · rw [helig _ hsc inc hinc, hsc]
        by_cases hf : (s.alarmEntry e).source = some .floor
        · rw [hf, Option.getD_some]
          cases s.floorWatched i (s.alarmEntry e).channel inc.profile <;>
            cases (s.am.entries.get e).tier <;> cases (s.alarmEntry e).reportOnClear <;> simp
        · simp [hf]
      · simp [hsc]
    rw [l3]
    unfold State.fadeStarted
    dsimp only
    rw [hrep]
    refine State.queueReports_ci ?_ _
    rw [show (u.forceFloors i).1.recomputeTargets.ci = (u.forceFloors i).1.ci from rfl, State.forceFloors,
      State.forceEntries_ci, huci]
  · rw [(hno hs).2]
    have : s.screenFadeReports i (s.decodedRecord i (s.de.get i)) = [] := by
      unfold State.screenFadeReports
      split
      · next inc hinc =>
        rw [if_neg]
        intro h
        simp only [Bool.and_eq_true, bne_iff_ne, Bool.not_eq_true', Option.isNone_iff_eq_none] at h
        exact hs ⟨h.1.1, h.1.2, h.2, by rw [hinc]; simp⟩
      · rfl
    rw [this]
    rfl

/-- Where every entry stands at NORMAL no start of a crossfade has a fall to report. -/
theorem State.fadeReports_of_normal (h : ∀ e, (s.am.entries.get e).tier = .normal) (after : Tab 8 DecodeRecord) :
    s.fadeReports after = [] := by
  unfold State.fadeReports
  rw [List.flatMap_eq_nil_iff]
  intro i _
  unfold State.screenFadeReports
  split
  · split
    · rw [List.filterMap_eq_nil_iff]
      intro e _
      simp [h e]
    · rfl
  · rfl

/-- The decode pass queues the reports of the falls that the crossfades' starts force, screen by screen, and nothing else. -/
theorem State.decodePass_ci :
    let t := (List.finRange 8).foldl State.decodeFrame s
    t.ci = (s.queueReports (s.fadeReports t.de)).ci := by
  have key : ∀ (l : List (Fin 8)), l.Nodup → ∀ u : State, u.undecoded = s.undecoded →
      (∀ i ∈ l, u.de.get i = s.de.get i) →
      (∀ e, (s.alarmEntry e).screen ∈ l → u.am.entries.get e = s.am.entries.get e) →
      (l.foldl State.decodeFrame u).ci =
        (u.queueReports (l.flatMap fun i => s.screenFadeReports i (s.decodedRecord i (s.de.get i)))).ci := by
    intro l
    induction l with
    | nil => intro _ u _ _ _; rfl
    | cons i l ih =>
      intro hl u hu hde ham
      rw [List.nodup_cons] at hl
      have hts : u.ts = s.ts := State.undecoded_ts hu
      have hent : ∀ e, u.alarmEntry e = s.alarmEntry e := by
        intro e; simp only [State.alarmEntry, State.alarmWord, State.word, hts]
      have hui := hde i (by simp)
      have hown : u.screenFadeReports i (u.decodedRecord i (u.de.get i)) =
          s.screenFadeReports i (s.decodedRecord i (s.de.get i)) := by
        rw [hui, State.decodedRecord_congr hu]
        unfold State.screenFadeReports State.floorWatched State.playing State.screenState
        rw [hui, State.undecoded_sc hu]
        simp only [hent, State.word, hts]
        split
        · split
          · apply List.filterMap_congr
            intro e _
            by_cases hsc : (s.alarmEntry e).screen = i
            · rw [ham e (by rw [hsc]; simp)]
              rfl
            · simp [hsc]
          · rfl
        · rfl
      obtain ⟨d1, d2⟩ := u.decodeFrame_spec i
      have hfall := (u.decodeFrame_falls i).1
      have hci := u.decodeFrame_ci i
      rw [List.foldl_cons, List.flatMap_cons, ih hl.2 _ (d1.trans hu), State.queueReports_append]
      · refine State.queueReports_ci ?_ _
        rw [hci, hown]
      · intro j hj
        have : j ≠ i := fun h => hl.1 (h ▸ hj)
        rw [d2, Tab.get_set_other _ _ this]
        exact hde j (List.mem_cons_of_mem _ hj)
      · intro e he
        have : (u.alarmEntry e).screen ≠ i := by rw [hent]; exact fun h => hl.1 (h ▸ he)
        rw [(hfall e).2 (.inl this)]
        exact ham e (List.mem_cons_of_mem _ he)
  dsimp only
  rw [key _ (List.nodup_finRange 8) s rfl (fun _ _ => rfl) fun _ _ => rfl]
  simp only [State.fadeReports, s.decodePass_spec.2]

/-- The work of a link frame whose upstream frame has come, with no change of lock due and no request waiting, with its queues:
the decode pass gives a state d that holds the reports of the forced falls behind those that waited, and two bytes are sent
from it. -/
theorem State.work_queues (lines : BitVec 16) (keyLocked : Bool) (h1 : s.li.upSeen = true) (h2 : s.li.up.lockDue = false)
    (h3 : s.li.up.lossDue = false) (h4 : s.ci.requests = []) :
    ∃ d : State, d.undecoded = State.undecoded { s with bl := (s.sampleLines lines keyLocked).bl } ∧
      d.ci = (s.queueReports (s.fadeReports d.de)).ci ∧
      s.work lines keyLocked =
        { d.runChannels.sendBytes with li := { d.runChannels.sendBytes.li with worked := true } } := by
  obtain ⟨d, g1, g2, -, g4, g5⟩ := s.work_eq lines keyLocked h1 h2 h3 h4
  have hl : s.sampleLines lines keyLocked = { s with bl := (s.sampleLines lines keyLocked).bl } := by
    unfold State.sampleLines; split <;> rfl
  refine ⟨d, g1, ?_, g5⟩
  have hci := (s.sampleLines lines keyLocked).decodePass_ci
  have hde := (s.sampleLines lines keyLocked).decodePass_spec.2
  generalize s.sampleLines lines keyLocked = b at *
  have hb : b.fadeReports = s.fadeReports := by rw [hl]; rfl
  have hsame : ((List.finRange 8).foldl State.decodeFrame b).de = d.de := by
    apply Tab.ext_get
    intro i
    rw [hde, g2, hl]
    rfl
  rw [g4, hci, hb, hsame]
  exact State.queueReports_ci (by rw [hl]) _

/-- The work of a link frame whose upstream frame has come, with no change of lock due and no request waiting, in the alarm
monitor: it is the decode pass's. -/
theorem State.work_am (lines : BitVec 16) (keyLocked : Bool) (h1 : s.li.upSeen = true) (h2 : s.li.up.lockDue = false)
    (h3 : s.li.up.lossDue = false) (h4 : s.ci.requests = []) :
    (s.work lines keyLocked).am = ((List.finRange 8).foldl State.decodeFrame (s.sampleLines lines keyLocked)).am := by
  have ha : s.awaitUpstream.interpret = s := by
    have : s.awaitUpstream = s := by
      unfold State.awaitUpstream State.settlePort State.port
      simp [h1, h2, h3]
    rw [this, State.interpret, h4]
    rfl
  have hl : s.sampleLines lines keyLocked = { s with bl := (s.sampleLines lines keyLocked).bl } := by
    unfold State.sampleLines; split <;> rfl
  unfold State.work
  dsimp only
  rw [ha]
  generalize hb : s.sampleLines lines keyLocked = b at hl ⊢
  obtain ⟨g1, -⟩ := b.decodePass_spec
  generalize (List.finRange 8).foldl State.decodeFrame b = p at g1 ⊢
  obtain ⟨ci, d, lane, e1, e2⟩ := p.takeTargets.runChannels.sendBytes_spec
  have ho : p.outer = s.outer := by rw [State.undecoded_outer g1, hl]; rfl
  have hreq : p.takeTargets.runChannels.sendBytes.ci.requests = [] := by
    rw [e1, ← h4]
    exact e2.trans (State.outer_requests ho : p.ci.requests = s.ci.requests)
  have ham : p.takeTargets.runChannels.sendBytes.am = p.am := by rw [e1]; rfl
  generalize p.takeTargets.runChannels.sendBytes = x at hreq ham ⊢
  rw [← ham]
  unfold State.interpret
  rw [show (State.ci { x with li := { x.li with worked := true } }).requests = [] from hreq]
  rfl

/-! ## TRIP_ACTIVE (R12) -/

/-- What holds a RESUME back: an enabled entry of the screen with safe-on-trip that stands in TRIP. -/
theorem State.tripActive_iff (i : Fin 8) :
    s.tripActive i = true ↔ ∃ e : Fin 256, (s.am.entries.get e).tier = .trip ∧
      flag (s.word (19 + e.val / 64) (4 * (e.val % 64))) 0 = true ∧
      field (s.word (19 + e.val / 64) (4 * (e.val % 64))) 4 3 = i.val ∧
      flag (s.word (19 + e.val / 64) (4 * (e.val % 64) + 3)) 16 = true := by
  have hlt : ∀ w, field w 4 3 < 8 := fun _ => Nat.mod_lt _ (by decide)
  unfold State.tripActive State.tripping
  rw [List.any_map, List.any_filter, List.any_eq_true]
  constructor
  · rintro ⟨e, -, h⟩
    simp only [Function.comp, Bool.and_eq_true, beq_iff_eq] at h
    obtain ⟨h1, ⟨h2, h3⟩, h4⟩ := h
    have h5 : field (s.word (19 + e.val / 64) (4 * (e.val % 64))) 4 3 % 8 = i.val := congrArg Fin.val h4
    exact ⟨e, h1, h2, by rwa [Nat.mod_eq_of_lt (hlt _)] at h5, h3⟩
  · rintro ⟨e, h1, h2, h3, h4⟩
    refine ⟨e, List.mem_finRange e, ?_⟩
    simp only [Function.comp, Bool.and_eq_true, beq_iff_eq]
    refine ⟨h1, ⟨h2, h4⟩, Fin.ext ?_⟩
    show field (s.word (19 + e.val / 64) (4 * (e.val % 64))) 4 3 % 8 = i.val
    rw [Nat.mod_eq_of_lt (hlt _)]; exact h3

end Sys2Proof.Machine
end

