-- ==== Sys2Proof/Laws/PerInstr.lean ====
section
/-!
SUPPORT. What is shown of the commands one by one, as syntax: the message that carries a request reads back as the
request.
-/

namespace Sys2Proof.Laws.Messages

open Sys2Proof.Machine

/-- The body of the message that carries the command, if one does, reads back as the request the command is, and its
LENGTH is one the control lane carries (R184, R186). -/
def Statement (c : Instr) : Prop :=
  c.wellFormed = true → ∀ body, messageOf c = some body →
    Request.ofBody body = requestOf c ∧ 2 ≤ body.length ∧ body.length ≤ 133

/-- A SCREEN ACTION's message reads back as its request. -/
theorem action_reads (tag screen : Byte) (a : Action) (h : ∀ k, a ≠ .unnamed k) :
    Request.ofBody (4 :: tag :: screen :: a.bytes) = some ⟨tag, .screenAction screen a⟩ ∧
      2 ≤ (4 :: tag :: screen :: a.bytes).length ∧ (4 :: tag :: screen :: a.bytes).length ≤ 133 := by
  refine ⟨?_, by simp [Action.bytes, bytes2], by simp [Action.bytes, bytes2]⟩
  show some (Request.mk tag (.screenAction screen (Action.ofCode (ofBytes2 _ _)))) = _
  rw [ofBytes2_bytes, Action.ofCode_encode a h]

theorem powerUp (lines : BitVec 16) (keyLocked : Bool) : Statement (.powerUp lines keyLocked) := by
  intro _ body h
  cases h

theorem linkFrame (lines : BitVec 16) (keyLocked : Bool) : Statement (.linkFrame lines keyLocked) := by
  intro _ body h
  cases h

theorem upstreamFrame (intact : Bool) (slots : List InSlot) (first second : Byte) :
    Statement (.upstreamFrame intact slots first second) := by
  intro _ body h
  cases h

theorem rackStatusWord (intact : Bool) (word : BitVec 16) : Statement (.rackStatusWord intact word) := by
  intro _ body h
  cases h

theorem slotAgeExpiry (slot : Fin 128) : Statement (.slotAgeExpiry slot) := by
  intro _ body h
  cases h

theorem portLost (port : PortId) : Statement (.portLost port) := by
  intro _ body h
  cases h

theorem portLocked (port : PortId) : Statement (.portLocked port) := by
  intro _ body h
  cases h

theorem replySenderTake : Statement .replySenderTake := by
  intro _ body h
  cases h

theorem descriptorAccept (screen : Fin 8) : Statement (.descriptorAccept screen) := by
  intro _ body h
  cases h

theorem crossfadeEnd (screen : Fin 8) : Statement (.crossfadeEnd screen) := by
  intro _ body h
  cases h

theorem swapMoment (screen : Fin 8) : Statement (.swapMoment screen) := by
  intro _ body h
  cases h

theorem dipEnd (screen : Fin 8) : Statement (.dipEnd screen) := by
  intro _ body h
  cases h

theorem meterWindowEnd : Statement .meterWindowEnd := by
  intro _ body h
  cases h

theorem pictureFrameAdvance (screen : Fin 8) : Statement (.pictureFrameAdvance screen) := by
  intro _ body h
  cases h

theorem timerTick (screen : Fin 8) (timer : Fin 2) : Statement (.timerTick screen timer) := by
  intro _ body h
  cases h

theorem timerExpiry (screen : Fin 8) (timer : Fin 2) : Statement (.timerExpiry screen timer) := by
  intro _ body h
  cases h

theorem pulsePeriodEnd (line : Fin 16) : Statement (.pulsePeriodEnd line) := by
  intro _ body h
  cases h

theorem inputEdge (line : Fin 16) : Statement (.inputEdge line) := by
  intro _ body h
  cases h

theorem boothKeyChange : Statement .boothKeyChange := by
  intro _ body h
  cases h

theorem triggerHandling : Statement .triggerHandling := by
  intro _ body h
  cases h

theorem tableWrite (tag page word : Byte) (data : List Word) : Statement (.tableWrite tag page word data) := by
  intro hw body h
  cases h
  have hw' : 1 ≤ data.length ∧ data.length ≤ 32 := by
    simpa [Instr.wellFormed, carriedRun] using hw
  have hl := length_flatMap_bytesOfWord data
  refine ⟨?_, by simp, by simp only [List.length_cons, List.length_append, List.length_nil, hl]; omega⟩
  have hc : (byte (data.length - 1)).toNat = data.length - 1 := by
    rw [byte, BitVec.toNat_ofNat]; exact Nat.mod_eq_of_lt (by omega)
  show some (Request.mk tag (if (data.flatMap bytesOfWord).length = _ then
    .tableWrite page word (wordsOf (data.flatMap bytesOfWord)) else _)) = _
  rw [if_pos (by rw [hl, hc]; omega), wordsOf_bytes]
  rfl

theorem tableRead (tag page word count : Byte) : Statement (.tableRead tag page word count) := by
  intro _ body h
  cases h
  exact ⟨rfl, by simp, by simp⟩

theorem screenState (tag screen target : Byte) : Statement (.screenState tag screen target) := by
  intro _ body h
  cases h
  exact ⟨rfl, by simp, by simp⟩

theorem stateAction (tag screen : Byte) (target : BitVec 3) : Statement (.stateAction tag screen target) := by
  intro _ body h
  cases h
  exact action_reads _ _ _ (fun _ => nofun)

theorem safeAction (tag screen : Byte) : Statement (.safeAction tag screen) := by
  intro _ body h
  cases h
  exact action_reads _ _ _ (fun _ => nofun)

theorem levelAction (tag screen : Byte) (preset : Fin 8) (ramp : Fin 4) :
    Statement (.levelAction tag screen preset ramp) := by
  intro _ body h
  cases h
  exact action_reads _ _ _ (fun _ => nofun)

theorem muteAction (tag screen : Byte) (on : Bool) : Statement (.muteAction tag screen on) := by
  intro _ body h
  cases h
  exact action_reads _ _ _ (fun _ => nofun)

theorem formatAction (tag screen : Byte) (format : Fin 16) : Statement (.formatAction tag screen format) := by
  intro _ body h
  cases h
  exact action_reads _ _ _ (fun _ => nofun)

theorem releaseAction (tag screen : Byte) : Statement (.releaseAction tag screen) := by
  intro _ body h
  cases h
  exact action_reads _ _ _ (fun _ => nofun)

theorem applyAction (tag screen : Byte) : Statement (.applyAction tag screen) := by
  intro _ body h
  cases h
  exact action_reads _ _ _ (fun _ => nofun)

theorem safepointAction (tag screen : Byte) : Statement (.safepointAction tag screen) := by
  intro _ body h
  cases h
  exact action_reads _ _ _ (fun _ => nofun)

theorem lineLow (tag screen : Byte) (line : Fin 16) : Statement (.lineLow tag screen line) := by
  intro _ body h
  cases h
  exact action_reads _ _ _ (fun _ => nofun)

theorem lineHigh (tag screen : Byte) (line : Fin 16) : Statement (.lineHigh tag screen line) := by
  intro _ body h
  cases h
  exact action_reads _ _ _ (fun _ => nofun)

theorem linePulse (tag screen : Byte) (line : Fin 16) : Statement (.linePulse tag screen line) := by
  intro _ body h
  cases h
  exact action_reads _ _ _ (fun _ => nofun)

theorem lineTrain (tag screen : Byte) (line : Fin 16) : Statement (.lineTrain tag screen line) := by
  intro _ body h
  cases h
  exact action_reads _ _ _ (fun _ => nofun)

theorem clockRun (tag screen : Byte) : Statement (.clockRun tag screen) := by
  intro _ body h
  cases h
  exact action_reads _ _ _ (fun _ => nofun)

theorem clockStop (tag screen : Byte) : Statement (.clockStop tag screen) := by
  intro _ body h
  cases h
  exact action_reads _ _ _ (fun _ => nofun)

theorem clockZero (tag screen : Byte) : Statement (.clockZero tag screen) := by
  intro _ body h
  cases h
  exact action_reads _ _ _ (fun _ => nofun)

theorem timerStart (tag screen : Byte) (timer : Fin 2) : Statement (.timerStart tag screen timer) := by
  intro _ body h
  cases h
  exact action_reads _ _ _ (fun _ => nofun)

theorem timerStop (tag screen : Byte) (timer : Fin 2) : Statement (.timerStop tag screen timer) := by
  intro _ body h
  cases h
  exact action_reads _ _ _ (fun _ => nofun)

theorem reportAction (tag screen : Byte) (code : Byte) : Statement (.reportAction tag screen code) := by
  intro _ body h
  cases h
  exact action_reads _ _ _ (fun _ => nofun)

theorem level (tag screen : Byte) (value : BitVec 16) (ramp : Byte) : Statement (.level tag screen value ramp) := by
  intro _ body h
  cases h
  refine ⟨?_, by simp [bytes2], by simp [bytes2]⟩
  show some (Request.mk tag (.level screen (ofBytes2 _ _) ramp)) = _
  rw [ofBytes2_bytes]
  rfl

theorem clockLoad (tag screen hours minutes seconds frames run : Byte) :
    Statement (.clockLoad tag screen hours minutes seconds frames run) := by
  intro _ body h
  cases h
  exact ⟨rfl, by simp, by simp⟩

theorem timerSet (tag screen timer base : Byte) (count : BitVec 16) (reload : Byte) :
    Statement (.timerSet tag screen timer base count reload) := by
  intro _ body h
  cases h
  refine ⟨?_, by simp [bytes2], by simp [bytes2]⟩
  show some (Request.mk tag (.timerSet screen timer base (ofBytes2 _ _) reload)) = _
  rw [ofBytes2_bytes]
  rfl

theorem acknowledge (tag first last : Byte) : Statement (.acknowledge tag first last) := by
  intro _ body h
  cases h
  exact ⟨rfl, by simp, by simp⟩

theorem resume (tag screen : Byte) : Statement (.resume tag screen) := by
  intro _ body h
  cases h
  exact ⟨rfl, by simp, by simp⟩

theorem cueArm (tag entry setting : Byte) : Statement (.cueArm tag entry setting) := by
  intro _ body h
  cases h
  refine ⟨?_, by simp, by simp⟩
  show some (Request.mk tag (.cueArm (entryOf (byte (entryOf entry).val)) setting)) = _
  rw [byte_entryOf]
  rfl

theorem queryDevice (tag : Byte) : Statement (.queryDevice tag) := by
  intro _ body h
  cases h
  exact ⟨rfl, by simp [Query.fields], by simp [Query.fields]⟩

theorem queryScreen (tag screen : Byte) : Statement (.queryScreen tag screen) := by
  intro _ body h
  cases h
  exact ⟨rfl, by simp [Query.fields], by simp [Query.fields]⟩

theorem queryChannel (tag screen channel : Byte) : Statement (.queryChannel tag screen channel) := by
  intro _ body h
  cases h
  exact ⟨rfl, by simp [Query.fields], by simp [Query.fields]⟩

theorem queryAlarm (tag entry : Byte) : Statement (.queryAlarm tag entry) := by
  intro _ body h
  cases h
  refine ⟨?_, by simp [Query.fields], by simp [Query.fields]⟩
  show some (Request.mk tag (.query (.alarm (entryOf (byte (entryOf entry).val))))) = _
  rw [byte_entryOf]
  rfl

theorem queryCue (tag entry : Byte) : Statement (.queryCue tag entry) := by
  intro _ body h
  cases h
  refine ⟨?_, by simp [Query.fields], by simp [Query.fields]⟩
  show some (Request.mk tag (.query (.cue (entryOf (byte (entryOf entry).val))))) = _
  rw [byte_entryOf]
  rfl

theorem queryPool (tag : Byte) : Statement (.queryPool tag) := by
  intro _ body h
  cases h
  exact ⟨rfl, by simp [Query.fields], by simp [Query.fields]⟩

theorem preserve (tag : Byte) : Statement (.preserve tag) := by
  intro _ body h
  cases h
  exact ⟨rfl, by simp, by simp⟩

theorem preserveComplete : Statement .preserveComplete := by
  intro _ body h
  cases h

theorem restore (tag : Byte) : Statement (.restore tag) := by
  intro _ body h
  cases h
  exact ⟨rfl, by simp, by simp⟩

theorem restoreComplete : Statement .restoreComplete := by
  intro _ body h
  cases h

theorem reset (tag : Byte) : Statement (.reset tag) := by
  intro _ body h
  cases h
  exact ⟨rfl, by simp, by simp⟩

theorem badKindRequest (tag : Byte) (bad : BadRequest) : Statement (.badKindRequest tag bad) := by
  intro _ body h
  cases bad with
  | type code => cases h; exact ⟨rfl, by simp, by simp⟩
  | action screen code =>
    cases h
    refine ⟨?_, by simp [bytes2], by simp [bytes2]⟩
    show some (Request.mk tag (.screenAction screen (Action.ofCode (ofBytes2 _ _)))) = _
    rw [ofBytes2_bytes]
    rfl

end Sys2Proof.Laws.Messages
end

