-- ==== Sys2Proof/Laws/Requests.lean ====
section
/-!
SUPPORT. What a request does that arrives while the interpreter may take it, and what one does that must wait.
-/

namespace Sys2Proof.Machine

theorem screenOf_isSome {b : Byte} {i : Fin 8} (h : screenOf b = some i) : b.toNat = i.val := by
  unfold screenOf at h
  split at h
  · cases h; rfl
  · cases h

theorem screenOf_above {b : Byte} (h : 7 < b.toNat) : screenOf b = none := by
  unfold screenOf
  rw [dif_neg (by omega)]

/-- A request that arrives while none waits and at most 6 replies do is executed at once, and no other is taken. -/
theorem State.request_ready {s : State} (h : s.ready) (tag : Byte) (body : RequestBody) :
    s.request tag body = s.execute tag body := by
  obtain ⟨hq, hr⟩ := h
  have hjoin : s.joinRequest ⟨tag, body⟩ = { s with ci := { s.ci with requests := [⟨tag, body⟩] } } := by
    simp [State.joinRequest, hq, Config.requestLimit]
  have htakes : (s.joinRequest ⟨tag, body⟩).takes = true := by
    rw [hjoin]; simp [State.takes, Config.replyTakeLimit, hr]
  have hlen : (s.joinRequest ⟨tag, body⟩).ci.requests.length = 1 := by rw [hjoin]; rfl
  unfold State.request State.interpret
  rw [hlen]
  show (if (s.joinRequest ⟨tag, body⟩).takes = true then _ else _) = _
  rw [if_pos htakes, State.takeRequests, hjoin]
  show State.execute { s with ci := { s.ci with requests := [] } } tag body = _
  have : ({ s with ci := { s.ci with requests := [] } } : State) = s := by rw [← hq]
  rw [this]

/-- With no request waiting the interpreter does nothing. -/
theorem State.interpret_none {s : State} (h : s.ci.requests = []) : s.interpret = s := by
  rw [State.interpret, h]; rfl

/-- With 7 replies or more the interpreter takes nothing. -/
theorem State.interpret_full {s : State} (h : 7 ≤ s.ci.replies.length) : s.interpret = s := by
  have ht : s.takes = false := by
    unfold State.takes
    rw [decide_eq_false (by unfold Config.replyTakeLimit; omega), Bool.and_false]
  unfold State.interpret
  cases s.ci.requests.length with
  | zero => rfl
  | succ n => rw [State.takeRequests, ht]; rfl

/-- A SCREEN ACTION for a screen 0 to 7 runs its action with the request's origin at depth 0. -/
theorem State.execute_action {s : State} {screen : Byte} {i : Fin 8} (h : screenOf screen = some i) (tag : Byte)
    (a : Action) (ha : ∀ k, a ≠ .unnamed k) :
    s.execute tag (.screenAction screen a) =
      (s.runAction i (.request tag) 0 a).1.reply tag (s.runAction i (.request tag) 0 a).2.result
        [byte a.kind, (s.runAction i (.request tag) 0 a).2.code] := by
  cases a <;> first | exact absurd rfl (ha _) | (simp only [State.execute, State.requestAction, h]; rfl)

/-- A request command is the arrival of its request. -/
theorem exec_request {c : Instr} {r : Request} (h : requestOf c = some r) (s : State) :
    exec c s = .next (s.request r.tag r.body) := by
  cases c <;> first | (cases h; rfl) | (cases h; rename_i bad; cases bad <;> rfl) | cases h

end Sys2Proof.Machine
end

