-- ==== Sys2Proof/Laws/Slots.lean ====
section
/-!
SUPPORT. What the fields of a slot map entry say (R33, R188), the slots that carry a channel and the worst of several line
states (R105, R107).
-/

namespace Sys2Proof.Machine

/-! ## Slot map entries -/

theorem inboundRole_audio (w : Word) : inboundRole w = .audio ↔ field w 0 2 = 1 := by
  unfold inboundRole; split <;> simp_all

theorem inboundRole_descriptor (w : Word) : inboundRole w = .descriptor ↔ field w 0 2 = 2 := by
  unfold inboundRole; split <;> simp_all

theorem entryScreen_eq (w : Word) (i : Fin 8) : entryScreen w = i ↔ field w 4 3 = i.val := by
  have : field w 4 3 < 8 := Nat.mod_lt _ (by decide)
  rw [Fin.ext_iff]; simp [entryScreen, index, Fin.ofNat, Nat.mod_eq_of_lt this]

theorem entryChannel_eq (w : Word) (c : Fin 16) : entryChannel w = c ↔ field w 8 4 = c.val := by
  have : field w 8 4 < 16 := Nat.mod_lt _ (by decide)
  rw [Fin.ext_iff]; simp [entryChannel, index, Fin.ofNat, Nat.mod_eq_of_lt this]

/-- An outbound slot carries a channel exactly when its entry says so. -/
theorem State.mem_slotsOf (s : State) (i : Fin 8) (c : Fin 16) (n : Fin 128) :
    n ∈ s.slotsOf i c ↔ field (s.word 0 (128 + n.val)) 0 2 = 1 ∧ field (s.word 0 (128 + n.val)) 4 3 = i.val ∧
      field (s.word 0 (128 + n.val)) 8 4 = c.val := by
  simp only [State.slotsOf, List.mem_filter, List.mem_finRange, true_and, State.slotCarries, Bool.and_eq_true,
    beq_iff_eq, entryScreen_eq, entryChannel_eq, isSpeaker, State.outboundEntry, and_assoc]

/-! ## The worst of several line states -/

theorem worse_fold (ls : List LineState) (a : LineState) :
    let w := ls.foldl LineState.worse a
    (a = w ∨ w ∈ ls) ∧ a.rank ≤ w.rank ∧ ∀ l ∈ ls, l.rank ≤ w.rank := by
  induction ls generalizing a with
  | nil => exact ⟨.inl rfl, le_refl _, fun l h => absurd h (by simp)⟩
  | cons l ls ih =>
    dsimp only [List.foldl_cons]
    obtain ⟨h1, h2, h3⟩ := ih (a.worse l)
    have hw : (a.worse l = a ∨ a.worse l = l) ∧ a.rank ≤ (a.worse l).rank ∧ l.rank ≤ (a.worse l).rank := by
      unfold LineState.worse; split
      · exact ⟨.inr rfl, by omega, le_refl _⟩
      · exact ⟨.inl rfl, le_refl _, by omega⟩
    refine ⟨?_, hw.2.1.trans h2, fun x hx => ?_⟩
    · rcases h1 with h1 | h1
      · rcases hw.1 with h | h
        · exact .inl (h.symm.trans h1)
        · exact .inr (List.mem_cons.mpr (.inl (h1.symm.trans h)))
      · exact .inr (List.mem_cons_of_mem _ h1)
    · rcases List.mem_cons.mp hx with rfl | hx
      · exact hw.2.2.trans h2
      · exact h3 x hx

/-- The worst of several line states: SHORT, then OPEN, then UNKNOWN, then OK; UNKNOWN where there are none (R105, R107). -/
theorem worstLine_spec (ls : List LineState) :
    (.short ∈ ls → worstLine ls = .short) ∧ (.short ∉ ls → .opened ∈ ls → worstLine ls = .opened) ∧
      (.short ∉ ls → .opened ∉ ls → .unknown ∈ ls ∨ ls = [] → worstLine ls = .unknown) ∧
      (ls ≠ [] → (∀ l ∈ ls, l = .ok) → worstLine ls = .ok) := by
  cases ls with
  | nil => simp [worstLine]
  | cons a ls =>
    obtain ⟨h1, h2, h3⟩ := worse_fold ls a
    have hm : ls.foldl LineState.worse a ∈ a :: ls := by
      rcases h1 with h | h
      · rw [← h]; exact List.mem_cons_self
      · exact List.mem_cons_of_mem _ h
    have hr : ∀ l ∈ a :: ls, l.rank ≤ (ls.foldl LineState.worse a).rank := by
      intro l hl
      rcases List.mem_cons.mp hl with rfl | hl
      · exact h2
      · exact h3 l hl
    have hw : worstLine (a :: ls) = ls.foldl LineState.worse a := rfl
    rw [hw]
    generalize ls.foldl LineState.worse a = w at hm hr
    generalize a :: ls = l at hm hr
    refine ⟨fun h => ?_, fun h h' => ?_, fun h h' h'' => ?_, fun _ h => h w hm⟩
    · have := hr _ h; cases w <;> simp [LineState.rank] at this ⊢
    · have := hr _ h'; cases w <;> first | rfl | exact absurd hm h | simp [LineState.rank] at this
    · rcases h'' with h'' | rfl
      · have := hr _ h''
        cases w <;> first | rfl | exact absurd hm h | exact absurd hm h' | simp [LineState.rank] at this
      · cases hm

end Sys2Proof.Machine
end

