-- ==== Sys2Proof/Tests/Slice0.lean ====
section
/-!
SUPPORT. Tests of the model: the checks of WellFormed, the manual's worked examples, one step of some commands, and for
every statement with hypotheses a state and operands that meet them.

The expected values are the manual's own (the example or the rule is named) or worked by hand from its rules.
-/

namespace Sys2Proof.Tests

-- One test at a time: a kernel decision waits for every check before it.
set_option Elab.async false

open Sys2Proof.Machine

/-! ## WellFormed: an ill-formed term for each check -/

/-- A valid inbound slot of value 1. -/
def one : InSlot := ⟨1, true⟩

theorem test_frame_of_127_slots_refused : (Instr.upstreamFrame true (List.replicate 127 one) 0 0).wellFormed = false := by
  decide +kernel
theorem test_frame_of_129_slots_refused : (Instr.upstreamFrame true (List.replicate 129 one) 0 0).wellFormed = false := by
  decide +kernel
theorem test_frame_of_128_slots_taken : (Instr.upstreamFrame true (List.replicate 128 one) 0 0).wellFormed = true := by
  decide +kernel
theorem test_run_of_no_word_refused : (Instr.tableWrite 0 0 0 []).wellFormed = false := by decide
theorem test_run_of_33_words_refused : (Instr.tableWrite 0 0 0 (List.replicate 33 1)).wellFormed = false := by decide
theorem test_run_of_32_words_taken : (Instr.tableWrite 0 0 0 (List.replicate 32 1)).wellFormed = true := by decide
theorem test_named_type_refused : (Instr.badKindRequest 0 (.type 14)).wellFormed = false := by decide
theorem test_unnamed_type_taken : (Instr.badKindRequest 0 (.type 15)).wellFormed = true := by decide
theorem test_named_action_refused : (Instr.badKindRequest 0 (.action 0 0xC000)).wellFormed = false := by decide
theorem test_unnamed_action_taken : (Instr.badKindRequest 0 (.action 0 0xD000)).wellFormed = true := by decide

/-- No row of the table gives a command bits. -/
theorem test_no_word_decodes : decodeTableWord 16 0x1234 = none := rfl

/-! ## Messages (11.1, 11.2, R191) -/

/-- The check of the example in 11.1. -/
theorem test_check_of_a_reset_request : crc [0x02, 0x0E, 0x00] = 0x81F3 := by decide +kernel
/-- The message of that example. -/
theorem test_message_of_a_reset_request : framed [0x0E, 0x00] = [0xA5, 0x02, 0x0E, 0x00, 0x81, 0xF3] := by decide +kernel
/-- A LEVEL request read from its bytes (R186): screen 6, value 23170 = 5A82h, ramp code 0. -/
theorem test_level_request_reads_back :
    Request.ofBody [0x05, 0x77, 0x06, 0x5A, 0x82, 0x00] = some ⟨0x77, .level 6 23170 0⟩ := by decide +kernel
/-- A RESUME of LENGTH 4 has a length its type does not give (R177). -/
theorem test_long_resume_is_a_bad_length : Request.ofBody [0x09, 0x01, 0x00, 0x00] = some ⟨1, .badLength false⟩ := by
  decide +kernel
/-- Action codes by R191: LEVEL preset 5 ramp 3, LINE 12 TRAIN, CLOCK operation 3, TIMER 1 STOP, kind 13. -/
theorem test_action_codes :
    Action.ofCode 0x3035 = .level 5 3 ∧ Action.ofCode 0x903C = .line 12 .train ∧ Action.ofCode 0xA003 = .clock .zero ∧
      Action.ofCode 0xB011 = .timer 1 .stop ∧ Action.ofCode 0xD000 = .unnamed 13 := by decide +kernel
/-- A damaged check drops the message: no body is complete (R175). -/
theorem test_wrong_check_completes_nothing :
    (Receiver.take .hunting [0xA5, 0x02, 0x0E, 0x00, 0x81, 0xF2]).2 = [] := by decide +kernel
/-- A SYNC lost in a wrong start is found by the rescan (R175): A5h with LENGTH A5h, then the message. -/
theorem test_rescan_finds_the_message :
    Receiver.take .hunting [0xA5, 0xA5, 0x02, 0x0E, 0x00, 0x81, 0xF3] = (.hunting, [[0x0E, 0x00]]) := by decide +kernel

/-! ## Arithmetic (the examples of chapters 1 to 5) -/

/-- 1.4: the fader from 16384 to 23170 over 256 link frames at k = 1 and 128. -/
theorem test_ramp_up : (Ramp.mk 16384 23170 256 1).value = 16410 ∧ (Ramp.mk 16384 23170 256 128).value = 19777 := by
  decide +kernel
/-- 1.4: from 19777 to 0 at k = 1 and 256. -/
theorem test_ramp_down : (Ramp.mk 19777 0 256 1).value = 19700 ∧ (Ramp.mk 19777 0 256 256).value = 0 := by
  decide +kernel
/-- 3.5: an envelope of 600,000 towards 500,000 and towards 600,063 with ks = 6. -/
theorem test_envelope_steps : smooth 600000 500000 6 = 598437 ∧ smooth 600000 600063 6 = 600000 := by decide +kernel
/-- 3.5: the steering entry of the example. -/
theorem test_steering_entry : steeringEntry 600000 70000 650000 500000 = 158 := by decide +kernel
/-- 3.6: the three frames of a crossfade. -/
theorem test_crossfade_blend :
    (blend 400000 (-200000) 1).toInt = 398828 ∧ (blend 400000 (-200000) 128).toInt = 250000 ∧
      (blend 400000 (-200000) 512).toInt = -200000 := by decide +kernel
/-- 3.4: the row that saturates. -/
theorem test_row_saturates : (saturate ((8000000 * 24576 + 100000 * -8192 + 8192) / 16384)).toInt = 8388607 := by
  decide +kernel
/-- 4.2: frame 5 of the first-order recursion, 375 before. -/
theorem test_section_half_rounds_up :
    (History.section ⟨0, 0, 375, 0⟩ 268435456 0 0 (-134217728) 0 0).1.toInt = 188 := by decide +kernel
/-- 4.2: the trim of 5792, with and without inversion. -/
theorem test_trim : (trimStage 458582 5792 false).toInt = 648464 ∧ (trimStage 458582 5792 true).toInt = -648464 := by
  decide +kernel
/-- 4.2: the polarity of the most negative sample. -/
theorem test_inverted_minimum : (trimStage 0x800000 4096 true).toInt = 8388607 := by decide +kernel
/-- 5.1: the effective gain of the example. -/
theorem test_effective_gain :
    ScreenRecord.effectiveGain { ScreenRecord.reset 23170 with
      safeRamp := .rest 8192 64, dip := .rest 16384 256 } = 2896 := by decide +kernel
/-- 5.1: a gain of 32768 passes the most negative sample. -/
theorem test_unity_passes_minimum : gained 0x800000 32768 = 0x800000 := by decide +kernel
/-- 5.2: an attack at k = 1 and a release at k = 1 and 2400. -/
theorem test_protect_ramps :
    (Ramp.mk 32768 8192 64 1).value = 32384 ∧ (Ramp.mk 8192 32768 4800 1).value = 8197 ∧
      (Ramp.mk 8192 32768 4800 2400).value = 20480 := by decide +kernel
/-- 5.3: the average register of the example. -/
theorem test_average_register : smooth 0 458524 6 = 7164 ∧ smooth 7164 458524 6 = 14216 := by decide +kernel
/-- 5.4: level steps of R91's range and of the magnitude 458,524. -/
theorem test_level_steps : levelStep 0 = 0 ∧ levelStep 458524 = 149 ∧ levelStep 8388607 = 183 := by decide +kernel
/-- 7.1: 10:59:59:24 at 25 per second carries to 11:00:00:00. -/
theorem test_clock_carries : ClockValue.advance ⟨10, 59, 59, 24⟩ .r25 = ⟨11, 0, 0, 0⟩ := by decide
/-- 7.3: the tick that reloads, and the one that expires. -/
theorem test_timer_ticks :
    (Timer.tick ⟨.millisecond, 3, true, true, 0, 0, false, false⟩).remaining = 3 ∧
      (Timer.tick ⟨.millisecond, 3, true, true, 1, 0, false, false⟩).running = true := by decide
/-- 8.1: the 239th sample of a change waits, and the 240th makes the edge. -/
theorem test_debounce :
    (Debouncer.sample ⟨true, false, 238, false, false⟩ true true).run = 239 ∧
      (Debouncer.sample ⟨true, false, 239, false, false⟩ true true).edgeDue = true := by decide

/-! ## States -/

/-- Power-up's state with commands waiting. -/
def waiting (cs : List Instr) : State := { State.reset with pending := cs }

/-- A state whose upstream port is LOCKED. -/
def locked (s : State) : State := { s with li := { s.li with up := ⟨.locked, 0, 0⟩ } }

/-- A screen put into a state, enabled or not, without its delay pages. -/
def inState (s : State) (i : Fin 8) (st : ScreenState) : State :=
  (s.modifyScreen i fun r => { r with state := st }).modifyDecode i fun d =>
    { d with current := if st = .offline then none else some 0 }

/-- A screen in SAFE, with its resume state and cause. -/
def safed (s : State) (i : Fin 8) (from_ : ScreenState) (cause : SafeCause) : State :=
  (inState s i .safe).modifyScreen i fun r => { r with resume := some from_, cause := some cause }

/-- Words listed in the store. -/
def stored (s : State) (words : Memory) : State := { s with ts := { s.ts with words := words } }

/-- A number of replies waiting and a number of requests. -/
def queued (requests replies : Nat) : State :=
  { State.reset with ci := { Interpreter.reset with
    requests := List.replicate requests ⟨1, .preserve⟩, replies := List.replicate replies ⟨2, .ok, []⟩ } }

/-- A trigger queue. -/
def triggered (s : State) (q : List Trigger) : State := { s with ce := { s.ce with triggers := q } }

theorem reset_ready : State.reset.ready := ⟨rfl, by decide⟩

/-- The next state's screen state, for tests of one step. -/
def stateAfter (o : Host.Outcome State Fault Refusal) (i : Fin 8) : Option ScreenState :=
  match o with
  | .next t => some (t.screenState i)
  | _ => none

/-- The last reply of the next state, for tests of one step. -/
def replyAfter (o : Host.Outcome State Fault Refusal) : Option Reply :=
  match o with
  | .next t => t.ci.replies.getLast?
  | _ => none

/-! ## One step -/

/-- R3, R5: OFFLINE to IDLE by SCREEN STATE is an enable, answered OK. -/
theorem test_enable : stateAfter (step (waiting [.screenState 9 3 1])) 3 = some .idle ∧
    replyAfter (step (waiting [.screenState 9 3 1])) = some ⟨9, .ok, []⟩ := by decide +kernel
/-- R3: OFFLINE to FEATURE is refused with STATE. -/
theorem test_offline_to_feature : replyAfter (step (waiting [.screenState 9 3 3])) = some ⟨9, .state, []⟩ := by
  decide +kernel
/-- R11: a screen that comes to FEATURE while the upstream port is LOST enters SAFE. -/
theorem test_feature_without_link :
    stateAfter (exec (.stateAction 4 0 3) (inState State.reset 0 .idle)) 0 = some .safe := by decide +kernel
/-- R177: the oldest request runs first and the queue is empty after. -/
theorem test_pool_query :
    replyAfter (exec (.queryPool 5) State.reset) =
      some ⟨5, .ok, [2, 0, 2, 0, 0, 0, 0, 0, 0, 0, 0, 0, 0, 0, 0, 0, 0, 0, 0, 0]⟩ := by decide +kernel
/-- R179: a kind that names no action is refused with BAD_KIND and FFh FFh. -/
theorem test_bad_action :
    replyAfter (exec (.badKindRequest 6 (.action 0 0xD000)) State.reset) = some ⟨6, .badKind, [0xFF, 0xFF]⟩ := by
  decide +kernel
/-- R168: with the booth key UNLOCKED a write runs, and its word reads back by TABLE READ (R167). -/
theorem test_write_then_read :
    (match exec (.tableWrite 7 1 4 [0x00005A82]) State.reset with
      | .next t => replyAfter (exec (.tableRead 8 1 4 0) t)
      | _ => none) = some ⟨8, .ok, [0x00, 0x00, 0x5A, 0x82]⟩ := by decide +kernel
/-- R166, R168: a run that passes word 15,359 is refused with RANGE. -/
theorem test_write_past_the_end :
    replyAfter (exec (.tableWrite 7 59 255 [1, 2]) State.reset) = some ⟨7, .range, []⟩ := by decide +kernel
/-- R172: PRESERVE is answered ACCEPTED, and a second one BUSY. -/
theorem test_preserve_twice :
    (match exec (.preserve 1) State.reset with
      | .next t => replyAfter (exec (.preserve 2) t)
      | _ => none) = some ⟨2, .busy, []⟩ := by decide +kernel
/-- R28: a link frame of a LOST part sends no valid slot. -/
theorem test_link_frame_sends_silence :
    (match exec (.linkFrame 0 false) State.reset with
      | .next t => some ((t.li.outSlots.get 0).valid, t.li.worked)
      | _ => none) = some (false, true) := by decide +kernel
/-- An event that is not due changes nothing (assumption 1). -/
theorem test_event_not_due : exec (.portLocked .upstream) State.reset = .next State.reset := rfl

/-- R42: writing a screen's first DESCRIPTOR entry leaves its accepted format at the default format, here 5, written in the
same link frame. -/
theorem test_descriptor_entry_written :
    (match exec (.tableWrite 8 0 9 [0x00000072]) (stored State.reset [(481, 5)] |>.modifyDecode 7 fun d =>
        { d with accepted := 2 }) with
      | .next t => some ((t.de.get 7).accepted, (t.de.get 6).accepted)
      | _ => none) = some (5, 0) := by decide +kernel

/-! ## A state and operands for the hypotheses of each statement -/

theorem witness_StepTakesTheFrontCommand :
    (waiting [.queryPool 0]).pending = .queryPool 0 :: [] ∧ State.reset.pending = [] := ⟨rfl, rfl⟩

/-- Two words in the store, and a command waiting. -/
def kept : State := stored (waiting [.preserve 3]) [(0, 5), (15359, 7)]

theorem kept_canonical : kept.storesCanonical := by
  refine ⟨⟨by decide +kernel, ?_⟩, ⟨by decide +kernel, fun p hp => nomatch hp⟩⟩
  intro p hp
  have : p = (0, 5) ∨ p = (15359, 7) := by simpa [kept, stored] using hp
  rcases this with rfl | rfl <;> decide

theorem witness_StoresStaySound : kept.storesCanonical ∧ kept.storeSound ∧ ∃ t, step kept = .next t :=
  ⟨kept_canonical, ⟨fun _ => rfl, fun h => nomatch h⟩, _, rfl⟩

/-- A full trigger queue: 32 timer triggers of depth 3 and a clock trigger. -/
def fullQueue : List Trigger := List.replicate 32 ⟨.timer 0 1, 3⟩ ++ [⟨.clock 7 ⟨0, 0, 0, 0⟩, 3⟩]

theorem witness_QueuesStayBounded :
    (State.queuesBounded { queued 4 8 with pending := [.reset 1] } ∧
      ∃ t, step { queued 4 8 with pending := [.reset 1] } = .next t) ∧
    (triggered (waiting [.triggerHandling]) fullQueue).triggersBounded ∧
      ∃ t, step (triggered (waiting [.triggerHandling]) fullQueue) = .next t :=
  ⟨⟨⟨by decide, by decide, by decide⟩, _, rfl⟩, ⟨by decide +kernel, by decide +kernel, by
    intro t ht
    have ht : t ∈ fullQueue := ht
    revert t
    decide +kernel⟩, _, rfl⟩

theorem witness_ScreensStaySound :
    (waiting [.screenState 0 7 1]).screensSound ∧ ∃ t, step (waiting [.screenState 0 7 1]) = .next t := by
  refine ⟨fun i => ?_, _, rfl⟩
  simp [State.screenState, waiting, State.reset, ScreenRecord.sound, ScreenRecord.reset, DecodeRecord.sound,
    DecodeRecord.reset]

theorem witness_PoolStaysWhole :
    (waiting [.screenState 0 7 1]).poolWhole ∧ ∃ t, step (waiting [.screenState 0 7 1]) = .next t := by
  refine ⟨?_, _, rfl⟩
  have hp : ∀ i c, (waiting [.screenState 0 7 1]).pagesOf i c = [] := by
    intro i c; simp [State.pagesOf, waiting, State.reset, Equaliser.reset, EqChannel.cleared]
  unfold State.poolWhole State.poolPages
  simp only [hp]
  have hf : (waiting [.screenState 0 7 1]).eq.free = State.reset.eq.free := rfl
  have hr : State.reset.eq.free = List.finRange 512 := by simp only [State.reset, Equaliser.reset]
  have hn : ((List.finRange 8).flatMap fun _ => (List.finRange 16).flatMap fun _ => ([] : List (Fin 512))) = [] := by
    decide +kernel
  rw [hf, hr, hn, List.append_nil]

theorem witness_PagesStayMatched :
    kept.storesCanonical ∧ kept.storeSound ∧ kept.pagesMatch ∧ ∃ t, step kept = .next t := by
  refine ⟨kept_canonical, ⟨fun _ => rfl, fun h => nomatch h⟩, fun i c => ?_, _, rfl⟩
  simp [kept, stored, waiting, State.screenState, State.pagesOf, State.reset, ScreenRecord.reset, Equaliser.reset,
    EqChannel.cleared]

theorem witness_AlarmsStaySound :
    (waiting [.acknowledge 0 0 255]).alarmsSound ∧ ∃ t, step (waiting [.acknowledge 0 0 255]) = .next t := by
  refine ⟨fun e => ?_, _, rfl⟩
  simp [waiting, State.reset, AlarmMonitor.reset, AlarmRecord.reset, AlarmRecord.sound]

theorem witness_ClocksAndRampsStaySound :
    (waiting [.clockLoad 0 7 23 59 59 23 1]).clocksSound ∧ (waiting [.clockLoad 0 7 23 59 59 23 1]).rampsSound ∧
      ∃ t, step (waiting [.clockLoad 0 7 23 59 59 23 1]) = .next t := by
  refine ⟨fun i => ?_, fun i => ⟨⟨?_, ?_, ?_, ?_⟩, fun c => ⟨?_, ?_⟩⟩, _, rfl⟩ <;>
    simp [waiting, State.reset, ClockUnit.reset, Clock.reset, Clock.sound, Rate.perSecond, Rate.frameLength,
      ScreenRecord.reset, Ramp.sound, Ramp.rest, OutputStage.reset, OutChannel.reset, AlarmMonitor.reset,
      Config.unity]

theorem witness_PortsStaySound :
    ((waiting [.rackStatusWord true 0]).li.up.sound ∧ (waiting [.rackStatusWord true 0]).li.down.sound) ∧
      ∃ t, step (waiting [.rackStatusWord true 0]) = .next t :=
  ⟨⟨⟨rfl, Nat.zero_le _⟩, ⟨rfl, Nat.zero_le _⟩⟩, _, rfl⟩

/-- A link frame with nothing left to take. -/
def still : State := { State.reset with li := { LinkInterface.reset with upSeen := true, downSeen := true, worked := true } }

theorem witness_TimePassesByOneLinkFrame :
    still.quiet ∧ still.li.worked = true ∧ still.li.upSeen = true ∧ still.li.downSeen = true := by
  refine ⟨⟨rfl, rfl, fun p => by cases p <;> exact ⟨rfl, rfl⟩, ?_, ?_, rfl, ?_, ?_, ?_, ?_, rfl, rfl, rfl, rfl, rfl⟩, rfl, rfl,
    rfl⟩ <;> decide +kernel

theorem witness_ReceiverReadsFramedBodies :
    (2 ≤ (List.replicate 2 (0xA5 : Byte)).length ∧ (List.replicate 2 (0xA5 : Byte)).length ≤ 133) ∧
      (2 ≤ (List.replicate 133 (0 : Byte)).length ∧ (List.replicate 133 (0 : Byte)).length ≤ 133) ∧
      2 ≤ (List.replicate 255 (0 : Byte)).length ∧ (List.replicate 255 (0 : Byte)).length ≤ 255 := by decide +kernel

theorem witness_RequestCommandsAreTheirMessages :
    (Instr.wellFormed (.tableWrite 0 59 224 (List.replicate 32 1)) = true ∧
      ∃ body, messageOf (.tableWrite 0 59 224 (List.replicate 32 1)) = some body) ∧
    Instr.wellFormed (.badKindRequest 0 (.type 15)) = true ∧ messageOf (.badKindRequest 0 (.type 15)) = some [15, 0] :=
  ⟨⟨by decide, _, rfl⟩, by decide, rfl⟩

theorem witness_RequestsWaitOrAreDiscarded :
    requestOf (.reset 0) = some ⟨0, .reset⟩ ∧
      (7 ≤ (queued 3 7).ci.replies.length ∧ (queued 3 7).ci.requests.length < 4) ∧
      (4 ≤ (queued 4 7).ci.requests.length ∧ (queued 4 7).ci.replies.length = 7) ∧
      4 ≤ (queued 4 8).ci.requests.length ∧ 8 ≤ (queued 4 8).ci.replies.length := by decide

/-- A LOCKED part that has received some bytes of a message. -/
def receiving (sent : List Byte) : State :=
  { locked State.reset with li := { (locked State.reset).li with receiver := (Receiver.take .hunting sent).1 } }

/-- A state with the upstream port so. -/
def upPort (p : Port) : State := { State.reset with li := { LinkInterface.reset with up := p } }

/-- The example message of 11.1, at every place two bytes can take in it; and the frames that are not used. -/
theorem witness_ControlBytesReachTheRequestQueue :
    (∀ p, (upPort p).li.worked = false ∧ (upPort p).li.upSeen = false) ∧
    ((upPort ⟨.lost, 478, 0⟩).li.up.lock = .lost ∧ (upPort ⟨.lost, 478, 0⟩).li.up.intactRun < 479) ∧
    (∀ sent, (receiving sent).li.worked = false ∧ (receiving sent).li.upSeen = false ∧
      (receiving sent).li.up.lock = .locked ∧ (receiving sent).li.receiver = (Receiver.take .hunting sent).1) ∧
    (2 ≤ [(0x0E : Byte), 0].length ∧ [(0x0E : Byte), 0].length ≤ 133 ∧ Request.ofBody [0x0E, 0] = some ⟨0, .reset⟩) ∧
    (framed [0x0E, 0] = [0xA5, 0x02] ++ [0x0E, 0x00] ++ [0x81, 0xF3] ∧ [(0x81 : Byte), 0xF3] ≠ []) ∧
    framed [0x0E, 0] = [0xA5, 0x02, 0x0E, 0x00] ++ [0x81, 0xF3] ∧
    (framed [0x0E, 0] = [0xA5, 0x02, 0x0E, 0x00, 0x81] ++ [0xF3] ∧ (0x00 : Byte) ≠ 0xA5 ∧ (0xA5 : Byte) = 0xA5) :=
  ⟨fun _ => ⟨rfl, rfl⟩, by decide, fun _ => ⟨rfl, rfl, rfl, rfl⟩, by decide +kernel, by decide +kernel,
    by decide +kernel, by decide +kernel⟩

theorem witness_LevelMovesTheFader :
    screenOf 7 = some 7 ∧ State.reset.ready ∧ (3 : Byte).toNat ≤ 3 ∧ 3 < (4 : Byte).toNat :=
  ⟨rfl, reset_ready, by decide, by decide⟩

theorem witness_UnnamedScreensAndCodesAreRefused :
    State.reset.ready ∧ 7 < (8 : Byte).toNat ∧
      requestOf (.muteAction 0 8 true) = some ⟨0, .screenAction 8 (.mute true)⟩ ∧ 14 < (15 : Byte).toNat ∧
      screenOf 7 = some 7 ∧ (0x0FFF : BitVec 16).toNat / 4096 = 0 ∧ 12 < (0xD000 : BitVec 16).toNat / 4096 :=
  ⟨reset_ready, by decide, rfl, by decide, rfl, by decide, by decide⟩

theorem witness_MuteMovesTheMuteRamp : screenOf 0 = some 0 ∧ State.reset.ready := ⟨rfl, reset_ready⟩

theorem witness_FormatIsForcedAndReleased : screenOf 7 = some 7 ∧ State.reset.ready := ⟨rfl, reset_ready⟩

/-- Screen 0 with a FLOOR entry in WARN for channel 15. -/
def floored (s : State) : State :=
  (stored s ((4864, 0x00030F01) :: s.ts.words)).modifyAlarm 0 fun r => { r with tier := .warn, warnSeen := true }

/-- A state with a dip at screen 0. -/
def dipped (s : State) (d : Dip) : State := s.setDip 0 (some d)

/-- Where a change of state forces a fall and where it does not. -/
theorem witness_FallsFollow (st : ScreenState) :
    let s := floored (inState State.reset 0 st)
    (s.alarmEntry 0).screen = 0 ∧ (s.alarmEntry 0).source = some .floor ∧ (s.am.entries.get 0).tier = .warn ∧
      s.screenState 0 = st ∧ ScreenState.playing .preshow = true ∧ ScreenState.playing .feature = true ∧
      ScreenState.playing .idle = false ∧ ScreenState.playing .safe = false := by
  cases st <;> decide +kernel

/-- A pending apply with no dip, with a dip in FALL and with one in RISE; and none. -/
theorem witness_ApplyHanded :
    let pending := (State.reset.modifyScreen 0 fun r => { r with pendingApply := some (.request 4) })
    (pending.sc.get 0).pendingApply = some (.request 4) ∧ ScreenState.playing .idle = false ∧
      pending.eq.dips.get 0 = none ∧ (dipped pending ⟨.fall, none, [⟨.cue 0, true⟩]⟩).eq.dips.get 0 =
        some ⟨.fall, none, [⟨.cue 0, true⟩]⟩ ∧
      (dipped pending ⟨.rise, some ⟨.done, 1, 0, 0, 512⟩, []⟩).eq.dips.get 0 =
        some ⟨.rise, some ⟨.done, 1, 0, 0, 512⟩, []⟩ ∧
      (State.reset.sc.get 0).pendingApply = none ∧ ScreenState.playing .feature = true := by
  decide +kernel

theorem witness_AllowedStateChangesAreMade :
    screenOf 7 = some 7 ∧ (locked State.reset).ready ∧ (locked State.reset).li.up.lock = .locked ∧
      ((locked State.reset).screenState 7 = .offline ∧ (locked State.reset).ts.state ≠ .restoring ∧
        (locked State.reset).bankNeed 7 ((locked State.reset).activeBank 7) ≤ (locked State.reset).freePages) ∧
      ∀ st ∈ [ScreenState.idle, .preshow, .feature, .safe], (inState (locked State.reset) 7 st).ready ∧
        (inState (locked State.reset) 7 st).li.up.lock = .locked ∧ (inState (locked State.reset) 7 st).screenState 7 = st := by
  refine ⟨rfl, ⟨rfl, by decide⟩, rfl, by decide +kernel, fun st hst => ⟨⟨rfl, by show 0 ≤ 6; omega⟩, rfl, ?_⟩⟩
  revert st
  decide +kernel

/-- A store whose screen 0 has a delay of 1 in channel 0 of both banks, and a pool with no free page. -/
def crowded : State :=
  let s := stored State.reset [(7198, 0x00010000), (7710, 0x00010000)]
  { s with eq := { s.eq with free := [] } }

theorem witness_OtherStateChangesChangeNothing :
    screenOf 0 = some 0 ∧ State.reset.ready ∧
      ScreenState.ofCode (0 : Byte).toNat = some (State.reset.screenState 0) ∧ ScreenState.ofCode (5 : Byte).toNat = none ∧
      (ScreenState.ofCode (4 : Byte).toNat = some .safe ∧ (4 : BitVec 3).toNat = 4 ∧
        State.reset.screenState 0 = .offline) ∧
      (State.ready { State.reset with ts := { TableStore.reset with state := .restoring } } ∧
        State.screenState { State.reset with ts := { TableStore.reset with state := .restoring } } 0 = .offline) ∧
      crowded.ready ∧ crowded.screenState 0 = .offline ∧ crowded.ts.state ≠ .restoring ∧
        crowded.freePages < crowded.bankNeed 0 (crowded.activeBank 0) :=
  ⟨rfl, reset_ready, by decide +kernel, rfl, by decide +kernel, ⟨⟨rfl, by decide⟩, by decide +kernel⟩, ⟨rfl, by decide⟩,
    by decide +kernel, by decide +kernel, by decide +kernel⟩

theorem witness_EnableBringsTheScreenUp :
    screenOf 7 = some 7 ∧ State.reset.ready ∧ State.reset.screenState 7 = .offline ∧ State.reset.ts.state ≠ .restoring ∧
      State.reset.bankNeed 7 (State.reset.activeBank 7) ≤ State.reset.freePages ∧
      (State.reset.sc.get 7).pendingApply = none :=
  ⟨rfl, reset_ready, by decide +kernel, by decide, by decide +kernel, by decide +kernel⟩

theorem witness_DisableTakesTheScreenDown :
    screenOf 7 = some 7 ∧ ((inState State.reset 7 .idle).ready ∧ (inState State.reset 7 .idle).screenState 7 = .idle) ∧
      (inState State.reset 7 .safe).ready ∧ (inState State.reset 7 .safe).screenState 7 = .safe :=
  ⟨rfl, ⟨⟨rfl, by decide⟩, by decide +kernel⟩, ⟨rfl, by decide⟩, by decide +kernel⟩

/-- A playing screen with a pending apply. -/
def pendingApply (st : ScreenState) : State :=
  (inState State.reset 0 st).modifyScreen 0 fun r => { r with pendingApply := some (.request 4) }

theorem witness_SafeActionEntersSafe :
    screenOf 0 = some 0 ∧ (inState State.reset 0 .idle).ready ∧ (inState State.reset 0 .idle).screenState 0 = .idle ∧
      (pendingApply .feature).ready ∧ (pendingApply .feature).screenState 0 = .feature ∧
      (pendingApply .preshow).ready ∧ (pendingApply .preshow).screenState 0 = .preshow :=
  ⟨rfl, ⟨rfl, by decide⟩, by decide +kernel, ⟨rfl, by decide⟩, by decide +kernel, ⟨rfl, by decide⟩, by decide +kernel⟩

/-- Screen 0 in SAFE with an entry in TRIP that keeps it there. -/
def tripped : State :=
  (stored (safed State.reset 0 .feature (.alarm 0)) [(4864, 1), (4867, 0x00010000)]).modifyAlarm 0 fun r =>
    { r with tier := .trip, warnSeen := true, tripSeen := true }

/-- An enabled entry of the screen with safe-on-trip stands in TRIP (R12). -/
def tripStands (s : State) (i : Fin 8) : Prop := ∃ e : Fin 256, (s.am.entries.get e).tier = .trip ∧
  flag (s.word (19 + e.val / 64) (4 * (e.val % 64))) 0 = true ∧
  field (s.word (19 + e.val / 64) (4 * (e.val % 64))) 4 3 = i.val ∧
  flag (s.word (19 + e.val / 64) (4 * (e.val % 64) + 3)) 16 = true

theorem tripped_active : tripStands tripped 0 := ⟨0, by decide +kernel⟩

theorem safed_inactive (cause : SafeCause) (s : State) (hs : s.am.entries = Tab.fill 256 AlarmRecord.reset) :
    ¬tripStands (safed s 0 .feature cause) 0 := by
  rintro ⟨e, h, -⟩
  rw [show (safed s 0 .feature cause).am.entries = s.am.entries from rfl, hs, Tab.get_fill] at h
  cases h

theorem witness_ResumeReturnsFromSafe :
    screenOf 0 = some 0 ∧ (State.reset.ready ∧ State.reset.screenState 0 ≠ .safe) ∧
      (∀ from_ ∈ [ScreenState.idle, .preshow, .feature],
        (safed State.reset 0 from_ .link).screenState 0 = .safe ∧
          ((safed State.reset 0 from_ .link).sc.get 0).resume = some from_ ∧
          ((safed State.reset 0 from_ .link).sc.get 0).cause = some .link) ∧
      ((safed State.reset 0 .feature .link).ready ∧ (safed State.reset 0 .feature .link).li.up.lock = .lost) ∧
      (tripped.ready ∧ tripped.screenState 0 = .safe ∧ (tripped.sc.get 0).resume = some .feature ∧
        (tripped.sc.get 0).cause ≠ some .link ∧ tripStands tripped 0) ∧
      (safed (locked State.reset) 0 .feature .link).ready ∧
        (safed (locked State.reset) 0 .feature .link).li.up.lock = .locked ∧
        ¬tripStands (safed (locked State.reset) 0 .feature .link) 0 :=
  ⟨rfl, ⟨reset_ready, by decide +kernel⟩, by decide +kernel, ⟨⟨rfl, by decide⟩, rfl⟩,
    ⟨⟨rfl, by decide⟩, by decide +kernel, by decide +kernel, by decide +kernel, tripped_active⟩, ⟨rfl, by decide⟩, rfl,
    safed_inactive _ _ rfl⟩

theorem witness_ALostLinkTakesTheShowToSafe :
    screenOf 0 = some 0 ∧
      ((inState State.reset 0 .idle).ready ∧ (inState State.reset 0 .idle).li.up.lock = .lost ∧
        (inState State.reset 0 .idle).screenState 0 = .idle) ∧
      ((inState State.reset 0 .preshow).ready ∧ (inState State.reset 0 .preshow).screenState 0 = .preshow) ∧
      (safed State.reset 0 .feature .command).ready ∧ (safed State.reset 0 .feature .command).li.up.lock = .lost ∧
        (safed State.reset 0 .feature .command).screenState 0 = .safe ∧
        ((safed State.reset 0 .feature .command).sc.get 0).resume = some .feature ∧
        ((safed State.reset 0 .feature .command).sc.get 0).cause ≠ some .link ∧
        ¬tripStands (safed State.reset 0 .feature .command) 0 :=
  ⟨rfl, ⟨⟨rfl, by decide⟩, rfl, by decide +kernel⟩, ⟨⟨rfl, by decide⟩, by decide +kernel⟩, ⟨rfl, by decide⟩, rfl,
    by decide +kernel, by decide +kernel, by decide +kernel, safed_inactive _ _ rfl⟩

/-- A swap's counts. -/
def counts : SwapResult := ⟨.done, 1, 0, 0, 512⟩

theorem witness_ApplyFollowsStateAndDip :
    screenOf 0 = some 0 ∧ ((pendingApply .preshow).ready ∧ (pendingApply .preshow).screenState 0 = .preshow) ∧
      ((dipped State.reset ⟨.fall, none, []⟩).ready ∧ (dipped State.reset ⟨.fall, none, []⟩).screenState 0 = .offline ∧
        (dipped State.reset ⟨.fall, none, []⟩).eq.dips.get 0 ≠ none) ∧
      (State.reset.ready ∧ State.reset.screenState 0 = .offline ∧ State.reset.eq.dips.get 0 = none) ∧
      ((inState State.reset 0 .idle).screenState 0 ≠ .offline ∧ (inState State.reset 0 .idle).eq.dips.get 0 = none ∧
        (inState State.reset 0 .idle).bankNeed 0 1 ≤
          (inState State.reset 0 .idle).freePages + (inState State.reset 0 .idle).pagesHeld 0) ∧
      (inState crowded 0 .idle).ready ∧ (inState crowded 0 .idle).screenState 0 = .idle ∧
        (inState crowded 0 .idle).freePages + (inState crowded 0 .idle).pagesHeld 0 <
          (inState crowded 0 .idle).bankNeed 0 1 :=
  ⟨rfl, ⟨⟨rfl, by decide⟩, by decide +kernel⟩, ⟨⟨rfl, by decide⟩, by decide +kernel, by decide +kernel⟩,
    ⟨reset_ready, by decide +kernel, by decide +kernel⟩, by decide +kernel, ⟨rfl, by decide⟩, by decide +kernel,
    by decide +kernel⟩

theorem witness_SafepointHandsOverThePendingApply :
    screenOf 0 = some 0 ∧ (State.reset.ready ∧ (State.reset.sc.get 0).pendingApply = none) ∧
      ((pendingApply .feature).ready ∧ ((pendingApply .feature).sc.get 0).pendingApply = some (.request 4) ∧
        (pendingApply .feature).eq.dips.get 0 = none) ∧
      ((dipped (pendingApply .feature) ⟨.fall, none, [⟨.cue 255, false⟩]⟩).ready ∧
        (dipped (pendingApply .feature) ⟨.fall, none, [⟨.cue 255, false⟩]⟩).eq.dips.get 0 =
          some ⟨.fall, none, [⟨.cue 255, false⟩]⟩) ∧
      (dipped (pendingApply .feature) ⟨.rise, some counts, []⟩).ready ∧
        (dipped (pendingApply .feature) ⟨.rise, some counts, []⟩).eq.dips.get 0 = some ⟨.rise, some counts, []⟩ :=
  ⟨rfl, ⟨reset_ready, by decide +kernel⟩, ⟨⟨rfl, by decide⟩, by decide +kernel, by decide +kernel⟩,
    ⟨⟨rfl, by decide⟩, by decide +kernel⟩, ⟨rfl, by decide⟩, by decide +kernel⟩

/-- A state whose link frame's work has been done. -/
def worked (s : State) : State := { s with li := { s.li with upSeen := true, worked := true } }

/-- A state with screen 0's D at rest at 0 in the fall of a dip. -/
def fallen (s : State) : State :=
  worked ((dipped s ⟨.fall, none, [⟨.request 4, true⟩]⟩).modifyScreen 0 fun r => { r with dip := ⟨32768, 0, 256, 256⟩ })

theorem witness_DipsSwapAndEnd :
    ((dipped State.reset ⟨.rise, some counts, []⟩).eq.dips.get 0 = some ⟨.rise, some counts, []⟩ ∧
      ((dipped State.reset ⟨.rise, some counts, []⟩).sc.get 0).dip.atRest = true) ∧
    (∀ s, (fallen s).eq.dips.get 0 = some ⟨.fall, none, [⟨.request 4, true⟩]⟩ ∧
      ((fallen s).sc.get 0).dip.atRest = true ∧ (fallen s).li.worked = true) ∧
    (fallen State.reset).screenState 0 = .offline ∧
    ((fallen (inState State.reset 0 .idle)).screenState 0 ≠ .offline ∧
      (fallen (inState State.reset 0 .idle)).bankNeed 0 1 ≤
        (fallen (inState State.reset 0 .idle)).freePages + (fallen (inState State.reset 0 .idle)).pagesHeld 0) ∧
    (fallen (inState crowded 0 .idle)).screenState 0 ≠ .offline ∧
      (fallen (inState crowded 0 .idle)).freePages + (fallen (inState crowded 0 .idle)).pagesHeld 0 <
        (fallen (inState crowded 0 .idle)).bankNeed 0 1 := by
  refine ⟨by decide +kernel, fun s => ⟨?_, ?_, rfl⟩, by decide +kernel, by decide +kernel, by decide +kernel⟩
  · exact Tab.get_set_same _ _ _
  · rw [fallen, worked, State.modifyScreen_sc, Tab.get_modify_same]; rfl

theorem witness_LineActionsDriveTheOutputs :
    screenOf 0 = some 0 ∧ State.reset.ready ∧ ¬field (State.reset.word 27 (16 + 2 * 15)) 0 2 = 1 ∧
      (stored State.reset [(6958, 1)]).ready ∧ field ((stored State.reset [(6958, 1)]).word 27 (16 + 2 * 15)) 0 2 = 1 :=
  ⟨rfl, reset_ready, by decide +kernel, ⟨rfl, by decide⟩, by decide +kernel⟩

/-- A state with output line 15 so. -/
def output (o : OutputLine) : State := State.reset.setOutput 15 o

/-- Input line 15 about to settle, with debounce set, and its group enabled or not. -/
def bouncing (groups : Word) : State :=
  (stored State.reset [(6927, 0x100), (6960, groups)]).setInput 15 ⟨true, false, 239, true, false⟩

/-- A link frame whose work is due, with input line 15 debounced or not and a run counted on it. -/
def sampling (debounce : Word) (run : Nat) : State :=
  let s := (stored (locked State.reset) [(6927, debounce)]).setInput 15 ⟨true, false, run, false, false⟩
  { s with li := { s.li with upSeen := true }, bl := { s.bl with sampling := .due } }

theorem sampling_due (debounce : Word) (run : Nat) :
    (sampling debounce run).workDue ∧ (sampling debounce run).bl.sampling = .due :=
  ⟨⟨rfl, rfl, rfl, rfl, rfl⟩, rfl⟩

theorem witness_BoothLinesSampleSettleAndStep :
    ((output ⟨.pulseHigh, .pulses 1, 47, true⟩).bl.outputs.get 15 = ⟨.pulseHigh, .pulses 1, 47, true⟩ ∧
      (output ⟨.pulseHigh, .pulses 2, 47, true⟩).bl.outputs.get 15 = ⟨.pulseHigh, .pulses 2, 47, true⟩ ∧
      (output ⟨.pulseHigh, .continuous, 47, true⟩).bl.outputs.get 15 = ⟨.pulseHigh, .continuous, 47, true⟩ ∧
      (output ⟨.pulseLow, .pulses 1, 47, true⟩).bl.outputs.get 15 = ⟨.pulseLow, .pulses 1, 47, true⟩) ∧
    (((sampling 0x100 238).bl.inputs.get 15).run < 239 ∧ flag ((sampling 0x100 238).word 27 15) 8 = true ∧
      239 ≤ ((sampling 0x100 239).bl.inputs.get 15).run ∧
      flag ((sampling 0 3).word 27 15) 8 = false ∧ ((sampling 0 3).bl.inputs.get 15).held = false ∧
      ((sampling 0 3).bl.inputs.get 15).stable = (0x7FFF : BitVec 16).getLsb 15 ∧
      ((sampling 0 3).bl.inputs.get 15).stable ≠ (0x8000 : BitVec 16).getLsb 15) ∧
    ((bouncing 7).bl.inputs.get 15 = ⟨true, !true, 239, true, false⟩ ∧ flag ((bouncing 7).word 27 48) (15 / 4) = false ∧
      (bouncing 8).bl.inputs.get 15 = ⟨true, !true, 239, true, false⟩ ∧ flag ((bouncing 8).word 27 48) (15 / 4) = true) ∧
    BoothLines.key { BoothLines.reset with key := ⟨true, false, 239, true, false⟩ } = ⟨true, !true, 239, true, false⟩ := by
  decide +kernel

/-- Screen 7's clock so. -/
def clocked (c : Clock) : State := State.reset.modifyClock 7 fun _ => c

theorem witness_ClockActionsAndLoadsActOnTheClock :
    screenOf 7 = some 7 ∧
      ((clocked ⟨⟨0, 0, 0, 23⟩, 1999, true, .r24, true⟩).ready ∧
        ((clocked ⟨⟨0, 0, 0, 23⟩, 1999, true, .r24, true⟩).ct.clocks.get 7).value.frames <
          ((clocked ⟨⟨0, 0, 0, 23⟩, 1999, true, .r24, true⟩).pictureRate 7).perSecond) ∧
      ((clocked ⟨⟨0, 0, 0, 24⟩, 999, false, .r48, false⟩).ready ∧
        ((clocked ⟨⟨0, 0, 0, 24⟩, 999, false, .r48, false⟩).pictureRate 7).perSecond ≤
          ((clocked ⟨⟨0, 0, 0, 24⟩, 999, false, .r48, false⟩).ct.clocks.get 7).value.frames) ∧
      State.reset.ready ∧
      ((23 : Byte).toNat ≤ 23 ∧ (59 : Byte).toNat ≤ 59 ∧ (23 : Byte).toNat < (State.reset.pictureRate 7).perSecond) ∧
      ¬(24 : Byte).toNat < (State.reset.pictureRate 7).perSecond :=
  ⟨rfl, ⟨⟨rfl, by decide⟩, by decide +kernel⟩, ⟨⟨rfl, by decide⟩, by decide +kernel⟩, reset_ready, by decide +kernel,
    by decide +kernel⟩

theorem witness_PictureFrameAdvancesTheClock :
    (∀ v ∈ [ClockValue.mk 23 59 59 22, ⟨23, 59, 58, 23⟩, ⟨23, 58, 59, 23⟩, ⟨22, 59, 59, 23⟩, ⟨23, 59, 59, 23⟩],
      (clocked ⟨v, 1999, true, .r24, true⟩).ct.clocks.get 7 = ⟨v, 1999, true, .r24, true⟩ ∧
        v.frames < Rate.r24.perSecond ∧ v.seconds ≤ 59 ∧ v.minutes ≤ 59 ∧ v.hours ≤ 23) ∧
      1999 + 1 = Rate.r24.frameLength := by
  decide +kernel

/-- Timer 1 of screen 7 so. -/
def timed (t : Timer) : State := State.reset.modifyTimer 7 1 fun _ => t

theorem witness_TimerActionsStartAndStop :
    screenOf 7 = some 7 ∧ (State.reset.ready ∧ ((State.reset.ct.timers.get 7).get 1).count = 0) ∧
      (timed ⟨.second, 1, false, false, 0, 0, false, false⟩).ready ∧
        (((timed ⟨.second, 1, false, false, 0, 0, false, false⟩).ct.timers.get 7).get 1).count ≠ 0 :=
  ⟨rfl, ⟨reset_ready, by decide +kernel⟩, ⟨rfl, by decide⟩, by decide +kernel⟩

theorem witness_TimersAreSetAndCountDown :
    (screenOf 7 = some 7 ∧ State.reset.ready ∧ 1 < (2 : Byte).toNat ∧ 2 < (3 : Byte).toNat ∧
      ((1 : Fin 2).val = (1 : Byte).toNat ∧ (2 : Byte).toNat ≤ 2 ∧ ((State.reset.ct.timers.get 7).get 1).running = false) ∧
      (timed ⟨.second, 1, false, true, 1, 0, false, false⟩).ready ∧
        (((timed ⟨.second, 1, false, true, 1, 0, false, false⟩).ct.timers.get 7).get 1).running = true) ∧
    (∀ remaining ∈ [2, 1, 0],
      ((timed ⟨.millisecond, 3, true, true, remaining, 47, true, false⟩).ct.timers.get 7).get 1 =
        ⟨.millisecond, 3, true, true, remaining, 47, true, false⟩ ∧ 48 ≤ 47 + 1 ∧
      ((timed ⟨.pictureFrame, 3, true, true, remaining, 1500, false, true⟩).ct.timers.get 7).get 1 =
        ⟨.pictureFrame, 3, true, true, remaining, 1500, false, true⟩ ∧ Rate.r48.frameLength ≤ 1500) ∧
    ((timed ⟨.millisecond, 3, true, true, 2, 46, true, false⟩).ct.timers.get 7).get 1 =
      ⟨.millisecond, 3, true, true, 2, 46, true, false⟩ ∧ 46 + 1 < 48 :=
  ⟨⟨rfl, reset_ready, by decide, by decide, by decide +kernel, ⟨rfl, by decide⟩, by decide +kernel⟩, by decide +kernel,
    by decide +kernel⟩

theorem witness_AcknowledgeClearsInactiveFlags :
    State.reset.ready ∧ (0 : Byte).toNat < (1 : Byte).toNat ∧ (0 : Byte).toNat ≤ (255 : Byte).toNat :=
  ⟨reset_ready, by decide, by decide⟩

/-- Entry 0 of screen 0 in a state, with its limits and its words 2 and 3, and with its runtime record in a tier. -/
def alarmed (st : ScreenState) (limits w2 w3 : Word) (tier : Tier) : State :=
  (stored (inState (locked State.reset) 0 st) [(4864, 1), (4865, limits), (4866, w2), (4867, w3)]).modifyAlarm 0 fun r =>
    { r with tier := tier }

/-- The tier that the scan's comparisons give entry 0, whose value is the level step 0. -/
def judgedTier (s : State) : Tier :=
  let a := s.alarmEntry 0
  let v := s.alarmValue a .peak
  ((s.am.entries.get 0).judge a.hold (a.compare .peak v false) (a.compare .peak v true)).tier

theorem witness_AlarmTiersFollowTheirRules :
    ((alarmEntryOf 0xF00 0 0 0).channel = (15 : Fin 16).val ∧ 16 ≤ (alarmEntryOf 0x1000 0 0 0).channel) ∧
    (∃ trip : Bool, trip = true ∧ AlarmSource.peak ≠ .floor) ∧
    (∀ tier ∈ [Tier.trip, .warn, .normal],
      AlarmRecord.tier { AlarmRecord.reset with tier := tier, warnCount := 15, tripCount := 15 } = tier) ∧
    ((compareUp 0 5 0).released = true ∧ (compareUp 0 5 0).holds = false) ∧
    ((compareUp 5 5 0).released = false ∧ (compareUp 5 5 0).holds = true) ∧
    AlarmRecord.tripCount { AlarmRecord.reset with tripCount := 14 } < 15 := by
  decide +kernel

theorem witness_TierChangesHaveTheirEffects :
    (State.reset.alarmEntry 0).enabled = false ∧
    (((alarmed .idle 0x0A05 0 0 .normal).alarmEntry 0).enabled = true ∧
      ((alarmed .idle 0x0A05 0 0 .normal).alarmEntry 0).source = some .peak ∧
      (alarmed .idle 0x0A05 0 0 .normal).screenState 0 = .idle) ∧
    (alarmed .offline 0x0A05 0x200 0 .warn).screenState 0 = .offline ∧
    (judgedTier (alarmed .idle 0x0A05 0 0 .normal) = .normal ∧ judgedTier (alarmed .idle 0x0A05 0x200 0 .warn) = .normal ∧
      judgedTier (alarmed .idle 0x0A00 0x100 0 .normal) = .warn ∧ judgedTier (alarmed .safe 0 0 0x10000 .warn) = .trip) ∧
    ∀ st ∈ [ScreenState.idle, .preshow, .feature], (alarmed st 0 0x100 0x10000 .normal).screenState 0 = st ∧
      judgedTier (alarmed st 0 0x100 0x10000 .normal) = .trip ∧
      ((alarmed st 0 0x100 0x10000 .normal).alarmEntry 0).safeOnTrip = true := by
  decide +kernel

/-- A state at a meter window end. -/
def windowed (s : State) : State := worked { s with os := { s.os with window := 4799, windowDue := true } }

theorem witness_WindowEndTakesLevelsAndTargets :
    (windowed tripped).os.windowDue = true ∧ (windowed tripped).li.worked = true ∧
      (tripped.am.entries.get 0).tier = .trip ∧ (tripped.alarmEntry 0).covers 0 0 = true ∧
      (windowed tripped).screenState 0 ≠ .offline ∧ (windowed tripped).screenState 1 = .offline := by
  decide +kernel

/-- A state with the downstream port so. -/
def downPort (p : Port) : State := { State.reset with li := { LinkInterface.reset with down := p } }

theorem witness_RackStatusWordsSetSlotStates :
    (∀ p, (downPort p).li.downSeen = false) ∧
    ((downPort ⟨.locked, 0, 3⟩).li.down.lock = .locked ∧ (downPort ⟨.locked, 0, 4⟩).li.down.lock = .locked) ∧
    ((downPort ⟨.lost, 0, 0⟩).li.down.lock = .lost ∧ (downPort ⟨.lost, 478, 0⟩).li.down.lock = .lost ∧
      (downPort ⟨.lost, 478, 0⟩).li.down.intactRun < 479 ∧ (downPort ⟨.lost, 479, 0⟩).li.down.lock = .lost ∧
      479 ≤ (downPort ⟨.lost, 479, 0⟩).li.down.intactRun) ∧
    (Tab.get (State.reset.am.slots.set 127 ⟨.short, 48000⟩) 127 = ⟨.short, 48000⟩ ∧ LineState.short ≠ .unknown) :=
  ⟨fun _ => rfl, by decide, by decide, by decide +kernel⟩

theorem witness_UpstreamFramesAreGathered :
    let s := stored (locked State.reset) [(0, 1), (127, 2)]
    (s.li.worked = false ∧ s.li.upSeen = false ∧ s.li.up.lock = .locked ∧ s.ci.requests = [] ∧
      s.li.receiver = .hunting) ∧ (0 : Byte) ≠ 0xA5 ∧
      ((upPort ⟨.lost, 478, 0⟩).ci.requests = [] ∧ (upPort ⟨.lost, 478, 0⟩).li.up.lock = .lost ∧
        (upPort ⟨.lost, 478, 0⟩).li.up.intactRun < 479 ∧ (upPort ⟨.lost, 479, 0⟩).li.up.lock = .lost ∧
        479 ≤ (upPort ⟨.lost, 479, 0⟩).li.up.intactRun) ∧
      (field (s.word 0 0) 0 2 = 1 ∧ field (s.word 0 0) 4 3 = 0 ∧ field (s.word 0 0) 8 4 = 0) ∧
      field (s.word 0 127) 0 2 = 2 ∧ field (s.word 0 127) 4 3 = 0 := by
  decide +kernel

/-- Slot 0 carries speaker channel 0 of screen 0, which is in IDLE with a flight of 32 results. -/
def flying : State :=
  let s := stored (inState (locked State.reset) 0 .idle) [(128, 1)]
  { s with
    li := { s.li with upSeen := true }
    os := { s.os with channels := s.os.channels.modify 0 fun row => row.modify 0 fun ch =>
      { ch with flight := List.replicate 32 1000 } } }

theorem witness_LinkFrameFillsTheOutboundSlots :
    (flying.li.worked = false ∧ flying.li.upSeen = true ∧ flying.li.up.lockDue = false ∧
      flying.li.up.lossDue = false ∧ flying.ci.requests = []) ∧
      (field (flying.word 0 128) 0 2 = 1 ∧ (flying.sc.get 0).state ≠ .offline ∧
        ((flying.os.channels.get 0).get 0).flight[31]? = some 1000) ∧
      field (flying.word 0 255) 0 2 ≠ 1 ∧ ((flying.os.channels.get 0).get 1).flight.length < 32 ∧
      flying.screenState 1 = .offline ∧ ∀ c, (((inState State.reset 0 .idle).os.channels.get 0).get c).flight.length < 32 := by
  decide +kernel

/-- Screen 0 in IDLE plays profile 0, which its forced format 3 maps to, with the profile's header as given. -/
def playing (header : Word) (change : DecodeRecord → DecodeRecord) : State :=
  let s := stored (inState (locked State.reset) 0 .idle) [(752, header)]
  { s with
    li := { s.li with upSeen := true }
    de := s.de.modify 0 fun d => change { d with forced := some 3, current := some 0 } }

theorem playing_due (header : Word) (change : DecodeRecord → DecodeRecord) : (playing header change).workDue :=
  ⟨rfl, rfl, rfl, rfl, rfl⟩

/-- Screen 0's decode record after a link frame. -/
def decodeAfter (s : State) : DecodeRecord :=
  match exec (.linkFrame 0 false) s with
  | .next t => t.de.get 0
  | _ => .reset 0

theorem witness_LinkFrameMixesFiltersAndDelays :
    (playing 0xFFFF id).screenState 0 ≠ .offline ∧ (decodeAfter (playing 0xFFFF id)).current = some 0 ∧
      (decodeAfter (playing 0xFFFF id)).incoming = none ∧
      (decodeAfter (playing 0x1FFFF fun d => { d with incoming := some ⟨15, 7⟩ })).current = some 0 ∧
      (decodeAfter (playing 0x1FFFF fun d => { d with incoming := some ⟨15, 7⟩ })).incoming = some ⟨15, 8⟩ ∧
      (playing 0xFFFF id).sectionCount 0 ((playing 0xFFFF id).activeBank 0) 15 ≤ 0 ∧
      0 < (stored (playing 0xFFFF id) [(7198, 6)]).sectionCount 0 0 0 := by
  decide +kernel

theorem witness_LinkFrameSteers :
    ((playing 0x10000 id).screenState 0 ≠ .offline ∧ flag ((playing 0x10000 id).word 2 240) 16 = true ∧
      (decodeAfter (playing 0x10000 id)).current = some 0) ∧
    (playing 0x10000 id).screenState 1 = .offline := by
  decide +kernel

/-- A LOCKED part with a descriptor result and a candidate at every screen. -/
def described (result : DescriptorResult) (candidate : Option Candidate) : State :=
  let s := locked State.reset
  { s with
    li := { s.li with upSeen := true, descriptors := .fill 8 result }
    de := s.de.map fun d => { d with candidate := candidate } }

theorem witness_FormatsAreSelectedAndFaded :
    (∀ result candidate, (described result candidate).workDue ∧ (described result candidate).li.upSeen = true ∧
      (described result candidate).li.worked = false) ∧
    ((described (.code 15) (some ⟨15, 478⟩)).li.descriptors.get 7 = .code 15 ∧
      ((described (.code 15) (some ⟨15, 478⟩)).de.get 7).accepted = 0 ∧
      ((described (.code 15) (some ⟨15, 478⟩)).de.get 7).candidate = some ⟨15, 478⟩ ∧ 478 + 1 < 480 ∧
      ((described (.code 15) (some ⟨15, 479⟩)).de.get 7).candidate = some ⟨15, 479⟩ ∧ 480 ≤ 479 + 1 ∧
      (15 : Fin 16) ≠ 0 ∧ (described (.code 0) none).li.descriptors.get 7 = .code 0 ∧
      (described .none none).li.descriptors.get 7 = .none ∧ (described .unmapped none).li.descriptors.get 7 = .unmapped ∧
      ((described .none none).de.get 7).forced = none) ∧
    (((playing 0 id).de.get 0).forced = some 3 ∧ ((playing 0 id).de.get 0).justEnabled = false ∧
      ((playing 0 fun d => { d with justEnabled := true }).de.get 0).justEnabled = true ∧
      (decodeAfter (playing 0 id)).usedFormat = 3 ∧ (playing 0 id).formatMap 0 3 = 0 ∧
      ((playing 0 id).de.get 0).current = some 0 ∧ ((playing 0 id).de.get 0).incoming = none ∧
      ((playing 0 fun d => { d with current := some 9 }).de.get 0).current ≠ some 0 ∧
      ((playing 0 fun d => { d with incoming := some ⟨0, 511⟩ }).de.get 0).incoming = some ⟨0, 511⟩ ∧
      ((playing 0 fun d => { d with incoming := some ⟨15, 512⟩ }).de.get 0).incoming = some ⟨15, 512⟩) := by
  refine ⟨fun _ _ => ⟨⟨rfl, rfl, rfl, rfl, rfl⟩, rfl, rfl⟩, ?_, ?_⟩ <;> decide +kernel

/-- Screen 0 in a state, with a profile other than the one to be used as its current one and a FLOOR entry in WARN. -/
def fading (st : ScreenState) (header : Word) : State :=
  let s := inState (playing header id) 0 st
  floored { s with de := s.de.modify 0 fun d => { d with current := some 9 } }

/-- A crossfade of screen 0 starts, in IDLE and in FEATURE. -/
theorem witness_crossfade_starts (st : ScreenState) (hst : st = .idle ∨ st = .feature) (header : Word)
    (hh : header = 0xFFFF ∨ header = 0x7FFF) :
    (fading st header).workDue ∧ (fading st header).screenState 0 ≠ .offline ∧
      ((fading st header).de.get 0).justEnabled = false ∧ ((fading st header).de.get 0).incoming = none ∧
      ∃ t, exec (.linkFrame 0 false) (fading st header) = .next t ∧ (t.de.get 0).incoming = some ⟨0, 1⟩ := by
  refine ⟨⟨rfl, rfl, rfl, rfl, rfl⟩, ?_, ?_, ?_, _, rfl, ?_⟩
  · rcases hst with rfl | rfl <;> rcases hh with rfl | rfl <;> decide +kernel
  · rcases hst with rfl | rfl <;> rcases hh with rfl | rfl <;> decide +kernel
  · rcases hst with rfl | rfl <;> rcases hh with rfl | rfl <;> decide +kernel
  · obtain ⟨d, ci, snd, lane, -, g, -, -, h⟩ := (fading st header).work_spec 0 false rfl rfl rfl rfl
    have : ((fading st header).work 0 false).de.get 0 =
        (fading st header).decodedRecord 0 ((fading st header).de.get 0) := by rw [h]; exact g 0
    rw [show ((fading st header).linkFrame 0 false) = (fading st header).work 0 false from rfl, this]
    rcases hst with rfl | rfl <;> rcases hh with rfl | rfl <;> decide +kernel

/-- The FLOOR entry's channel 15 is watched in FEATURE where the profile drives it, and not in IDLE or undriven. -/
theorem witness_crossfade_watched :
    (fading .feature 0xFFFF).playing 0 = true ∧ (fading .idle 0xFFFF).playing 0 = false ∧
      ((fading .idle 0xFFFF).alarmEntry 0).channel = 15 ∧
      field ((fading .feature 0xFFFF).word 2 240) 0 16 / 2 ^ 15 % 2 = 1 ∧
      field ((fading .feature 0x7FFF).word 2 240) 0 16 / 2 ^ 15 % 2 ≠ 1 := by
  decide +kernel

theorem witness_PortsAreLostAndLocked :
    let lost := inState { State.reset with li := { LinkInterface.reset with up := ⟨.locked, 0, 4⟩ } } 0 .feature
    let s : State := { State.reset with li := { LinkInterface.reset with
      up := ⟨.lost, 480, 0⟩, arrival := some ⟨[one], 0, 0⟩, down := ⟨.lost, 480, 0⟩, rackWord := some 0x1181 } }
    (lost.li.up = ⟨.locked, 0, 4⟩ ∧ lost.screenState 0 = .feature ∧ lost.screenState 1 = .offline) ∧
    (downPort ⟨.locked, 0, 4⟩).li.down = ⟨.locked, 0, 4⟩ ∧
    (s.li.up = ⟨.lost, 480, 0⟩ ∧ s.li.arrival = some ⟨[one], 0, 0⟩ ∧ s.ci.requests = [] ∧ s.li.receiver = .hunting ∧
      (0 : Byte) ≠ 0xA5 ∧ s.li.receiver.take [0xA5, 0x02] = (⟨.body, [0xA5, 0x02]⟩, [])) ∧
    ((upPort ⟨.lost, 479, 0⟩).li.worked = false ∧ (upPort ⟨.lost, 479, 0⟩).li.upSeen = false ∧
      (upPort ⟨.lost, 479, 0⟩).li.up.lock = .lost ∧ (upPort ⟨.lost, 479, 0⟩).li.up.intactRun = 479 ∧
      (upPort ⟨.lost, 479, 0⟩).ci.requests = [] ∧ (upPort ⟨.lost, 479, 0⟩).li.receiver = .hunting) ∧
    s.li.down = ⟨.lost, 480, 0⟩ ∧ s.li.rackWord = some 0x1181 := by
  decide +kernel

/-- A LOCKED part with a number of replies and of reports waiting. -/
def answering (replies reports : Nat) : State :=
  { locked State.reset with ci := { Interpreter.reset with
    replies := List.replicate replies ⟨2, .ok, []⟩
    reports := List.replicate reports ⟨false, .link .upstream .locked .lost⟩ } }

/-- The same with the link frame's work due and a message in the sender, its next byte so. -/
def sending (replies reports : Nat) (lock : Lock) (message : List Byte) (index : Nat) : State :=
  let s := answering replies reports
  { s with li := { s.li with up := ⟨lock, 0, 0⟩, upSeen := true, sender := ⟨message, index⟩ } }

theorem sending_due (replies reports : Nat) (lock : Lock) (message : List Byte) (index : Nat) :
    (sending replies reports lock message index).workDue := by
  cases lock <;> exact ⟨rfl, rfl, rfl, rfl, rfl⟩

theorem witness_ReplyLaneSendsWholeMessages :
    ((answering 1 1).li.sender.message = [] ∧ (answering 1 1).li.up.lock = .locked ∧ (answering 1 1).ci.requests = [] ∧
      (answering 1 1).ci.replies = ⟨2, .ok, []⟩ :: []) ∧
    ((answering 0 1).li.sender.message = [] ∧ (answering 0 1).li.up.lock = .locked ∧ (answering 0 1).ci.requests = [] ∧
      (answering 0 1).ci.replies = [] ∧ (answering 0 1).ci.reports = ⟨false, .link .upstream .locked .lost⟩ :: []) ∧
    ((answering 0 0).li.sender.message = [] ∧ (answering 0 0).li.up.lock = .locked ∧ (answering 0 0).ci.requests = [] ∧
      (answering 0 0).ci.replies = [] ∧ (answering 0 0).ci.reports = []) ∧
    ((sending 1 1 .locked [1, 2, 3] 0).li.sender.index + 2 < [(1 : Byte), 2, 3].length ∧
      (sending 1 1 .locked [1, 2, 3] 1).li.sender.index + 2 = [(1 : Byte), 2, 3].length ∧
      (sending 1 1 .locked [1, 2, 3] 2).li.sender.index + 1 = [(1 : Byte), 2, 3].length) ∧
    ((sending 1 1 .lost [1, 2, 3] 2).li.up.lock = .lost ∧ (sending 1 1 .locked [] 0).ci.replies = ⟨2, .ok, []⟩ :: [] ∧
      (sending 0 1 .locked [] 0).ci.replies = []) := by
  decide +kernel

/-- What waits behind the replies where no crossfade's start forces a fall, on any state of the screens. -/
theorem witness_waiting (reports : Nat) (message : List Byte) (index : Nat) (st : ScreenState) (de : Tab 8 DecodeRecord) :
    let s := inState (sending 0 reports .locked message index) 0 st
    s.workDue ∧ s.screenState 0 = st ∧
      (s.queueReports (s.fadeReports de)).ci.reports =
        List.replicate reports ⟨false, .link .upstream .locked .lost⟩ := by
  refine ⟨⟨rfl, rfl, rfl, rfl, rfl⟩, rfl, ?_⟩
  rw [State.fadeReports_of_normal]
  · rfl
  · intro e
    show (Tab.get (Tab.fill 256 AlarmRecord.reset) e).tier = .normal
    rw [Tab.get_fill]; rfl

/-- The crossfade of `witness_crossfade_starts`, its FLOOR entry routing its clear, has that entry's fall to report. -/
theorem witness_waiting_fall :
    let s := stored (fading .idle 0x7FFF) [(752, 0x7FFF), (4864, 0x00030F01), (4866, 0x200)]
    State.screenFadeReports s 0 { DecodeRecord.reset 3 with current := some 9, incoming := some ⟨0, 1⟩ } =
      [.alarm 0 0 15 .floor true .warn .normal (.level 0) true false true] := by
  decide +kernel

theorem witness_CueArmSetsTheArmedFlag : State.reset.ready ∧ 1 < (2 : Byte).toNat := ⟨reset_ready, by decide⟩

theorem witness_ReportActionQueuesACueReport :
    screenOf 0 = some 0 ∧ ((answering 6 31).ready ∧ (answering 6 31).ci.reports.length < 32) ∧
      (answering 6 32).ready ∧ 32 ≤ (answering 6 32).ci.reports.length :=
  ⟨rfl, ⟨⟨rfl, by decide⟩, by decide⟩, ⟨rfl, by decide⟩, by decide⟩

/-- Cue 0, armed: on a TIMER trigger of timer 1 of screen 0 in any state, MUTE on (kind 4, bit 0), with a report. -/
def cued (reports : Nat) : State :=
  let s := (triggered (stored State.reset [(5888, 0x00011F05), (5889, 1), (5890, 0x40010000)]) [⟨.timer 0 1, 0⟩]).modifyCue 0
    fun r => { r with armed := true }
  { s with ci := { s.ci with reports := List.replicate reports ⟨false, .link .upstream .locked .lost⟩ } }

/-- Cue 0, armed: on a CLOCK trigger of screen 0 with F equal to 0. -/
def clockCued (memory : Bool) : State :=
  (triggered (stored State.reset [(5888, 0x00001F01), (5889, 0x80000000)]) [⟨.clock 0 ⟨0, 0, 0, 0⟩, 0⟩]).modifyCue 0
    fun _ => ⟨true, memory⟩

theorem witness_TriggersAreHandledAgainstEveryEntry :
    (cued 0).ce.triggers = ⟨.timer 0 1, 0⟩ :: [] ∧
    (((cued 0).ce.cues.get 0).armed = true ∧ field ((cued 0).cueWord 0 0) 16 3 = 1 ∧
      field ((cued 0).cueWord 0 0) 4 3 = 0 ∧ field ((cued 0).cueWord 0 1) 0 1 = 1 ∧
      field ((cued 0).cueWord 0 0) (8 + ((cued 0).screenState 0).code) 1 = 1) ∧
    (triggered State.reset [⟨.timer 0 1, 0⟩]).ce.triggers = ⟨.timer 0 1, 0⟩ :: [] ∧
    (State.reset.ce.cues.get 0).armed = false ∧
    (∀ memory, (clockCued memory).ce.triggers = ⟨.clock 0 ⟨0, 0, 0, 0⟩, 0⟩ :: [] ∧
      (clockCued memory).ce.cues.get 0 = ⟨true, memory⟩) ∧
    (field ((clockCued false).cueWord 0 0) 16 3 = 0 ∧ field ((clockCued false).cueWord 0 0) 4 3 = 0 ∧
      flag ((clockCued false).cueWord 0 1) 31 = true ∧ field ((clockCued false).cueWord 0 1) 24 6 = 0 ∧
      field ((clockCued false).cueWord 0 0) (8 + ((clockCued false).screenState 0).code) 1 = 1) := by
  decide +kernel

theorem witness_FiringRunsTheActions :
    (flag ((cued 31).cueWord 0 0) 2 = true ∧ flag ((clockCued false).cueWord 0 0) 2 = false ∧
      ((cued 31).runActions 0 (.cue 0) 1 ((cued 31).cueEntry 0).actions).1.ci.reports.length < 32 ∧
      32 ≤ ((cued 32).runActions 0 (.cue 0) 1 ((cued 32).cueEntry 0).actions).1.ci.reports.length ∧
      ((cued 31).runActions 0 (.cue 0) 1 ((cued 31).cueEntry 0).actions).2 = [⟨4, .done, 0⟩]) ∧
    ((clocked ⟨⟨0, 0, 0, 24⟩, 999, false, .r48, false⟩).pictureRate 7).perSecond ≤
      ((clocked ⟨⟨0, 0, 0, 24⟩, 999, false, .r48, false⟩).ct.clocks.get 7).value.frames ∧
    ((clocked ⟨⟨0, 0, 0, 23⟩, 1999, true, .r24, true⟩).ct.clocks.get 7).value.frames <
      ((clocked ⟨⟨0, 0, 0, 23⟩, 1999, true, .r24, true⟩).pictureRate 7).perSecond := by
  decide +kernel

/-- The states and targets of the clauses on STATE and SAFE: an equal target, one not allowed, an enable without and with its
pages, changes from IDLE, PRESHOW and FEATURE with the port LOCKED or the target not playing, and one with the port LOST. -/
theorem witness_cascades :
    (ScreenState.ofCode (0 : BitVec 3).toNat = some (State.reset.screenState 0) ∧
      ScreenState.ofCode (5 : BitVec 3).toNat = none ∧ ScreenState.ofCode (4 : BitVec 3).toNat = some .safe ∧
      ScreenState.safe ≠ State.reset.screenState 0) ∧
    (ScreenState.ofCode (1 : BitVec 3).toNat = some .idle ∧ crowded.screenState 0 = .offline ∧
      crowded.ts.state ≠ .restoring ∧ ¬crowded.bankNeed 0 (crowded.activeBank 0) ≤ crowded.freePages) ∧
    (State.reset.screenState 0 = .offline ∧ State.reset.ts.state ≠ .restoring ∧
      State.reset.bankNeed 0 (State.reset.activeBank 0) ≤ State.reset.freePages) ∧
    (∀ st ∈ [ScreenState.idle, .preshow, .feature], (inState State.reset 0 st).screenState 0 = st ∧
      (st, ScreenState.safe) ∈ [(ScreenState.idle, ScreenState.safe), (.preshow, .safe), (.feature, .safe)] ∧
      ScreenState.safe.playing = false) ∧
    (inState (locked State.reset) 0 .idle).li.up.lock = .locked ∧
    (inState State.reset 0 .idle).li.up.lock = .lost ∧ ScreenState.feature.playing = true ∧
    (Action.release.kind ≠ 1 ∧ Action.release.kind ≠ 2 ∧ Action.release.kind ≠ 10) := by
  decide +kernel

theorem witness_QueriesOnlyReply :
    State.reset.ready ∧ screenOf 7 = some 7 ∧ 15 < (16 : Byte).toNat ∧ (15 : Fin 16).val = (15 : Byte).toNat :=
  ⟨reset_ready, rfl, by decide, rfl⟩

/-- Screen 0 in IDLE, its active bank giving channel 0 a delay of one page, which it holds or does not hold yet. -/
def delayed (pages : List (Fin 512)) : State :=
  (stored (inState State.reset 0 .idle) [(7198, 0x00010000)]).modifyEq 0 0 fun ch => { ch with pages := pages }

theorem witness_TableWriteWritesTheRun :
    State.reset.ready ∧ State.reset.ts.words.wf = true ∧ [(1 : Word)] ≠ [] ∧
      State.reset.writeResult 59 255 [1] = .ok ∧ State.reset.writeResult 19 0 (List.replicate 32 1) = .ok ∧
      ((delayed [511]).ready ∧ (delayed [511]).ts.words.wf = true ∧ (delayed [511]).writeResult 28 30 [0] = .ok ∧
        (delayed [511]).writeResult 28 30 [0x10000000] = .ok ∧ (delayed [511]).screenState 0 ≠ .offline) ∧
      (State.reset.writeResult 0 127 [0x72] = .ok ∧ (∀ n : Fin 128, ¬field (State.reset.word 0 n.val) 0 2 = 2) ∧
        field (0x72 : Word) 0 2 = 2 ∧ field (0x72 : Word) 4 3 = (7 : Fin 8).val) :=
  ⟨reset_ready, rfl, by decide, by decide +kernel, by decide +kernel, ⟨⟨rfl, by decide⟩, rfl, by decide +kernel⟩,
    by decide +kernel⟩

/-- The state with the booth key LOCKED. -/
def keyed (s : State) : State := { s with bl := { s.bl with key := .settled true } }

/-- The state with a preserve in progress. -/
def preserving (elapsed : Nat) : State :=
  { State.reset with ts := { TableStore.reset with state := .preserving, elapsed := elapsed, requestTag := 9 } }

theorem witness_RefusedWritesAndReadsChangeNothing :
    (State.reset.ready ∧ 15360 < 256 * (59 : Byte).toNat + (255 : Byte).toNat + [(1 : Word), 2].length ∧
      256 * (59 : Byte).toNat + (255 : Byte).toNat + [(1 : Word)].length ≤ 15360 ∧
      (keyed State.reset).bl.key.stable = true ∧ (preserving 1).ts.state ≠ .idle) ∧
    ((31 : Byte).toNat ≤ 31 ∧ 256 * (59 : Byte).toNat + (224 : Byte).toNat + (31 : Byte).toNat ≤ 15359) ∧
      31 < (32 : Byte).toNat ∧ 15359 < 256 * (59 : Byte).toNat + (225 : Byte).toNat + (31 : Byte).toNat :=
  ⟨⟨reset_ready, by decide, by decide, rfl, by decide⟩, by decide, by decide, by decide⟩

/-- Screen 0 in FEATURE with profile 0, which is steered, as its current one. -/
def showing : State := stored (inState State.reset 0 .feature) [(752, 0x00010000)]

/-- The last word of each protected item of R169: the statement's conditions for IN_USE are met. -/
theorem witness_protected_words (h : Obligations.RefusedWritesAndReadsChangeNothing) :
    exec (.tableWrite 1 19 3 [0]) tripped = .next (tripped.reply 1 .inUse []) ∧
      ∀ page word : Byte, (page, word) ∈ [(29, 255), (1, 31), (3, 255), (2, 240), (2, 0), (0, 255)] →
        exec (.tableWrite 1 page word [0]) showing = .next (showing.reply 1 .inUse []) := by
  have hs : showing.ready := ⟨rfl, by decide⟩
  have hp : showing.screenState 0 = .preshow ∨ showing.screenState 0 = .feature := by decide +kernel
  have hu : ∃ i, (showing.screenState i = .preshow ∨ showing.screenState i = .feature) ∧
      ((showing.de.get i).current = some 0 ∨ (showing.de.get i).pending = some 0 ∨
        ∃ k, (showing.de.get i).incoming = some ⟨0, k⟩) := ⟨0, hp, .inl (by decide +kernel)⟩
  have hf : field (showing.word 2 240) 16 1 = 1 := by decide +kernel
  refine ⟨((((h.1 tripped 1 19 3 [0] ⟨rfl, by decide⟩).2 (by decide)).2 (by decide)).2 (by decide)).1
    ⟨0, by decide, .inl ⟨0, by decide +kernel⟩⟩, fun page word hm => ?_⟩
  simp only [List.mem_cons, Prod.mk.injEq, List.not_mem_nil, or_false] at hm
  rcases hm with ⟨rfl, rfl⟩ | ⟨rfl, rfl⟩ | ⟨rfl, rfl⟩ | ⟨rfl, rfl⟩ | ⟨rfl, rfl⟩ | ⟨rfl, rfl⟩
  · exact (((((h.1 showing 1 29 255 [0] hs).2 (by decide)).2 (by decide)).2 (by decide)).1
      ⟨0, by decide, .inr (.inl ⟨0, hp, by decide +kernel⟩)⟩)
  · exact (((((h.1 showing 1 1 31 [0] hs).2 (by decide)).2 (by decide)).2 (by decide)).1
      ⟨0, by decide, .inr (.inr (.inl ⟨0, hp, by decide⟩))⟩)
  · exact (((((h.1 showing 1 3 255 [0] hs).2 (by decide)).2 (by decide)).2 (by decide)).1
      ⟨0, by decide, .inr (.inr (.inr (.inl ⟨0, hu, .inl (by decide)⟩)))⟩)
  · exact (((((h.1 showing 1 2 240 [0] hs).2 (by decide)).2 (by decide)).2 (by decide)).1
      ⟨0, by decide, .inr (.inr (.inr (.inl ⟨0, hu, .inr (by decide)⟩)))⟩)
  · exact (((((h.1 showing 1 2 0 [0] hs).2 (by decide)).2 (by decide)).2 (by decide)).1
      ⟨0, by decide, .inr (.inr (.inr (.inr (.inl ⟨0, hu, hf, by decide⟩))))⟩)
  · exact (((((h.1 showing 1 0 255 [0] hs).2 (by decide)).2 (by decide)).2 (by decide)).1
      ⟨0, by decide, .inr (.inr (.inr (.inr (.inr ⟨0, hp, by decide, .inr (by decide)⟩))))⟩)

/-- The page check of R69 on a run that meets no protected word: it fails where the pool holds no free page, and passes
where the pool holds one. -/
theorem witness_page_check (h : Obligations.RefusedWritesAndReadsChangeNothing) :
    let s := inState crowded 0 .idle
    let roomy : State := { s with eq := { s.eq with free := [511] } }
    exec (.tableWrite 1 28 30 [0x01000000]) s = .next (s.reply 1 .noSpace []) ∧
      roomy.writeResult 28 30 [0x01000000] = .ok := by
  intro s roomy
  have hp : ∀ i, ¬(s.screenState i = .preshow ∨ s.screenState i = .feature) := by decide +kernel
  have ht : ∀ e, ¬(s.am.entries.get e).tier = .trip := by
    intro e; rw [show s.am.entries = .fill 256 AlarmRecord.reset from rfl, Tab.get_fill]; decide
  refine ⟨((((h.1 s 1 28 30 [0x01000000] ⟨rfl, by decide⟩).2 (by decide)).2 (by decide)).2 (by decide)).2.1 ?_
      (by decide +kernel),
    ((((h.1 roomy 1 28 30 [0x01000000] ⟨rfl, by decide⟩).2 (by decide)).2 (by decide)).2 (by decide)).2.2 ?_
      (by decide +kernel)⟩ <;>
  · rintro ⟨k, -, ⟨e, g, -⟩ | ⟨i, g, -⟩ | ⟨i, g, -⟩ | ⟨p, ⟨i, g, -⟩, -⟩ | ⟨p, ⟨i, g, -⟩, -⟩ | ⟨i, g, -⟩⟩
    · exact ht e g
    all_goals exact hp i g

/-- A restore about to complete from an image. -/
def restoring (image : Image) : State :=
  { State.reset with ts := { TableStore.reset with state := .restoring, elapsed := 24000, image := image } }

theorem witness_PreserveAndRestoreBeginAndComplete :
    ((State.reset.ready ∧ State.reset.bl.key.stable = false ∧ State.reset.ts.state = .idle ∧
      ∀ i, State.reset.screenState i = .offline) ∧
      ((keyed State.reset).ready ∧ (keyed State.reset).bl.key.stable = true) ∧
      ((preserving 1).ready ∧ (preserving 1).bl.key.stable = false ∧ (preserving 1).ts.state ≠ .idle) ∧
      (inState State.reset 7 .idle).ready ∧ (inState State.reset 7 .idle).ts.state = .idle ∧
        ∃ i, (inState State.reset 7 .idle).screenState i ≠ .offline) ∧
    ((preserving 72000).ts.state = .preserving ∧ (preserving 72000).ts.elapsed = 72000) ∧
      ((restoring ⟨[], 0, false⟩).ts.elapsed = 24000 ∧ (restoring ⟨[], 0, false⟩).ts.image.valid = false) ∧
      (restoring ⟨[(0, 0x72)], 0xFFFFFF8D, true⟩).ts.state = .restoring ∧
        (restoring ⟨[(0, 0x72)], 0xFFFFFF8D, true⟩).ts.image.valid = true ∧
        (restoring ⟨[(0, 0x72)], 0xFFFFFF8D, true⟩).descriptorMapped 7 = false :=
  ⟨⟨⟨reset_ready, rfl, rfl, by decide +kernel⟩, ⟨⟨rfl, by decide⟩, rfl⟩, ⟨⟨rfl, by decide⟩, rfl, by decide⟩,
    ⟨rfl, by decide⟩, rfl, 7, by decide +kernel⟩, by decide +kernel, by decide +kernel, by decide +kernel⟩

theorem witness_ResetRestartsEveryBlock :
    (State.reset.ready ∧ ∀ i, State.reset.screenState i ≠ .preshow ∧ State.reset.screenState i ≠ .feature) ∧
      (inState State.reset 7 .preshow).ready ∧ (inState State.reset 7 .preshow).screenState 7 = .preshow ∧
      State.reset.autoEnable 7 = false ∧ (stored State.reset [(480, 1)]).autoEnable 7 = true ∧
      (stored State.reset [(480, 1)]).bankNeed 7 0 = 0 :=
  ⟨⟨reset_ready, by decide +kernel⟩, ⟨rfl, by decide⟩, by decide +kernel, by decide +kernel, by decide +kernel,
    by decide +kernel⟩

/-- R20: a screen whose settings give auto-enable is IDLE after a RESET. -/
theorem test_reset_enables :
    stateAfter (exec (.reset 1) (stored State.reset [(480, 1)])) 7 = some .idle := by decide +kernel

theorem witness_PowerUpLoadsTheImage :
    State.reset.ts.image.valid = false ∧ Image.valid ⟨[(0, 1)], 0xFFFFFFFE, true⟩ = true := by decide +kernel

theorem witness_LevelStepsFollowTheOctaves : 1 ≤ 23 ∧ 2 ^ (23 - 1) ≤ 8388607 ∧ 8388607 < 2 ^ 23 ∧ 5 ≤ 23 ∧ 7 < 8 := by
  decide

theorem witness_RampsAndGainsFollowTheirFormulas :
    ((Ramp.mk 32768 0 256 0).sound ∧ (Ramp.mk 32768 0 256 0).position + 256 ≤ (Ramp.mk 32768 0 256 0).length) ∧
    ((32768 : Nat) = (Ramp.rest 32768 64).target ∧ 8192 ≠ (Ramp.rest 32768 64).target ∧ 8192 < (Ramp.rest 32768 64).value ∧
      32768 ≠ (Ramp.rest 8192 64).target ∧ (Ramp.rest 8192 64).value < 32768 ∧
      (Ramp.mk 8192 0 64 0).value = 8192 ∧ 8192 ≠ (Ramp.mk 8192 0 64 0).target) ∧
    ((ScreenRecord.reset 32768).fader.sound ∧ (ScreenRecord.reset 32768).mute.sound ∧
      (ScreenRecord.reset 32768).safeRamp.sound ∧ (ScreenRecord.reset 32768).dip.sound ∧
      (ScreenRecord.reset 32768).mute.value = 32768 ∧ (ScreenRecord.reset 0).fader.value = 0) :=
  ⟨⟨⟨by decide, by decide, by decide, by decide⟩, by decide⟩, by decide +kernel,
    ⟨by decide, by decide, by decide, by decide⟩, ⟨by decide, by decide, by decide, by decide⟩,
    ⟨by decide, by decide, by decide, by decide⟩, ⟨by decide, by decide, by decide, by decide⟩, by decide +kernel,
    by decide +kernel⟩

end Sys2Proof.Tests
end

section
/-!
PROOFS. The mute ramp (R17): what the MUTE and LEVEL actions do to a screen's record.
-/

namespace Sys2Proof.Machine

/-! ## Action commands while the interpreter is ready -/

/-- A command that is a named action runs it for its request at depth 0 and replies its outcome (R177, R179). -/
theorem exec_action_ready {c : Instr} {tag screen : Byte} {a : Action}
    (hc : requestOf c = some ⟨tag, .screenAction screen a⟩) (ha : ∀ k, a ≠ .unnamed k)
    {s : State} {i : Fin 8} (hi : screenOf screen = some i) (hs : s.ready) :
    exec c s = .next ((s.runAction i (.request tag) 0 a).1.reply tag (s.runAction i (.request tag) 0 a).2.result
      [byte a.kind, (s.runAction i (.request tag) 0 a).2.code]) := by
  rw [exec_request hc, State.request_ready hs, State.execute_action hi tag a ha]

/-! ## The mute ramp -/

/-- MUTE starts M from its current value, on or off, whatever the screen's state (R17). -/
theorem State.runAction_mute (s : State) (i : Fin 8) (origin : Origin) (depth : Nat) (on : Bool) :
    s.runAction i origin depth (.mute on) =
      (s.modifyScreen i fun r => { r with mute := ⟨r.mute.value, if on then 0 else 32768, 256, 0⟩ }, .done) := rfl

/-- A LEVEL action moves F alone, so every screen's M stands (R16, R17). -/
theorem State.runAction_level_mute (s : State) (i j : Fin 8) (origin : Origin) (depth : Nat) (p : Fin 8) (r : Fin 4) :
    ((s.runAction i origin depth (.level p r)).1.sc.get j).mute = (s.sc.get j).mute := by
  rw [State.runAction, State.fade, State.modifyScreen_sc, Tab.get_modify]
  by_cases h : j = i
  · rw [if_pos h, h]
  · rw [if_neg h]

/-- Settles O19: a request for MUTE runs the action as it arrives, and the action is `State.runAction_mute`. -/
theorem muteMovesTheMuteRamp : Obligations.MuteMovesTheMuteRamp := by
  intro s i on muted
  refine ⟨fun origin depth => s.runAction_mute i origin depth on, fun tag screen hi hs => ?_,
    fun origin depth p r j => s.runAction_level_mute i j origin depth p r⟩
  have hrun := exec_action_ready (c := .muteAction tag screen on) rfl nofun hi hs
  rw [State.runAction_mute] at hrun
  exact hrun

end Sys2Proof.Machine
end

section
/-!
PROOFS. The level step function (R91): its octaves, and the least magnitude that reaches each level.
-/

namespace Sys2Proof.Machine

theorem levelStep_zero : levelStep 0 = 0 := rfl

/-- In the octave from 2^m the number of digits is m + 1, and L is R91's formula. -/
theorem levelStep_octave {m v : Nat} (hlow : 2 ^ m ≤ v) (hhigh : v < 2 ^ (m + 1)) :
    levelStep v = 8 * m + v * 8 / 2 ^ m - 8 := by
  have hv : v ≠ 0 := ((Nat.two_pow_pos m).trans_le hlow).ne'
  have hlog : v.log2 = m := (Nat.log2_eq_iff hv).mpr ⟨hlow, hhigh⟩
  simp [levelStep, digits, hv, hlog]

/-- The quotient of R91 lies in 8..15. -/
theorem octave_quotient_bounds {m v : Nat} (hlow : 2 ^ m ≤ v) (hhigh : v < 2 ^ (m + 1)) :
    8 ≤ v * 8 / 2 ^ m ∧ v * 8 / 2 ^ m < 16 := by
  rw [Nat.le_div_iff_mul_le (Nat.two_pow_pos m), Nat.div_lt_iff_lt_mul (Nat.two_pow_pos m)]
  omega

/-- A magnitude reaches the level of eighth k of octave m exactly from (8 + k) / 8 × 2^m on. The range and the order of
the levels follow from it. -/
theorem le_levelStep_iff {m k v : Nat} (hk : k < 8) (hv : v ≠ 0) :
    8 * m + k ≤ levelStep v ↔ (8 + k) * 2 ^ m ≤ v * 8 := by
  obtain ⟨n, hn⟩ : ∃ n, v.log2 = n := ⟨_, rfl⟩
  obtain ⟨hlow, hhigh⟩ := (Nat.log2_eq_iff hv).mp hn
  obtain ⟨hge, hlt⟩ := octave_quotient_bounds hlow hhigh
  rw [levelStep_octave hlow hhigh]
  obtain hmn | rfl | hnm := lt_trichotomy m n
  · have hpow : 2 ^ (m + 1) ≤ 2 ^ n := Nat.pow_le_pow_right two_pos hmn
    have hstep : (8 + k) * 2 ^ m ≤ 16 * 2 ^ m := Nat.mul_le_mul_right _ (by omega)
    omega
  · rw [← Nat.le_div_iff_mul_le (Nat.two_pow_pos m)]
    omega
  · have hpow : 2 ^ (n + 1) ≤ 2 ^ m := Nat.pow_le_pow_right two_pos hnm
    have hstep : 8 * 2 ^ m ≤ (8 + k) * 2 ^ m := Nat.mul_le_mul_right _ (by omega)
    omega

theorem levelStep_mono {v w : Nat} (h : v ≤ w) : levelStep v ≤ levelStep w := by
  by_cases hv : v = 0
  · simp [hv, levelStep_zero]
  · have hk : levelStep v % 8 < 8 := Nat.mod_lt _ (by decide)
    have hreached := (le_levelStep_iff (m := levelStep v / 8) hk hv).mp (Nat.div_add_mod _ 8).le
    rw [← Nat.div_add_mod (levelStep v) 8, le_levelStep_iff hk (by omega)]
    exact hreached.trans (Nat.mul_le_mul_right 8 h)

/-- 184 would be the first level of octave 23, which begins at 2^23. -/
theorem levelStep_le_183 {v : Nat} (h : v ≤ 8388607) : levelStep v ≤ 183 := by
  by_cases hv : v = 0
  · simp [hv, levelStep_zero]
  · have hiff := le_levelStep_iff (m := 23) (k := 0) (by decide) hv
    omega

/-- The top level is the last eighth of octave 22, from 15 × 2^19 on. -/
theorem levelStep_eq_183_iff {v : Nat} (h : v ≤ 8388607) : levelStep v = 183 ↔ 7864320 ≤ v := by
  by_cases hv : v = 0
  · simp [hv, levelStep_zero]
  · have hiff := le_levelStep_iff (m := 22) (k := 7) (by decide) hv
    have hmax := levelStep_le_183 h
    omega

/-- From 2^3 on an octave holds a magnitude for each of its eighths, the least being (8 + k) × 2^m. -/
theorem levelStep_eighth {m k : Nat} (hk : k < 8) :
    2 ^ (m + 3) ≤ (8 + k) * 2 ^ m ∧ (8 + k) * 2 ^ m < 2 ^ (m + 4) ∧
      levelStep ((8 + k) * 2 ^ m) = 8 * (m + 3) + k := by
  have hlow : 2 ^ (m + 3) ≤ (8 + k) * 2 ^ m := by
    rw [pow_add, Nat.mul_comm]
    exact Nat.mul_le_mul_right _ (by omega)
  have hhigh : (8 + k) * 2 ^ m < 2 ^ (m + 4) := by
    rw [pow_add, Nat.mul_comm (2 ^ m)]
    exact Nat.mul_lt_mul_of_pos_right (by omega) (Nat.two_pow_pos m)
  have hquot : (8 + k) * 2 ^ m * 8 / 2 ^ (m + 3) = 8 + k := by
    rw [Nat.mul_assoc, pow_add]
    exact Nat.mul_div_cancel _ (by positivity)
  refine ⟨hlow, hhigh, ?_⟩
  rw [levelStep_octave hlow hhigh, hquot]
  omega

/-- Settles O60: the formula is `levelStep_octave`, and the range and the order are those of `le_levelStep_iff`. -/
theorem levelStepsFollowTheOctaves : Obligations.LevelStepsFollowTheOctaves := by
  refine ⟨levelStep_zero, fun n v hn hlow hhigh => ?_, fun _ _ => levelStep_mono, fun _ => levelStep_le_183,
    fun _ => levelStep_eq_183_iff, fun n k hn hk => ?_⟩
  · obtain ⟨m, rfl⟩ := Nat.exists_eq_add_of_le' hn
    exact levelStep_octave hlow hhigh
  · obtain ⟨m, rfl⟩ := Nat.exists_eq_add_of_le' (show 4 ≤ n by omega)
    exact ⟨_, levelStep_eighth hk⟩

end Sys2Proof.Machine
end

section
/-!
PROOFS. ACKNOWLEDGE (R114): the sticky flags it clears, and the annunciator demands that follow them (R113).
-/

namespace Sys2Proof.Machine

section Acknowledge

variable (s : State) (first last : Nat)

/-- An entry in the range is acknowledged, enabled or not, and the others stand (R114). -/
theorem State.acknowledgeRange_get (e : Fin 256) :
    (s.acknowledgeRange first last).am.entries.get e =
      if first ≤ e.val ∧ e.val ≤ last then (s.am.entries.get e).acknowledged else s.am.entries.get e :=
  Tab.get_ofFn _ e

/-- ACKNOWLEDGE changes no table word, so every entry's content stands. -/
theorem State.acknowledgeRange_alarmEntry (e : Fin 256) :
    (s.acknowledgeRange first last).alarmEntry e = s.alarmEntry e := by
  have hts : (s.acknowledgeRange first last).ts = s.ts := rfl
  simp only [State.alarmEntry, State.alarmWord, State.word, hts]

/-- ACKNOWLEDGE changes the runtime records and the annunciator demands, and nothing else (R114). -/
theorem State.acknowledgeRange_frame :
    s.acknowledgeRange first last =
      { s with am := { s.am with
        entries := (s.acknowledgeRange first last).am.entries
        demands := (s.acknowledgeRange first last).am.demands } } := rfl

/-- The annunciator demands follow the flags that an ACKNOWLEDGE leaves (R113, R114). -/
theorem State.acknowledgeRange_demandsFollow : (s.acknowledgeRange first last).demandsFollow :=
  State.recomputeDemands_follow _

variable {s}

/-- A first entry above the last is refused (R114). -/
theorem exec_acknowledge_refused (hs : s.ready) (tag : Byte) {first last : Byte} (h : last.toNat < first.toNat) :
    exec (.acknowledge tag first last) s = .next (s.reply tag .range []) := by
  rw [exec_request rfl, State.request_ready hs, State.execute, State.requestAcknowledge, if_pos h]
  rfl

/-- An ACKNOWLEDGE of a range is executed as it arrives and replies OK (R114, R177). -/
theorem exec_acknowledge_taken (hs : s.ready) (tag : Byte) {first last : Byte} (h : first.toNat ≤ last.toNat) :
    exec (.acknowledge tag first last) s =
      .next ((s.acknowledgeRange first.toNat last.toNat).reply tag .ok []) := by
  rw [exec_request rfl, State.request_ready hs, State.execute, State.requestAcknowledge, if_neg h.not_gt]
  rfl

end Acknowledge

/-- Settles O37: the refusal is `exec_acknowledge_refused`; otherwise the records and the demands are those of
`State.acknowledgeRange`, whose demands follow because the entries' contents stand. -/
theorem acknowledgeClearsInactiveFlags : Obligations.AcknowledgeClearsInactiveFlags := by
  intro s tag first last hs
  refine ⟨exec_acknowledge_refused hs tag, fun h => ?_⟩
  refine ⟨(s.acknowledgeRange first.toNat last.toNat).am.entries,
    (s.acknowledgeRange first.toNat last.toNat).am.demands, ?_, s.acknowledgeRange_get first.toNat last.toNat,
    fun n => ?_⟩
  · rw [exec_acknowledge_taken hs tag h, State.acknowledgeRange_frame]
  · have hdemands := s.acknowledgeRange_demandsFollow first.toNat last.toNat n
    simp only [State.acknowledgeRange_alarmEntry] at hdemands
    exact hdemands

end Sys2Proof.Machine
end


section
/-!
PROOFS. TIMER START and STOP (R128): what the two actions do to a screen's timer, and what their commands reply.
-/

namespace Sys2Proof.Machine

/-- A command replies the outcome its action is known to have, on the state the action leaves (R177, R179). -/
theorem exec_action_outcome {c : Instr} {tag screen : Byte} {a : Action} {s next : State} {i : Fin 8}
    {outcome : ActionOutcome} (hc : requestOf c = some ⟨tag, .screenAction screen a⟩) (ha : ∀ k, a ≠ .unnamed k)
    (hi : screenOf screen = some i) (hs : s.ready) (hrun : s.runAction i (.request tag) 0 a = (next, outcome)) :
    exec c s = .next (next.reply tag outcome.result [byte a.kind, outcome.code]) := by
  rw [exec_action_ready hc ha hi hs, hrun]

section TimerActions

variable {s : State} {i : Fin 8} {t : Fin 2}

/-- START of a timer whose count is 0 changes nothing (R128). -/
theorem State.runAction_timerStart_notSet (h : ((s.ct.timers.get i).get t).count = 0) (origin : Origin) (depth : Nat) :
    s.runAction i origin depth (.timer t .start) = (s, .notSet) := by
  rw [State.runAction, State.timerAction, if_pos h]

/-- START of a timer with a count begins a full first period, whatever the remaining count was (R128). -/
theorem State.runAction_timerStart_started (h : ((s.ct.timers.get i).get t).count ≠ 0) (origin : Origin)
    (depth : Nat) :
    s.runAction i origin depth (.timer t .start) = (s.modifyTimer i t Timer.started, .done) := by
  rw [State.runAction, State.timerAction, if_neg h]

/-- STOP holds the remaining count and the phase, of a running timer or a stopped one (R128). -/
theorem State.runAction_timerStop (s : State) (i : Fin 8) (t : Fin 2) (origin : Origin) (depth : Nat) :
    s.runAction i origin depth (.timer t .stop) = (s.modifyTimer i t Timer.stopped, .done) := rfl

end TimerActions

/-- Settles O35: START splits on a count of 0, both as an action and as a command; STOP is one case. -/
theorem timerActionsStartAndStop : Obligations.TimerActionsStartAndStop := by
  intro s i t timer started stopped
  refine ⟨fun origin depth => ?_, s.runAction_timerStop i t, fun tag screen hi hs =>
    ⟨fun h => ?notSet, fun h => ?started, ?stopped⟩⟩
  · split
    next h => exact State.runAction_timerStart_notSet h origin depth
    next h => exact State.runAction_timerStart_started h origin depth
  case notSet =>
    exact exec_action_outcome (a := .timer t .start) rfl nofun hi hs (State.runAction_timerStart_notSet h _ _)
  case started =>
    exact exec_action_outcome (a := .timer t .start) rfl nofun hi hs (State.runAction_timerStart_started h _ _)
  case stopped => exact exec_action_outcome (a := .timer t .stop) rfl nofun hi hs (s.runAction_timerStop i t _ _)

end Sys2Proof.Machine
end

section
/-!
PROOFS. LINE actions (R138): what the four operations do to an output line in each of its modes, and what their commands
reply.
-/

namespace Sys2Proof.Machine

section LineActions

variable {s : State} {n : Fin 16}

theorem State.annunciatorMode_iff : s.annunciatorMode n = true ↔ field (s.word 27 (16 + 2 * n.val)) 0 2 = 1 :=
  beq_iff_eq

/-- On a line in ANNUNCIATOR mode a LINE action is skipped (R138). -/
theorem State.runAction_line_annunciator (h : field (s.word 27 (16 + 2 * n.val)) 0 2 = 1) (i : Fin 8)
    (origin : Origin) (depth : Nat) (op : LineOp) : s.runAction i origin depth (.line n op) = (s, .lineMode) := by
  rw [State.runAction, State.lineAction, if_pos (State.annunciatorMode_iff.mpr h)]

/-- On a line in CUE mode a LINE action replaces the cue-drive record, whatever the drive state was (R138). -/
theorem State.runAction_line_cue (h : ¬field (s.word 27 (16 + 2 * n.val)) 0 2 = 1) (i : Fin 8)
    (origin : Origin) (depth : Nat) (op : LineOp) :
    s.runAction i origin depth (.line n op) = (s.setOutput n (op.drives (s.trainCount n)), .done) := by
  rw [State.runAction, State.lineAction, if_neg (h ∘ State.annunciatorMode_iff.mp)]

variable {i : Fin 8} {tag screen : Byte} {c : Instr} {op : LineOp}

theorem exec_line_annunciator (hc : requestOf c = some ⟨tag, .screenAction screen (.line n op)⟩)
    (hi : screenOf screen = some i) (hs : s.ready) (h : field (s.word 27 (16 + 2 * n.val)) 0 2 = 1) :
    exec c s = .next (s.reply tag .inUse [9, 4]) :=
  exec_action_outcome hc nofun hi hs (State.runAction_line_annunciator h i _ 0 op)

theorem exec_line_cue (hc : requestOf c = some ⟨tag, .screenAction screen (.line n op)⟩)
    (hi : screenOf screen = some i) (hs : s.ready) (h : ¬field (s.word 27 (16 + 2 * n.val)) 0 2 = 1) :
    exec c s = .next ((s.setOutput n (op.drives (s.trainCount n))).reply tag .ok [9, 0]) :=
  exec_action_outcome hc nofun hi hs (State.runAction_line_cue h i _ 0 op)

end LineActions

/-- Settles O31: the line's mode decides between the two outcomes, of the action and of each of its four commands. -/
theorem lineActionsDriveTheOutputs : Obligations.LineActionsDriveTheOutputs := by
  intro s n annunciator count drives
  have drives_eq (op : LineOp) : op.drives (s.trainCount n) = drives op := by cases op <;> rfl
  refine ⟨fun i origin depth op => ?action, fun tag screen i hi hs => ⟨fun h => ?annunciator, fun h => ?cue⟩⟩
  case action =>
    split
    next h => exact State.runAction_line_annunciator h i origin depth op
    next h => rw [State.runAction_line_cue h, drives_eq]
  case annunciator =>
    exact ⟨exec_line_annunciator rfl hi hs h, exec_line_annunciator rfl hi hs h,
      exec_line_annunciator rfl hi hs h, exec_line_annunciator rfl hi hs h⟩
  case cue =>
    simp only [← drives_eq]
    exact ⟨exec_line_cue rfl hi hs h, exec_line_cue rfl hi hs h, exec_line_cue rfl hi hs h, exec_line_cue rfl hi hs h⟩

end Sys2Proof.Machine
end

section
/-!
PROOFS. REPORT actions of a request (R162): the CUE report is accepted with both marks or dropped, and what the command
replies.
-/

namespace Sys2Proof.Machine

section ReportActions

variable {s : State}

/-- A report that finds room is queued with the lost mark, which it clears (R182). -/
theorem State.queueReport_accepted (h : s.ci.reports.length < 32) (r : Report) :
    s.queueReport r =
      { s with ci := { s.ci with reports := s.ci.reports ++ [⟨s.ci.reportLost, r⟩], reportLost := false } } :=
  if_pos h

/-- A report that finds 32 waiting is dropped and sets the lost mark (R182). -/
theorem State.queueReport_dropped (h : 32 ≤ s.ci.reports.length) (r : Report) :
    s.queueReport r = { s with ci := { s.ci with reportLost := true } } :=
  if_neg h.not_gt

variable (origin : Origin) (i : Fin 8) (trigger : Option Trigger) (clock : ClockValue) (actions : List ActionRecord)

/-- A CUE report that finds room carries both marks and clears them (R161, R182). -/
theorem State.queueCueReport_accepted (h : s.ci.reports.length < 32) :
    s.queueCueReport origin i trigger clock actions = { s with
      ci := { s.ci with
        reports := s.ci.reports ++ [⟨s.ci.reportLost, .cue origin i trigger clock s.ce.overrun actions⟩]
        reportLost := false }
      ce := { s.ce with overrun := false } } := by
  rw [State.queueCueReport, State.queueReport_accepted h]
  exact if_pos h

/-- A CUE report that finds 32 waiting leaves the overrun mark for a later one (R161, R182). -/
theorem State.queueCueReport_dropped (h : 32 ≤ s.ci.reports.length) :
    s.queueCueReport origin i trigger clock actions = { s with ci := { s.ci with reportLost := true } } := by
  rw [State.queueCueReport, State.queueReport_dropped h]
  exact if_neg h.not_gt

end ReportActions

/-- REPORT of a request queues a CUE report of its own, with the screen's clock and no trigger (R162). -/
theorem State.runAction_report_request (s : State) (i : Fin 8) (tag code : Byte) (depth : Nat) :
    s.runAction i (.request tag) depth (.report code) =
      (s.queueCueReport (.request tag) i none (s.ct.clocks.get i).value [⟨12, .done, code⟩], .done) := rfl

/-- Settles O50: the command runs its REPORT action, and the room in the report part decides what the CUE report does. -/
theorem reportActionQueuesACueReport : Obligations.ReportActionQueuesACueReport := by
  intro s i tag screen code hi hs report
  have hrun := exec_action_outcome (c := .reportAction tag screen code) rfl nofun hi hs
    (s.runAction_report_request i tag code 0)
  refine ⟨fun hroom => ?accepted, fun hfull => ?dropped⟩
  case accepted =>
    rw [State.queueCueReport_accepted (h := hroom)] at hrun
    exact hrun
  case dropped =>
    rw [State.queueCueReport_dropped (h := hfull)] at hrun
    exact hrun

end Sys2Proof.Machine
end

section
/-!
PROOFS. What every command keeps. A property of states that reads only the tracked parts below, and that each of the
operations of `Keeps` keeps, is kept by every command: the composition of the commands from those operations is taken
apart here once, and each invariant of the part is then a matter of its operations alone.
-/

namespace Sys2Proof.Machine

/-! ## The tracked parts and the operations that change them -/

/-- The parts of a state that the invariants read. -/
structure Tracked where
  pending : List Instr
  up : Port
  down : Port
  requests : List Request
  replies : List Reply
  reports : List QueuedReport
  ts : TableStore
  sc : Tab 8 ScreenRecord
  profiles : Fin 8 → Option (Fin 16) × Option Incoming × Option (Fin 16)
  pages : Fin 8 → Fin 16 → List (Fin 512)
  free : List (Fin 512)
  protects : Fin 8 → Fin 16 → Ramp
  entries : Tab 256 AlarmRecord
  targets : Tab 8 (Tab 16 Nat)
  clocks : Tab 8 Clock
  triggers : List Trigger

/-- The profiles a decode record holds. -/
def DecodeRecord.profiles (d : DecodeRecord) : Option (Fin 16) × Option Incoming × Option (Fin 16) :=
  (d.current, d.incoming, d.pending)

/-- These parts of a state. -/
def State.tracked (s : State) : Tracked where
  pending := s.pending
  up := s.li.up
  down := s.li.down
  requests := s.ci.requests
  replies := s.ci.replies
  reports := s.ci.reports
  ts := s.ts
  sc := s.sc
  profiles i := (s.de.get i).profiles
  pages := s.pagesOf
  free := s.eq.free
  protects i c := ((s.os.channels.get i).get c).protect
  entries := s.am.entries
  targets := s.am.targets
  clocks := s.ct.clocks
  triggers := s.ce.triggers

/-- A screen record changed outside a change of its state: by a ramp that takes a target, or by its pending apply, which only
a screen that plays comes to hold. -/
structure ScreenRecord.Touched (r r' : ScreenRecord) : Prop where
  state : r'.state = r.state
  resume : r'.resume = r.resume
  cause : r'.cause = r.cause
  activeBank : r'.activeBank = r.activeBank
  pendingApply : r'.pendingApply.isSome = true → r.pendingApply.isSome = true ∨ r.state.playing = true
  fader : r.fader.sound → r'.fader.sound
  mute : r.mute.sound → r'.mute.sound
  safeRamp : r.safeRamp.sound → r'.safeRamp.sound
  dip : r.dip.sound → r'.dip.sound

/-- A change of a screen's state that the part makes: an allowed one, a return from SAFE to the resume state, or an enable
whose pages are free and which no restore holds back (R3, R5, R12, R174). -/
def State.MayMove (s : State) (i : Fin 8) (target : ScreenState) : Prop :=
  (s.screenState i ≠ .offline ∧ ((s.screenState i).allows target = true ∨
    (s.screenState i = .safe ∧ (s.sc.get i).resume = some target))) ∨
  (s.screenState i = .offline ∧ target = .idle ∧ s.ts.state ≠ .restoring ∧ s.enableFits i = true)

/-- A property of states that every operation on the tracked parts keeps. -/
structure Keeps (P : State → Prop) : Prop where
  tracked : ∀ {s t : State}, t.tracked = s.tracked → P s → P t
  ports : ∀ {s : State} {up down : Port}, (s.li.up.sound → up.sound) → (s.li.down.sound → down.sound) → P s →
    P { s with li := { s.li with up, down } }
  join : ∀ {s : State} {r : Request}, s.ci.requests.length < Config.requestLimit → P s →
    P { s with ci := { s.ci with requests := s.ci.requests ++ [r] } }
  take : ∀ {s : State} {r : Request} {rest : List Request}, s.ci.requests = r :: rest → P s →
    P { s with ci := { s.ci with requests := rest } }
  reply : ∀ {s : State} {tag : Byte} {result : ResultCode} {data : List Byte},
    s.ci.replies.length < Config.replyLimit → P s → P (s.reply tag result data)
  report : ∀ {s : State} {r : Report}, P s → P (s.queueReport r)
  send : ∀ {s : State}, P s → P s.senderTake
  push : ∀ {s : State} {t : Trigger}, t.depth ≤ Config.depthLimit → P s → P (s.pushTrigger t)
  pop : ∀ {s : State} {t : Trigger} {rest : List Trigger}, s.ce.triggers = t :: rest → P s →
    P { s with ce := { s.ce with triggers := rest } }
  write : ∀ {s : State} {page word : Byte} {data : List Word}, s.writeResult page word data = .ok → P s →
    P (s.writeRun (address page.toNat word.toNat) data)
  load : ∀ {s : State}, s.ts.state = .restoring → P s →
    P ((s.putWords s.ts.image.pages).followWrite 0 Config.storeWords)
  preserving : ∀ {s : State} {tag : Byte}, s.ts.state = .idle → P s → P (s.beginPreserve tag)
  preserved : ∀ {s : State}, P s → P { s with ts := { s.ts with
    image := .ofStore s.ts.words, imageValid := true, state := .idle, elapsed := 0, requestTag := 0 } }
  restoring : ∀ {s : State} {tag : Byte}, s.allOffline = true → P s → P (s.beginRestore tag)
  restored : ∀ {s : State} {valid : Bool}, P s →
    P { s with ts := { s.ts with imageValid := valid, state := .idle, elapsed := 0, requestTag := 0 } }
  touch : ∀ {s : State} {i : Fin 8} {f : ScreenRecord → ScreenRecord}, (s.sc.get i).Touched (f (s.sc.get i)) → P s →
    P (s.modifyScreen i f)
  exchange : ∀ {s : State} {i : Fin 8}, s.screenState i = .offline → P s → P (s.exchangeBanks i)
  swap : ∀ {s : State} {i : Fin 8}, P s → P (s.swapBanks i).1
  move : ∀ {s : State} {i : Fin 8} {target : ScreenState} (cause : StateCause) (safeCause : SafeCause) (depth : Nat)
    (inScan : Bool), s.MayMove i target → P s → P (s.moveScreen i target cause safeCause depth inScan).1
  crossfade : ∀ {s : State} {i : Fin 8} {p : Fin 16}, s.screenState i ≠ .offline → P s →
    P (s.modifyDecode i fun _ => ((s.de.get i).crossfade p).1)
  fadeEnd : ∀ {s : State} {i : Fin 8} {p : Fin 16}, (s.de.get i).current.isSome = true → P s →
    P (s.modifyDecode i fun d => { d with current := some p, incoming := none, pending := none })
  alarms : ∀ {s : State} {entries : Tab 256 AlarmRecord},
    (∀ e, (s.am.entries.get e).sound → (entries.get e).sound) → P s → P { s with am := { s.am with entries } }
  targets : ∀ {s : State}, P s → P s.takeTargets
  recompute : ∀ {s : State}, P s → P s.recomputeTargets
  clock : ∀ {s : State} {i : Fin 8} {f : Clock → Clock}, ((s.ct.clocks.get i).sound → (f (s.ct.clocks.get i)).sound) →
    P s → P (s.modifyClock i f)
  power : ∀ {s : State} (lines : BitVec 16) (keyLocked : Bool), P s → P (s.powerOn lines keyLocked)
  reset : ∀ {s : State}, P s → P s.resetAll
  advance : ∀ {s : State}, P s → P s.advance

/-! ## Operations that change no tracked part -/

theorem State.tracked_modifyDecode (s : State) (i : Fin 8) (f : DecodeRecord → DecodeRecord)
    (h : (f (s.de.get i)).profiles = (s.de.get i).profiles) : (s.modifyDecode i f).tracked = s.tracked := by
  have hde : (fun j => ((s.modifyDecode i f).de.get j).profiles) = fun j => (s.de.get j).profiles := by
    funext j
    rw [State.modifyDecode_de, Tab.get_modify]
    split
    · next hj => rw [hj, h]
    · rfl
  exact congrArg (fun profiles => { s.tracked with profiles := profiles }) hde

theorem State.tracked_reportLost (s : State) (b : Bool) :
    State.tracked { s with ci := { s.ci with reportLost := b } } = s.tracked := rfl

/-- The link interface but for its ports is not tracked. -/
theorem State.tracked_li (s : State) (li : LinkInterface) (hup : li.up = s.li.up) (hdown : li.down = s.li.down) :
    State.tracked { s with li } = s.tracked :=
  congr_arg₂ (fun up down => { s.tracked with up := up, down := down }) hup hdown

theorem State.tracked_expireSlot (s : State) (n : Fin 128) : (s.expireSlot n).tracked = s.tracked := by
  unfold State.expireSlot; split <;> rfl

theorem State.tracked_sampleLines (s : State) (lines : BitVec 16) (k : Bool) :
    (s.sampleLines lines k).tracked = s.tracked := by
  unfold State.sampleLines; split <;> rfl

/-- Taking the last levels leaves the protect ramps. -/
theorem State.tracked_takeLevels (s : State) : s.takeLevels.tracked = s.tracked := by
  have h : (fun i c => ((s.takeLevels.os.channels.get i).get c).protect) =
      fun i c => ((s.os.channels.get i).get c).protect := by
    funext i c
    simp only [State.takeLevels, Tab.get_ofFn]
    split
    · rfl
    · rw [Tab.get_map]; rfl
  exact congrArg (fun protects => { s.tracked with protects := protects }) h

/-- The work on a channel leaves its page list. -/
theorem State.equalise_pages (s : State) (i : Fin 8) (c : Fin 16) (y : Sample) :
    (s.equalise i c y).2.pages = ((s.eq.channels.get i).get c).pages := rfl

/-- The work on an output channel leaves its protect ramp. -/
theorem OutChannel.work_protect (ch : OutChannel) (gain shift : Nat) (v : Sample) :
    (ch.work gain shift v).2.protect = ch.protect := by
  unfold OutChannel.work
  dsimp only
  split <;> rfl

/-- The work on the channels leaves the page lists and the protect ramps. -/
theorem State.tracked_runChannels (s : State) : s.runChannels.tracked = s.tracked := by
  have hpages : s.runChannels.pagesOf = s.pagesOf := by
    funext i c
    simp only [State.pagesOf, State.runChannels, Tab.get_ofFn, State.equalised]
    by_cases h : s.screenState i = .offline
    · simp [h]
    · simp [h, State.equalise_pages]
  have hprotects : (fun i c => ((s.runChannels.os.channels.get i).get c).protect) =
      fun i c => ((s.os.channels.get i).get c).protect := by
    funext i c
    simp only [State.runChannels, Tab.get_ofFn, Tab.get_map, State.outputOf]
    split
    · rfl
    · exact OutChannel.work_protect _ _ _ _
  exact congr_arg₂ (fun pages protects => { s.tracked with pages := pages, protects := protects }) hpages hprotects

/-! ## The parts of the operations -/

theorem AlarmRecord.fallen_sound {r : AlarmRecord} : r.fallen.sound := by
  simp [AlarmRecord.sound, AlarmRecord.fallen]

theorem AlarmRecord.acknowledged_sound {r : AlarmRecord} (h : r.sound) : r.acknowledged.sound := by
  obtain ⟨tier, w, t, wc, tc, v, ev⟩ := r
  cases tier <;> simp_all [AlarmRecord.sound, AlarmRecord.acknowledged]

/-- What each operation of a fold keeps, the fold keeps. -/
theorem foldl_holds {α : Type} {P : State → Prop} {f : State → α → State} (hf : ∀ s a, P s → P (f s a)) (l : List α)
    {s : State} (h : P s) : P (l.foldl f s) :=
  List.foldlRecOn l f h fun s hs a _ => hf s a hs

/-! ## The ramps and the records that the operations touch -/

/-- The part of a way that a position reaches, rounded toward zero, lies on the way. -/
theorem tdiv_part (d : Int) {p n : Nat} (hn : 0 < n) (hp : p ≤ n) :
    min 0 d ≤ (d * p).tdiv n ∧ (d * p).tdiv n ≤ max 0 d := by
  have upward (k : Nat) : k * p / n ≤ k :=
    (Nat.div_le_div_right (Nat.mul_le_mul_left k hp)).trans (Nat.mul_div_cancel k hn).le
  obtain ⟨k, rfl | rfl⟩ := d.eq_nat_or_neg
  · rw [← Nat.cast_mul, ← Int.ofNat_tdiv]
    have := upward k
    generalize k * p / n = q at *
    omega
  · rw [Int.neg_mul, Int.neg_tdiv, ← Nat.cast_mul, ← Int.ofNat_tdiv]
    have := upward k
    generalize k * p / n = q at *
    omega

theorem Ramp.value_cast {r : Ramp} (h : r.sound) :
    (r.value : Int) = r.start + (((r.target : Int) - r.start) * r.position).tdiv r.length := by
  obtain ⟨-, -, hlen, hpos⟩ := h
  have := tdiv_part ((r.target : Int) - r.start) hlen hpos
  unfold Ramp.value
  omega

theorem Ramp.value_le {r : Ramp} (h : r.sound) : r.value ≤ 32768 := by
  have hv := Ramp.value_cast h
  obtain ⟨hstart, htarget, hlen, hpos⟩ := h
  have := tdiv_part ((r.target : Int) - r.start) hlen hpos
  omega

theorem Ramp.retarget_sound {r : Ramp} {target length : Nat} (ht : target ≤ 32768) (hl : 0 < length) (h : r.sound) :
    (r.retarget target length).sound :=
  ⟨Ramp.value_le h, ht, hl, Nat.zero_le _⟩

section Touched

variable (r : ScreenRecord)

theorem ScreenRecord.Touched.dipTaken {target length : Nat} (ht : target ≤ 32768) (hl : 0 < length) :
    r.Touched { r with dip := r.dip.retarget target length } :=
  ⟨rfl, rfl, rfl, rfl, .inl, id, id, id, Ramp.retarget_sound ht hl⟩

theorem ScreenRecord.Touched.faderTaken {target length : Nat} (ht : target ≤ 32768) (hl : 0 < length) :
    r.Touched { r with fader := r.fader.retarget target length } :=
  ⟨rfl, rfl, rfl, rfl, .inl, Ramp.retarget_sound ht hl, id, id, id⟩

theorem ScreenRecord.Touched.muteTaken {target length : Nat} (ht : target ≤ 32768) (hl : 0 < length) :
    r.Touched { r with mute := r.mute.retarget target length } :=
  ⟨rfl, rfl, rfl, rfl, .inl, id, Ramp.retarget_sound ht hl, id, id⟩

theorem ScreenRecord.Touched.deferred {origin : Origin} (h : r.state.playing = true) :
    r.Touched { r with pendingApply := r.pendingApply.or (some origin) } :=
  ⟨rfl, rfl, rfl, rfl, fun _ => .inr h, id, id, id, id⟩

theorem ScreenRecord.Touched.handed : r.Touched { r with pendingApply := none } :=
  ⟨rfl, rfl, rfl, rfl, nofun, id, id, id, id⟩

end Touched

section MayMove

variable {s : State} {i : Fin 8}

/-- A screen in IDLE or one that plays may enter SAFE (R3). -/
theorem State.MayMove.safe (h : s.screenState i = .idle ∨ s.playing i = true) : s.MayMove i .safe := by
  unfold State.playing at h
  unfold State.MayMove
  cases hs : s.screenState i <;> simp_all [ScreenState.playing, ScreenState.allows]

theorem State.MayMove.resumed {target : ScreenState} (hs : s.screenState i = .safe)
    (hr : (s.sc.get i).resume = some target) : s.MayMove i target :=
  .inl ⟨by simp [hs], .inr ⟨hs, hr⟩⟩

/-- A change that passes the checks of a request is one the part makes (R3, R5, R174). -/
theorem State.MayMove.asked {target : ScreenState} (hallow : (s.screenState i).allows target = true)
    (hrest : s.screenState i = .offline → s.ts.state ≠ .restoring)
    (hfit : s.screenState i = .offline → s.enableFits i = true) : s.MayMove i target := by
  by_cases h : s.screenState i = .offline
  · refine .inr ⟨h, ?_, hrest h, hfit h⟩
    rw [h] at hallow
    cases target <;> simp_all [ScreenState.allows]
  · exact .inl ⟨h, .inl hallow⟩

end MayMove

/-- The hold field has four bits (R97). -/
theorem State.alarmEntry_hold (s : State) (e : Fin 256) : (s.alarmEntry e).hold ≤ 15 :=
  Nat.le_of_lt_succ (Nat.mod_lt _ (by decide))

/-- A record the tier rules have judged has counters within 15 and its flags as before (R101). -/
theorem AlarmRecord.judge_counts {r : AlarmRecord} (h : r.sound) {hold : Nat} (hh : hold ≤ 15) (warn trip : Comparison) :
    let j := r.judge hold warn trip
    j.warnCount ≤ 15 ∧ j.tripCount ≤ 15 ∧ j.warnSeen = r.warnSeen ∧ j.tripSeen = r.tripSeen := by
  obtain ⟨-, -, hw, ht⟩ := h
  have count_le {c : Comparison} {n : Nat} (hn : ¬completes c n hold = true) : counted c n ≤ 15 := by
    cases hc : c.holds <;> simp_all [completes, counted]
    omega
  unfold AlarmRecord.judge
  dsimp only
  split
  · simp
  · split
    · simp
    · split
      · simp
      · next h1 => simpa using count_le h1
    · split
      · simp
      · next h1 =>
        split
        · simpa using count_le h1
        · next h2 => simpa using ⟨count_le h2, count_le h1⟩

/-- The flags of a tier entered make the record sound (R98). -/
theorem AlarmRecord.mark_sound {r : AlarmRecord} (hw : r.warnCount ≤ 15) (ht : r.tripCount ≤ 15) : r.mark.sound := by
  obtain ⟨tier, w, t, wc, tc, v, ev⟩ := r
  cases tier <;> simp_all [AlarmRecord.sound, AlarmRecord.mark]

/-- A record whose tier has not risen has the flags its tier needs. -/
theorem AlarmRecord.sound_of_fallen {r j : AlarmRecord} (h : r.sound) (hw : j.warnCount ≤ 15) (ht : j.tripCount ≤ 15)
    (hws : j.warnSeen = r.warnSeen) (hts : j.tripSeen = r.tripSeen) (hrank : j.tier.rank ≤ r.tier.rank) : j.sound := by
  obtain ⟨hwarn, htrip, -, -⟩ := h
  refine ⟨fun hj => ?_, fun hj => ?_, hw, ht⟩ <;> rw [hj] at hrank <;> cases hr : r.tier <;>
    simp_all [Tier.rank]

theorem State.modifyAlarm_twice (s : State) (e : Fin 256) (f g : AlarmRecord → AlarmRecord) :
    (s.modifyAlarm e f).modifyAlarm e g = s.modifyAlarm e fun r => g (f r) := by
  have h : (s.am.entries.modify e f).modify e g = s.am.entries.modify e fun r => g (f r) := by
    ext1 e'
    simp only [Tab.get_modify]
    split <;> simp
  exact congrArg (fun entries => { s with am := { s.am with entries := entries } }) h

section Compose

variable {P : State → Prop} (K : Keeps P)
include K

theorem Keeps.same {s t : State} (h : P s) (ht : t.tracked = s.tracked) : P t := K.tracked ht h

theorem Keeps.modifyDecode {s : State} {i : Fin 8} {f : DecodeRecord → DecodeRecord}
    (hf : (f (s.de.get i)).profiles = (s.de.get i).profiles) (h : P s) : P (s.modifyDecode i f) :=
  K.tracked (s.tracked_modifyDecode i f hf) h

theorem Keeps.reports (rs : List Report) {s : State} (h : P s) : P (s.queueReports rs) :=
  foldl_holds (fun _ _ => K.report) rs h

theorem Keeps.cueReport {s : State} (origin : Origin) (i : Fin 8) (trigger : Option Trigger) (clock : ClockValue)
    (actions : List ActionRecord) (h : P s) : P (s.queueCueReport origin i trigger clock actions) := by
  unfold State.queueCueReport
  dsimp only
  split
  · exact K.same (K.report h) rfl
  · exact K.report h

theorem Keeps.makeTrigger {s : State} (event : TriggerEvent) (depth : Nat) (h : P s) : P (s.makeTrigger event depth) := by
  unfold State.makeTrigger
  split
  · next hd => exact K.push hd h
  · exact h

theorem Keeps.alarm {s : State} {e : Fin 256} {f : AlarmRecord → AlarmRecord}
    (hf : (s.am.entries.get e).sound → (f (s.am.entries.get e)).sound) (h : P s) : P (s.modifyAlarm e f) := by
  refine K.alarms (fun e' he' => ?_) h
  rw [Tab.get_modify]
  split
  · next heq => subst heq; exact hf he'
  · exact he'

theorem Keeps.forceEntries {s : State} (pick : AlarmEntry → Bool) (h : P s) : P (s.forceEntries pick).1 := by
  rw [State.forceEntries_spec]
  refine K.alarms (fun e he => ?_) h
  rw [Tab.get_ofFn]
  split
  · exact AlarmRecord.fallen_sound
  · exact he

theorem Keeps.acknowledge {s : State} (first last : Nat) (h : P s) : P (s.acknowledgeRange first last) := by
  refine K.same (K.alarms (entries := (s.acknowledgeRange first last).am.entries) (fun e he => ?_) h) rfl
  rw [State.acknowledgeRange_get]
  split
  · exact AlarmRecord.acknowledged_sound he
  · exact he

theorem Keeps.merge {s : State} (groups : List (List Report)) (h : P s) : P (s.mergeReports groups).1 :=
  K.same h rfl

theorem Keeps.dip {s : State} {i : Fin 8} {d : Option Dip} (h : P s) : P (s.setDip i d) := K.same h rfl

theorem Keeps.demands {s : State} (h : P s) : P s.recomputeDemands := K.same h rfl

/-! ## Screens -/

theorem Keeps.beginDip {s : State} {i : Fin 8} {w : Waiting} (h : P s) : P (s.beginDip i w) :=
  K.touch (.dipTaken _ (by decide) (by decide)) (K.dip h)

theorem Keeps.handApply {s : State} (i : Fin 8) (origin : Origin) (h : P s) : P (s.handApply i origin).1 := by
  unfold State.handApply
  split
  · exact K.beginDip h
  · split
    · exact h
    · exact K.dip h

theorem Keeps.safeIfLost {s : State} (i : Fin 8) (h : P s) : P (s.safeIfLost i).1 := by
  unfold State.safeIfLost
  split
  · next hplay =>
    exact K.move .link .link 0 false (.safe (.inr (Bool.and_elim_left hplay))) h
  · exact h

theorem Keeps.goTo {s : State} {i : Fin 8} {target : ScreenState} (cause : StateCause) (depth : Nat)
    (hm : s.MayMove i target) (h : P s) : P (s.goTo i target cause depth) :=
  K.reports _ (K.safeIfLost i (K.move cause .command depth false hm h))

theorem Keeps.askState {s : State} (i : Fin 8) (target : Option ScreenState) (cause : StateCause) (depth : Nat)
    (h : P s) : P (s.askState i target cause depth).1 := by
  unfold State.askState
  split
  · exact h
  · next t =>
    split_ifs with hsame hallow hrest hfit
    · exact h
    · exact h
    · exact h
    · exact h
    · exact K.goTo cause depth (.asked (by simpa using hallow) (by simpa using hrest) (by simpa using hfit)) h

theorem Keeps.alarmSafe {s : State} (i : Fin 8) (e : Fin 256) (h : P s) : P (s.alarmSafe i e) := by
  unfold State.alarmSafe
  split
  · next hs => exact K.reports _ (K.move (.alarm e) (.alarm e) 0 true (.safe (.inl hs)) h)
  · next hs => exact K.reports _ (K.move (.alarm e) (.alarm e) 0 true (.safe (.inr (by rw [State.playing, hs]; rfl))) h)
  · next hs => exact K.reports _ (K.move (.alarm e) (.alarm e) 0 true (.safe (.inr (by rw [State.playing, hs]; rfl))) h)
  · exact h

theorem Keeps.resumeScreen {s : State} (i : Fin 8) (tag : Byte) (h : P s) : P (s.resumeScreen i tag).1 := by
  unfold State.resumeScreen
  split
  · next target hs hr =>
    split_ifs
    · exact h
    · exact h
    · exact K.goTo _ _ (.resumed hs hr) h
  · exact h

theorem Keeps.safeAll {s : State} (h : P s) : P s.safeAll.1 := by
  refine List.foldlRecOn (motive := fun acc : State × List Report => P acc.1) (List.finRange 8) _ h
    fun acc hacc i _ => ?_
  split
  · next hplay => exact K.move .link .link 0 false (.safe (.inr hplay)) hacc
  · exact hacc

theorem Keeps.applyBank {s : State} (i : Fin 8) (origin : Origin) (h : P s) : P (s.applyBank i origin).1 := by
  unfold State.applyBank
  split_ifs with hplay hdip hoff hfit
  · exact K.touch (.deferred _ hplay) h
  · exact h
  · exact K.exchange hoff h
  · exact K.beginDip h
  · exact h

theorem Keeps.safepoint {s : State} (i : Fin 8) (h : P s) : P (s.safepoint i) := by
  unfold State.safepoint
  split
  · exact h
  · exact K.reports _ (K.handApply i _ (K.touch (.handed _) h))

theorem Keeps.swapMoment {s : State} (i : Fin 8) (h : P s) : P (s.swapMoment i) := by
  unfold State.swapMoment
  split
  · exact h
  · exact K.reports _ (K.touch (.dipTaken _ (by decide) (by decide)) (K.dip (K.swap h)))

/-! ## The scan and the window end -/

theorem Keeps.enterTier {s : State} (e : Fin 256) (a : AlarmEntry) (old new : Tier)
    (h : P (s.modifyAlarm e AlarmRecord.mark)) : P (s.enterTier e a old new) := by
  unfold State.enterTier
  dsimp only
  refine K.demands ?_
  have hr : P (if a.reportOnEntry = true then (s.modifyAlarm e AlarmRecord.mark).queueReport (alarmReport e a
      ((s.modifyAlarm e AlarmRecord.mark).am.entries.get e) false old new false)
      else s.modifyAlarm e AlarmRecord.mark) := by
    split
    · exact K.report h
    · exact h
  split
  · exact K.alarmSafe _ e (K.makeTrigger _ _ hr)
  · exact K.makeTrigger _ _ hr

theorem Keeps.leaveTier {s : State} (e : Fin 256) (a : AlarmEntry) (old new : Tier) (h : P s) :
    P (s.leaveTier e a old new) := by
  unfold State.leaveTier
  split
  · exact K.report h
  · exact h

theorem Keeps.evaluateEntry {s : State} (e : Fin 256) (a : AlarmEntry) (source : AlarmSource) (ha : a.hold ≤ 15)
    (h : P s) : P (s.evaluateEntry e a source) := by
  unfold State.evaluateEntry
  dsimp only
  generalize hf : (fun r : AlarmRecord => ({ r.judge a.hold (a.compare source (s.alarmValue a source) false)
    (a.compare source (s.alarmValue a source) true) with
      lastValue := s.alarmValue a source, lastEvaluation := .evaluated } : AlarmRecord)) = f
  have hcounts (hr : (s.am.entries.get e).sound) :
      (f (s.am.entries.get e)).warnCount ≤ 15 ∧ (f (s.am.entries.get e)).tripCount ≤ 15 ∧
        (f (s.am.entries.get e)).warnSeen = (s.am.entries.get e).warnSeen ∧
        (f (s.am.entries.get e)).tripSeen = (s.am.entries.get e).tripSeen := by
    subst hf
    exact AlarmRecord.judge_counts hr ha _ _
  have hget : (s.modifyAlarm e f).am.entries.get e = f (s.am.entries.get e) := Tab.get_modify_same ..
  rw [hget]
  split_ifs with hup hdown
  · refine K.enterTier e a _ _ ?_
    rw [State.modifyAlarm_twice]
    exact K.alarm (fun hr => AlarmRecord.mark_sound (hcounts hr).1 (hcounts hr).2.1) h
  all_goals
    have hj : P (s.modifyAlarm e f) := K.alarm (fun hr => by
      obtain ⟨hw, ht, hws, hts⟩ := hcounts hr
      exact AlarmRecord.sound_of_fallen hr hw ht hws hts (by omega)) h
  · exact K.leaveTier e a _ _ hj
  · exact hj

theorem Keeps.holdEntry {s : State} (e : Fin 256) (h : P s) : P (s.holdEntry e) :=
  K.reports _ (K.alarm id (K.alarm (fun _ => AlarmRecord.fallen_sound) h))

theorem Keeps.scanEntry {s : State} (e : Fin 256) (h : P s) : P (s.scanEntry e) := by
  unfold State.scanEntry
  dsimp only
  split
  · split_ifs
    · exact K.holdEntry e h
    · exact K.holdEntry e h
    · exact K.evaluateEntry e _ _ (s.alarmEntry_hold e) h
  · exact K.alarm id h

theorem Keeps.endWindow {s : State} (h : P s) : P s.endWindow := by
  refine K.recompute (foldl_holds (fun _ e => K.scanEntry e) _ ?_)
  exact K.same (K.tracked (State.tracked_takeLevels _) (K.same h rfl)) rfl

end Compose

end Sys2Proof.Machine
end

section
/-!
PROOFS. What every command keeps, continued: clocks, cues, requests, the link, the link frame, and the step.
-/

namespace Sys2Proof.Machine

/-! ## Clocks -/

theorem Rate.perSecond_pos (rate : Rate) : 0 < rate.perSecond := by cases rate <;> decide

theorem Rate.frameLength_pos (rate : Rate) : 0 < rate.frameLength := by cases rate <;> decide

/-- The carries of a picture frame leave every field within its range (R120). -/
theorem ClockValue.advance_within {v : ClockValue} {rate : Rate} (hh : v.hours ≤ 23) (hm : v.minutes ≤ 59)
    (hs : v.seconds ≤ 59) :
    (v.advance rate).hours ≤ 23 ∧ (v.advance rate).minutes ≤ 59 ∧ (v.advance rate).seconds ≤ 59 ∧
      (v.advance rate).frames < rate.perSecond := by
  have := rate.perSecond_pos
  unfold ClockValue.advance
  split_ifs <;> dsimp only <;> omega

theorem Clock.settle_sound {c : Clock} (h : c.sound) : c.settle.sound := by
  obtain ⟨hh, hm, hs, hf, hsub⟩ := h
  unfold Clock.settle
  split_ifs with hlt
  · exact ⟨hh, hm, hs, hf, hlt⟩
  · obtain ⟨h1, h2, h3, h4⟩ := ClockValue.advance_within (rate := c.rate) hh hm hs
    exact ⟨h1, h2, h3, h4, c.rate.frameLength_pos⟩

theorem Clock.latchRun_sound {c : Clock} (rate : Rate) (h : c.sound) : (c.latchRun rate).sound := by
  obtain ⟨hh, hm, hs, hf, hsub⟩ := h
  have hps := rate.perSecond_pos
  unfold Clock.latchRun
  split_ifs with h1 h2
  · exact ⟨hh, hm, hs, Nat.sub_lt hps one_pos, rate.frameLength_pos⟩
  · exact ⟨hh, hm, hs, not_le.mp h1, rate.frameLength_pos⟩
  · exact ⟨hh, hm, hs, not_le.mp h1, not_le.mp h2⟩

theorem Clock.load_sound {value : ClockValue} {rate : Rate} (h : loadable value rate = true) (running : Bool) :
    (Clock.load value running rate).sound := by
  simp only [loadable, Bool.and_eq_true, decide_eq_true_eq] at h
  obtain ⟨⟨⟨hh, hm⟩, hs⟩, hf⟩ := h
  exact ⟨hh, hm, hs, hf, rate.frameLength_pos⟩

theorem loadable_zero (rate : Rate) : loadable ⟨0, 0, 0, 0⟩ rate = true := by cases rate <;> decide

theorem Clock.passFrame_sound {c : Clock} (h : c.sound) : c.passFrame.sound := by
  obtain ⟨hh, hm, hs, hf, hsub⟩ := h
  unfold Clock.passFrame
  split_ifs with h1 h2
  · exact ⟨hh, hm, hs, hf, h2⟩
  · exact ⟨hh, hm, hs, hf, hsub⟩
  · exact ⟨hh, hm, hs, hf, hsub⟩

theorem State.levelPreset_le (s : State) (i p : Fin 8) : s.levelPreset i p ≤ 32768 := Nat.min_le_right _ _

theorem State.safeGain_le (s : State) (i : Fin 8) : s.safeGain i ≤ 32768 := Nat.min_le_right _ _

theorem rampLength_pos (code : Nat) : 0 < rampLength code := by
  unfold rampLength
  split <;> decide

section Compose

variable {P : State → Prop} (K : Keeps P)
include K

theorem Keeps.settleClock {s : State} (i : Fin 8) (h : P s) : P (s.settleClock i) := by
  unfold State.settleClock
  dsimp only
  split
  · exact K.makeTrigger _ _ (K.clock Clock.settle_sound h)
  · exact K.clock Clock.settle_sound h

theorem Keeps.clockAction {s : State} (i : Fin 8) (op : ClockOp) (depth : Nat) (h : P s) :
    P (s.clockAction i op depth).1 := by
  cases op with
  | stop => exact K.clock id h
  | zero => exact K.makeTrigger _ _ (K.clock (fun _ => Clock.load_sound (loadable_zero _) _) h)
  | run =>
    have hrun : P (s.modifyClock i fun c => { c.latchRun (s.pictureRate i) with running := true }) :=
      K.clock (Clock.latchRun_sound _) h
    unfold State.clockAction
    dsimp only
    split
    · exact hrun
    · exact K.makeTrigger _ _ hrun

theorem Keeps.modifyTimer {s : State} {i : Fin 8} {t : Fin 2} {f : Timer → Timer} (h : P s) : P (s.modifyTimer i t f) :=
  K.same h rfl

theorem Keeps.settleTimer {s : State} (i : Fin 8) (t : Fin 2) (h : P s) : P (s.settleTimer i t) := by
  unfold State.settleTimer
  dsimp only
  split
  · exact K.makeTrigger _ _ (K.modifyTimer h)
  · exact K.modifyTimer h

theorem Keeps.timerAction {s : State} (i : Fin 8) (t : Fin 2) (op : TimerOp) (h : P s) : P (s.timerAction i t op).1 := by
  cases op with
  | start =>
    unfold State.timerAction
    dsimp only
    split
    · exact h
    · exact K.modifyTimer h
  | stop => exact K.modifyTimer h

/-! ## Booth lines -/

theorem Keeps.setInput {s : State} {n : Fin 16} {d : Debouncer} (h : P s) : P (s.setInput n d) := K.same h rfl

theorem Keeps.setOutput {s : State} {n : Fin 16} {o : OutputLine} (h : P s) : P (s.setOutput n o) :=
  K.same h rfl

theorem Keeps.settleInput {s : State} (n : Fin 16) (h : P s) : P (s.settleInput n) := by
  unfold State.settleInput
  dsimp only
  split
  · exact K.makeTrigger _ _ (K.setInput h)
  · exact K.setInput h

theorem Keeps.lineAction {s : State} (n : Fin 16) (op : LineOp) (h : P s) : P (s.lineAction n op).1 := by
  unfold State.lineAction
  split
  · exact h
  · exact K.setOutput h

/-! ## Cues -/

theorem Keeps.modifyCue {s : State} {e : Fin 256} {f : CueRecord → CueRecord} (h : P s) : P (s.modifyCue e f) :=
  K.same h rfl

theorem Keeps.fade {s : State} (i : Fin 8) {target length : Nat} (ht : target ≤ 32768) (hl : 0 < length) (h : P s) :
    P (s.fade i target length) :=
  K.touch (.faderTaken _ ht hl) h

theorem Keeps.runAction {s : State} (i : Fin 8) (origin : Origin) (depth : Nat) (a : Action) (h : P s) :
    P (s.runAction i origin depth a).1 := by
  cases a with
  | state target => exact K.askState i _ _ depth h
  | safe => exact K.askState i _ _ depth h
  | level preset ramp => exact K.fade i (s.levelPreset_le i preset) (rampLength_pos _) h
  | mute on => exact K.touch (.muteTaken _ (by split <;> decide) (by decide)) h
  | format f => exact K.modifyDecode rfl h
  | release => exact K.modifyDecode rfl h
  | apply => exact K.applyBank i origin h
  | safepoint => exact K.safepoint i h
  | line n op => exact K.lineAction n op h
  | clock op => exact K.clockAction i op depth h
  | timer t op => exact K.timerAction i t op h
  | report code =>
    cases origin with
    | request tag => exact K.cueReport _ _ _ _ _ h
    | cue e => exact h
  | unnamed k => exact h

theorem Keeps.runActions {s : State} (i : Fin 8) (origin : Origin) (depth : Nat) (actions : List Action) (h : P s) :
    P (s.runActions i origin depth actions).1 :=
  List.foldlRecOn (motive := fun acc : State × List ActionRecord => P acc.1) actions _ h
    fun _ hacc a _ => K.runAction i origin depth a hacc

theorem Keeps.fireCue {s : State} (e : Fin 256) (c : CueEntry) (trigger : Trigger) (h : P s) :
    P (s.fireCue e c trigger) := by
  have hrun : P ((if c.oneShot = true then s.modifyCue e fun r => { r with armed := false } else s).runActions c.screen
      (.cue e) (trigger.depth + 1) c.actions).1 := by
    refine K.runActions _ _ _ _ ?_
    split
    · exact K.modifyCue h
    · exact h
  unfold State.fireCue
  dsimp only
  generalize (if c.oneShot = true then s.modifyCue e fun r => { r with armed := false } else s) = u at hrun ⊢
  split
  · exact K.cueReport _ _ _ _ _ hrun
  · exact hrun

theorem Keeps.testCue {s : State} (trigger : Trigger) (states : Tab 8 ScreenState) (e : Fin 256) (h : P s) :
    P (State.testCue trigger states s e) := by
  have hfired : P (if s.cueFires states e (s.cueEntry e) trigger = true then s.fireCue e (s.cueEntry e) trigger else s) := by
    split
    · exact K.fireCue e _ trigger h
    · exact h
  unfold State.testCue
  dsimp only
  split
  · exact K.modifyCue hfired
  · exact hfired

theorem Keeps.handleTrigger {s : State} (h : P s) : P s.handleTrigger := by
  unfold State.handleTrigger
  split
  · exact h
  · next trigger rest hs => exact foldl_holds (fun _ e => K.testCue trigger _ e) _ (K.pop hs h)

theorem Keeps.handleTriggers {s : State} (n : Nat) (h : P s) : P (State.handleTriggers n s) := by
  induction n generalizing s with
  | zero => exact h
  | succ n ih =>
    unfold State.handleTriggers
    split
    · exact h
    · exact ih (K.handleTrigger h)

/-! ## The table store -/

theorem Keeps.completePreserve {s : State} (h : P s) : P s.completePreserve := K.report (K.preserved h)

theorem Keeps.completeRestore {s : State} (hs : s.ts.state = .restoring) (h : P s) : P s.completeRestore := by
  unfold State.completeRestore
  dsimp only
  refine K.report (K.restored ?_)
  split
  · exact K.load hs h
  · exact h

/-! ## Requests -/

theorem Keeps.answerData {s : State} (tag : Byte) (data : Option (List Byte)) (h : P s) (hr : s.ci.replies.length < 8) :
    P (s.answerData tag data) := by
  unfold State.answerData
  split
  · exact K.reply hr h
  · exact K.reply hr h

omit K in
/-- The interpreter's queues are empty after a reset (R181). -/
theorem State.restart_ci (s : State) : s.restart.ci = .reset := State.unenabled_ci (State.autoEnableAll_spec _).1

omit K in
/-- A write leaves the replies that wait. -/
theorem State.writeRun_replies (s : State) (a : Nat) (data : List Word) : (s.writeRun a data).ci.replies = s.ci.replies :=
  calc (s.writeRun a data).ci.replies
      _ = ((s.putWords (s.ts.words.writeRun a data)).reallocate (s.writtenDelays a data)).ci.replies :=
        State.outer_replies (State.outer_followWrite _ _ _)
      _ = (s.putWords (s.ts.words.writeRun a data)).ci.replies := State.outer_replies (State.outer_reallocate _ _)

theorem Keeps.requestTableWrite {s : State} (page word : Byte) (data : List Word) (h : P s)
    (hr : s.ci.replies.length < 8) :
    P (s.tableWrite page word data).1 ∧ (s.tableWrite page word data).1.ci.replies.length < 8 := by
  unfold State.tableWrite
  dsimp only
  split
  · next hok => exact ⟨K.write hok h, (s.writeRun_replies _ _).symm ▸ hr⟩
  · exact ⟨h, hr⟩

theorem Keeps.requestState {s : State} (tag screen target : Byte) (h : P s) (hr : s.ci.replies.length < 8) :
    P (s.requestState tag screen target).1 ∧ (s.requestState tag screen target).1.ci.replies.length < 8 := by
  unfold State.requestState
  split
  · exact ⟨h, hr⟩
  · exact ⟨K.askState _ _ _ _ h, (State.outer_replies (s.outer_askState _ _ _ _)).symm ▸ hr⟩

theorem Keeps.requestAction {s : State} (tag screen : Byte) (action : Action) (h : P s) (hr : s.ci.replies.length < 8) :
    P (s.requestAction tag screen action).1 ∧ (s.requestAction tag screen action).1.ci.replies.length < 8 := by
  unfold State.requestAction
  split
  · exact ⟨h, hr⟩
  · exact ⟨h, hr⟩
  · exact ⟨K.runAction _ _ _ _ h, (State.outer_replies (s.outer_runAction _ _ _ _)).symm ▸ hr⟩

theorem Keeps.requestLevel {s : State} (screen : Byte) (value : BitVec 16) (ramp : Byte) (h : P s)
    (hr : s.ci.replies.length < 8) :
    P (s.requestLevel screen value ramp).1 ∧ (s.requestLevel screen value ramp).1.ci.replies.length < 8 := by
  unfold State.requestLevel
  split
  · exact ⟨h, hr⟩
  · split
    · exact ⟨h, hr⟩
    · exact ⟨K.fade _ (Nat.min_le_right _ _) (rampLength_pos _) h, hr⟩

theorem Keeps.requestClockLoad {s : State} (screen : Byte) (value : ClockValue) (run : Bool) (h : P s)
    (hr : s.ci.replies.length < 8) :
    P (s.requestClockLoad screen value run).1 ∧ (s.requestClockLoad screen value run).1.ci.replies.length < 8 := by
  unfold State.requestClockLoad
  split
  · exact ⟨h, hr⟩
  · dsimp only
    split
    · next hload =>
      refine ⟨?_, ?_⟩ <;> dsimp only
      · exact K.makeTrigger _ _ (K.clock (fun _ => Clock.load_sound hload _) h)
      · rw [State.outer_replies (State.outer_makeTrigger _ _ _)]
        exact hr
    · exact ⟨h, hr⟩

theorem Keeps.requestTimerSet {s : State} (screen timer base : Byte) (count : Nat) (reload : Bool) (h : P s)
    (hr : s.ci.replies.length < 8) :
    P (s.requestTimerSet screen timer base count reload).1 ∧
      (s.requestTimerSet screen timer base count reload).1.ci.replies.length < 8 := by
  unfold State.requestTimerSet
  split
  · split
    · exact ⟨h, hr⟩
    · exact ⟨K.modifyTimer h, hr⟩
  · exact ⟨h, hr⟩

theorem Keeps.requestAcknowledge {s : State} (first last : Byte) (h : P s) (hr : s.ci.replies.length < 8) :
    P (s.requestAcknowledge first last).1 ∧ (s.requestAcknowledge first last).1.ci.replies.length < 8 := by
  unfold State.requestAcknowledge
  split
  · exact ⟨h, hr⟩
  · exact ⟨K.acknowledge _ _ h, hr⟩

theorem Keeps.requestResume {s : State} (tag screen : Byte) (h : P s) (hr : s.ci.replies.length < 8) :
    P (s.requestResume tag screen).1 ∧ (s.requestResume tag screen).1.ci.replies.length < 8 := by
  unfold State.requestResume
  split
  · exact ⟨h, hr⟩
  · exact ⟨K.resumeScreen _ _ h, (State.outer_replies (s.outer_resumeScreen _ _)).symm ▸ hr⟩

theorem Keeps.requestCueArm {s : State} (e : Fin 256) (setting : Byte) (h : P s) (hr : s.ci.replies.length < 8) :
    P (s.requestCueArm e setting).1 ∧ (s.requestCueArm e setting).1.ci.replies.length < 8 := by
  unfold State.requestCueArm
  split
  · exact ⟨K.modifyCue h, hr⟩
  · exact ⟨K.modifyCue h, hr⟩
  · exact ⟨h, hr⟩

theorem Keeps.requestPreserve {s : State} (tag : Byte) (h : P s) (hr : s.ci.replies.length < 8) :
    P (s.requestPreserve tag).1 ∧ (s.requestPreserve tag).1.ci.replies.length < 8 := by
  unfold State.requestPreserve
  split
  · exact ⟨h, hr⟩
  · split
    · exact ⟨h, hr⟩
    · next hidle => exact ⟨K.preserving (not_not.mp hidle) h, hr⟩

theorem Keeps.requestRestore {s : State} (tag : Byte) (h : P s) (hr : s.ci.replies.length < 8) :
    P (s.requestRestore tag).1 ∧ (s.requestRestore tag).1.ci.replies.length < 8 := by
  unfold State.requestRestore
  split
  · exact ⟨h, hr⟩
  · split
    · exact ⟨h, hr⟩
    · next hoff => exact ⟨K.restoring (by simpa using hoff) h, hr⟩

theorem Keeps.requestReset {s : State} (h : P s) (hr : s.ci.replies.length < 8) :
    P s.requestReset.1 ∧ s.requestReset.1.ci.replies.length < 8 := by
  unfold State.requestReset
  split
  · exact ⟨h, hr⟩
  · refine ⟨?_, ?_⟩ <;> dsimp only
    · exact K.reset h
    · rw [State.resetAll, State.restart_ci]
      decide

theorem Keeps.answered {r : State × ResultCode} {tag : Byte} (h : P r.1 ∧ r.1.ci.replies.length < 8) :
    P (State.answer r tag) := K.reply h.2 h.1

theorem Keeps.execute {s : State} (tag : Byte) (body : RequestBody) (hr : s.ci.replies.length ≤ Config.replyTakeLimit)
    (h : P s) : P (s.execute tag body) := by
  have hr : s.ci.replies.length < 8 := Nat.lt_of_le_of_lt hr (by decide)
  cases body with
  | tableWrite page word data => exact K.answered (K.requestTableWrite page word data h hr)
  | tableRead page word count => exact K.answerData tag _ h hr
  | screenState screen target => exact K.answered (K.requestState tag screen target h hr)
  | screenAction screen action =>
    obtain ⟨hP, hlen⟩ := K.requestAction tag screen action h hr
    exact K.reply hlen hP
  | level screen value ramp => exact K.answered (K.requestLevel screen value ramp h hr)
  | clockLoad screen hours minutes seconds frames run => exact K.answered (K.requestClockLoad screen _ _ h hr)
  | timerSet screen timer base count reload => exact K.answered (K.requestTimerSet screen timer base _ _ h hr)
  | acknowledge first last => exact K.answered (K.requestAcknowledge first last h hr)
  | resume screen => exact K.answered (K.requestResume tag screen h hr)
  | cueArm e setting => exact K.answered (K.requestCueArm e setting h hr)
  | query q => exact K.answerData tag _ h hr
  | preserve => exact K.answered (K.requestPreserve tag h hr)
  | restore => exact K.answered (K.requestRestore tag h hr)
  | reset => exact K.answered (K.requestReset h hr)
  | badKind => exact K.reply hr h
  | badLength isAction => exact K.reply hr h

theorem Keeps.takeRequests {s : State} (n : Nat) (h : P s) : P (State.takeRequests n s) := by
  induction n generalizing s with
  | zero => exact h
  | succ n ih =>
    unfold State.takeRequests
    split
    · next ht =>
      simp only [State.takes, Bool.and_eq_true, decide_eq_true_eq] at ht
      refine ih ?_
      unfold State.takeRequest
      split
      · exact h
      · next r rest hs => exact K.execute _ _ ht.2 (K.take hs h)
    · exact h

theorem Keeps.interpret {s : State} (h : P s) : P s.interpret := K.takeRequests _ h

theorem Keeps.joinRequest {s : State} (r : Request) (h : P s) : P (s.joinRequest r) := by
  unfold State.joinRequest
  split_ifs with h1 h2
  · exact K.join h1 h
  · exact K.reply h2 h
  · exact h

theorem Keeps.request {s : State} (tag : Byte) (body : RequestBody) (h : P s) : P (s.request tag body) :=
  K.interpret (K.joinRequest _ h)

/-! ## The link -/

omit K in
theorem Port.classify_sound {p : Port} (intact : Bool) (h : p.sound) : (p.classify intact).sound := by
  obtain ⟨lock, run, failures⟩ := p
  cases lock <;> cases intact <;> simp_all [Port.sound, Port.classify, Config.lockRun, Config.lossRun]

theorem Keeps.joinBodies {s : State} (bodies : List (List Byte)) (h : P s) : P (s.joinBodies bodies) := by
  refine foldl_holds (fun s body hs => ?_) bodies h
  split
  · exact K.joinRequest _ hs
  · exact hs

theorem Keeps.deliver {s : State} (a : Arrival) (h : P s) : P (s.deliver a) :=
  K.joinBodies _ (K.same h rfl)

theorem Keeps.deliverUnused {s : State} (h : P s) : P s.deliverUnused := K.same h rfl

theorem Keeps.rackWord {s : State} (w : RackWord) (h : P s) : P (s.takeRackWord w) := K.same h rfl

theorem Keeps.receiveUpstream {s : State} (a : Option Arrival) (h : P s) : P (s.receiveUpstream a) := by
  have hup : P { s with li := { s.li with up := s.li.up.classify a.isSome, upSeen := true } } :=
    K.same (K.ports (up := s.li.up.classify a.isSome) (Port.classify_sound _) id h) rfl
  unfold State.receiveUpstream
  dsimp only
  split
  · exact K.deliverUnused hup
  · split_ifs
    · exact K.deliver _ hup
    · exact K.same hup rfl
    · exact K.deliverUnused hup

theorem Keeps.receiveRack {s : State} (w : Option (BitVec 16)) (h : P s) : P (s.receiveRack w) := by
  have hdown : P { s with li := { s.li with down := s.li.down.classify w.isSome, downSeen := true } } :=
    K.same (K.ports (down := s.li.down.classify w.isSome) id (Port.classify_sound _) h) rfl
  unfold State.receiveRack
  dsimp only
  split
  · exact K.rackWord _ hdown
  · split_ifs
    · exact K.rackWord _ hdown
    · exact K.same hdown rfl
    · exact K.rackWord _ hdown

theorem Keeps.setPort {s : State} (port : PortId) (lock : Lock) (h : P s) : P (s.setPort port ⟨lock, 0, 0⟩) := by
  have hport : (⟨lock, 0, 0⟩ : Port).sound := by cases lock <;> simp [Port.sound]
  cases port with
  | upstream => exact K.ports (up := ⟨lock, 0, 0⟩) (down := s.li.down) (fun _ => hport) id h
  | downstream => exact K.ports (up := s.li.up) (down := ⟨lock, 0, 0⟩) id (fun _ => hport) h

theorem Keeps.lockPort {s : State} (port : PortId) (h : P s) : P (s.lockPort port) := by
  have hport : P ((s.setPort port ⟨.locked, 0, 0⟩).queueReport ((s.setPort port ⟨.locked, 0, 0⟩).linkReport port)) :=
    K.report (K.setPort port _ h)
  unfold State.lockPort
  dsimp only
  split <;> split
  · exact K.deliver _ (K.same hport rfl)
  · exact hport
  · exact K.rackWord _ (K.same hport rfl)
  · exact hport

theorem Keeps.losePort {s : State} (port : PortId) (h : P s) : P (s.losePort port) := by
  have hport := K.setPort port .lost h
  unfold State.losePort
  cases port with
  | upstream =>
    dsimp only
    exact K.reports _ (K.merge _ (K.safeAll hport))
  | downstream => exact K.report hport

theorem Keeps.settlePort {s : State} (port : PortId) (h : P s) : P (s.settlePort port) := by
  unfold State.settlePort
  split_ifs
  · exact K.lockPort port h
  · exact K.losePort port h
  · exact h

theorem Keeps.sendByte {s : State} (h : P s) : P s.sendByte.2 := K.same (K.send h) rfl

theorem Keeps.sendBytes {s : State} (h : P s) : P s.sendBytes :=
  K.same (K.sendByte (K.sendByte h)) rfl

/-! ## The work of a link frame -/

theorem Keeps.fadeStarted {s : State} (i : Fin 8) (h : P s) : P (s.fadeStarted i) := by
  unfold State.fadeStarted
  dsimp only
  exact K.reports _ (K.recompute (K.forceEntries _ h))

omit K in
/-- The format selection leaves the profiles a record holds. -/
theorem DecodeRecord.observe_profiles (d : DecodeRecord) (result : DescriptorResult) (default : Fin 16) :
    (d.observe result default).profiles = d.profiles := by
  unfold DecodeRecord.observe
  split
  · rfl
  · rfl
  · split_ifs
    · rfl
    · split
      · split_ifs <;> rfl
      · rfl

theorem Keeps.selectFormat {s : State} (i : Fin 8) (h : P s) : P (s.selectFormat i) :=
  K.modifyDecode rfl (K.modifyDecode (DecodeRecord.observe_profiles _ _ _) h)

theorem Keeps.runDecode {s : State} (i : Fin 8) (hs : s.screenState i ≠ .offline) (h : P s) : P (s.runDecode i) := by
  have hfade : P (s.modifyDecode i fun _ => ((s.de.get i).crossfade (s.profileToUse i)).1) := K.crossfade hs h
  unfold State.runDecode
  dsimp only
  generalize hm : (s.modifyDecode i fun _ => ((s.de.get i).crossfade (s.profileToUse i)).1) = m at hfade
  have hstarted : P (if ((s.de.get i).crossfade (s.profileToUse i)).2 = true then m.fadeStarted i else m) := by
    split
    · exact K.fadeStarted i hfade
    · exact hfade
  generalize (if ((s.de.get i).crossfade (s.profileToUse i)).2 = true then m.fadeStarted i else m) = u at hstarted ⊢
  split
  · exact K.modifyDecode rfl hstarted
  · exact hstarted

theorem Keeps.decodeFrame {s : State} (i : Fin 8) (h : P s) : P (s.decodeFrame i) := by
  unfold State.decodeFrame
  dsimp only
  split
  · exact K.selectFormat i h
  · next hs => exact K.runDecode i hs (K.selectFormat i h)

theorem Keeps.awaitUpstream {s : State} (h : P s) : P s.awaitUpstream := by
  refine K.settlePort _ ?_
  split
  · exact h
  · exact K.receiveUpstream none h

theorem Keeps.work {s : State} (lines : BitVec 16) (keyLocked : Bool) (h : P s) : P (s.work lines keyLocked) := by
  have hsampled : P (s.awaitUpstream.interpret.sampleLines lines keyLocked) :=
    K.tracked (State.tracked_sampleLines _ _ _) (K.interpret (K.awaitUpstream h))
  have hdecoded := foldl_holds (P := P) (f := State.decodeFrame) (fun _ i => K.decodeFrame i) (List.finRange 8) hsampled
  have hrun := K.same (K.targets hdecoded) (State.tracked_runChannels _)
  have hworked := K.sendBytes hrun
  unfold State.work
  dsimp only
  generalize State.sendBytes _ = w at hworked ⊢
  exact K.interpret (K.same hworked rfl)

/-! ## The events of a link frame -/

theorem Keeps.expireSlot {s : State} (n : Fin 128) (h : P s) : P (s.expireSlot n) := K.tracked (s.tracked_expireSlot n) h

theorem Keeps.takeCrossfadeEnd {s : State} (i : Fin 8) (h : P s) : P (s.takeCrossfadeEnd i) := by
  unfold State.takeCrossfadeEnd
  split
  · unfold State.endCrossfade
    dsimp only
    split
    · next hcur => exact K.report (K.fadeEnd (by rw [hcur]; rfl) h)
    · exact h
  · exact h

theorem Keeps.takeSwapMoment {s : State} (i : Fin 8) (h : P s) : P (s.takeSwapMoment i) := by
  unfold State.takeSwapMoment
  split
  · exact K.swapMoment i h
  · exact h

theorem Keeps.takeDipEnd {s : State} (i : Fin 8) (h : P s) : P (s.takeDipEnd i) := by
  unfold State.takeDipEnd
  split
  · exact K.dip h
  · exact h

theorem Keeps.takeWindowEnd {s : State} (h : P s) : P s.takeWindowEnd := by
  unfold State.takeWindowEnd
  split
  · exact K.endWindow h
  · exact h

theorem Keeps.takeAdvance {s : State} (i : Fin 8) (h : P s) : P (s.takeAdvance i) := by
  unfold State.takeAdvance
  split
  · exact K.settleClock i h
  · exact h

theorem Keeps.takeTick {s : State} (i : Fin 8) (t : Fin 2) (h : P s) : P (s.takeTick i t) := by
  unfold State.takeTick
  split
  · exact K.settleTimer i t h
  · exact h

theorem Keeps.takeExpiry {s : State} (i : Fin 8) (t : Fin 2) (h : P s) : P (s.takeExpiry i t) := by
  unfold State.takeExpiry
  dsimp only
  split
  · exact K.settleTimer i t h
  · exact h

theorem Keeps.takePeriodEnd {s : State} (n : Fin 16) (h : P s) : P (s.takePeriodEnd n) := by
  unfold State.takePeriodEnd
  split
  · exact K.setOutput h
  · exact h

theorem Keeps.takeInputEdge {s : State} (n : Fin 16) (h : P s) : P (s.takeInputEdge n) := by
  unfold State.takeInputEdge
  split
  · exact K.settleInput n h
  · exact h

theorem Keeps.takeKeyChange {s : State} (h : P s) : P s.takeKeyChange := by
  unfold State.takeKeyChange
  split
  · exact K.same h rfl
  · exact h

theorem Keeps.takePreserveEnd {s : State} (h : P s) : P s.takePreserveEnd := by
  unfold State.takePreserveEnd
  split
  · exact K.completePreserve h
  · exact h

theorem Keeps.takeRestoreEnd {s : State} (h : P s) : P s.takeRestoreEnd := by
  unfold State.takeRestoreEnd
  split
  · next hs => exact K.completeRestore (by simpa using Bool.and_elim_left hs) h
  · exact h

theorem Keeps.takeAcceptance {s : State} (i : Fin 8) (h : P s) : P (s.takeAcceptance i) := by
  unfold State.takeAcceptance
  split
  · exact K.modifyDecode (DecodeRecord.observe_profiles _ _ _) h
  · exact h

/-! ## The end of a link frame -/

theorem Keeps.finishFrame {s : State} (h : P s) : P s.finishFrame := by
  have hwork : P s.finishWork := by
    unfold State.finishWork
    split
    · exact h
    · exact K.work _ _ h
  have hports : P s.finishWork.finishPorts := by
    unfold State.finishPorts
    refine K.settlePort _ (K.settlePort _ ?_)
    split
    · exact hwork
    · exact K.receiveRack none hwork
  have hscreens : P s.finishWork.finishPorts.finishScreens :=
    K.takeWindowEnd (foldl_holds (fun _ i => K.takeDipEnd i) _ (foldl_holds (fun _ i => K.takeSwapMoment i) _
      (foldl_holds (fun _ i => K.takeCrossfadeEnd i) _ (foldl_holds (fun _ n => K.expireSlot n) _ hports))))
  have hlines : P s.finishWork.finishPorts.finishScreens.finishLines :=
    K.takeKeyChange (foldl_holds (fun _ n => K.takeInputEdge n) _ (foldl_holds (fun _ n => K.takePeriodEnd n) _
      (foldl_holds (fun _ i hi => K.takeTick i 1 (K.takeTick i 0 hi)) _ (foldl_holds (fun _ i => K.takeAdvance i) _
        hscreens))))
  exact K.handleTriggers _ (K.interpret (K.takeRestoreEnd (K.takePreserveEnd hlines)))

theorem Keeps.beginFrame {s : State} (h : P s) : P s.beginFrame := K.advance (K.finishFrame h)

theorem Keeps.upstreamArrives {s : State} (a : Option Arrival) (h : P s) : P (s.upstreamArrives a) := by
  refine K.interpret (K.receiveUpstream a ?_)
  split
  · exact K.beginFrame h
  · exact h

theorem Keeps.rackArrives {s : State} (w : Option (BitVec 16)) (h : P s) : P (s.rackArrives w) := by
  refine K.receiveRack w ?_
  split
  · exact K.beginFrame h
  · exact h

theorem Keeps.linkFrame {s : State} (lines : BitVec 16) (keyLocked : Bool) (h : P s) : P (s.linkFrame lines keyLocked) := by
  refine K.work lines keyLocked ?_
  split
  · exact K.beginFrame h
  · exact h

/-! ## Commands and steps -/

/-- Every command answers a next state, which has every kept property that the state has: a request command is its request,
and the others are the events of the part and its links. -/
theorem Keeps.exec {s : State} (c : Instr) (h : P s) : ∃ t, exec c s = .next t ∧ P t := by
  cases hr : requestOf c with
  | some r => exact ⟨_, exec_request hr s, K.request _ _ h⟩
  | none =>
    cases c with
    | powerUp lines key => exact ⟨_, rfl, K.power lines key h⟩
    | linkFrame lines key => exact ⟨_, rfl, K.linkFrame lines key h⟩
    | upstreamFrame intact slots first second => exact ⟨_, rfl, K.upstreamArrives _ h⟩
    | rackStatusWord intact word => exact ⟨_, rfl, K.rackArrives _ h⟩
    | slotAgeExpiry slot => exact ⟨_, rfl, K.expireSlot slot h⟩
    | portLost port =>
      refine ⟨_, rfl, ?_⟩
      split
      · exact K.losePort port h
      · exact h
    | portLocked port =>
      refine ⟨_, rfl, ?_⟩
      split
      · exact K.interpret (K.lockPort port h)
      · exact h
    | replySenderTake => exact ⟨_, rfl, K.interpret (K.send h)⟩
    | descriptorAccept i => exact ⟨_, rfl, K.takeAcceptance i h⟩
    | crossfadeEnd i => exact ⟨_, rfl, K.takeCrossfadeEnd i h⟩
    | swapMoment i => exact ⟨_, rfl, K.takeSwapMoment i h⟩
    | dipEnd i => exact ⟨_, rfl, K.takeDipEnd i h⟩
    | meterWindowEnd => exact ⟨_, rfl, K.takeWindowEnd h⟩
    | pictureFrameAdvance i => exact ⟨_, rfl, K.takeAdvance i h⟩
    | timerTick i t => exact ⟨_, rfl, K.takeTick i t h⟩
    | timerExpiry i t => exact ⟨_, rfl, K.takeExpiry i t h⟩
    | pulsePeriodEnd n => exact ⟨_, rfl, K.takePeriodEnd n h⟩
    | inputEdge n => exact ⟨_, rfl, K.takeInputEdge n h⟩
    | boothKeyChange => exact ⟨_, rfl, K.takeKeyChange h⟩
    | triggerHandling => exact ⟨_, rfl, K.handleTrigger h⟩
    | preserveComplete => exact ⟨_, rfl, K.takePreserveEnd h⟩
    | restoreComplete => exact ⟨_, rfl, K.takeRestoreEnd h⟩
    | _ => simp [requestOf] at hr

/-- A kept property that does not read the queue of commands is kept by a step. -/
theorem Keeps.step {s t : State} (hq : ∀ (s : State) (q : List Instr), P s → P { s with pending := q })
    (hstep : step s = .next t) (h : P s) : P t := by
  unfold Machine.step at hstep
  split at hstep
  · cases hstep
    exact h
  · next c rest _ =>
    obtain ⟨u, hu, hP⟩ := K.exec c (hq s rest h)
    rw [hu] at hstep
    cases hstep
    exact hP

end Compose

end Sys2Proof.Machine
end

section
/-!
PROOFS. The invariants of the ports, the show clocks, the alarm records and the ramps (R15, R27, R98, R118), each from what
the operations of `Keeps` do to the parts it reads.
-/

namespace Sys2Proof.Machine

/-! ## What the longer operations keep -/

section Parts

variable {P : State → Prop} (same : ∀ {s t : State}, P s → t.tracked = s.tracked → P t)
include same

theorem State.handPending_holds {s : State} {i : Fin 8} (old : ScreenRecord) (target : ScreenState)
    (dip : ∀ {t : State}, P t → P (t.modifyScreen i fun r => { r with dip := r.dip.retarget 0 256 })) (h : P s) :
    P (s.handPending i old target).1 := by
  unfold State.handPending State.handApply
  split
  · split
    · exact h
    · split
      · exact dip (same h rfl)
      · split
        · exact h
        · exact same h rfl
  · exact h

theorem State.followMove_holds {s : State} {i : Fin 8} (old target : ScreenState) (inScan : Bool)
    (release : ∀ {t : State}, P t → P (t.releaseScreen i))
    (idle : ∀ {t : State}, P t → P (t.modifyDecode i DecodeRecord.idled))
    (out : ∀ {t : State}, P t → P (t.modifyOut i fun _ => OutChannel.reset))
    (force : ∀ {t : State} {pick : AlarmEntry → Bool}, P t → P (t.forceEntries pick).1)
    (recompute : ∀ {t : State}, P t → P t.recomputeTargets)
    (enable : ∀ {t : State}, P t → P (t.enable i)) (h : P s) : P (s.followMove i old target inScan).1 := by
  have disable : P (s.disable i).1 := by
    have hout := out (idle (release h))
    unfold State.disable
    dsimp only
    generalize State.modifyOut _ _ _ = u at hout ⊢
    exact recompute (force (same hout rfl))
  unfold State.followMove
  split
  · exact disable
  · split
    · exact enable h
    · split
      · dsimp only
        split
        · exact force h
        · exact recompute (force h)
      · exact h

/-- A change of a screen's state keeps what each of its parts keeps (R4–R9, R13). -/
theorem State.moveScreen_holds {s : State} {i : Fin 8} {target : ScreenState} {cause : StateCause} {safeCause : SafeCause}
    {depth : Nat} {inScan : Bool}
    (screen : P (s.modifyScreen i fun r => r.move target safeCause (s.safeGain i)))
    (dip : ∀ {t : State}, P t → P (t.modifyScreen i fun r => { r with dip := r.dip.retarget 0 256 }))
    (release : ∀ {t : State}, P t → P (t.releaseScreen i))
    (idle : ∀ {t : State}, P t → P (t.modifyDecode i DecodeRecord.idled))
    (out : ∀ {t : State}, P t → P (t.modifyOut i fun _ => OutChannel.reset))
    (force : ∀ {t : State} {pick : AlarmEntry → Bool}, P t → P (t.forceEntries pick).1)
    (recompute : ∀ {t : State}, P t → P t.recomputeTargets)
    (enable : ∀ {t : State}, P t → P (t.enable i))
    (push : ∀ {t : State} {x : Trigger}, P t → P (t.pushTrigger x)) :
    P (s.moveScreen i target cause safeCause depth inScan).1 := by
  have hand := State.handPending_holds same (s.sc.get i) target dip screen
  have follow := State.followMove_holds same (s.screenState i) target inScan release idle out force recompute enable hand
  have trigger : P (((((s.modifyScreen i fun r => r.move target safeCause (s.safeGain i)).handPending i (s.sc.get i)
      target).1).followMove i (s.sc.get i).state target inScan).1.makeTrigger (.state i target) depth) := by
    unfold State.makeTrigger
    split
    · exact push follow
    · exact follow
  unfold State.moveScreen
  dsimp only
  generalize State.makeTrigger _ _ _ = u at trigger ⊢
  exact same trigger rfl

/-- The effects of a write keep what resetting an alarm record and recomputing the targets keep (R115, R141, R146). -/
theorem State.followWrite_holds {s : State} (a n : Nat)
    (reset : ∀ {t : State} {e : Fin 256}, P t → P (t.modifyAlarm e fun _ => .reset))
    (recompute : ∀ {t : State}, P t → P t.recomputeTargets) (h : P s) : P (s.followWrite a n) := by
  have halarms : P (s.resetAlarms (writtenAlarms a n)) := by
    unfold State.resetAlarms
    split
    · exact h
    · exact same (recompute (foldl_holds (fun _ _ => reset) _ h)) rfl
  unfold State.followWrite State.lowerOutputs
  refine foldl_holds (fun s n (h : P s) => ?_) _ ?_
  · exact same h rfl
  · unfold State.rearmCues
    refine foldl_holds (fun s n (h : P s) => ?_) _ halarms
    exact same h rfl

end Parts

theorem State.senderTake_frame (s : State) : ∃ replies reports sender,
    s.senderTake = { s with ci := { s.ci with replies, reports }, li := { s.li with sender } } := by
  unfold State.senderTake
  split
  · split
    · exact ⟨_, _, _, rfl⟩
    · exact ⟨_, _, _, rfl⟩
    · exact ⟨s.ci.replies, s.ci.reports, s.li.sender, rfl⟩
  · exact ⟨s.ci.replies, s.ci.reports, s.li.sender, rfl⟩

/-- What a restore's completion leaves alone as it replaces the words (R173). -/
theorem State.loadWords_frame (s : State) (words : Memory) (a n : Nat) :
    let t := (s.putWords words).followWrite a n
    t.pending = s.pending ∧ t.li = s.li ∧ t.ci = s.ci ∧ t.sc = s.sc ∧ t.ct = s.ct ∧ t.ce.triggers = s.ce.triggers ∧
      t.ts = { s.ts with words } ∧ t.eq = s.eq := by
  obtain ⟨houter, hci, hsc, -, heq, hct, -, htr, -⟩ := State.followWrite_spec a n (s.putWords words)
  exact ⟨(State.outer_pending houter).trans (s.putWords_pending words), (State.outer_li houter).trans (s.putWords_li words),
    hci.trans (s.putWords_ci words), hsc.trans (s.putWords_sc words), hct.trans (s.putWords_ct words),
    htr.trans (congrArg CueEngine.triggers (s.putWords_ce words)), (State.outer_ts houter).trans (s.putWords_ts words),
    heq.trans (s.putWords_eq words)⟩

/-- What a write of a run leaves alone, and the words it writes (R167, R170). -/
theorem State.writeRun_frame (s : State) (a : Nat) (data : List Word) :
    let t := s.writeRun a data
    t.pending = s.pending ∧ t.li = s.li ∧ t.ci = s.ci ∧ t.sc = s.sc ∧ t.ct = s.ct ∧ t.ce.triggers = s.ce.triggers ∧
      t.ts = { s.ts with words := s.ts.words.writeRun a data } := by
  have hpaged := State.unpaged_reallocate (s.putWords (s.ts.words.writeRun a data)) (s.writtenDelays a data)
  obtain ⟨houter, hci, hsc, -, -, hct, -, htr, -⟩ := State.followWrite_spec a data.length
    ((s.putWords (s.ts.words.writeRun a data)).reallocate (s.writtenDelays a data))
  have houter := houter.trans (State.unpaged_outer hpaged)
  exact ⟨(State.outer_pending houter).trans (s.putWords_pending _), (State.outer_li houter).trans (s.putWords_li _),
    (hci.trans (State.unpaged_ci hpaged)).trans (s.putWords_ci _),
    (hsc.trans (State.unpaged_sc hpaged)).trans (s.putWords_sc _),
    (hct.trans (State.unpaged_ct hpaged)).trans (s.putWords_ct _),
    (htr.trans (congrArg CueEngine.triggers (State.unpaged_ce hpaged))).trans
      (congrArg CueEngine.triggers (s.putWords_ce _)),
    (State.outer_ts houter).trans (s.putWords_ts _)⟩

/-- A reset restarts every block but the enables' own parts: the screens, the decode records and the delay pages (R181). -/
theorem State.restart_unenabled (s : State) : s.restart.unenabled = (s.blocksReset.gather []).unenabled :=
  (State.autoEnableAll_spec _).1

theorem State.unpaged_exchange {s t : State} (i : Fin 8) (h : t.unpaged = s.unpaged) :
    (t.exchangeBanks i).unpaged = (s.exchangeBanks i).unpaged :=
  congrArg (fun u : Unpaged => { u with sc := u.sc.modify i fun r =>
    { r with activeBank := otherBank r.activeBank } }) h

/-- But for the pages, a swap moment exchanges the banks or changes nothing (R74). -/
theorem State.unpaged_swapBanks (s : State) (i : Fin 8) :
    (s.swapBanks i).1.unpaged = (s.exchangeBanks i).unpaged ∨ (s.swapBanks i).1 = s := by
  unfold State.swapBanks
  split
  · exact .inl rfl
  · split
    · exact .inl ((State.unpaged_allocateBank _ i _).trans (State.unpaged_exchange i (s.unpaged_releaseScreen i)))
    · exact .inr rfl

/-! ## The queue of waiting commands -/

theorem pending_kept (q : List Instr) : Keeps fun s => s.pending = q where
  tracked h hs := (congrArg Tracked.pending h).trans hs
  ports _ _ h := h
  join _ h := h
  take _ h := h
  reply _ h := h
  report h := (State.outer_pending (State.outer_queueReport _ _)).trans h
  send {s} h := by obtain ⟨_, _, _, hs⟩ := s.senderTake_frame; rw [hs]; exact h
  push _ h := (State.outer_pending (State.outer_pushTrigger _ _)).trans h
  pop _ h := h
  write _ h := (State.writeRun_frame _ _ _).1.trans h
  load _ h := (State.loadWords_frame _ _ _ _).1.trans h
  preserving _ h := h
  preserved h := h
  restoring _ h := h
  restored h := h
  touch _ h := h
  exchange _ h := h
  swap h := (State.outer_pending (State.outer_swapBanks _ _)).trans h
  move _ _ _ _ _ h := (State.outer_pending (State.outer_moveScreen ..)).trans h
  crossfade _ h := h
  fadeEnd _ h := h
  alarms _ h := h
  targets h := h
  recompute h := h
  clock _ h := h
  power _ _ h := (State.outer_pending (State.unenabled_outer (State.restart_unenabled _))).trans h
  reset h := (State.outer_pending (State.unenabled_outer (State.restart_unenabled _))).trans h
  advance h := h

/-- Settles O2: no command's operation touches the queue, and `Keeps.exec` answers a next state for each. -/
theorem everyCommandCompletes : Obligations.EveryCommandCompletes := fun c s => (pending_kept s.pending).exec c rfl

/-! ## Ports (R27) -/

theorem portsSound_kept : Keeps fun s => s.li.up.sound ∧ s.li.down.sound where
  tracked h hs := by
    have hup : _ = _ := congrArg Tracked.up h
    have hdown : _ = _ := congrArg Tracked.down h
    dsimp only [State.tracked] at hup hdown
    rw [hup, hdown]
    exact hs
  ports hup hdown h := ⟨hup h.1, hdown h.2⟩
  join _ h := h
  take _ h := h
  reply _ h := h
  report h := by rw [State.outer_li (State.outer_queueReport _ _)]; exact h
  send {s} h := by obtain ⟨_, _, _, hs⟩ := s.senderTake_frame; rw [hs]; exact h
  push _ h := by rw [State.outer_li (State.outer_pushTrigger _ _)]; exact h
  pop _ h := h
  write {s} {_ _ _} _ h := by rw [(s.writeRun_frame _ _).2.1]; exact h
  load {s} _ h := by rw [(s.loadWords_frame _ _ _).2.1]; exact h
  preserving _ h := h
  preserved h := h
  restoring _ h := h
  restored h := h
  touch _ h := h
  exchange _ h := h
  swap h := by rw [State.outer_li (State.outer_swapBanks _ _)]; exact h
  move _ _ _ _ _ h := by rw [State.outer_li (State.outer_moveScreen ..)]; exact h
  crossfade _ h := h
  fadeEnd _ h := h
  alarms _ h := h
  targets h := h
  recompute h := h
  clock _ h := h
  power _ _ _ := by
    rw [State.powerOn, State.outer_li (State.unenabled_outer (State.restart_unenabled _))]
    exact ⟨⟨rfl, Nat.zero_le _⟩, rfl, Nat.zero_le _⟩
  reset _ := by
    rw [State.resetAll, State.outer_li (State.unenabled_outer (State.restart_unenabled _))]
    exact ⟨⟨rfl, Nat.zero_le _⟩, rfl, Nat.zero_le _⟩
  advance h := h

/-- Settles O11: of the operations, only a frame's classification and a change of lock touch a port. -/
theorem portsStaySound : Obligations.PortsStaySound := fun _ _ h hstep => portsSound_kept.step (fun _ _ => id) hstep h

/-! ## Show clocks (R118) -/

theorem State.reset_clocksSound (s : State) : (s.blocksReset.gather []).clocksSound := fun i => by
  rw [show (s.blocksReset.gather []).ct.clocks.get i = Clock.reset from Tab.get_fill ..]
  exact Clock.load_sound (loadable_zero .r24) false

theorem clocksSound_kept : Keeps State.clocksSound where
  tracked h hs i := by
    have hclocks : _ = _ := congrArg (fun t => Tab.get t.clocks i) h
    dsimp only [State.tracked] at hclocks
    rw [hclocks]
    exact hs i
  ports _ _ h := h
  join _ h := h
  take _ h := h
  reply _ h := h
  report h := by unfold State.clocksSound; rw [State.silent_ct (State.silent_queueReport _ _)]; exact h
  send {s} h := by obtain ⟨_, _, _, hs⟩ := s.senderTake_frame; rw [hs]; exact h
  push _ h := by unfold State.clocksSound; rw [State.silent_ct (State.silent_pushTrigger _ _)]; exact h
  pop _ h := h
  write {s} {_ _ _} _ h := by
    obtain ⟨-, -, -, -, hct, -⟩ := s.writeRun_frame (address _ _) _
    unfold State.clocksSound; rw [hct]; exact h
  load {s} _ h := by
    obtain ⟨-, -, -, -, hct, -⟩ := s.loadWords_frame s.ts.image.pages 0 Config.storeWords
    unfold State.clocksSound; rw [hct]; exact h
  preserving _ h := h
  preserved h := h
  restoring _ h := h
  restored h := h
  touch _ h := h
  exchange _ h := h
  swap {s} {i} h := by
    rcases s.unpaged_swapBanks i with hs | hs
    · unfold State.clocksSound; rw [State.unpaged_ct hs]; exact h
    · rw [hs]; exact h
  move {s} {i} {target} cause safeCause depth inScan _ h := by
    obtain ⟨-, -, haside, -⟩ := s.moveScreen_spec i target cause safeCause depth inScan
    unfold State.clocksSound; rw [State.aside_ct haside]; exact h
  crossfade _ h := h
  fadeEnd _ h := h
  alarms _ h := h
  targets h := h
  recompute h := h
  clock {s} {i} {f} hf h j := by
    rw [State.modifyClock_ct, Tab.get_modify]
    split
    · exact hf (h i)
    · exact h j
  power _ _ _ i := by
    rw [State.powerOn, State.unenabled_ct (State.restart_unenabled _)]
    exact State.reset_clocksSound _ i
  reset _ i := by
    rw [State.resetAll, State.unenabled_ct (State.restart_unenabled _)]
    exact State.reset_clocksSound _ i
  advance h i := by
    rw [State.advance, State.advanceClocks, Tab.get_map]
    exact Clock.passFrame_sound (h i)

end Sys2Proof.Machine
end

section
/-!
PROOFS. The invariants of the alarm records and the ramps (R15, R85, R98), from what the operations of `Keeps` do to them.
-/

namespace Sys2Proof.Machine

/-! ## Alarm records (R98) -/

theorem State.alarmsSound_congr {s t : State} (h : t.am.entries = s.am.entries) (hs : s.alarmsSound) : t.alarmsSound :=
  fun e => by rw [h]; exact hs e

theorem State.alarmsSound_tracked {s t : State} (hs : s.alarmsSound) (h : t.tracked = s.tracked) : t.alarmsSound :=
  State.alarmsSound_congr (congrArg Tracked.entries h) hs

theorem State.alarmsSound_modifyAlarm {s : State} {e : Fin 256} {f : AlarmRecord → AlarmRecord}
    (hf : (f (s.am.entries.get e)).sound) (hs : s.alarmsSound) : (s.modifyAlarm e f).alarmsSound := fun e' => by
  rw [State.modifyAlarm_am, Tab.get_modify]
  split
  · exact hf
  · exact hs e'

theorem State.alarmsSound_forceEntries {s : State} {pick : AlarmEntry → Bool} (hs : s.alarmsSound) :
    (s.forceEntries pick).1.alarmsSound := fun e => by
  rw [State.forceEntries_spec, Tab.get_ofFn]
  split
  · exact AlarmRecord.fallen_sound
  · exact hs e

theorem AlarmRecord.reset_sound : AlarmRecord.reset.sound := by simp [AlarmRecord.sound, AlarmRecord.reset]

theorem State.alarmsSound_followWrite {s : State} (a n : Nat) (hs : s.alarmsSound) : (s.followWrite a n).alarmsSound :=
  State.followWrite_holds State.alarmsSound_tracked a n (State.alarmsSound_modifyAlarm AlarmRecord.reset_sound) id hs

theorem State.restart_alarmsSound (s : State) : s.restart.alarmsSound := fun e => by
  rw [State.unenabled_am s.restart_unenabled, show (s.blocksReset.gather []).am.entries.get e = .reset from Tab.get_fill ..]
  exact AlarmRecord.reset_sound

theorem alarmsSound_kept : Keeps State.alarmsSound where
  tracked h hs := State.alarmsSound_tracked hs h
  ports _ _ h := h
  join _ h := h
  take _ h := h
  reply _ h := h
  report h := State.alarmsSound_congr (by rw [State.silent_am (State.silent_queueReport _ _)]) h
  send {s} h := by obtain ⟨_, _, _, hs⟩ := s.senderTake_frame; rw [hs]; exact h
  push _ h := State.alarmsSound_congr (by rw [State.silent_am (State.silent_pushTrigger _ _)]) h
  pop _ h := h
  write _ h := State.alarmsSound_followWrite _ _ (State.alarmsSound_congr
    (congrArg AlarmMonitor.entries (State.unpaged_am (State.unpaged_reallocate _ _))) h)
  load _ h := State.alarmsSound_followWrite _ _ h
  preserving _ h := h
  preserved h := h
  restoring _ h := h
  restored h := h
  touch _ h := h
  exchange _ h := h
  swap {s} {i} h := by
    rcases s.unpaged_swapBanks i with hs | hs
    · exact State.alarmsSound_congr (congrArg AlarmMonitor.entries (State.unpaged_am hs)) h
    · rw [hs]; exact h
  move {s} {i} {target} cause safeCause depth inScan _ h :=
    State.moveScreen_holds State.alarmsSound_tracked h (fun h => h)
      (fun {t} h => State.alarmsSound_congr (congrArg AlarmMonitor.entries (State.unpaged_am (t.unpaged_releaseScreen i))) h)
      (fun h => h) (fun h => h) State.alarmsSound_forceEntries (fun h => h)
      (fun {t} h => State.alarmsSound_congr (congrArg AlarmMonitor.entries (State.unenabled_am (t.enable_unenabled i).1)) h)
      (fun h => State.alarmsSound_congr (by rw [State.silent_am (State.silent_pushTrigger _ _)]) h)
  crossfade _ h := h
  fadeEnd _ h := h
  alarms hentries h e := hentries e (h e)
  targets h := h
  recompute h := h
  clock _ h := h
  power _ _ _ := State.restart_alarmsSound _
  reset _ := State.restart_alarmsSound _
  advance h := h

/-- Settles O9: a tier rises only with its flags, and every other operation on a record lowers its tier or resets it. -/
theorem alarmsStaySound : Obligations.AlarmsStaySound := fun _ _ h hstep => alarmsSound_kept.step (fun _ _ => id) hstep h

/-! ## Ramps (R15, R85) -/

theorem Ramp.rest_sound {value length : Nat} (hv : value ≤ 32768) (hl : 0 < length) : (Ramp.rest value length).sound :=
  ⟨hv, hv, hl, le_refl _⟩

theorem Ramp.advance_sound {r : Ramp} (h : r.sound) : r.advance.sound := by
  obtain ⟨hstart, htarget, hlen, hpos⟩ := h
  unfold Ramp.advance
  split
  · next hlt => exact ⟨hstart, htarget, hlen, hlt⟩
  · exact ⟨hstart, htarget, hlen, hpos⟩

theorem Ramp.protectTake_sound {r : Ramp} {target : Nat} (ht : target ≤ 32768) (h : r.sound) :
    (r.protectTake target).sound := by
  unfold Ramp.protectTake
  split_ifs
  · exact h
  · exact Ramp.retarget_sound ht (by decide) h
  · exact Ramp.retarget_sound ht (by decide) h
  · exact Ramp.rest_sound ht h.2.2.1

theorem State.rampsSound_congr {s t : State} (hsc : t.sc = s.sc)
    (hprotect : ∀ i c, ((t.os.channels.get i).get c).protect = ((s.os.channels.get i).get c).protect)
    (htargets : t.am.targets = s.am.targets) (hs : s.rampsSound) : t.rampsSound := fun i => by
  rw [hsc, htargets]
  exact ⟨(hs i).1, fun c => by rw [hprotect]; exact (hs i).2 c⟩

theorem State.rampsSound_tracked {s t : State} (hs : s.rampsSound) (h : t.tracked = s.tracked) : t.rampsSound :=
  State.rampsSound_congr (congrArg Tracked.sc h) (fun i c => congrFun₂ (congrArg Tracked.protects h) i c)
    (congrArg Tracked.targets h) hs

theorem State.rampsSound_silent {s t : State} (hs : s.rampsSound) (h : t.silent = s.silent) : t.rampsSound :=
  State.rampsSound_congr (State.silent_sc h) (fun _ _ => by rw [State.silent_os h]) (by rw [State.silent_am h]) hs

theorem State.rampsSound_unpaged {s t : State} (hs : s.rampsSound) (h : t.unpaged = s.unpaged) : t.rampsSound :=
  State.rampsSound_congr (State.unpaged_sc h) (fun _ _ => by rw [State.unpaged_os h]) (by rw [State.unpaged_am h]) hs

theorem State.rampsSound_modifyScreen {s : State} {i : Fin 8} {f : ScreenRecord → ScreenRecord}
    (hf : ∀ r : ScreenRecord, r.fader.sound → r.mute.sound → r.safeRamp.sound → r.dip.sound →
      (f r).fader.sound ∧ (f r).mute.sound ∧ (f r).safeRamp.sound ∧ (f r).dip.sound) (hs : s.rampsSound) :
    (s.modifyScreen i f).rampsSound := fun j => by
  refine ⟨?_, (hs j).2⟩
  rw [State.modifyScreen_sc, Tab.get_modify]
  split
  · obtain ⟨hfader, hmute, hsafe, hdip⟩ := (hs i).1
    exact hf _ hfader hmute hsafe hdip
  · exact (hs j).1

theorem State.rampsSound_takeTargets {s : State} (hs : s.rampsSound) : s.takeTargets.rampsSound := fun i => by
  refine ⟨(hs i).1, fun c => ⟨?_, ((hs i).2 c).2⟩⟩
  simp only [State.takeTargets, Tab.get_ofFn]
  exact Ramp.protectTake_sound ((hs i).2 c).2 ((hs i).2 c).1

theorem State.rampsSound_recomputeTargets {s : State} (hs : s.rampsSound) : s.recomputeTargets.rampsSound := by
  refine State.rampsSound_takeTargets fun i => ⟨(hs i).1, fun c => ⟨((hs i).2 c).1, ?_⟩⟩
  rw [Tab.get_ofFn, Tab.get_ofFn]
  exact (protectTarget_spec _ i c).1

theorem State.rampsSound_forceEntries {s : State} {pick : AlarmEntry → Bool} (hs : s.rampsSound) :
    (s.forceEntries pick).1.rampsSound :=
  State.rampsSound_congr (s.forceEntries_sc pick) (fun _ _ => by rw [State.forceEntries_os])
    (by rw [State.forceEntries_spec]) hs

theorem State.rampsSound_modifyOut {s : State} {i : Fin 8} (hs : s.rampsSound) :
    (s.modifyOut i fun _ => OutChannel.reset).rampsSound := fun j => by
  refine ⟨(hs j).1, fun c => ⟨?_, ((hs j).2 c).2⟩⟩
  rw [State.modifyOut_os, Tab.get_modify]
  split
  · rw [Tab.get_map]
    exact Ramp.rest_sound (by decide) (by decide)
  · exact ((hs j).2 c).1

theorem State.rampsSound_followWrite {s : State} (a n : Nat) (hs : s.rampsSound) : (s.followWrite a n).rampsSound :=
  State.followWrite_holds State.rampsSound_tracked a n (fun h => h) State.rampsSound_recomputeTargets hs

theorem ScreenRecord.move_ramps {r : ScreenRecord} {target : ScreenState} {cause : SafeCause} {gain : Nat}
    (hg : gain ≤ 32768) (hsafe : r.safeRamp.sound) : (r.move target cause gain).safeRamp.sound := by
  unfold ScreenRecord.move
  dsimp only
  split_ifs
  · exact Ramp.retarget_sound hg (by decide) hsafe
  · exact Ramp.retarget_sound (by decide) (by decide) hsafe
  · exact hsafe

/-- After a reset every ramp is at rest (R15, R94). -/
theorem State.restart_rampsSound (s : State) : s.restart.rampsSound := fun i => by
  obtain ⟨hun, hat⟩ := (s.blocksReset.gather []).autoEnableAll_spec
  have hscreen : (s.blocksReset.gather []).sc.get i = .reset (s.levelPreset i 0) := Tab.get_ofFn ..
  refine ⟨?_, fun c => ?_⟩
  · have hreset (r : ScreenRecord) (hr : r = .reset (s.levelPreset i 0)) :
        r.fader.sound ∧ r.mute.sound ∧ r.safeRamp.sound ∧ r.dip.sound := by
      subst hr
      exact ⟨Ramp.rest_sound (s.levelPreset_le i 0) (by decide), Ramp.rest_sound (by decide) (by decide),
        Ramp.rest_sound (by decide) (by decide), Ramp.rest_sound (by decide) (by decide)⟩
    rcases hat i with ⟨hsc, -⟩ | ⟨-, hsc, -⟩
    · exact hreset _ (hsc.trans hscreen)
    · have hold := hreset _ hscreen
      rw [show s.restart.sc.get i = _ from hsc]
      exact hold
  · rw [State.unenabled_os s.restart_unenabled, State.unenabled_am s.restart_unenabled]
    have hout : ((s.blocksReset.gather []).os.channels.get i).get c = .reset :=
      (congrArg (Tab.get · c) (Tab.get_fill ..)).trans (Tab.get_fill ..)
    have htarget : ((s.blocksReset.gather []).am.targets.get i).get c = Config.unity :=
      (congrArg (Tab.get · c) (Tab.get_fill ..)).trans (Tab.get_fill ..)
    rw [hout, htarget]
    exact ⟨Ramp.rest_sound (by decide) (by decide), by decide⟩

theorem rampsSound_kept : Keeps State.rampsSound where
  tracked h hs := State.rampsSound_tracked hs h
  ports _ _ h := h
  join _ h := h
  take _ h := h
  reply _ h := h
  report h := State.rampsSound_silent h (State.silent_queueReport _ _)
  send {s} h := by obtain ⟨_, _, _, hs⟩ := s.senderTake_frame; rw [hs]; exact h
  push _ h := State.rampsSound_silent h (State.silent_pushTrigger _ _)
  pop _ h := h
  write {s} {_ _ data} _ h := State.rampsSound_followWrite _ _
    (State.rampsSound_unpaged (s := s.putWords _) h (State.unpaged_reallocate _ _))
  load _ h := State.rampsSound_followWrite _ _ h
  preserving _ h := h
  preserved h := h
  restoring _ h := h
  restored h := h
  touch {s} {i} {f} hf h j := by
    refine ⟨?_, (h j).2⟩
    rw [State.modifyScreen_sc, Tab.get_modify]
    split
    · obtain ⟨hfader, hmute, hsafe, hdip⟩ := (h i).1
      exact ⟨hf.fader hfader, hf.mute hmute, hf.safeRamp hsafe, hf.dip hdip⟩
    · exact (h j).1
  exchange _ h := State.rampsSound_modifyScreen (fun _ h1 h2 h3 h4 => ⟨h1, h2, h3, h4⟩) h
  swap {s} {i} h := by
    rcases s.unpaged_swapBanks i with hs | hs
    · exact State.rampsSound_unpaged (s := s.exchangeBanks i)
        (State.rampsSound_modifyScreen (fun _ h1 h2 h3 h4 => ⟨h1, h2, h3, h4⟩) h) hs
    · rw [hs]; exact h
  move {s} {i} {target} cause safeCause depth inScan _ h :=
    State.moveScreen_holds State.rampsSound_tracked
      (State.rampsSound_modifyScreen
        (fun _ h1 h2 h3 h4 => ⟨h1, h2, ScreenRecord.move_ramps (s.safeGain_le i) h3, h4⟩) h)
      (State.rampsSound_modifyScreen
        (fun _ h1 h2 h3 h4 => ⟨h1, h2, h3, Ramp.retarget_sound (by decide) (by decide) h4⟩))
      (fun {t} h => State.rampsSound_unpaged h (t.unpaged_releaseScreen i))
      (fun h => h) State.rampsSound_modifyOut State.rampsSound_forceEntries State.rampsSound_recomputeTargets
      (fun {t} h => by
        obtain ⟨hun, hsc, -⟩ := t.enable_unenabled i
        exact State.rampsSound_congr hsc (fun _ _ => by rw [State.unenabled_os hun]) (by rw [State.unenabled_am hun]) h)
      (fun h => State.rampsSound_silent h (State.silent_pushTrigger _ _))
  crossfade _ h := h
  fadeEnd _ h := h
  alarms _ h := h
  targets h := State.rampsSound_takeTargets h
  recompute h := State.rampsSound_recomputeTargets h
  clock _ h := h
  power _ _ _ := State.restart_rampsSound _
  reset _ := State.restart_rampsSound _
  advance {s} h i := by
    obtain ⟨hfader, hmute, hsafe, hdip⟩ := (h i).1
    refine ⟨?_, fun c => ⟨?_, ((h i).2 c).2⟩⟩
    · rw [show s.advance.sc.get i = _ from Tab.get_map ..]
      exact ⟨Ramp.advance_sound hfader, Ramp.advance_sound hmute, Ramp.advance_sound hsafe, Ramp.advance_sound hdip⟩
    · rw [show (s.advance.os.channels.get i).get c = _ from
        (congrArg (Tab.get · c) (Tab.get_map ..)).trans (Tab.get_map ..)]
      exact Ramp.advance_sound ((h i).2 c).1

/-- Settles O10: a clock moves by its own carries and a ramp by its retargeting, its advance and its rests. -/
theorem clocksAndRampsStaySound : Obligations.ClocksAndRampsStaySound := fun _ _ hstep =>
  ⟨clocksSound_kept.step (fun _ _ => id) hstep, rampsSound_kept.step (fun _ _ => id) hstep⟩

end Sys2Proof.Machine
end

section
/-!
PROOFS. The bounds of the queues (R149, R158, R176, R182), from what the operations of `Keeps` do to them.
-/

namespace Sys2Proof.Machine

/-! ## The request queue and the parts of the outbound queue -/

theorem State.queuesBounded_congr {s t : State} (h : t.ci = s.ci) (hs : s.queuesBounded) : t.queuesBounded := by
  unfold State.queuesBounded
  rw [h]
  exact hs

theorem State.queuesBounded_queueReport {s : State} (r : Report) (h : s.queuesBounded) :
    (s.queueReport r).queuesBounded := by
  obtain ⟨hrequests, hreplies, hreports⟩ := h
  unfold State.queueReport
  split
  · next hlt =>
    exact ⟨hrequests, hreplies, by simp only [List.length_append, List.length_cons, List.length_nil]; exact hlt⟩
  · exact ⟨hrequests, hreplies, hreports⟩

theorem State.queuesBounded_senderTake {s : State} (h : s.queuesBounded) : s.senderTake.queuesBounded := by
  obtain ⟨hrequests, hreplies, hreports⟩ := h
  unfold State.senderTake
  split
  · split
    · next r rest hr => exact ⟨hrequests, Nat.le_of_succ_le (by simpa [hr] using hreplies), hreports⟩
    · next q rest _ hq => exact ⟨hrequests, hreplies, Nat.le_of_succ_le (by simpa [hq] using hreports)⟩
    · exact ⟨hrequests, hreplies, hreports⟩
  · exact ⟨hrequests, hreplies, hreports⟩

theorem State.reset_queuesBounded (s : State) : s.restart.queuesBounded := by
  rw [State.queuesBounded, s.restart_ci]
  decide

theorem queuesBounded_kept : Keeps State.queuesBounded where
  tracked {s t} h hs := by
    obtain ⟨hrequests, hreplies, hreports⟩ := hs
    exact ⟨(congrArg (List.length ∘ Tracked.requests) h).trans_le hrequests,
      (congrArg (List.length ∘ Tracked.replies) h).trans_le hreplies,
      (congrArg (List.length ∘ Tracked.reports) h).trans_le hreports⟩
  ports _ _ h := h
  join hlt h := ⟨by simp only [List.length_append, List.length_cons, List.length_nil]; exact hlt, h.2⟩
  take {s} {r} {rest} hr h := ⟨Nat.le_of_succ_le (by simpa [hr] using h.1), h.2⟩
  reply hlt h := ⟨h.1, by
    simp only [State.reply, List.length_append, List.length_cons, List.length_nil]; exact hlt, h.2.2⟩
  report h := State.queuesBounded_queueReport _ h
  send h := State.queuesBounded_senderTake h
  push _ h := State.queuesBounded_congr (by unfold State.pushTrigger; split <;> split <;> rfl) h
  pop _ h := h
  write {s} {_ _ _} _ h := by
    obtain ⟨-, -, hci, -⟩ := s.writeRun_frame (address _ _) _
    exact State.queuesBounded_congr hci h
  load {s} _ h := by
    obtain ⟨-, -, hci, -⟩ := s.loadWords_frame s.ts.image.pages 0 Config.storeWords
    exact State.queuesBounded_congr hci h
  preserving _ h := h
  preserved h := h
  restoring _ h := h
  restored h := h
  touch _ h := h
  exchange _ h := h
  swap {s} {i} h := by
    rcases s.unpaged_swapBanks i with hs | hs
    · exact State.queuesBounded_congr (State.unpaged_ci hs) h
    · rw [hs]; exact h
  move {s} {i} {target} cause safeCause depth inScan _ h :=
    State.queuesBounded_congr (s.moveScreen_reports i target cause safeCause depth inScan).2.1 h
  crossfade _ h := h
  fadeEnd _ h := h
  alarms _ h := h
  targets h := h
  recompute h := h
  clock _ h := h
  power _ _ _ := State.reset_queuesBounded _
  reset _ := State.reset_queuesBounded _
  advance h := h

/-! ## The trigger queue -/

/-- A queue of triggers within its bounds. -/
def TriggersBounded (q : List Trigger) : Prop :=
  nonClockCount q ≤ 32 ∧ (∀ i, (q.filter fun t => t.clockScreen == some i).length ≤ 1) ∧ ∀ t ∈ q, t.depth ≤ 3

theorem State.triggersBounded_iff (s : State) : s.triggersBounded ↔ TriggersBounded s.ce.triggers := Iff.rfl

theorem TriggersBounded.tail {t : Trigger} {rest : List Trigger} (h : TriggersBounded (t :: rest)) :
    TriggersBounded rest := by
  obtain ⟨hcount, hclock, hdepth⟩ := h
  have hsub : rest.Sublist (t :: rest) := List.sublist_cons_self t rest
  exact ⟨(hsub.filter _).length_le.trans hcount, fun i => (hsub.filter _).length_le.trans (hclock i),
    fun u hu => hdepth u (List.mem_cons_of_mem _ hu)⟩

/-- A CLOCK trigger takes the place of the one its screen's queue holds (R149). -/
theorem TriggersBounded.replace {q : List Trigger} (h : TriggersBounded q) {t : Trigger} {i : Fin 8}
    (hi : t.clockScreen = some i) (ht : t.depth ≤ 3) :
    TriggersBounded (q.map fun u => if u.clockScreen == some i then t else u) := by
  obtain ⟨hcount, hclock, hdepth⟩ := h
  have hscreen (u : Trigger) : (if u.clockScreen == some i then t else u).clockScreen = u.clockScreen := by
    split
    · next hu => rw [hi, beq_iff_eq.mp hu]
    · rfl
  have hlen (p : Option (Fin 8) → Bool) :
      ((q.map fun u => if u.clockScreen == some i then t else u).filter fun u => p u.clockScreen).length =
        (q.filter fun u => p u.clockScreen).length := by
    rw [← List.countP_eq_length_filter, ← List.countP_eq_length_filter, List.countP_map]
    exact List.countP_congr fun u _ => by simp only [Function.comp_apply, hscreen]
  refine ⟨(hlen Option.isNone).trans_le hcount, fun j => (hlen (· == some j)).trans_le (hclock j), fun u hu => ?_⟩
  obtain ⟨v, hv, rfl⟩ := List.mem_map.mp hu
  split
  · exact ht
  · exact hdepth v hv

theorem TriggersBounded.joinClock {q : List Trigger} (h : TriggersBounded q) {t : Trigger} {i : Fin 8}
    (hi : t.clockScreen = some i) (hnone : holdsClock q i = false) (ht : t.depth ≤ 3) : TriggersBounded (q ++ [t]) := by
  obtain ⟨hcount, hclock, hdepth⟩ := h
  have hempty : (q.filter fun u => u.clockScreen == some i) = [] := by
    simpa [holdsClock, List.filter_eq_nil_iff] using hnone
  refine ⟨by simpa [nonClockCount, hi] using hcount, fun j => ?_, fun u hu => ?_⟩
  · rw [List.filter_append, List.length_append]
    by_cases hj : i = j
    · subst hj
      rw [hempty]
      exact (Nat.zero_add _).trans_le (List.length_filter_le _ _)
    · have : ([t].filter fun u => u.clockScreen == some j) = [] := by simp [hi, hj]
      rw [this]
      exact hclock j
  · rcases List.mem_append.mp hu with hu | hu
    · exact hdepth u hu
    · rw [List.mem_singleton.mp hu]; exact ht

theorem TriggersBounded.joinOther {q : List Trigger} (h : TriggersBounded q) {t : Trigger}
    (hi : t.clockScreen = none) (hlt : nonClockCount q < 32) (ht : t.depth ≤ 3) : TriggersBounded (q ++ [t]) := by
  obtain ⟨-, hclock, hdepth⟩ := h
  refine ⟨by simpa [nonClockCount, hi] using hlt, fun j => by simpa [hi] using hclock j, fun u hu => ?_⟩
  rcases List.mem_append.mp hu with hu | hu
  · exact hdepth u hu
  · rw [List.mem_singleton.mp hu]; exact ht

theorem State.triggersBounded_pushTrigger {s : State} {t : Trigger} (ht : t.depth ≤ 3) (h : s.triggersBounded) :
    (s.pushTrigger t).triggersBounded := by
  unfold State.pushTrigger
  split
  · next i hi =>
    split
    · exact TriggersBounded.replace h hi ht
    · next hnone => exact TriggersBounded.joinClock h hi (by simpa using hnone) ht
  · next hi =>
    split
    · next hlt => exact TriggersBounded.joinOther h hi hlt ht
    · exact h

theorem State.triggersBounded_makeTrigger {s : State} {event : TriggerEvent} {depth : Nat} (h : s.triggersBounded) :
    (s.makeTrigger event depth).triggersBounded := by
  unfold State.makeTrigger
  split
  · next hd => exact State.triggersBounded_pushTrigger hd h
  · exact h

theorem State.triggersBounded_congr {s t : State} (h : t.ce.triggers = s.ce.triggers) (hs : s.triggersBounded) :
    t.triggersBounded := by
  rw [State.triggersBounded_iff, h]
  exact hs

theorem State.restart_triggersBounded (s : State) : s.restart.triggersBounded :=
  State.triggersBounded_congr (s := s.blocksReset.gather []) (congrArg CueEngine.triggers (State.unenabled_ce s.restart_unenabled))
    ⟨Nat.zero_le _, fun _ => Nat.zero_le _, nofun⟩

theorem triggersBounded_kept : Keeps State.triggersBounded where
  tracked h hs := State.triggersBounded_congr (congrArg Tracked.triggers h) hs
  ports _ _ h := h
  join _ h := h
  take _ h := h
  reply _ h := h
  report h := State.triggersBounded_congr (by unfold State.queueReport; split <;> rfl) h
  send {s} h := by obtain ⟨_, _, _, hs⟩ := s.senderTake_frame; rw [hs]; exact h
  push hd h := State.triggersBounded_pushTrigger hd h
  pop {s} {t} {rest} hq h := by
    rw [State.triggersBounded_iff, hq] at h
    exact h.tail
  write {s} {_ _ _} _ h := by
    obtain ⟨-, -, -, -, -, hce, -⟩ := s.writeRun_frame (address _ _) _
    exact State.triggersBounded_congr hce h
  load {s} _ h := by
    obtain ⟨-, -, -, -, -, hce, -⟩ := s.loadWords_frame s.ts.image.pages 0 Config.storeWords
    exact State.triggersBounded_congr hce h
  preserving _ h := h
  preserved h := h
  restoring _ h := h
  restored h := h
  touch _ h := h
  exchange _ h := h
  swap {s} {i} h := by
    rcases s.unpaged_swapBanks i with hs | hs
    · exact State.triggersBounded_congr (congrArg CueEngine.triggers (State.unpaged_ce hs)) h
    · rw [hs]; exact h
  move {s} {i} {target} cause safeCause depth inScan _ h :=
    State.triggersBounded_congr
      (congrArg CueEngine.triggers (s.moveScreen_reports i target cause safeCause depth inScan).2.2)
      (State.triggersBounded_makeTrigger h)
  crossfade _ h := h
  fadeEnd _ h := h
  alarms _ h := h
  targets h := h
  recompute h := h
  clock _ h := h
  power _ _ _ := State.restart_triggersBounded _
  reset _ := State.restart_triggersBounded _
  advance h := h

/-- Settles O5: a message joins a queue only where the queue has a place for it. -/
theorem queuesStayBounded : Obligations.QueuesStayBounded := fun _ _ hstep =>
  ⟨queuesBounded_kept.step (fun _ _ => id) hstep, triggersBounded_kept.step (fun _ _ => id) hstep⟩

end Sys2Proof.Machine
end

section
/-!
PROOFS. The pool of delay pages stays whole (R67), from what the operations of `Keeps` do to the pages.
-/

namespace Sys2Proof.Machine

theorem State.poolPages_eq {s t : State} (hpages : t.pagesOf = s.pagesOf) (hfree : t.eq.free = s.eq.free) :
    t.poolPages = s.poolPages := by
  unfold State.poolPages
  rw [hpages, hfree]

theorem State.poolWhole_congr {s t : State} (hs : s.poolWhole) (h : t.eq = s.eq) : t.poolWhole := by
  rw [State.poolWhole, State.poolPages_congr h]
  exact hs

theorem State.releaseScreen_pool (s : State) (i : Fin 8) : (s.releaseScreen i).poolPages.Perm s.poolPages := by
  unfold State.releaseScreen
  refine List.foldlRecOn (motive := fun t : State => t.poolPages.Perm s.poolPages) _ _ (List.Perm.refl _)
    fun t ht c _ => ?_
  refine List.Perm.trans (State.poolPages_of_exchange (i := i) (c := c) (fun j d hjd => ?_) ?_) ht
  · have hch := t.release_channel i c j d
    rw [if_neg hjd] at hch
    exact congrArg EqChannel.pages hch
  · have hch := congrArg EqChannel.pages (t.release_channel i c i c)
    rw [if_pos ⟨rfl, rfl⟩] at hch
    have hpages : ((t.returnPages i c 0).modifyEq i c fun _ => .cleared).pagesOf i c = [] := hch
    rw [hpages, List.append_nil]
    exact List.Perm.of_eq ((t.returnPages_free i c 0).trans (by rw [List.drop_zero]))

theorem State.exchangeBanks_pool (s : State) (i : Fin 8) : (s.exchangeBanks i).poolPages = s.poolPages := rfl

theorem State.swapBanks_pool (s : State) (i : Fin 8) : (s.swapBanks i).1.poolPages.Perm s.poolPages := by
  unfold State.swapBanks
  split
  · exact List.Perm.refl _
  · split
    · refine (State.allocateBank_pool _ i _).trans ?_
      rw [State.exchangeBanks_pool]
      exact s.releaseScreen_pool i
    · exact List.Perm.refl _

theorem State.delaysFit_of_ok {s : State} {page word : Byte} {data : List Word} (h : s.writeResult page word data = .ok) :
    s.delaysFit (s.writtenDelays (address page.toNat word.toNat) data) = true := by
  unfold State.writeResult at h
  dsimp only at h
  split_ifs at h with _ _ _ _ hfit
  simpa using hfit

theorem State.writeRun_pool {s : State} {a : Nat} {data : List Word} (hfit : s.delaysFit (s.writtenDelays a data) = true) :
    (s.writeRun a data).poolPages.Perm s.poolPages := by
  obtain ⟨-, -, hpool⟩ := (s.putWords (s.ts.words.writeRun a data)).reallocate_spec (s.writtenDelays a data)
    (s.writtenDelays_places a data) hfit
  obtain ⟨-, -, -, -, heq, -⟩ := State.followWrite_spec a data.length
    ((s.putWords (s.ts.words.writeRun a data)).reallocate (s.writtenDelays a data))
  exact (List.Perm.of_eq (State.poolPages_congr heq)).trans hpool

/-- After a reset every page is free (R67), before the settings enable their screens. -/
theorem State.blocksReset_pool (s : State) : s.blocksReset.poolPages = List.finRange 512 := by
  have hpages : s.blocksReset.pagesOf = fun _ _ => [] := by
    funext i c
    simp [State.pagesOf, State.blocksReset, Equaliser.reset, EqChannel.cleared]
  have hnone : ((List.finRange 8).flatMap fun _ => (List.finRange 16).flatMap fun _ => ([] : List (Fin 512))) = [] := by
    simp
  unfold State.poolPages
  rw [hpages, hnone, List.append_nil]
  simp only [State.blocksReset, Equaliser.reset]

theorem State.autoEnableScreen_pool (s : State) (i : Fin 8) : (s.autoEnableScreen i).poolPages.Perm s.poolPages := by
  unfold State.autoEnableScreen
  split
  · exact (State.enable_pool _ i).trans (List.Perm.refl _)
  · exact List.Perm.refl _

theorem State.restart_poolWhole (s : State) : s.restart.poolWhole := by
  have hreset : (s.blocksReset.gather []).poolPages = List.finRange 512 := s.blocksReset_pool
  refine List.foldlRecOn (motive := State.poolWhole) _ _ (List.Perm.of_eq hreset) fun t ht i _ => ?_
  exact (t.autoEnableScreen_pool i).trans ht

theorem poolWhole_kept : Keeps State.poolWhole where
  tracked h hs := by
    rw [State.poolWhole, State.poolPages_eq (congrArg Tracked.pages h) (congrArg Tracked.free h)]
    exact hs
  ports _ _ h := h
  join _ h := h
  take _ h := h
  reply _ h := h
  report h := State.poolWhole_congr h (State.silent_eq (State.silent_queueReport _ _))
  send {s} h := by obtain ⟨_, _, _, hs⟩ := s.senderTake_frame; rw [hs]; exact h
  push _ h := State.poolWhole_congr h (State.silent_eq (State.silent_pushTrigger _ _))
  pop _ h := h
  write hok h := (State.writeRun_pool (State.delaysFit_of_ok hok)).trans h
  load {s} _ h := by
    obtain ⟨-, -, -, -, -, -, -, heq⟩ := s.loadWords_frame s.ts.image.pages 0 Config.storeWords
    exact State.poolWhole_congr h heq
  preserving _ h := h
  preserved h := h
  restoring _ h := h
  restored h := h
  touch _ h := h
  exchange _ h := h
  swap {s} {i} h := (s.swapBanks_pool i).trans h
  move {s} {i} {target} cause safeCause depth inScan _ h :=
    State.moveScreen_holds
      (fun {s t} (hs : s.poolWhole) ht => by
        rw [State.poolWhole, State.poolPages_eq (congrArg Tracked.pages ht) (congrArg Tracked.free ht)]
        exact hs)
      h (fun h => h) (fun {t} h => (t.releaseScreen_pool i).trans h) (fun h => h) (fun h => h)
      (fun h => State.poolWhole_congr h (State.forceEntries_eq _ _)) (fun h => h)
      (fun {t} h => (t.enable_pool i).trans h)
      (fun h => State.poolWhole_congr h (State.silent_eq (State.silent_pushTrigger _ _)))
  crossfade _ h := h
  fadeEnd _ h := h
  alarms _ h := h
  targets h := h
  recompute h := h
  clock _ h := h
  power _ _ _ := State.restart_poolWhole _
  reset _ := State.restart_poolWhole _
  advance h := h

/-- Settles O7: every operation on the pages moves them between the free list and a page list. -/
theorem poolStaysWhole : Obligations.PoolStaysWhole := fun _ _ h hstep => poolWhole_kept.step (fun _ _ => id) hstep h

end Sys2Proof.Machine
end

section
/-!
PROOFS. The screen and decode records stay sound (R2, R8, R9, R39), and the table store with them (R166, R171, R174).
-/

namespace Sys2Proof.Machine

theorem State.setting_congr {s t : State} (h : t.ts = s.ts) (i : Fin 8) (k : Nat) : t.setting i k = s.setting i k := by
  unfold State.setting State.word
  rw [h]

theorem State.profileToUse_congr {s t : State} (hts : t.ts = s.ts) (hde : t.de = s.de) (hli : t.li = s.li) (i : Fin 8) :
    t.profileToUse i = s.profileToUse i := by
  unfold State.profileToUse State.chosenFormat State.formatMap State.defaultFormat
  simp only [State.setting_congr hts, hde, hli]

/-! ## A change of state, seen through what follows it -/

/-- But for reports and triggers, a change of state is the moved record, with its pending apply handed over, and what follows
from the states left and entered (R4–R9). -/
theorem State.moveScreen_follow (s : State) (i : Fin 8) (target : ScreenState) (cause : StateCause) (safeCause : SafeCause)
    (depth : Nat) (inScan : Bool) : ∃ (m : State) (dip : Ramp),
    m.sc = (s.sc.modify i fun r => { r.move target safeCause (s.safeGain i) with dip := dip }) ∧
      m.de = s.de ∧ m.os = s.os ∧ m.am = s.am ∧ m.aside = s.aside ∧ m.eq.channels = s.eq.channels ∧
      m.eq.free = s.eq.free ∧
      (s.moveScreen i target cause safeCause depth inScan).1.silent =
        (m.followMove i (s.screenState i) target inScan).1.silent := by
  obtain ⟨⟨dip, hsc⟩, hde, hos, ham, haside, hchannels, hfree, -⟩ :=
    (s.modifyScreen i fun r => r.move target safeCause (s.safeGain i)).handPending_spec i (s.sc.get i) target
  refine ⟨_, dip, ?_, hde, hos, ham, haside, hchannels, hfree, ?_⟩
  · rw [hsc]
    ext1 j
    simp only [State.modifyScreen_sc, Tab.get_modify]
    split <;> simp
  · unfold State.moveScreen
    dsimp only
    rw [State.silent_mergeReports, State.silent_makeTrigger]
    rfl

/-- The decode records that a change of state leaves (R5, R6, R57). -/
theorem State.moveScreen_de (s : State) (i : Fin 8) (target : ScreenState) (cause : StateCause) (safeCause : SafeCause)
    (depth : Nat) (inScan : Bool) :
    let t := (s.moveScreen i target cause safeCause depth inScan).1
    (target = .offline → t.de = s.de.modify i DecodeRecord.idled) ∧
    (target ≠ .offline → s.screenState i = .offline →
      t.de = s.de.modify i fun d => d.enabled (s.profileToUse i) (!s.li.worked)) ∧
    (target ≠ .offline → s.screenState i ≠ .offline → t.de = s.de) := by
  obtain ⟨m, dip, -, hde, -, -, haside, -, -, hsilent⟩ := s.moveScreen_follow i target cause safeCause depth inScan
  have hres := State.silent_de hsilent
  refine ⟨fun h => ?_, fun h hoff => ?_, fun h hoff => ?_⟩
  · obtain ⟨z, hz, -, hzde, -⟩ := m.disable_eq i
    rw [hres, State.followMove, if_pos h, hz, State.recomputeTargets_de, State.forceEntries_de, hzde, hde]
  · have hli := State.outer_li (State.aside_outer haside)
    have hts := State.outer_ts (State.aside_outer haside)
    have hprofile : m.profileToUse i = s.profileToUse i := State.profileToUse_congr hts hde hli i
    rw [hres, State.followMove, if_neg h, if_pos hoff, (m.enable_unenabled i).2.2, hde, hprofile, hli]
  · rw [hres, ((m.followMove_spec i _ target inScan).2.2.2 h hoff).1, hde]

/-! ## Screen and decode records -/

theorem State.putWords_profiles (s : State) (words : Memory) (i : Fin 8) :
    ((s.putWords words).de.get i).profiles = (s.de.get i).profiles := by
  obtain ⟨de, inputs, hput, hde, -⟩ := s.putWords_spec words
  rw [hput, hde i]
  split <;> rfl

theorem State.writeRun_profiles (s : State) (a : Nat) (data : List Word) (i : Fin 8) :
    ((s.writeRun a data).de.get i).profiles = (s.de.get i).profiles := by
  obtain ⟨-, -, -, hde, -⟩ := State.followWrite_spec a data.length
    ((s.putWords (s.ts.words.writeRun a data)).reallocate (s.writtenDelays a data))
  rw [State.writeRun, hde, State.unpaged_de (State.unpaged_reallocate _ _)]
  exact s.putWords_profiles _ i

theorem State.loadWords_profiles (s : State) (words : Memory) (a n : Nat) (i : Fin 8) :
    (((s.putWords words).followWrite a n).de.get i).profiles = (s.de.get i).profiles := by
  obtain ⟨-, -, -, hde, -⟩ := State.followWrite_spec a n (s.putWords words)
  rw [hde]
  exact s.putWords_profiles _ i

/-- The records of one screen are sound. -/
def ScreenPair (r : ScreenRecord) (profiles : Option (Fin 16) × Option Incoming × Option (Fin 16)) : Prop :=
  r.sound ∧ (r.state = .offline ↔ profiles.1 = none) ∧ (profiles.1 = none → profiles.2.1 = none) ∧
    (profiles.2.1 = none → profiles.2.2 = none)

theorem State.screensSound_iff (s : State) :
    s.screensSound ↔ ∀ i, ScreenPair (s.sc.get i) (s.de.get i).profiles := Iff.rfl

theorem State.screensSound_congr {s t : State} (hsc : t.sc = s.sc)
    (hde : ∀ i, (t.de.get i).profiles = (s.de.get i).profiles) (hs : s.screensSound) : t.screensSound := by
  rw [State.screensSound_iff] at hs ⊢
  exact fun i => by rw [hsc, hde]; exact hs i

theorem State.screensSound_silent {s t : State} (hs : s.screensSound) (h : t.silent = s.silent) : t.screensSound :=
  State.screensSound_congr (State.silent_sc h) (fun _ => by rw [State.silent_de h]) hs

theorem State.screensSound_modifyScreen {s : State} {i : Fin 8} {f : ScreenRecord → ScreenRecord}
    (hstate : (f (s.sc.get i)).state = (s.sc.get i).state)
    (hf : (s.sc.get i).sound → (f (s.sc.get i)).sound) (hs : s.screensSound) : (s.modifyScreen i f).screensSound := by
  rw [State.screensSound_iff] at hs ⊢
  intro j
  obtain ⟨hr, hd⟩ := hs j
  rw [State.modifyScreen_sc, Tab.get_modify]
  split
  · next hj =>
    subst hj
    exact ⟨hf hr, by rw [hstate]; exact hd⟩
  · exact ⟨hr, hd⟩

theorem State.screensSound_modifyDecode {s : State} {i : Fin 8} {f : DecodeRecord → DecodeRecord}
    (hf : (s.de.get i).sound (s.screenState i) → (f (s.de.get i)).sound (s.screenState i)) (hs : s.screensSound) :
    (s.modifyDecode i f).screensSound := fun j => by
  refine ⟨(hs j).1, ?_⟩
  rw [State.modifyDecode_de, Tab.get_modify]
  split
  · next hj => subst hj; exact hf (hs j).2
  · exact (hs j).2

theorem ScreenRecord.touched_sound {r r' : ScreenRecord} (h : r.Touched r') (hr : r.sound) : r'.sound := by
  obtain ⟨hresume, hcause, hplays, hpending⟩ := hr
  refine ⟨by rw [h.state, h.resume]; exact hresume, by rw [h.state, h.cause]; exact hcause,
    by rw [h.resume]; exact hplays, fun hp => ?_⟩
  rw [h.state]
  exact (h.pendingApply hp).elim hpending id

/-- The record after an allowed change: entering SAFE is from a state that plays or from IDLE (R3, R8, R9). -/
theorem ScreenRecord.move_sound {r : ScreenRecord} {target : ScreenState} {cause : SafeCause} {gain : Nat} (dip : Ramp)
    (hfrom : target = .safe → r.state = .idle ∨ r.state = .preshow ∨ r.state = .feature) :
    ({ r.move target cause gain with dip := dip } : ScreenRecord).sound := by
  refine ⟨?_, ?_, fun t ht => ?_, fun hp => ?_⟩
  · by_cases h : target = .safe <;> simp [ScreenRecord.move, h]
  · by_cases h : target = .safe <;> simp [ScreenRecord.move, h]
  · by_cases h : target = .safe
    · have : r.state = t := by simpa [ScreenRecord.move, h] using ht
      exact this ▸ hfrom h
    · simp [ScreenRecord.move, h] at ht
  · by_cases h : target.playing = true
    · exact h
    · simp [ScreenRecord.move, h] at hp

theorem State.MayMove.into_safe {s : State} {i : Fin 8} {target : ScreenState} (hm : s.MayMove i target)
    (hr : (s.sc.get i).sound) (h : target = .safe) :
    s.screenState i = .idle ∨ s.screenState i = .preshow ∨ s.screenState i = .feature := by
  subst h
  obtain ⟨-, -, hresume, -⟩ := hr
  rcases hm with ⟨-, hallows | ⟨-, hres⟩⟩ | ⟨-, habs, -⟩
  · generalize s.screenState i = old at hallows
    cases old <;> simp_all [ScreenState.allows]
  · simpa using hresume _ hres
  · exact absurd habs (by decide)

theorem State.MayMove.to_offline {s : State} {i : Fin 8} {target : ScreenState} (hm : s.MayMove i target)
    (h : target = .offline) : s.screenState i ≠ .offline := by
  subst h
  rcases hm with ⟨hoff, -⟩ | ⟨-, habs, -⟩
  · exact hoff
  · exact absurd habs (by decide)

theorem State.screensSound_move {s : State} {i : Fin 8} {target : ScreenState} (cause : StateCause)
    (safeCause : SafeCause) (depth : Nat) (inScan : Bool) (hm : s.MayMove i target) (hs : s.screensSound) :
    (s.moveScreen i target cause safeCause depth inScan).1.screensSound := fun j => by
  obtain ⟨hother, ⟨dip, hsc, -⟩, -⟩ := s.moveScreen_spec i target cause safeCause depth inScan
  obtain ⟨hdown, hup, hstays⟩ := s.moveScreen_de i target cause safeCause depth inScan
  generalize (s.moveScreen i target cause safeCause depth inScan).1 = t at hother hsc hdown hup hstays ⊢
  have hstate : t.screenState i = target := by rw [State.screenState, hsc]; rfl
  by_cases hj : j = i
  · subst hj
    obtain ⟨hr, hd⟩ := hs j
    refine ⟨by rw [hsc]; exact ScreenRecord.move_sound dip (hm.into_safe hr), ?_⟩
    rw [hstate]
    by_cases htarget : target = .offline
    · rw [hdown htarget, Tab.get_modify_same, htarget]
      simp [DecodeRecord.sound, DecodeRecord.idled]
    · by_cases hoff : s.screenState j = .offline
      · rw [hup htarget hoff, Tab.get_modify_same]
        simp [DecodeRecord.sound, DecodeRecord.enabled, htarget]
      · rw [hstays htarget hoff]
        obtain ⟨hcurrent, hrest⟩ := hd
        exact ⟨by simpa [htarget, hoff] using hcurrent, hrest⟩
  · have hde : t.de.get j = s.de.get j := by
      by_cases htarget : target = .offline
      · rw [hdown htarget, Tab.get_modify_other _ _ hj]
      · by_cases hoff : s.screenState i = .offline
        · rw [hup htarget hoff, Tab.get_modify_other _ _ hj]
        · rw [hstays htarget hoff]
    rw [State.screenState, hother j hj, hde]
    exact hs j

theorem DecodeRecord.crossfade_sound {d : DecodeRecord} {state : ScreenState} (p : Fin 16) (hstate : state ≠ .offline)
    (h : d.sound state) : (d.crossfade p).1.sound state := by
  obtain ⟨hcurrent, hincoming, hpending⟩ := h
  have hnow : d.current ≠ none := fun hn => hstate (hcurrent.mpr hn)
  unfold DecodeRecord.crossfade
  split
  · simp [DecodeRecord.sound, DecodeRecord.enabled, hstate]
  · split
    · exact ⟨hcurrent, fun hn => absurd hn hnow, nofun⟩
    · split
      · exact ⟨hcurrent, hincoming, hpending⟩
      · exact ⟨hcurrent, fun hn => absurd hn hnow, nofun⟩

/-- After a reset a screen is OFFLINE and its decode record idle, or enabled by its settings (R20, R38). -/
theorem State.restart_screensSound (s : State) : s.restart.screensSound := fun i => by
  obtain ⟨-, hat⟩ := (s.blocksReset.gather []).autoEnableAll_spec
  have hsc : (s.blocksReset.gather []).sc.get i = .reset (s.levelPreset i 0) := Tab.get_ofFn ..
  have hde : (s.blocksReset.gather []).de.get i = .reset (s.defaultFormat i) := Tab.get_ofFn ..
  have hat := hat i
  unfold State.EnabledAt at hat
  rw [hsc, hde] at hat
  rcases hat with ⟨htsc, htde⟩ | ⟨-, htsc, p, fresh, htde⟩ <;>
    rw [State.screenState, show s.restart.sc.get i = _ from htsc, show s.restart.de.get i = _ from htde]
  · simp [ScreenRecord.sound, ScreenRecord.reset, DecodeRecord.sound, DecodeRecord.reset]
  · simp [ScreenRecord.sound, ScreenRecord.reset, DecodeRecord.sound, DecodeRecord.enabled]

theorem screensSound_kept : Keeps State.screensSound where
  tracked h hs := State.screensSound_congr (congrArg Tracked.sc h) (congrFun (congrArg Tracked.profiles h)) hs
  ports _ _ h := h
  join _ h := h
  take _ h := h
  reply _ h := h
  report h := State.screensSound_silent h (State.silent_queueReport _ _)
  send {s} h := by obtain ⟨_, _, _, hs⟩ := s.senderTake_frame; rw [hs]; exact h
  push _ h := State.screensSound_silent h (State.silent_pushTrigger _ _)
  pop _ h := h
  write {s} {_ _ _} _ h := by
    obtain ⟨-, -, -, hsc, -⟩ := s.writeRun_frame (address _ _) _
    exact State.screensSound_congr hsc (s.writeRun_profiles _ _) h
  load {s} _ h := by
    obtain ⟨-, -, -, hsc, -⟩ := s.loadWords_frame s.ts.image.pages 0 Config.storeWords
    exact State.screensSound_congr hsc (s.loadWords_profiles _ _ _) h
  preserving _ h := h
  preserved h := h
  restoring _ h := h
  restored h := h
  touch hf h := State.screensSound_modifyScreen hf.state (ScreenRecord.touched_sound hf) h
  exchange _ h := State.screensSound_modifyScreen rfl id h
  swap {s} {i} h := by
    rcases s.unpaged_swapBanks i with hs | hs
    · exact State.screensSound_congr (s := s.exchangeBanks i) (State.unpaged_sc hs)
        (fun _ => by rw [State.unpaged_de hs]) (State.screensSound_modifyScreen rfl id h)
    · rw [hs]; exact h
  move cause safeCause depth inScan hm h := State.screensSound_move cause safeCause depth inScan hm h
  crossfade hstate h := State.screensSound_modifyDecode (DecodeRecord.crossfade_sound _ hstate) h
  fadeEnd hcurrent h := State.screensSound_modifyDecode (fun hd => by
    obtain ⟨hnone, -⟩ := hd
    refine ⟨?_, nofun, fun _ => rfl⟩
    rw [hnone]
    simp [Option.isSome_iff_ne_none.mp hcurrent]) h
  alarms _ h := h
  targets h := h
  recompute h := h
  clock _ h := h
  power _ _ _ := State.restart_screensSound _
  reset _ := State.restart_screensSound _
  advance {s} h := by
    intro i
    have hsc : s.advance.sc.get i = (s.sc.get i).advance := Tab.get_map ..
    rw [State.screenState, hsc]
    exact h i

/-- Settles O6: an allowed change of state brings and removes exactly the parts that the states give. -/
theorem screensStaySound : Obligations.ScreensStaySound := fun _ _ h hstep =>
  screensSound_kept.step (fun _ _ => id) hstep h

end Sys2Proof.Machine
end

section
/-!
PROOFS. The table store stays canonical and sound (R166, R171, R173, R174).
-/

namespace Sys2Proof.Machine

/-! ## The canonical form -/

/-- A store's words in their canonical form, within its pages. -/
def Memory.Canonical (m : Memory) : Prop := m.wf = true ∧ m.within

theorem State.storesCanonical_iff (s : State) :
    s.storesCanonical ↔ s.ts.words.Canonical ∧ s.ts.image.pages.Canonical := Iff.rfl

theorem State.storesCanonical_congr {s t : State} (hs : s.storesCanonical) (h : t.ts = s.ts) : t.storesCanonical := by
  rw [State.storesCanonical_iff, h]
  exact hs

theorem Memory.canonical_nil : Memory.Canonical [] := ⟨rfl, nofun⟩

theorem State.run_within {s : State} {page word : Byte} {data : List Word} (h : s.writeResult page word data = .ok) :
    address page.toNat word.toNat + data.length ≤ Config.storeWords := by
  unfold State.writeResult at h
  dsimp only at h
  split_ifs at h with hrange
  exact not_lt.mp hrange

theorem State.restart_ts (s : State) :
    s.restart.ts = { s.ts with state := .idle, elapsed := 0, requestTag := 0 } :=
  State.outer_ts (State.unenabled_outer s.restart_unenabled)

theorem State.restart_storesCanonical {s : State} (h : s.storesCanonical) : s.restart.storesCanonical := by
  rw [State.storesCanonical_iff, s.restart_ts]
  exact h

theorem State.loaded_storesCanonical {s : State} (h : s.storesCanonical) :
    State.storesCanonical { s with ts := s.ts.loaded } := by
  obtain ⟨-, himage⟩ := h
  rw [State.storesCanonical_iff]
  dsimp only
  unfold TableStore.loaded
  split
  · exact ⟨himage, himage⟩
  · exact ⟨Memory.canonical_nil, himage⟩

theorem storesCanonical_kept : Keeps State.storesCanonical where
  tracked h hs := State.storesCanonical_congr hs (congrArg Tracked.ts h)
  ports _ _ h := h
  join _ h := h
  take _ h := h
  reply _ h := h
  report h := State.storesCanonical_congr h (State.outer_ts (State.outer_queueReport _ _))
  send {s} h := by obtain ⟨_, _, _, hs⟩ := s.senderTake_frame; rw [hs]; exact h
  push _ h := State.storesCanonical_congr h (State.outer_ts (State.outer_pushTrigger _ _))
  pop _ h := h
  write {s} {page word data} hok h := by
    obtain ⟨-, -, -, -, -, -, hts⟩ := s.writeRun_frame (address page.toNat word.toNat) data
    obtain ⟨⟨hwf, hwithin⟩, himage⟩ := h
    rw [State.storesCanonical_iff, hts]
    exact ⟨⟨Memory.writeRun_wf _ _ hwf, Memory.writeRun_within hwithin (State.run_within hok)⟩, himage⟩
  load {s} _ h := by
    obtain ⟨-, -, -, -, -, -, hts, -⟩ := s.loadWords_frame s.ts.image.pages 0 Config.storeWords
    rw [State.storesCanonical_iff, hts]
    exact ⟨h.2, h.2⟩
  preserving _ h := h
  preserved h := ⟨h.1, h.1⟩
  restoring _ h := h
  restored h := h
  touch _ h := h
  exchange _ h := h
  swap h := State.storesCanonical_congr h (State.outer_ts (State.outer_swapBanks _ _))
  move _ _ _ _ _ h := State.storesCanonical_congr h (State.outer_ts (State.outer_moveScreen ..))
  crossfade _ h := h
  fadeEnd _ h := h
  alarms _ h := h
  targets h := h
  recompute h := h
  clock _ h := h
  power {s} lines keyLocked h := by
    have hloaded := State.loaded_storesCanonical h
    exact State.restart_storesCanonical (State.storesCanonical_congr
      (t := { s with li := .reset, ts := s.ts.loaded, bl := .powered lines keyLocked }) hloaded rfl)
  reset {s} h := State.restart_storesCanonical (State.storesCanonical_congr (t := { s with bl := s.bl.restarted }) h rfl)
  advance {s} h := by
    rw [State.storesCanonical_iff]
    dsimp only [State.advance, TableStore.advance]
    split <;> exact h

/-! ## The store's state -/

theorem State.storeSound_congr {s t : State} (hs : s.storeSound) (hts : t.ts = s.ts)
    (hstate : ∀ i, t.screenState i = s.screenState i) : t.storeSound := by
  unfold State.storeSound
  rw [hts]
  exact ⟨hs.1, fun h i => (hstate i).trans (hs.2 h i)⟩

/-- In IDLE with a count of 0 nothing is asked of the screens. -/
theorem State.storeSound_idle {s : State} (hidle : s.ts.state = .idle) (helapsed : s.ts.elapsed = 0) : s.storeSound :=
  ⟨fun _ => helapsed, fun h => absurd (hidle.symm.trans h) (by decide)⟩

theorem State.modifyScreen_state {s : State} {i : Fin 8} {f : ScreenRecord → ScreenRecord}
    (h : (f (s.sc.get i)).state = (s.sc.get i).state) (j : Fin 8) : (s.modifyScreen i f).screenState j = s.screenState j := by
  rw [State.screenState, State.modifyScreen_sc, Tab.get_modify]
  split
  · next hj => subst hj; exact h
  · rfl

/-- A screen moves only while no restore is in progress (R174). -/
theorem State.MayMove.not_restoring {s : State} {i : Fin 8} {target : ScreenState} (hm : s.MayMove i target)
    (hs : s.storeSound) : s.ts.state ≠ .restoring := by
  rcases hm with ⟨hoff, -⟩ | ⟨-, -, hrest, -⟩
  · exact fun h => hoff (hs.2 h i)
  · exact hrest

theorem storeSound_kept : Keeps State.storeSound where
  tracked h hs := State.storeSound_congr hs (congrArg Tracked.ts h)
    fun i => congrArg (fun t => (Tab.get t.sc i).state) h
  ports _ _ h := h
  join _ h := h
  take _ h := h
  reply _ h := h
  report h := State.storeSound_congr h (State.outer_ts (State.outer_queueReport _ _)) fun i =>
    congrArg (fun sc => (Tab.get sc i).state) (State.silent_sc (State.silent_queueReport _ _))
  send {s} h := by obtain ⟨_, _, _, hs⟩ := s.senderTake_frame; rw [hs]; exact h
  push _ h := State.storeSound_congr h (State.outer_ts (State.outer_pushTrigger _ _)) fun i =>
    congrArg (fun sc => (Tab.get sc i).state) (State.silent_sc (State.silent_pushTrigger _ _))
  pop _ h := h
  write {s} {page word data} _ h := by
    obtain ⟨-, -, -, hsc, -, -, hts⟩ := s.writeRun_frame (address page.toNat word.toNat) data
    unfold State.storeSound State.screenState
    rw [hts, hsc]
    exact h
  load {s} _ h := by
    obtain ⟨-, -, -, hsc, -, -, hts, -⟩ := s.loadWords_frame s.ts.image.pages 0 Config.storeWords
    unfold State.storeSound State.screenState
    rw [hts, hsc]
    exact h
  preserving _ _ := ⟨nofun, nofun⟩
  preserved _ := State.storeSound_idle rfl rfl
  restoring hoff _ := ⟨nofun, fun _ i => by
    have := List.all_eq_true.mp hoff i (List.mem_finRange i)
    exact beq_iff_eq.mp this⟩
  restored _ := State.storeSound_idle rfl rfl
  touch hf h := State.storeSound_congr h rfl (State.modifyScreen_state hf.state)
  exchange _ h := State.storeSound_congr h rfl (State.modifyScreen_state rfl)
  swap {s} {i} h := by
    rcases s.unpaged_swapBanks i with hs | hs
    · exact State.storeSound_congr h ((State.outer_ts (State.unpaged_outer hs)).trans rfl) fun j =>
        (congrArg (fun sc => (Tab.get sc j).state) (State.unpaged_sc hs)).trans (State.modifyScreen_state rfl j)
    · rw [hs]; exact h
  move {s} {i} {target} cause safeCause depth inScan hm h := by
    have hts := State.outer_ts (s.outer_moveScreen i target cause safeCause depth inScan)
    refine ⟨fun hidle => ?_, fun hrest => absurd ?_ (hm.not_restoring h)⟩
    · rw [hts] at hidle ⊢
      exact h.1 hidle
    · rw [← hrest, hts]
  crossfade _ h := h
  fadeEnd _ h := h
  alarms _ h := h
  targets h := h
  recompute h := h
  clock _ h := h
  power _ _ _ := State.storeSound_idle (by rw [State.powerOn, State.restart_ts]) (by rw [State.powerOn, State.restart_ts])
  reset _ := State.storeSound_idle (by rw [State.resetAll, State.restart_ts]) (by rw [State.resetAll, State.restart_ts])
  advance {s} h := by
    have hscreen (i : Fin 8) : s.advance.screenState i = s.screenState i :=
      (congrArg ScreenRecord.state (Tab.get_map s.sc ScreenRecord.advance i)).trans rfl
    have hts : s.advance.ts = s.ts.advance := rfl
    unfold TableStore.advance at hts
    split at hts
    · exact State.storeSound_congr h hts hscreen
    · next hbusy =>
      rw [State.storeSound, hts]
      exact ⟨fun hidle => absurd hidle hbusy, fun hrest i => (hscreen i).trans (h.2 hrest i)⟩

/-- Settles O4: words enter the store by checked runs and from the canonical image, and a restore begins with every screen
OFFLINE and lets none be enabled. -/
theorem storesStaySound : Obligations.StoresStaySound := fun _ _ hstep =>
  ⟨storesCanonical_kept.step (fun _ _ => id) hstep, storeSound_kept.step (fun _ _ => id) hstep⟩

end Sys2Proof.Machine
end

section
/-!
PROOFS. Every channel's page list stays matched with the page need of its delay in force (R67, R68, R69, R74).
-/

namespace Sys2Proof.Machine

/-- The pages a channel of a screen in this state, with this delay in force, holds. -/
def neededPages (state : ScreenState) (delay : Nat) : Nat := if state = .offline then 0 else pageNeed delay

theorem State.pagesMatch_iff (s : State) : s.pagesMatch ↔
    ∀ i c, (s.pagesOf i c).length = neededPages (s.screenState i) (s.delay i (s.activeBank i) c) := Iff.rfl

theorem State.delay_congr {s t : State} (h : t.ts.words = s.ts.words) (i : Fin 8) (b : Fin 2) (c : Fin 16) :
    t.delay i b c = s.delay i b c := by
  unfold State.delay State.recordWord
  rw [h]

/-- A screen's state and active bank. -/
def ScreenRecord.inForce (r : ScreenRecord) : ScreenState × Fin 2 := (r.state, r.activeBank)

/-- The matching of one screen's page lists goes over with its state, its active bank, its page lists and the words. -/
theorem State.pagesMatch_at {s t : State} {i : Fin 8} (hs : s.pagesMatch)
    (hwords : t.ts.words = s.ts.words) (hforce : (t.sc.get i).inForce = (s.sc.get i).inForce)
    (hpages : ∀ c, t.pagesOf i c = s.pagesOf i c) (c : Fin 16) :
    (t.pagesOf i c).length = neededPages (t.screenState i) (t.delay i (t.activeBank i) c) := by
  have hstate : t.screenState i = s.screenState i := congrArg Prod.fst hforce
  have hbank : t.activeBank i = s.activeBank i := congrArg Prod.snd hforce
  rw [hpages, State.delay_congr hwords, hstate, hbank]
  exact hs i c

theorem State.pagesMatch_congr {s t : State} (hs : s.pagesMatch) (hwords : t.ts.words = s.ts.words)
    (hforce : ∀ i, (t.sc.get i).inForce = (s.sc.get i).inForce) (hpages : t.pagesOf = s.pagesOf) : t.pagesMatch :=
  fun i => State.pagesMatch_at hs hwords (hforce i) fun _ => by rw [hpages]

theorem State.pagesMatch_silent {s t : State} (hs : s.pagesMatch) (h : t.silent = s.silent) : t.pagesMatch :=
  State.pagesMatch_congr hs (by rw [State.outer_ts (congrArg Silent.outer h)]) (fun _ => by rw [State.silent_sc h])
    (by unfold State.pagesOf; rw [State.silent_eq h])

theorem State.inForce_modifyScreen {s : State} {i : Fin 8} {f : ScreenRecord → ScreenRecord}
    (h : (f (s.sc.get i)).inForce = (s.sc.get i).inForce) (j : Fin 8) :
    ((s.modifyScreen i f).sc.get j).inForce = (s.sc.get j).inForce := by
  rw [State.modifyScreen_sc, Tab.get_modify]
  split
  · next hj => subst hj; exact h
  · rfl

/-! ## A write -/

/-- A channel whose delay is written holds the pages it then needs; every other keeps its list (R69). -/
theorem State.reallocate_lengths {s : State} {ws : List WrittenDelay} (hn : (ws.map WrittenDelay.place).Nodup)
    (hfit : s.delaysFit ws = true) :
    (∀ w ∈ ws, ((s.reallocate ws).pagesOf w.screen w.channel).length = w.need) ∧
      ∀ i c, (∀ w ∈ ws, w.place ≠ (i, c)) → (s.reallocate ws).pagesOf i c = s.pagesOf i c := by
  obtain ⟨hat, hother, -⟩ := s.reallocate_spec ws hn hfit
  refine ⟨fun w hw => ?_, fun i c hne => ?_⟩
  · obtain ⟨hsame, hless, hmore⟩ := hat w hw
    change ((s.reallocate ws).eqAt w.place).pages.length = w.need
    rcases lt_trichotomy w.need (s.eqAt w.place).pages.length with h | h | h
    · rw [hless h]
      exact (List.length_take ..).trans (Nat.min_eq_left h.le)
    · rw [hsame h, h]
    · obtain ⟨given, hlen, hnew⟩ := hmore h
      rw [hnew, List.length_append, hlen, Nat.add_sub_cancel' h.le]
  · refine congrArg EqChannel.pages (hother (i, c) fun hmem => ?_)
    obtain ⟨w, hw, hplace⟩ := List.mem_map.mp hmem
    exact hne w hw hplace

/-- The delay that a channel record gives after a write of a run. -/
theorem State.delay_writeRun {s : State} (hwf : s.ts.words.wf = true) (a : Nat) (data : List Word) (i : Fin 8)
    (b : Fin 2) (c : Fin 16) : (s.writeRun a data).delay i b c =
      if a ≤ recordAddress i b c + 30 ∧ recordAddress i b c + 30 < a + data.length then
        delayOf (data.getD (recordAddress i b c + 30 - a) 0) else s.delay i b c := by
  obtain ⟨-, -, -, -, -, -, hts⟩ := s.writeRun_frame a data
  rw [State.delay, State.recordWord, hts, Memory.read_writeRun hwf, apply_ite delayOf]
  rfl

theorem State.writeRun_pages (s : State) (a : Nat) (data : List Word) :
    (s.writeRun a data).pagesOf =
      ((s.putWords (s.ts.words.writeRun a data)).reallocate (s.writtenDelays a data)).pagesOf := by
  obtain ⟨-, -, -, -, heq, -⟩ := State.followWrite_spec a data.length
    ((s.putWords (s.ts.words.writeRun a data)).reallocate (s.writtenDelays a data))
  unfold State.pagesOf State.writeRun
  rw [heq]

theorem State.pagesMatch_writeRun {s : State} {a : Nat} {data : List Word} (hwf : s.ts.words.wf = true)
    (hfit : s.delaysFit (s.writtenDelays a data) = true) (hs : s.pagesMatch) : (s.writeRun a data).pagesMatch := by
  obtain ⟨hgiven, hkept⟩ := State.reallocate_lengths (s := s.putWords (s.ts.words.writeRun a data))
    (s.writtenDelays_places a data) hfit
  have hsc : (s.writeRun a data).sc = s.sc := (s.writeRun_frame a data).2.2.2.1
  rw [State.pagesMatch_iff]
  intro i c
  have hstate : (s.writeRun a data).screenState i = s.screenState i := by rw [State.screenState, hsc]; rfl
  have hbank : (s.writeRun a data).activeBank i = s.activeBank i := by rw [State.activeBank, hsc]; rfl
  rw [hstate, hbank, State.delay_writeRun hwf, State.writeRun_pages]
  by_cases hw : s.screenState i ≠ .offline ∧ a ≤ recordAddress i (s.activeBank i) c + 30 ∧
      recordAddress i (s.activeBank i) c + 30 < a + data.length
  · obtain ⟨hon, hrun⟩ := hw
    have hmem := (s.mem_writtenDelays a data
      ⟨i, c, pageNeed (delayOf (data.getD (recordAddress i (s.activeBank i) c + 30 - a) 0))⟩).mpr
        ⟨hon, hrun.1, hrun.2, rfl⟩
    rw [hgiven _ hmem, if_pos hrun, neededPages, if_neg hon]
  · rw [hkept i c]
    · refine (hs i c).trans ?_
      by_cases hoff : s.screenState i = .offline
      · rw [if_pos hoff, neededPages, if_pos hoff]
      · rw [if_neg fun hrun => hw ⟨hoff, hrun⟩]
        rfl
    · intro w hmem hplace
      obtain ⟨hon, hlow, hhigh, -⟩ := (s.mem_writtenDelays a data w).mp hmem
      obtain ⟨rfl, rfl⟩ := Prod.mk.inj hplace
      exact hw ⟨hon, hlow, hhigh⟩

/-! ## Enables, disables and swaps -/

theorem State.releaseScreen_pages (s : State) (i j : Fin 8) (c : Fin 16) :
    (s.releaseScreen i).pagesOf j c = if j = i then [] else s.pagesOf j c := by
  obtain ⟨hhere, hother, -⟩ := s.releaseScreen_spec i
  unfold State.pagesOf
  split
  · next h => rw [h, hhere]; rfl
  · next h => rw [hother j c h]

theorem State.exchangeBanks_other (s : State) {i j : Fin 8} (hj : j ≠ i) : (s.exchangeBanks i).sc.get j = s.sc.get j :=
  Tab.get_modify_other _ _ hj

/-- The pages given for the bank that comes into force, to a screen whose own pages have been taken back (R74). -/
theorem State.pagesMatch_allocated {s m : State} {i : Fin 8} (hs : s.pagesMatch) (hon : s.screenState i ≠ .offline)
    (hsc : m.sc = (s.exchangeBanks i).sc) (hts : m.ts = s.ts)
    (hpages : ∀ j c, m.pagesOf j c = if j = i then [] else s.pagesOf j c)
    (hfit : m.bankNeed i (s.standbyBank i) ≤ m.freePages) : (m.allocateBank i (s.standbyBank i)).pagesMatch := by
  obtain ⟨hgiven, hkept, -⟩ := m.allocateBank_spec i (s.standbyBank i) hfit
  have hun := m.unpaged_allocateBank i (s.standbyBank i)
  have htsc := (State.unpaged_sc hun).trans hsc
  have htts := (State.outer_ts (State.unpaged_outer hun)).trans hts
  rw [State.pagesMatch_iff]
  intro j c
  by_cases hj : j = i
  · subst hj
    obtain ⟨taken, hlen, -, hch⟩ := hgiven c
    have htaken : (m.allocateBank j (s.standbyBank j)).pagesOf j c = m.pagesOf j c ++ taken :=
      congrArg EqChannel.pages hch
    have hstate : (m.allocateBank j (s.standbyBank j)).screenState j = s.screenState j := by
      rw [State.screenState, htsc]; exact State.modifyScreen_state rfl j
    have hbank : (m.allocateBank j (s.standbyBank j)).activeBank j = s.standbyBank j := by
      rw [State.activeBank, htsc]
      exact congrArg ScreenRecord.activeBank (Tab.get_modify_same ..)
    rw [htaken, hpages, if_pos rfl, List.nil_append, hlen, hstate, hbank, neededPages, if_neg hon,
      State.delay_congr (congrArg TableStore.words hts), State.delay_congr (congrArg TableStore.words htts)]
  · refine State.pagesMatch_at hs (congrArg TableStore.words htts) ?_ (fun d => ?_) c
    · rw [htsc, s.exchangeBanks_other hj]
    · have htaken : (m.allocateBank i (s.standbyBank i)).pagesOf j d = m.pagesOf j d :=
        congrArg EqChannel.pages (hkept j d hj)
      rw [htaken, hpages, if_neg hj]

theorem State.pagesMatch_swap {s : State} {i : Fin 8} (hs : s.pagesMatch) : (s.swapBanks i).1.pagesMatch := by
  unfold State.swapBanks
  split
  · next hoff =>
    rw [State.pagesMatch_iff]
    intro j c
    by_cases hj : j = i
    · subst hj
      have hoff' : (s.exchangeBanks j).screenState j = .offline := (State.modifyScreen_state rfl j).trans hoff
      rw [hoff']
      refine (hs j c).trans ?_
      rw [if_pos hoff, neededPages, if_pos rfl]
    · exact State.pagesMatch_at (t := s.exchangeBanks i) hs rfl (by rw [s.exchangeBanks_other hj]) (fun _ => rfl) c
  · next hon =>
    split
    · next hfit =>
      have hrel := s.unpaged_releaseScreen i
      have hpages := s.releaseScreen_pages i
      have hfree := (s.releaseScreen_spec i).2.2.1
      generalize s.releaseScreen i = r at hrel hpages hfree ⊢
      have hts : r.ts = s.ts := State.outer_ts (State.unpaged_outer hrel)
      refine State.pagesMatch_allocated hs hon (State.unpaged_sc (State.unpaged_exchange i hrel)) hts hpages ?_
      have hneed : (r.exchangeBanks i).bankNeed i (s.standbyBank i) = s.bankNeed i (s.standbyBank i) := by
        unfold State.bankNeed
        simp only [State.delay_congr (s := s) (t := r.exchangeBanks i) (congrArg TableStore.words hts)]
      rw [hneed]
      exact (of_decide_eq_true hfit).trans hfree.ge
    · exact hs

/-- An enable whose pages are free gives every channel the pages of its delay; a disable takes them back; any other change of
state leaves them (R5, R6, R68). -/
theorem State.pagesMatch_move {s : State} {i : Fin 8} {target : ScreenState} (cause : StateCause)
    (safeCause : SafeCause) (depth : Nat) (inScan : Bool) (hm : s.MayMove i target) (hs : s.pagesMatch) :
    (s.moveScreen i target cause safeCause depth inScan).1.pagesMatch := by
  obtain ⟨m, dip, hsc, -, -, -, haside, hchannels, hfree, hsilent⟩ :=
    s.moveScreen_follow i target cause safeCause depth inScan
  refine State.pagesMatch_silent ?_ hsilent
  obtain ⟨hfsc, hfaside, -, hstays⟩ := m.followMove_spec i (s.screenState i) target inScan
  have hwords : (m.followMove i (s.screenState i) target inScan).1.ts.words = s.ts.words := by
    rw [State.outer_ts (State.aside_outer (hfaside.trans haside))]
  have hmpages : m.pagesOf = s.pagesOf := by unfold State.pagesOf; rw [hchannels]
  have hother (j : Fin 8) (hj : j ≠ i) :
      (m.followMove i (s.screenState i) target inScan).1.sc.get j = s.sc.get j := by
    rw [hfsc, hsc, Tab.get_modify_other _ _ hj]
  have hhere : (m.followMove i (s.screenState i) target inScan).1.sc.get i =
      { (s.sc.get i).move target safeCause (s.safeGain i) with dip := dip } := by
    rw [hfsc, hsc, Tab.get_modify_same]
  have hstate : (m.followMove i (s.screenState i) target inScan).1.screenState i = target :=
    congrArg ScreenRecord.state hhere
  have hbank : (m.followMove i (s.screenState i) target inScan).1.activeBank i = s.activeBank i :=
    (congrArg ScreenRecord.activeBank hhere).trans rfl
  have hothers (hpages : ∀ j c, j ≠ i → (m.followMove i (s.screenState i) target inScan).1.pagesOf j c = s.pagesOf j c)
      (hours : ∀ c, ((m.followMove i (s.screenState i) target inScan).1.pagesOf i c).length =
        neededPages target (s.delay i (s.activeBank i) c)) :
      (m.followMove i (s.screenState i) target inScan).1.pagesMatch := by
    rw [State.pagesMatch_iff]
    intro j c
    by_cases hj : j = i
    · subst hj
      rw [hours, hstate, hbank, State.delay_congr hwords]
    · exact State.pagesMatch_at hs hwords (by rw [hother j hj]) (fun d => hpages j d hj) c
  by_cases htarget : target = .offline
  · have hpages : (m.followMove i (s.screenState i) target inScan).1.pagesOf = (m.releaseScreen i).pagesOf := by
      unfold State.pagesOf
      rw [State.followMove, if_pos htarget, (m.disable_spec i).2.2.1]
    refine hothers (fun j c hj => ?_) fun c => ?_
    · rw [hpages, State.releaseScreen_pages, if_neg hj, hmpages]
    · rw [hpages, State.releaseScreen_pages, if_pos rfl, neededPages, if_pos htarget]
      rfl
  · by_cases hoff : s.screenState i = .offline
    · have hfit : s.enableFits i = true := by
        rcases hm with ⟨hon, -⟩ | ⟨-, -, -, hfit⟩
        · exact absurd hoff hon
        · exact hfit
      have hmbank : m.activeBank i = s.activeBank i := by rw [State.activeBank, hsc, Tab.get_modify_same]; rfl
      have hmwords : m.ts.words = s.ts.words := by rw [State.outer_ts (State.aside_outer haside)]
      have hneed : m.bankNeed i (m.activeBank i) ≤ m.freePages := by
        have hfit : s.bankNeed i (s.activeBank i) ≤ s.freePages := of_decide_eq_true hfit
        unfold State.freePages at hfit ⊢
        unfold State.bankNeed at hfit ⊢
        simp only [State.delay_congr hmwords, hmbank, hfree]
        exact hfit
      have hnone : ∀ c, m.pagesOf i c = [] := fun c => by
        rw [hmpages]
        exact List.length_eq_zero_iff.mp ((hs i c).trans (if_pos hoff))
      obtain ⟨hgiven, hkept, -⟩ := m.enable_pages i hneed hnone
      have hpages : (m.followMove i (s.screenState i) target inScan).1.pagesOf = (m.enable i).pagesOf := by
        rw [State.followMove, if_neg htarget, if_pos hoff]
      refine hothers (fun j c hj => ?_) fun c => ?_
      · rw [hpages, ← hmpages]
        exact congrArg EqChannel.pages (hkept j c hj)
      · obtain ⟨taken, hlen, hch⟩ := hgiven c
        have htaken : (m.enable i).pagesOf i c = taken := congrArg EqChannel.pages hch
        rw [hpages, htaken, hlen, neededPages, if_neg htarget, hmbank, State.delay_congr hmwords]
    · have hpages : (m.followMove i (s.screenState i) target inScan).1.pagesOf = s.pagesOf := by
        rw [← hmpages]
        unfold State.pagesOf
        rw [(hstays htarget hoff).2.1]
      refine hothers (fun j c _ => by rw [hpages]) fun c => ?_
      rw [hpages, neededPages, if_neg htarget]
      exact (hs i c).trans (if_neg hoff)

/-! ## A reset -/

theorem State.autoEnableAll_pagesMatch {u : State}
    (hoff : ∀ i, u.screenState i = .offline ∧ u.activeBank i = 0 ∧ ∀ c, (u.eq.channels.get i).get c = .cleared) :
    u.autoEnableAll.pagesMatch := by
  obtain ⟨hun, hat⟩ := u.autoEnableAll_spec
  obtain ⟨hfold, -⟩ := State.autoEnable_fold (List.finRange 8) (List.sortedLT_finRange 8).pairwise u fun i _ => hoff i
  dsimp only at hfold
  rw [show (List.finRange 8).foldl State.autoEnableScreen u = u.autoEnableAll from rfl] at hfold
  generalize u.autoEnableAll = t at hun hat hfold ⊢
  rw [State.pagesMatch_iff]
  intro i c
  obtain ⟨hstate, -, -, -, hpages⟩ := hfold i (List.mem_finRange i)
  obtain ⟨pages, hlen, hch⟩ := hpages c
  have hbank : t.activeBank i = 0 := by
    obtain ⟨-, hzero, -⟩ := hoff i
    rcases hat i with ⟨hsc, -⟩ | ⟨-, hsc, -⟩ <;> rw [State.activeBank, hsc] <;> exact hzero
  have hdelay : t.delay i 0 c = u.delay i 0 c :=
    State.delay_congr (by rw [State.outer_ts (State.unenabled_outer hun)]) i 0 c
  have htaken : t.pagesOf i c = pages := congrArg EqChannel.pages hch
  rw [htaken, hlen, hbank, hdelay, neededPages]
  rcases hstate with hs | hs <;> rw [hs] <;> rfl

/-- After a reset only the screens that their settings enabled hold pages, each its own need in bank 0 (R20). -/
theorem State.restart_pagesMatch (s : State) : s.restart.pagesMatch := by
  have hscreen (i : Fin 8) : (s.blocksReset.gather []).sc.get i = .reset (s.levelPreset i 0) := Tab.get_ofFn ..
  refine State.autoEnableAll_pagesMatch fun i => ⟨?_, ?_, fun c => ?_⟩
  · rw [State.screenState, hscreen]; rfl
  · rw [State.activeBank, hscreen]; rfl
  · exact (congrArg (Tab.get · c) (Tab.get_fill ..)).trans (Tab.get_fill ..)

/-! ## Every operation -/

theorem pagesMatch_kept : Keeps fun s => (s.storesCanonical ∧ s.storeSound) ∧ s.pagesMatch where
  tracked h hs := ⟨⟨storesCanonical_kept.tracked h hs.1.1, storeSound_kept.tracked h hs.1.2⟩,
    State.pagesMatch_congr hs.2 (congrArg (fun t => t.ts.words) h)
      (fun i => congrArg (fun t => (Tab.get t.sc i).inForce) h) (congrArg Tracked.pages h)⟩
  ports _ _ h := h
  join _ h := h
  take _ h := h
  reply _ h := h
  report h := ⟨⟨storesCanonical_kept.report h.1.1, storeSound_kept.report h.1.2⟩,
    State.pagesMatch_silent h.2 (State.silent_queueReport _ _)⟩
  send {s} h := by obtain ⟨_, _, _, hs⟩ := s.senderTake_frame; rw [hs]; exact h
  push hd h := ⟨⟨storesCanonical_kept.push hd h.1.1, storeSound_kept.push hd h.1.2⟩,
    State.pagesMatch_silent h.2 (State.silent_pushTrigger _ _)⟩
  pop _ h := h
  write hok h := ⟨⟨storesCanonical_kept.write hok h.1.1, storeSound_kept.write hok h.1.2⟩,
    State.pagesMatch_writeRun h.1.1.1.1 (State.delaysFit_of_ok hok) h.2⟩
  load {s} hrest h := by
    refine ⟨⟨storesCanonical_kept.load hrest h.1.1, storeSound_kept.load hrest h.1.2⟩, fun i c => ?_⟩
    obtain ⟨-, -, -, hsc, -, -, -, heq⟩ := s.loadWords_frame s.ts.image.pages 0 Config.storeWords
    have hoff := h.1.2.2 hrest i
    have hstate : ((s.putWords s.ts.image.pages).followWrite 0 Config.storeWords).screenState i = .offline := by
      rw [State.screenState, hsc]; exact hoff
    rw [if_pos hstate, State.pagesOf, heq]
    exact (h.2 i c).trans (if_pos hoff)
  preserving hidle h := ⟨⟨storesCanonical_kept.preserving hidle h.1.1, storeSound_kept.preserving hidle h.1.2⟩, h.2⟩
  preserved h := ⟨⟨storesCanonical_kept.preserved h.1.1, storeSound_kept.preserved h.1.2⟩, h.2⟩
  restoring hoff h := ⟨⟨storesCanonical_kept.restoring hoff h.1.1, storeSound_kept.restoring hoff h.1.2⟩, h.2⟩
  restored h := ⟨⟨storesCanonical_kept.restored h.1.1, storeSound_kept.restored h.1.2⟩, h.2⟩
  touch hf h := ⟨⟨storesCanonical_kept.touch hf h.1.1, storeSound_kept.touch hf h.1.2⟩,
    State.pagesMatch_congr h.2 rfl (State.inForce_modifyScreen (Prod.ext hf.state hf.activeBank)) rfl⟩
  exchange {s} {i} hoff h := by
    refine ⟨⟨storesCanonical_kept.exchange hoff h.1.1, storeSound_kept.exchange hoff h.1.2⟩, ?_⟩
    have hswap := State.pagesMatch_swap (i := i) h.2
    rw [State.swapBanks, if_pos hoff] at hswap
    exact hswap
  swap h := ⟨⟨storesCanonical_kept.swap h.1.1, storeSound_kept.swap h.1.2⟩, State.pagesMatch_swap h.2⟩
  move cause safeCause depth inScan hm h :=
    ⟨⟨storesCanonical_kept.move cause safeCause depth inScan hm h.1.1,
      storeSound_kept.move cause safeCause depth inScan hm h.1.2⟩,
      State.pagesMatch_move cause safeCause depth inScan hm h.2⟩
  crossfade _ h := h
  fadeEnd _ h := h
  alarms _ h := h
  targets h := h
  recompute h := h
  clock _ h := h
  power lines keyLocked h := ⟨⟨storesCanonical_kept.power lines keyLocked h.1.1,
    storeSound_kept.power lines keyLocked h.1.2⟩, State.restart_pagesMatch _⟩
  reset h := ⟨⟨storesCanonical_kept.reset h.1.1, storeSound_kept.reset h.1.2⟩, State.restart_pagesMatch _⟩
  advance {s} h := ⟨⟨storesCanonical_kept.advance h.1.1, storeSound_kept.advance h.1.2⟩,
    State.pagesMatch_congr h.2 (by dsimp only [State.advance, TableStore.advance]; split <;> rfl)
      (fun i => (congrArg ScreenRecord.inForce (Tab.get_map s.sc ScreenRecord.advance i)).trans rfl) rfl⟩

/-- Settles O8: pages are given and taken back exactly where a delay comes into force or leaves it. -/
theorem pagesStayMatched : Obligations.PagesStayMatched := fun _ _ hcanonical hsound hmatch hstep =>
  (pagesMatch_kept.step (fun _ _ => id) hstep ⟨⟨hcanonical, hsound⟩, hmatch⟩).2

end Sys2Proof.Machine
end

section
/-!
PROOFS. The machine as a whole: the step, the state after power-up, and the passing of a link frame.
-/

namespace Sys2Proof.Machine

/-- Settles O1: a step is the command at the front. -/
theorem stepTakesTheFrontCommand : Obligations.StepTakesTheFrontCommand := by
  refine ⟨fun c rest s h => ?_, fun s h => ?_⟩ <;> rw [step, h]

/-! ## The state after power-up from an erased image -/

theorem State.reset_screen (i : Fin 8) : State.reset.sc.get i = .reset 0 := Tab.get_fill ..

theorem State.reset_channel (i : Fin 8) (c : Fin 16) : (State.reset.eq.channels.get i).get c = .cleared :=
  (congrArg (Tab.get · c) (Tab.get_fill ..)).trans (Tab.get_fill ..)

theorem State.reset_pagesOf : State.reset.pagesOf = fun _ _ => [] := by
  funext i c
  rw [State.pagesOf, State.reset_channel]
  rfl

theorem State.reset_poolWhole : State.reset.poolWhole := by
  have hnone : ((List.finRange 8).flatMap fun _ => (List.finRange 16).flatMap fun _ => ([] : List (Fin 512))) = [] := by
    simp
  have hfree : State.reset.eq.free = List.finRange 512 := by simp only [State.reset, Equaliser.reset]
  rw [State.poolWhole, State.poolPages, State.reset_pagesOf, hnone, List.append_nil, hfree]

theorem State.reset_rampsSound : State.reset.rampsSound := fun i => by
  have hout (c : Fin 16) : (State.reset.os.channels.get i).get c = .reset :=
    (congrArg (Tab.get · c) (Tab.get_fill ..)).trans (Tab.get_fill ..)
  have htarget (c : Fin 16) : (State.reset.am.targets.get i).get c = Config.unity :=
    (congrArg (Tab.get · c) (Tab.get_fill ..)).trans (Tab.get_fill ..)
  refine ⟨?_, fun c => ?_⟩
  · rw [State.reset_screen]
    exact ⟨Ramp.rest_sound (by decide) (by decide), Ramp.rest_sound (by decide) (by decide),
      Ramp.rest_sound (by decide) (by decide), Ramp.rest_sound (by decide) (by decide)⟩
  · rw [hout, htarget]
    exact ⟨Ramp.rest_sound (by decide) (by decide), by decide⟩

theorem State.reset_screensSound : State.reset.screensSound := fun i => by
  rw [State.screenState, State.reset_screen, show State.reset.de.get i = .reset 0 from Tab.get_fill ..]
  simp [ScreenRecord.sound, ScreenRecord.reset, DecodeRecord.sound, DecodeRecord.reset]

theorem State.reset_pagesMatch : State.reset.pagesMatch := fun i c => by
  rw [State.reset_pagesOf, State.screenState, State.reset_screen]
  rfl

/-- Settles O3: each part of the state is its block's value after a reset. -/
theorem resetStateIsSound : Obligations.ResetStateIsSound := by
  refine ⟨⟨Memory.canonical_nil, Memory.canonical_nil⟩, State.storeSound_idle rfl rfl, ?_, ?_, State.reset_screensSound,
    State.reset_poolWhole, State.reset_pagesMatch, ⟨rfl, Nat.zero_le _⟩, ⟨rfl, Nat.zero_le _⟩, State.reset_rampsSound,
    fun e => ?_, fun i => ?_⟩
  · exact ⟨Nat.zero_le _, Nat.zero_le _, Nat.zero_le _⟩
  · exact ⟨Nat.zero_le _, fun _ => Nat.zero_le _, nofun⟩
  · rw [show State.reset.am.entries.get e = .reset from Tab.get_fill ..]
    exact AlarmRecord.reset_sound
  · rw [show State.reset.ct.clocks.get i = .reset from Tab.get_fill ..]
    exact Clock.load_sound (loadable_zero .r24) false

/-! ## The passing of a link frame (R28) -/

section Quiet

variable {s : State}

theorem State.finishWork_of_worked (h : s.li.worked = true) : s.finishWork = s := if_pos h

theorem State.settlePort_of_quiet {p : PortId} (h : (s.port p).lockDue = false ∧ (s.port p).lossDue = false) :
    s.settlePort p = s := by
  rw [State.settlePort, if_neg (by simp [h.1]), if_neg (by simp [h.2])]

theorem State.finishPorts_of_quiet (hseen : s.li.downSeen = true)
    (hports : ∀ p, (s.port p).lockDue = false ∧ (s.port p).lossDue = false) : s.finishPorts = s := by
  rw [State.finishPorts, if_pos hseen, State.settlePort_of_quiet (hports _), State.settlePort_of_quiet (hports _)]

theorem State.finishScreens_of_quiet (hslots : ∀ n, (s.am.slots.get n).expiring = false)
    (hscreens : ∀ i, (s.de.get i).fadeEnded = false ∧ s.swapReached i = false ∧ s.riseEnded i = false)
    (hwindow : s.os.windowDue = false) : s.finishScreens = s := by
  unfold State.finishScreens
  dsimp only
  rw [List.foldl_fixed' (a := s) (f := State.expireSlot) fun n => by simp [State.expireSlot, hslots],
    List.foldl_fixed' (a := s) (f := State.takeCrossfadeEnd) fun i => by simp [State.takeCrossfadeEnd, hscreens],
    List.foldl_fixed' (a := s) (f := State.takeSwapMoment) fun i => by simp [State.takeSwapMoment, hscreens],
    List.foldl_fixed' (a := s) (f := State.takeDipEnd) fun i => by simp [State.takeDipEnd, hscreens]]
  simp [State.takeWindowEnd, State.windowEnded, hwindow]

theorem State.finishLines_of_quiet (hclocks : ∀ i, (s.ct.clocks.get i).advanceDue = false)
    (htimers : ∀ i k, ((s.ct.timers.get i).get k).due (s.tickLengthOf i k) = false)
    (houtputs : ∀ n, (s.bl.outputs.get n).periodDue = false) (hinputs : ∀ n, (s.bl.inputs.get n).edgeDue = false)
    (hkey : s.bl.key.edgeDue = false) : s.finishLines = s := by
  unfold State.finishLines
  dsimp only
  rw [List.foldl_fixed' (a := s) (f := State.takeAdvance) fun i => by simp [State.takeAdvance, hclocks],
    List.foldl_fixed' (a := s) (f := (fun s i => (s.takeTick i 0).takeTick i 1)) fun i => by simp [State.takeTick, htimers],
    List.foldl_fixed' (a := s) (f := State.takePeriodEnd) fun n => by simp [State.takePeriodEnd, houtputs],
    List.foldl_fixed' (a := s) (f := State.takeInputEdge) fun n => by simp [State.takeInputEdge, hinputs]]
  simp [State.takeKeyChange, hkey]

theorem State.handleTriggers_of_none (n : Nat) (h : s.ce.triggers = []) : State.handleTriggers n s = s := by
  cases n <;> simp [State.handleTriggers, h]

theorem State.finishFrame_of_quiet (h : s.quiet) : s.finishFrame = s := by
  obtain ⟨hworked, hseen, hports, hslots, hscreens, hwindow, hclocks, htimers, houtputs, hinputs, hkey, hpreserve,
    hrestore, hrequests, htriggers⟩ := h
  have hpend : s.takePreserveEnd = s := by simp [State.takePreserveEnd, hpreserve]
  have hrend : s.takeRestoreEnd = s := by simp [State.takeRestoreEnd, hrestore]
  unfold State.finishFrame
  rw [State.finishWork_of_worked hworked, State.finishPorts_of_quiet hseen hports,
    State.finishScreens_of_quiet hslots hscreens hwindow,
    State.finishLines_of_quiet hclocks htimers houtputs hinputs hkey]
  dsimp only
  rw [hpend, hrend, State.interpret_none hrequests, State.handleTriggers_of_none _ htriggers]

end Quiet

section Advance

variable (s : State)

theorem State.advance_frame : s.advance = { s with
    li := s.advance.li, ts := s.advance.ts, sc := s.advance.sc, os := s.advance.os, ct := s.advance.ct
    bl := s.advance.bl } := rfl

theorem State.advance_os : s.advance.os = s.os.advance := rfl

theorem TableStore.advance_eq (ts : TableStore) :
    ts.advance = { ts with elapsed := if ts.state = .idle then ts.elapsed else ts.elapsed + 1 } := by
  unfold TableStore.advance
  split <;> rfl

theorem State.advance_screen (i : Fin 8) : s.advance.sc.get i = (s.sc.get i).advance := Tab.get_map ..

theorem State.advance_out (i : Fin 8) (c : Fin 16) :
    (s.advance.os.channels.get i).get c = ((s.os.channels.get i).get c).advance :=
  (congrArg (Tab.get · c) (Tab.get_map ..)).trans (Tab.get_map ..)

theorem Clock.passFrame_eq (c : Clock) : c.passFrame =
    if c.running = false then c
    else if c.subFrame + 1 < c.rate.frameLength then { c with subFrame := c.subFrame + 1 }
    else { c with advanceDue := true } := by
  unfold Clock.passFrame
  cases c.running <;> rfl

theorem Timer.passFrame_eq (tm : Timer) (length : Nat) : tm.passFrame length =
    if tm.running = false then { tm with counted := false }
    else if tm.phase + 1 < length then { tm with phase := tm.phase + 1, counted := true }
    else { tm with tickDue := true, counted := false } := by
  unfold Timer.passFrame
  cases tm.running <;> rfl

theorem State.tickLengthOf_eq (i : Fin 8) (k : Fin 2) : s.tickLengthOf i k =
    let tm := (s.ct.timers.get i).get k
    if tm.base = .millisecond then 48 else if tm.base = .second then 48000
    else (s.ct.clocks.get i).rate.frameLength := by
  unfold State.tickLengthOf tickLength
  dsimp only
  cases ((s.ct.timers.get i).get k).base <;> rfl

theorem State.passFrame_output (n : Fin 16) :
    let o := s.bl.outputs.get n
    let w := s.word 27 (17 + 2 * n.val)
    o.passFrame (s.periodLength n) =
      if o.drive = .low ∨ o.drive = .high then o
      else if o.phase + 1 < 48 * max 1 (if o.drive = .pulseHigh then field w 16 16 else field w 0 16) then
        { o with phase := o.phase + 1 }
      else { o with periodDue := true } := by
  unfold OutputLine.passFrame State.periodLength State.highLength State.lowLength
  dsimp only
  cases (s.bl.outputs.get n).drive <;> rfl

end Advance

/-! ## The link frame that a frame or the work belongs to (assumption 1) -/

section Belongs

variable (s : State)

theorem exec_upstreamFrame (intact : Bool) (slots : List InSlot) (first second : Byte) :
    exec (.upstreamFrame intact slots first second) s =
      .next (s.upstreamArrives (if intact then some ⟨slots, first, second⟩ else none)) := rfl

theorem exec_rackStatusWord (intact : Bool) (word : BitVec 16) :
    exec (.rackStatusWord intact word) s = .next (s.rackArrives (if intact then some word else none)) := rfl

theorem exec_linkFrame (lines : BitVec 16) (key : Bool) :
    exec (.linkFrame lines key) s = .next (s.linkFrame lines key) := rfl

theorem State.upstreamArrives_now (hworked : s.li.worked = false) (hseen : s.li.upSeen = false) (a : Option Arrival) :
    s.upstreamArrives a = (s.receiveUpstream a).interpret := by
  simp [State.upstreamArrives, hworked, hseen]

theorem State.upstreamArrives_next (h : s.li.worked = true ∨ s.li.upSeen = true) (a : Option Arrival) :
    s.upstreamArrives a = (s.beginFrame.receiveUpstream a).interpret := by
  have hnow : (s.li.worked || s.li.upSeen) = true := by simpa using h
  simp [State.upstreamArrives, hnow]

theorem State.rackArrives_now (hseen : s.li.downSeen = false) (w : Option (BitVec 16)) :
    s.rackArrives w = s.receiveRack w := by
  simp [State.rackArrives, hseen]

theorem State.rackArrives_next (hseen : s.li.downSeen = true) (w : Option (BitVec 16)) :
    s.rackArrives w = s.beginFrame.receiveRack w := by
  simp [State.rackArrives, hseen]

theorem State.linkFrame_now (hworked : s.li.worked = false) (lines : BitVec 16) (key : Bool) :
    s.linkFrame lines key = s.work lines key := by
  simp [State.linkFrame, hworked]

theorem State.linkFrame_next (hworked : s.li.worked = true) (lines : BitVec 16) (key : Bool) :
    s.linkFrame lines key = s.beginFrame.work lines key := by
  simp [State.linkFrame, hworked]

end Belongs

/-- Settles O12: a command that begins a link frame finishes the one before and advances the counts. -/
theorem timePassesByOneLinkFrame : Obligations.TimePassesByOneLinkFrame := by
  intro s
  refine ⟨State.finishFrame_of_quiet, ?_⟩
  have hbegin : s.beginFrame = s.finishFrame.advance := rfl
  generalize s.finishFrame = e at hbegin ⊢
  refine ⟨e.advance, e.advance_frame, rfl, e.ts.advance_eq, e.advance_screen, e.advance_out, rfl, ?_, ?_,
    fun i => ?_, fun i k => ?_, fun n => Tab.get_map .., rfl, rfl, fun n => ?_, fun hworked lines key => ?_,
    fun hseen intact slots first second => ?_, fun hseen intact word => ?_⟩
  · rw [State.advance_os, OutputStage.advance, Config.windowLength]
  · rw [State.advance_os, OutputStage.advance, Config.windowLength]
  · exact (Tab.get_map ..).trans (Clock.passFrame_eq _)
  · refine ((congrArg (Tab.get · k) (Tab.get_ofFn ..)).trans (Tab.get_ofFn ..)).trans ?_
    rw [State.tickLengthOf_eq]
    exact Timer.passFrame_eq _ _
  · exact (Tab.get_ofFn ..).trans (State.passFrame_output _ n)
  · rw [exec_linkFrame, exec_linkFrame, s.linkFrame_next hworked, hbegin, e.advance.linkFrame_now rfl]
  · rw [exec_upstreamFrame, exec_upstreamFrame, s.upstreamArrives_next hseen, hbegin,
      e.advance.upstreamArrives_now rfl rfl]
  · rw [exec_rackStatusWord, exec_rackStatusWord, s.rackArrives_next hseen, hbegin, e.advance.rackArrives_now rfl]

end Sys2Proof.Machine
end

section
/-!
PROOFS. Messages on the lanes: the check, the receiver, and the requests that join the queue (R175, R176, R184, R185).
-/

namespace Sys2Proof.Machine

/-! ## The check as the spec shifts it -/

/-- A shift of the check register, its top bit read by number. -/
theorem crcShift_eq (r : BitVec 16) :
    crcShift r = if r.getLsbD 15 = true then (r <<< 1) ^^^ 0x1021 else r <<< 1 := by
  unfold crcShift
  rw [BitVec.msb_eq_getLsbD_last]

theorem setWidth_shift_eq_append (b : Byte) : (b.setWidth 16) <<< 8 = b ++ (0 : Byte) := by
  apply BitVec.eq_of_toNat_eq
  have h : b.toNat < 256 := b.isLt
  rw [BitVec.toNat_shiftLeft, BitVec.toNat_setWidth, BitVec.toNat_append, Nat.shiftLeft_eq, Nat.shiftLeft_eq]
  rw [show (0 : Byte).toNat = 0 from rfl, Nat.or_zero]
  omega

theorem bytes2_eq_extract (v : BitVec 16) : bytes2 v.toNat = [v.extractLsb' 8 8, v.extractLsb' 0 8] := by
  have hhigh : byte (v.toNat / 256) = v.extractLsb' 8 8 := BitVec.eq_of_toNat_eq (by
    rw [byte, BitVec.toNat_ofNat, BitVec.extractLsb'_toNat, Nat.shiftRight_eq_div_pow])
  have hlow : byte v.toNat = v.extractLsb' 0 8 := BitVec.eq_of_toNat_eq (by
    rw [byte, BitVec.toNat_ofNat, BitVec.extractLsb'_toNat, Nat.shiftRight_zero])
  rw [bytes2, hhigh, hlow]

/-! ## A framed message, byte by byte -/

/-- The receiver while it reads a message of body length n, from the bytes read of it. -/
def readingAt (n : Nat) (read : List Byte) : Receiver :=
  match read.length with
  | 0 => .hunting
  | 1 => ⟨.length, read⟩
  | k + 2 => ⟨if k < n then .body else .check, read⟩

section Framed

variable {body : List Byte} (hlow : 2 ≤ body.length) (hhigh : body.length ≤ 133)

theorem framed_length (body : List Byte) : (framed body).length = body.length + 4 := by
  simp [framed, bytes2]

include hhigh in
theorem lengthByte_toNat : (byte body.length).toNat = body.length := by
  unfold byte
  rw [BitVec.toNat_ofNat]
  exact Nat.mod_eq_of_lt (by omega)

/-- What a message's bytes read so far begin with. -/
theorem framed_prefix {p more : List Byte} (h : framed body = p ++ more) {k : Nat} (hk : k < p.length) (d : Byte) :
    p.getD k d = (framed body).getD k d := by
  rw [h, List.getD_append _ _ _ _ hk]

include hhigh in
theorem lengthOf_prefix {p more : List Byte} (h : framed body = p ++ more) (hp : 2 ≤ p.length) :
    lengthOf p = body.length := by
  rw [lengthOf, framed_prefix h (by omega), ← lengthByte_toNat hhigh]
  rfl

include hlow hhigh in
/-- A byte that is not the last of its message takes the receiver on. -/
theorem act_reading {p more : List Byte} {b : Byte} (h : framed body = p ++ b :: more) (hmore : more ≠ []) :
    (readingAt body.length p).act b = .going (readingAt body.length (p ++ [b])) := by
  have hlen := congrArg List.length h
  rw [framed_length, List.length_append, List.length_cons] at hlen
  have hpos : 0 < more.length := List.length_pos_iff.mpr hmore
  have hb (k : Nat) (hk : p.length = k) : b = (framed body).getD k 0 := by
    rw [h, ← hk, List.getD_append_right _ _ _ _ le_rfl, Nat.sub_self]
    rfl
  match hp : p.length with
  | 0 =>
    obtain rfl := List.length_eq_zero_iff.mp hp
    have hsync : b = 0xA5 := hb 0 rfl
    simp [readingAt, Receiver.hunting, Receiver.act, hsync]
  | 1 =>
    have hb1 : b = byte body.length := hb 1 hp
    have hnat : b.toNat = body.length := by rw [hb1, lengthByte_toNat hhigh]
    have hbody : 0 < body.length := by omega
    simp [readingAt, hp, Receiver.act, hnat, hlow, hhigh, hbody]
  | k + 2 =>
    have hlengthOf : lengthOf (p ++ [b]) = body.length :=
      lengthOf_prefix hhigh (more := more) (by rw [h, List.append_assoc]; rfl) (by simp [hp])
    have hread : readingAt body.length (p ++ [b]) = ⟨if k + 1 < body.length then .body else .check, p ++ [b]⟩ := by
      simp [readingAt, hp]
    rw [hread]
    simp only [readingAt, hp, Receiver.act]
    by_cases hk : k < body.length
    · by_cases hk1 : k + 1 < body.length
      · simp [hk, hk1, hlengthOf, hp, show ¬k + 1 = body.length by omega]
      · simp [hk, hlengthOf, hp, show k + 1 = body.length by omega]
    · simp [hk, show ¬k + 1 < body.length by omega, hlengthOf, hp, show ¬k = body.length + 1 by omega]

include hhigh in
/-- The last byte of a message completes its body (R175). -/
theorem act_last {p : List Byte} {b : Byte} (h : framed body = p ++ [b]) :
    (readingAt body.length p).act b = .complete body := by
  have hlen := congrArg List.length h
  rw [framed_length, List.length_append, List.length_singleton] at hlen
  obtain ⟨k, hk⟩ : ∃ k, p.length = k + 2 := ⟨body.length + 1, by omega⟩
  have hlengthOf : lengthOf (p ++ [b]) = body.length :=
    lengthOf_prefix hhigh (more := []) (by rw [h, List.append_nil]) (by simp [hk])
  have hmatch : checkMatches (p ++ [b]) = true := by
    unfold checkMatches
    rw [hlengthOf, ← h]
    simp [framed, bytes2]
  have hbody : bodyOfAssembly (p ++ [b]) = body := by
    unfold bodyOfAssembly
    rw [hlengthOf, ← h]
    simp [framed]
  simp only [readingAt, hk, Receiver.act]
  simp [show ¬k < body.length by omega, hlengthOf, hk, hmatch, hbody, show k + 2 + 1 = body.length + 4 by omega]

/-! ## Bytes of a message one after another -/

theorem feed_nil (n : Nat) (r : Receiver) : Receiver.feed n r [] = (r, []) := by cases n <;> rfl

include hlow hhigh in
theorem feed_reading {q : List Byte} : ∀ {p more : List Byte}, framed body = p ++ q ++ more → more ≠ [] → ∀ n,
    Receiver.feed (q.length + n) (readingAt body.length p) q = (readingAt body.length (p ++ q), []) := by
  induction q with
  | nil => intro p more _ _ n; rw [feed_nil, List.append_nil]
  | cons b q ih =>
    intro p more h hmore n
    rw [List.length_cons, Nat.add_right_comm, Receiver.feed,
      act_reading hlow hhigh (more := q ++ more) (by rw [h]; simp) (by simp [hmore])]
    dsimp only
    rw [ih (by rw [h]; simp) hmore, List.append_assoc]
    rfl

include hlow hhigh in
theorem feed_last {q : List Byte} : ∀ {p rest : List Byte} {b : Byte}, framed body = p ++ q ++ [b] → ∀ n,
    Receiver.feed (q.length + 1 + n) (readingAt body.length p) (q ++ b :: rest) =
      ((Receiver.feed n .hunting rest).1, body :: (Receiver.feed n .hunting rest).2) := by
  induction q with
  | nil =>
    intro p rest b h n
    rw [List.append_nil] at h
    rw [List.length_nil, Nat.zero_add, Nat.add_comm, List.nil_append, Receiver.feed, act_last hhigh h]
  | cons c q ih =>
    intro p rest b h n
    rw [List.length_cons, show q.length + 1 + 1 + n = (q.length + 1 + n) + 1 by omega, List.cons_append, Receiver.feed,
      act_reading hlow hhigh (more := q ++ [b]) (by rw [h]; simp) (by simp)]
    dsimp only
    rw [ih (by rw [h]; simp)]

/-- The steps a receiver may take are enough for the bytes at hand. -/
theorem take_steps (r : Receiver) (bytes : List Byte) :
    ∃ n, r.take bytes = Receiver.feed (bytes.length + (n + 1)) r bytes := by
  refine ⟨(r.assembly.length + bytes.length + 1) * (r.assembly.length + bytes.length + 1) - bytes.length - 1, ?_⟩
  have : bytes.length + 1 ≤ (r.assembly.length + bytes.length + 1) * (r.assembly.length + bytes.length + 1) :=
    (show bytes.length + 1 ≤ r.assembly.length + bytes.length + 1 by omega).trans (Nat.le_mul_self _)
  rw [Receiver.take]
  congr 1
  omega

include hlow hhigh in
/-- While bytes of a message are still to come, nothing is completed. -/
theorem take_reading {p q more : List Byte} (h : framed body = p ++ q ++ more) (hmore : more ≠ []) :
    (readingAt body.length p).take q = (readingAt body.length (p ++ q), []) := by
  obtain ⟨n, hn⟩ := take_steps (readingAt body.length p) q
  rw [hn]
  exact feed_reading hlow hhigh h hmore _

include hlow hhigh in
theorem take_hunting_prefix {p more : List Byte} (h : framed body = p ++ more) (hmore : more ≠ []) :
    Receiver.take .hunting p = (readingAt body.length p, []) :=
  take_reading hlow hhigh (p := []) h hmore

include hlow hhigh in
/-- The last byte of a message completes its body, and the receiver takes what follows from HUNT. -/
theorem take_last {p q rest : List Byte} {b : Byte} (h : framed body = p ++ q ++ [b]) :
    ∃ n, (readingAt body.length p).take (q ++ b :: rest) =
      ((Receiver.feed (rest.length + (n + 1)) .hunting rest).1,
        body :: (Receiver.feed (rest.length + (n + 1)) .hunting rest).2) := by
  obtain ⟨n, hn⟩ := take_steps (readingAt body.length p) (q ++ b :: rest)
  refine ⟨n, ?_⟩
  rw [hn, List.length_append, List.length_cons,
    show q.length + (rest.length + 1) + (n + 1) = q.length + 1 + (rest.length + (n + 1)) by omega]
  exact feed_last hlow hhigh h _

include hlow hhigh in
/-- A whole message completes exactly its body (R175). -/
theorem take_framed : Receiver.take .hunting (framed body) = (.hunting, [body]) := by
  obtain ⟨q, b, hq⟩ : ∃ q b, framed body = q ++ [b] :=
    ⟨_, _, (List.dropLast_append_getLast (by simp [framed] : framed body ≠ [])).symm⟩
  obtain ⟨n, hn⟩ := take_last hlow hhigh (p := []) (rest := []) hq
  rw [hq]
  refine hn.trans ?_
  rw [feed_nil]

end Framed

/-- Settles O13: the check is the spec's register, and the receiver follows a message from SYNC to its last CHECK byte. -/
theorem receiverReadsFramedBodies : Obligations.ReceiverReadsFramedBodies := by
  refine ⟨fun body _ _ => ?_, fun body hlow hhigh => take_framed hlow hhigh⟩
  have hbyte : crcByte = fun r b =>
      (fun r : BitVec 16 => if r.getLsbD 15 = true then (r <<< 1) ^^^ 0x1021 else r <<< 1)^[8] (r ^^^ (b ++ (0 : Byte))) := by
    funext r b
    rw [← funext crcShift_eq, crcByte, setWidth_shift_eq_append]
    rfl
  dsimp only
  rw [framed, bytes2_eq_extract, crc, hbyte]
  rfl

/-! ## The messages of the request commands -/

/-- The body of every request command's message reads back as its request. -/
theorem message_reads : ∀ c : Instr, Laws.Messages.Statement c
  | .powerUp lines keyLocked => Laws.Messages.powerUp lines keyLocked
  | .linkFrame lines keyLocked => Laws.Messages.linkFrame lines keyLocked
  | .upstreamFrame intact slots first second => Laws.Messages.upstreamFrame intact slots first second
  | .rackStatusWord intact word => Laws.Messages.rackStatusWord intact word
  | .slotAgeExpiry slot => Laws.Messages.slotAgeExpiry slot
  | .portLost port => Laws.Messages.portLost port
  | .portLocked port => Laws.Messages.portLocked port
  | .replySenderTake => Laws.Messages.replySenderTake
  | .descriptorAccept screen => Laws.Messages.descriptorAccept screen
  | .crossfadeEnd screen => Laws.Messages.crossfadeEnd screen
  | .swapMoment screen => Laws.Messages.swapMoment screen
  | .dipEnd screen => Laws.Messages.dipEnd screen
  | .meterWindowEnd => Laws.Messages.meterWindowEnd
  | .pictureFrameAdvance screen => Laws.Messages.pictureFrameAdvance screen
  | .timerTick screen timer => Laws.Messages.timerTick screen timer
  | .timerExpiry screen timer => Laws.Messages.timerExpiry screen timer
  | .pulsePeriodEnd line => Laws.Messages.pulsePeriodEnd line
  | .inputEdge line => Laws.Messages.inputEdge line
  | .boothKeyChange => Laws.Messages.boothKeyChange
  | .triggerHandling => Laws.Messages.triggerHandling
  | .tableWrite tag page word data => Laws.Messages.tableWrite tag page word data
  | .tableRead tag page word count => Laws.Messages.tableRead tag page word count
  | .screenState tag screen target => Laws.Messages.screenState tag screen target
  | .stateAction tag screen target => Laws.Messages.stateAction tag screen target
  | .safeAction tag screen => Laws.Messages.safeAction tag screen
  | .levelAction tag screen preset ramp => Laws.Messages.levelAction tag screen preset ramp
  | .muteAction tag screen on => Laws.Messages.muteAction tag screen on
  | .formatAction tag screen format => Laws.Messages.formatAction tag screen format
  | .releaseAction tag screen => Laws.Messages.releaseAction tag screen
  | .applyAction tag screen => Laws.Messages.applyAction tag screen
  | .safepointAction tag screen => Laws.Messages.safepointAction tag screen
  | .lineLow tag screen line => Laws.Messages.lineLow tag screen line
  | .lineHigh tag screen line => Laws.Messages.lineHigh tag screen line
  | .linePulse tag screen line => Laws.Messages.linePulse tag screen line
  | .lineTrain tag screen line => Laws.Messages.lineTrain tag screen line
  | .clockRun tag screen => Laws.Messages.clockRun tag screen
  | .clockStop tag screen => Laws.Messages.clockStop tag screen
  | .clockZero tag screen => Laws.Messages.clockZero tag screen
  | .timerStart tag screen timer => Laws.Messages.timerStart tag screen timer
  | .timerStop tag screen timer => Laws.Messages.timerStop tag screen timer
  | .reportAction tag screen code => Laws.Messages.reportAction tag screen code
  | .level tag screen value ramp => Laws.Messages.level tag screen value ramp
  | .clockLoad tag screen hours minutes seconds frames run => Laws.Messages.clockLoad tag screen hours minutes seconds frames run
  | .timerSet tag screen timer base count reload => Laws.Messages.timerSet tag screen timer base count reload
  | .acknowledge tag first last => Laws.Messages.acknowledge tag first last
  | .resume tag screen => Laws.Messages.resume tag screen
  | .cueArm tag entry setting => Laws.Messages.cueArm tag entry setting
  | .queryDevice tag => Laws.Messages.queryDevice tag
  | .queryScreen tag screen => Laws.Messages.queryScreen tag screen
  | .queryChannel tag screen channel => Laws.Messages.queryChannel tag screen channel
  | .queryAlarm tag entry => Laws.Messages.queryAlarm tag entry
  | .queryCue tag entry => Laws.Messages.queryCue tag entry
  | .queryPool tag => Laws.Messages.queryPool tag
  | .preserve tag => Laws.Messages.preserve tag
  | .preserveComplete => Laws.Messages.preserveComplete
  | .restore tag => Laws.Messages.restore tag
  | .restoreComplete => Laws.Messages.restoreComplete
  | .reset tag => Laws.Messages.reset tag
  | .badKindRequest tag bad => Laws.Messages.badKindRequest tag bad

/-- Settles O14: each command's message reads back as its request, and the message is framed and taken whole. -/
theorem requestCommandsAreTheirMessages : Obligations.RequestCommandsAreTheirMessages := by
  intro c body hwell hbody
  obtain ⟨hreads, hlow, hhigh⟩ := message_reads c hwell body hbody
  obtain ⟨r, hr⟩ : ∃ r, Request.ofBody body = some r := by
    match body, hlow with
    | type :: tag :: fields, _ => exact ⟨_, rfl⟩
  refine ⟨r, hreads.symm.trans hr, ?_, fun s => exec_request (hreads.symm.trans hr) s⟩
  rw [take_framed hlow hhigh, List.map_singleton, hr]

/-! ## Requests that wait -/

theorem State.joinRequest_waits {s : State} {r : Request} (h : s.ci.requests.length < 4) :
    s.joinRequest r = { s with ci := { s.ci with requests := s.ci.requests ++ [r] } } := if_pos h

theorem State.joinRequest_busy {s : State} {r : Request} (h : 4 ≤ s.ci.requests.length)
    (hreply : s.ci.replies.length < 8) : s.joinRequest r = s.reply r.tag .busy [] :=
  (if_neg (not_lt.mpr h)).trans (if_pos hreply)

theorem State.joinRequest_discarded {s : State} {r : Request} (h : 4 ≤ s.ci.requests.length)
    (hreply : 8 ≤ s.ci.replies.length) : s.joinRequest r = s :=
  (if_neg (not_lt.mpr h)).trans (if_neg (not_lt.mpr hreply))

/-- Settles O15: with 7 replies or more waiting the interpreter takes nothing. -/
theorem requestsWaitOrAreDiscarded : Obligations.RequestsWaitOrAreDiscarded := by
  intro c r s hr hfull
  rw [exec_request hr]
  refine ⟨fun hroom => ?_, fun hnone heq => ?_, fun hnone heq => ?_⟩
  · rw [State.request, State.joinRequest_waits hroom]
    exact congrArg Host.Outcome.next (State.interpret_full hfull)
  · have hafter : 7 ≤ (s.reply r.tag .busy []).ci.replies.length := by
      rw [State.reply, List.length_append]
      omega
    rw [State.request, State.joinRequest_busy hnone (by omega), State.interpret_full hafter]
  · rw [State.request, State.joinRequest_discarded hnone heq, State.interpret_full hfull]

/-! ## Control bytes (R22, R29, R175, R176) -/

section Classify

variable {p : Port}

theorem Port.classify_lost (h : p.lock = .lost) : p.classify true = { p with intactRun := min (p.intactRun + 1) 480 } := by
  obtain ⟨lock, intact, failure⟩ := p
  obtain rfl : lock = .lost := h
  rfl

theorem Port.classify_lost_damaged (h : p.lock = .lost) : p.classify false = { p with intactRun := 0 } := by
  obtain ⟨lock, intact, failure⟩ := p
  obtain rfl : lock = .lost := h
  rfl

theorem Port.classify_locked (h : p.lock = .locked) : p.classify true = { p with failureRun := 0 } := by
  obtain ⟨lock, intact, failure⟩ := p
  obtain rfl : lock = .locked := h
  rfl

theorem Port.classify_locked_damaged (h : p.lock = .locked) :
    p.classify false = { p with failureRun := min (p.failureRun + 1) 4 } := by
  obtain ⟨lock, intact, failure⟩ := p
  obtain rfl : lock = .locked := h
  rfl

/-- A LOST port's frame before the last of its run counts, and calls for no change of lock (R27). -/
theorem Port.classify_short (h : p.lock = .lost) (hrun : p.intactRun < 479) :
    (p.classify true).lock ≠ .locked ∧ (p.classify true).lockDue = false := by
  rw [Port.classify_lost h, Nat.min_eq_left (by omega), Port.lockDue]
  refine ⟨by simp [h], ?_⟩
  simp only [Config.lockRun, Bool.and_eq_false_iff, beq_eq_false_iff_ne]
  exact .inr (by omega)

end Classify

section Upstream

variable (s : State)

/-- A frame that is not used leaves the link interface with no sources, no descriptors and a receiver in HUNT (R29). -/
theorem State.receiveUpstream_unused {a : Option Arrival}
    (h : a = none ∨ (s.li.up.lock = .lost ∧ s.li.up.intactRun < 479)) :
    s.receiveUpstream a = { s with li := { s.li with
      up := s.li.up.classify a.isSome, upSeen := true, sources := (s.gathered []).sources
      descriptors := (s.gathered []).descriptors, receiver := .hunting } } := by
  match a, h with
  | none, _ => rfl
  | some a, .inr ⟨hlost, hrun⟩ =>
    obtain ⟨hnot, hdue⟩ := Port.classify_short hlost hrun
    unfold State.receiveUpstream
    dsimp only [Option.isSome_some]
    rw [if_neg hnot, hdue]
    rfl

/-- An intact frame of a LOCKED port is delivered: its slots are gathered, and the receiver takes its control bytes (R22). -/
theorem State.receiveUpstream_locked (hlock : s.li.up.lock = .locked) (a : Arrival) :
    s.receiveUpstream (some a) =
      State.joinBodies { s with li := { s.li with
        up := { s.li.up with failureRun := 0 }, upSeen := true, sources := (s.gathered a.slots).sources
        descriptors := (s.gathered a.slots).descriptors
        receiver := (s.li.receiver.take [a.first, a.second]).1 } } (s.li.receiver.take [a.first, a.second]).2 := by
  have hclassify := Port.classify_locked hlock
  have hstill : (s.li.up.classify true).lock = .locked := by rw [hclassify]; exact hlock
  refine (if_pos hstill).trans ?_
  unfold State.deliver State.gather
  dsimp only [Option.isSome_some]
  rw [hclassify]
  rfl

end Upstream

theorem take_hunt_other {b : Byte} (h : b ≠ 0xA5) (n : Nat) :
    Receiver.feed (n + 1) .hunting [b] = (.hunting, []) := by
  rw [Receiver.feed]
  simp only [Receiver.act, Receiver.hunting, if_neg h]
  exact feed_nil ..

theorem take_hunt_sync (n : Nat) : Receiver.feed (n + 1) .hunting [0xA5] = (⟨.length, [0xA5]⟩, []) := by
  rw [Receiver.feed]
  simp only [Receiver.act, Receiver.hunting, if_true]
  exact feed_nil ..

/-- Settles O16: a delivered frame's two bytes are taken by the receiver from where it stands in its message. -/
theorem controlBytesReachTheRequestQueue : Obligations.ControlBytesReachTheRequestQueue := by
  refine ⟨fun s intact slots first second hworked hseen hunused => ?_, fun s slots first second hworked hseen hlock => ?_⟩
  · have hnone : (if intact then some (⟨slots, first, second⟩ : Arrival) else none) = none ∨
        (s.li.up.lock = .lost ∧ s.li.up.intactRun < 479) := by
      rcases hunused with h | h
      · exact .inl (by rw [h]; rfl)
      · exact .inr h
    rw [exec_upstreamFrame, s.upstreamArrives_now hworked hseen, s.receiveUpstream_unused hnone]
    exact ⟨_, _, _, rfl⟩
  · refine ⟨(s.gathered slots).sources, (s.gathered slots).descriptors, ?_⟩
    intro gathered becomes
    have hall : becomes ((gathered (s.li.receiver.take [first, second]).1).joinBodies
        (s.li.receiver.take [first, second]).2) := by
      change exec _ _ = _
      rw [exec_upstreamFrame, s.upstreamArrives_now hworked hseen, if_pos rfl, s.receiveUpstream_locked hlock]
    refine ⟨fun receiver bodies htake => ?_, fun body sent hlow hhigh hsent => ?_⟩
    · rw [htake] at hall
      exact hall
    · have hprefix {more : List Byte} (h : framed body = sent ++ more) (hmore : more ≠ []) :
          s.li.receiver = readingAt body.length sent := by
        rw [hsent, take_hunting_prefix hlow hhigh h hmore]
      refine ⟨fun more hmore h => ?_, fun r hr => ⟨fun h => ?_, fun h hsync => ?_, fun h hsync => ?_⟩⟩
      · have htake := take_reading hlow hhigh h hmore
        rw [hprefix (h.trans (List.append_assoc ..)) (by simp), htake] at hall
        rw [take_hunting_prefix hlow hhigh h hmore]
        exact hall
      · obtain ⟨n, htake⟩ := take_last hlow hhigh (p := sent) (q := [first]) (b := second) (rest := [])
          (by rw [h]; simp)
        rw [hprefix h (by simp), show [first, second] = [first] ++ [second] from rfl, htake, feed_nil] at hall
        simpa [State.joinBodies, hr, Receiver.hunting] using hall
      all_goals
        obtain ⟨n, htake⟩ := take_last hlow hhigh (p := sent) (q := []) (b := first) (rest := [second])
          (by rw [h]; simp)
        rw [hprefix h (by simp), show [first, second] = [] ++ first :: [second] from rfl, htake] at hall
      · rw [List.length_singleton, Nat.add_comm, take_hunt_other hsync] at hall
        simpa [State.joinBodies, hr, Receiver.hunting] using hall
      · rw [hsync, List.length_singleton, Nat.add_comm, take_hunt_sync] at hall
        simpa [State.joinBodies, hr, Receiver.hunting] using hall

end Sys2Proof.Machine
end

section
/-!
PROOFS. Requests that are refused, and the short ones: levels, formats, clock actions, cue arming.
-/

namespace Sys2Proof.Machine

/-- A request that arrives while the interpreter may take it is executed at once (R176, R177). -/
theorem exec_ready {c : Instr} {tag : Byte} {body : RequestBody} (hc : requestOf c = some ⟨tag, body⟩) {s : State}
    (hs : s.ready) : exec c s = .next (s.execute tag body) := by
  rw [exec_request hc, State.request_ready hs]

/-! ## Refusals -/

/-- A code whose kind field names no action is none (R191). -/
theorem Action.ofCode_unnamed {code : BitVec 16} (h : code.toNat / 4096 = 0 ∨ 12 < code.toNat / 4096) :
    ∃ k, Action.ofCode code = .unnamed k := by
  have hkind : field (code.setWidth 32) 12 4 = code.toNat / 4096 % 16 := by
    have := field_setWidth code.toNat 12 4 code.isLt
    rwa [BitVec.ofNat_toNat, BitVec.setWidth_eq] at this
  have hlt : code.toNat / 4096 < 16 := Nat.div_lt_of_lt_mul code.isLt
  unfold Action.ofCode
  dsimp only
  rw [hkind, Nat.mod_eq_of_lt hlt]
  split <;> first | omega | exact ⟨_, rfl⟩

/-- A TYPE above those named asks for nothing (R177). -/
theorem bodyOf_unnamed {code : Byte} (h : code.toNat = 0 ∨ 14 < code.toNat) : bodyOf code [] = .badKind := by
  unfold bodyOf
  generalize code.toNat = n at h
  rcases h with rfl | h
  · rfl
  · obtain ⟨k, rfl⟩ : ∃ k, n = k + 15 := ⟨n - 15, by omega⟩
    have hbound : ¬(1 ≤ k + 15 ∧ k + 15 ≤ 14) := by omega
    exact if_neg hbound

section Refused

variable {s : State} {tag screen : Byte} (h : screenOf screen = none)
include h

theorem State.execute_level_refused (value : BitVec 16) (ramp : Byte) :
    s.execute tag (.level screen value ramp) = s.reply tag .range [] := by
  rw [State.execute, State.requestLevel, h]; rfl

theorem State.execute_state_refused (target : Byte) :
    s.execute tag (.screenState screen target) = s.reply tag .range [] := by
  rw [State.execute, State.requestState, h]; rfl

theorem State.execute_clockLoad_refused (hours minutes seconds frames run : Byte) :
    s.execute tag (.clockLoad screen hours minutes seconds frames run) = s.reply tag .range [] := by
  rw [State.execute, State.requestClockLoad, h]; rfl

theorem State.execute_timerSet_refused (timer base : Byte) (count : BitVec 16) (reload : Byte) :
    s.execute tag (.timerSet screen timer base count reload) = s.reply tag .range [] := by
  rw [State.execute, State.requestTimerSet, h]; rfl

theorem State.execute_resume_refused : s.execute tag (.resume screen) = s.reply tag .range [] := by
  rw [State.execute, State.requestResume, h]; rfl

theorem State.execute_queryScreen_refused : s.execute tag (.query (.screen screen)) = s.reply tag .range [] := by
  rw [State.execute, State.queryData, h]; rfl

theorem State.execute_queryChannel_refused (channel : Byte) :
    s.execute tag (.query (.channel screen channel)) = s.reply tag .range [] := by
  rw [State.execute, State.queryData, h]; rfl

theorem State.execute_action_refused (a : Action) :
    s.execute tag (.screenAction screen a) = s.reply tag .range [0xFF, 0xFF] := by
  have hrefused : s.requestAction tag screen a = (s, .range, [0xFF, 0xFF]) := by
    unfold State.requestAction
    simp only [h]
  rw [State.execute, hrefused]
  rfl

end Refused

theorem State.execute_action_unnamed {s : State} {tag screen : Byte} {i : Fin 8} (h : screenOf screen = some i)
    (k : Fin 16) : s.execute tag (.screenAction screen (.unnamed k)) = s.reply tag .badKind [0xFF, 0xFF] := by
  have hrefused : s.requestAction tag screen (.unnamed k) = (s, .badKind, [0xFF, 0xFF]) := by
    unfold State.requestAction
    simp only [h]
  rw [State.execute, hrefused]
  rfl

/-- Settles O17: the screen is looked up before anything else a request asks. -/
theorem unnamedScreensAndCodesAreRefused : Obligations.UnnamedScreensAndCodesAreRefused := by
  intro s tag hs
  refine ⟨fun screen hscreen => ?_, fun code hcode => ?_, fun screen i code hi hcode => ?_⟩
  · have hnone := screenOf_above hscreen
    have refused {c : Instr} {body : RequestBody} (hc : requestOf c = some ⟨tag, body⟩) {t : State}
        (ht : s.execute tag body = t) : exec c s = .next t := by rw [exec_ready hc hs, ht]
    exact ⟨fun value ramp => refused rfl (State.execute_level_refused hnone value ramp),
      fun target => refused rfl (State.execute_state_refused hnone target),
      fun h m sec f run => refused rfl (State.execute_clockLoad_refused hnone h m sec f run),
      fun timer base count reload => refused rfl (State.execute_timerSet_refused hnone timer base count reload),
      refused rfl (State.execute_resume_refused hnone), refused rfl (State.execute_queryScreen_refused hnone),
      fun channel => refused rfl (State.execute_queryChannel_refused hnone channel),
      fun c a hc => refused hc (State.execute_action_refused hnone a)⟩
  · rw [exec_ready (c := .badKindRequest tag (.type code)) (body := .badKind)
      (congrArg (fun body => some (⟨tag, body⟩ : Request)) (bodyOf_unnamed hcode)) hs]
    rfl
  · obtain ⟨k, hk⟩ := Action.ofCode_unnamed hcode
    rw [exec_ready (c := .badKindRequest tag (.action screen code)) (body := .screenAction screen (.unnamed k))
      (congrArg (fun a => some (⟨tag, .screenAction screen a⟩ : Request)) hk) hs, State.execute_action_unnamed hi]

/-! ## Levels and formats -/

theorem rampLength_eq {code : Nat} (h : code ≤ 3) : rampLength code = [256, 1024, 4096, 16384].getD code 0 := by
  match code with
  | 0 | 1 | 2 | 3 => rfl
  | k + 4 => omega

theorem State.runAction_level (s : State) (i : Fin 8) (origin : Origin) (depth : Nat) (p : Fin 8) (r : Fin 4) :
    s.runAction i origin depth (.level p r) =
      (s.modifyScreen i fun rec => { rec with fader := ⟨rec.fader.value, s.levelPreset i p,
        [256, 1024, 4096, 16384].getD r.val 0, 0⟩ }, .done) := by
  rw [← rampLength_eq (by omega)]
  rfl

/-- Settles O18: a LEVEL starts F anew from its value, by the action's preset or the request's value. -/
theorem levelMovesTheFader : Obligations.LevelMovesTheFader := by
  intro s i faded lengthOf preset
  refine ⟨fun origin depth p r => s.runAction_level i origin depth p r, fun tag screen hi hs => ⟨fun value ramp hramp => ?_,
    fun value ramp hramp => ?_, fun p r => ?_⟩⟩
  · rw [exec_ready (c := .level tag screen value ramp) rfl hs, State.execute, State.requestLevel, hi]
    dsimp only
    rw [if_neg (by omega), rampLength_eq hramp]
    rfl
  · rw [exec_ready (c := .level tag screen value ramp) rfl hs, State.execute, State.requestLevel, hi]
    dsimp only
    rw [if_pos hramp]
    rfl
  · have hrun := exec_action_ready (c := .levelAction tag screen p r) rfl nofun hi hs
    rw [State.runAction_level] at hrun
    exact hrun

/-- Settles O20: both actions act on the decode record alone. -/
theorem formatIsForcedAndReleased : Obligations.FormatIsForcedAndReleased := fun _ _ tag screen hi hs =>
  ⟨fun f => exec_action_ready (c := .formatAction tag screen f) rfl nofun hi hs,
    exec_action_ready (c := .releaseAction tag screen) rfl nofun hi hs⟩

/-! ## Show clocks -/

theorem State.modifyClock_congr {s : State} {i : Fin 8} {f g : Clock → Clock}
    (h : f (s.ct.clocks.get i) = g (s.ct.clocks.get i)) : s.modifyClock i f = s.modifyClock i g := by
  unfold State.modifyClock Tab.modify
  rw [h]

theorem Clock.latchRun_corrected {c : Clock} {rate : Rate} (h : rate.perSecond ≤ c.value.frames) :
    c.latchRun rate = { c with rate := rate, value := { c.value with frames := rate.perSecond - 1 }, subFrame := 0 } :=
  if_pos h

theorem Clock.latchRun_kept {c : Clock} {rate : Rate} (h : c.value.frames < rate.perSecond) :
    c.latchRun rate =
      { c with rate := rate, subFrame := if c.subFrame < rate.frameLength then c.subFrame else 0 } := by
  unfold Clock.latchRun
  rw [if_neg (not_le.mpr h)]
  by_cases hsub : c.subFrame < rate.frameLength
  · rw [if_neg (not_le.mpr hsub), if_pos hsub]
  · rw [if_pos (not_lt.mp hsub), if_neg hsub]

section ClockRun

variable {s : State} {i : Fin 8} (depth : Nat)

theorem State.clockRun_kept (h : (s.ct.clocks.get i).value.frames < (s.pictureRate i).perSecond) :
    s.clockAction i .run depth = (s.modifyClock i fun c => { c with
      rate := s.pictureRate i, running := true
      subFrame := if c.subFrame < (s.pictureRate i).frameLength then c.subFrame else 0 }, .done) := by
  have hmod : (s.modifyClock i fun c => { c.latchRun (s.pictureRate i) with running := true }) =
      s.modifyClock i fun c => { c with
        rate := s.pictureRate i, running := true
        subFrame := if c.subFrame < (s.pictureRate i).frameLength then c.subFrame else 0 } :=
    State.modifyClock_congr (by rw [Clock.latchRun_kept h])
  unfold State.clockAction
  dsimp only
  rw [hmod, State.modifyClock_ct, Tab.get_modify_same, if_pos rfl]

theorem State.clockRun_corrected (h : (s.pictureRate i).perSecond ≤ (s.ct.clocks.get i).value.frames) :
    let corrected : ClockValue := { (s.ct.clocks.get i).value with frames := (s.pictureRate i).perSecond - 1 }
    s.clockAction i .run depth = ((s.modifyClock i fun c => { c with
      rate := s.pictureRate i, running := true, value := corrected, subFrame := 0 }).makeTrigger
        (.clock i corrected) depth, triggerOutcome depth) := by
  intro corrected
  have hmod : (s.modifyClock i fun c => { c.latchRun (s.pictureRate i) with running := true }) =
      s.modifyClock i fun c => { c with
        rate := s.pictureRate i, running := true, value := corrected, subFrame := 0 } :=
    State.modifyClock_congr (by rw [Clock.latchRun_corrected h])
  have hchanged : corrected ≠ (s.ct.clocks.get i).value := fun heq => by
    have hframes : (s.pictureRate i).perSecond - 1 = (s.ct.clocks.get i).value.frames := congrArg ClockValue.frames heq
    have := (s.pictureRate i).perSecond_pos
    omega
  unfold State.clockAction
  dsimp only
  rw [hmod, State.modifyClock_ct, Tab.get_modify_same, if_neg hchanged]

end ClockRun

theorem loadable_iff (value : ClockValue) (rate : Rate) : loadable value rate = true ↔
    value.hours ≤ 23 ∧ value.minutes ≤ 59 ∧ value.seconds ≤ 59 ∧ value.frames < rate.perSecond := by
  simp [loadable, and_assoc]

theorem State.makeTrigger_zero (s : State) (event : TriggerEvent) : s.makeTrigger event 0 = s.pushTrigger ⟨event, 0⟩ :=
  if_pos (Nat.zero_le _)

/-- Settles O33: the actions of a request run at depth 0, where every trigger is made. -/
theorem clockActionsAndLoadsActOnTheClock : Obligations.ClockActionsAndLoadsActOnTheClock := by
  intro s i tag screen hi hs rate clock
  refine ⟨exec_action_ready (c := .clockStop tag screen) rfl nofun hi hs,
    exec_action_ready (c := .clockZero tag screen) rfl nofun hi hs, fun h => ?_, fun h => ?_,
    fun hours minutes seconds frames run => ?_⟩
  · have hrun := exec_action_ready (c := .clockRun tag screen) (a := .clock .run) rfl nofun hi hs
    rw [State.runAction, State.clockRun_kept 0 h] at hrun
    exact hrun
  · have hrun := exec_action_ready (c := .clockRun tag screen) (a := .clock .run) rfl nofun hi hs
    rw [State.runAction, State.clockRun_corrected 0 h, State.makeTrigger_zero] at hrun
    exact hrun
  · intro value inRange
    have hexec := exec_ready (c := .clockLoad tag screen hours minutes seconds frames run) rfl hs
    rw [State.execute, State.requestClockLoad, hi] at hexec
    dsimp only at hexec
    refine ⟨fun h => ?_, fun h => ?_⟩
    · rw [if_pos ((loadable_iff value rate).mpr h), State.makeTrigger_zero] at hexec
      exact hexec
    · rw [if_neg fun hload => h ((loadable_iff value rate).mp hload)] at hexec
      exact hexec

/-! ## Cue arming -/

/-- Settles O49: the setting is 0, 1 or refused. -/
theorem cueArmSetsTheArmedFlag : Obligations.CueArmSetsTheArmedFlag := by
  intro s tag entry setting hs
  have hexec := exec_ready (c := .cueArm tag entry setting) rfl hs
  refine ⟨fun h => ?_, fun h => ?_, fun h => ?_⟩
  · subst h; exact hexec
  · subst h; exact hexec
  · have hrefused : s.requestCueArm (entryOf entry) setting = (s, .range) := by
      unfold State.requestCueArm
      split
      · omega
      · omega
      · rfl
    rw [hexec, State.execute, hrefused]
    rfl

end Sys2Proof.Machine
end

section
/-!
PROOFS. Changes of a screen's state that requests and actions ask for (R3–R13).
-/

namespace Sys2Proof.Machine

/-! ## One change, its reports queued -/

/-- What one change of a screen's state, its reports queued, leaves (R4–R9, R13). -/
structure State.Changes (s t : State) (i : Fin 8) (target : ScreenState) (cause : StateCause) (safeCause : SafeCause)
    (depth : Nat) : Prop where
  record : ∃ dip, t.sc.get i = { (s.sc.get i).move target safeCause (s.safeGain i) with dip := dip }
  others : ∀ j, j ≠ i → t.sc.get j = s.sc.get j
  aside : t.aside = s.aside
  applied : s.ApplyHanded t i target
  falls : s.FallsFollow t i (s.screenState i) target
  reports : s.ReportsJoin t [] [[.state i (s.screenState i) target cause], s.fallReports i (s.screenState i) target,
    s.handedReports i target]
  triggers : depth ≤ 3 → s.TriggersJoin t [⟨.state i target, depth⟩]
  cut : 3 < depth → s.TriggersJoin t []
  replies : t.ci.replies = s.ci.replies
  requests : t.ci.requests = s.ci.requests

theorem State.queueReports_queues (s : State) (rs : List Report) :
    (s.queueReports rs).ci.replies = s.ci.replies ∧ (s.queueReports rs).ci.requests = s.ci.requests :=
  ⟨State.outer_replies (State.outer_queueReports _ _), State.outer_requests (State.outer_queueReports _ _)⟩

/-- What is handed over and falls in a change goes over to a state with the same screens, equaliser, alarms and outputs. -/
theorem State.ApplyHanded.congr {s t u : State} {i : Fin 8} {target : ScreenState} (h : s.ApplyHanded t i target)
    (hsc : u.sc = t.sc) (heq : u.eq = t.eq) : s.ApplyHanded u i target := by
  unfold State.ApplyHanded
  rw [hsc, heq]
  exact h

theorem State.moveScreen_changes (s : State) (i : Fin 8) (target : ScreenState) (cause : StateCause)
    (safeCause : SafeCause) (depth : Nat) :
    let m := s.moveScreen i target cause safeCause depth false
    s.Changes (m.1.queueReports m.2) i target cause safeCause depth := by
  intro m
  obtain ⟨hothers, ⟨dip, hrecord, -⟩, haside, -⟩ := s.moveScreen_spec i target cause safeCause depth false
  obtain ⟨hfalls, happlied⟩ := s.moveScreen_falls i target cause safeCause depth
  obtain ⟨hreports, htriggers, hcut⟩ := s.moveScreen_joins i target cause safeCause depth false
  obtain ⟨-, hci, -⟩ := s.moveScreen_reports i target cause safeCause depth false
  have hsilent : (m.1.queueReports m.2).silent = m.1.silent := State.silent_queueReports _ _
  obtain ⟨hreplies, hrequests⟩ := m.1.queueReports_queues m.2
  exact {
    record := ⟨dip, by rw [State.silent_sc hsilent]; exact hrecord⟩
    others := fun j hj => by rw [State.silent_sc hsilent]; exact hothers j hj
    aside := (State.aside_of_silent hsilent).trans haside
    applied := happlied.congr (State.silent_sc hsilent) (State.silent_eq hsilent)
    falls := hfalls.congr rfl rfl rfl (State.silent_am hsilent) (State.silent_os hsilent)
      (State.outer_ts (congrArg Silent.outer hsilent))
    reports := hreports
    triggers := htriggers
    cut := hcut
    replies := hreplies.trans (congrArg Interpreter.replies hci)
    requests := hrequests.trans (congrArg Interpreter.requests hci) }

section Fields

variable {s t : State} {i : Fin 8} {target : ScreenState} {cause : StateCause} {safeCause : SafeCause} {depth : Nat}
  (h : s.Changes t i target cause safeCause depth)
include h

theorem State.Changes.state : t.screenState i = target := by
  obtain ⟨dip, hr⟩ := h.record
  rw [State.screenState, hr]; rfl

theorem State.Changes.fader : (t.sc.get i).fader = (s.sc.get i).fader := by
  obtain ⟨dip, hr⟩ := h.record
  rw [hr]; rfl

theorem State.Changes.mute : (t.sc.get i).mute = (s.sc.get i).mute := by
  obtain ⟨dip, hr⟩ := h.record
  rw [hr]; rfl

theorem State.Changes.bank : (t.sc.get i).activeBank = (s.sc.get i).activeBank := by
  obtain ⟨dip, hr⟩ := h.record
  rw [hr]; rfl

theorem State.Changes.resume : (t.sc.get i).resume = if target = .safe then some (s.screenState i) else none := by
  obtain ⟨dip, hr⟩ := h.record
  rw [hr]; rfl

theorem State.Changes.why : (t.sc.get i).cause = if target = .safe then some safeCause else none := by
  obtain ⟨dip, hr⟩ := h.record
  rw [hr]; rfl

theorem State.Changes.safeRamp : (t.sc.get i).safeRamp =
    if target = .safe then ⟨(s.sc.get i).safeRamp.value, min (field (s.word 1 (32 * i.val + 12)) 0 16) 32768, 64, 0⟩
    else if s.screenState i = .safe then ⟨(s.sc.get i).safeRamp.value, 32768, 64, 0⟩ else (s.sc.get i).safeRamp := by
  obtain ⟨dip, hr⟩ := h.record
  rw [hr]; rfl

theorem State.Changes.pendingApply :
    (t.sc.get i).pendingApply = if target.playing = true then (s.sc.get i).pendingApply else none := h.applied.1

theorem State.Changes.ts : t.ts = s.ts := State.outer_ts (State.aside_outer h.aside)

theorem State.Changes.li : t.li = s.li := State.outer_li (State.aside_outer h.aside)

theorem State.Changes.ct : t.ct = s.ct := State.aside_ct h.aside

theorem State.Changes.bl : t.bl = s.bl := State.aside_bl h.aside

theorem State.Changes.cues : t.ce.cues = s.ce.cues := State.aside_cues h.aside

end Fields

/-! ## What is asked for -/

section Ask

variable {s : State} {i : Fin 8} (cause : StateCause) (depth : Nat)

theorem State.askState_same : s.askState i (some (s.screenState i)) cause depth = (s, .done) := if_pos rfl

theorem State.askState_none : s.askState i none cause depth = (s, .state) := rfl

theorem State.askState_notAllowed {target : ScreenState} (hne : target ≠ s.screenState i)
    (h : (s.screenState i).allows target = false) : s.askState i (some target) cause depth = (s, .state) := by
  unfold State.askState
  dsimp only
  rw [if_neg hne, h]
  rfl

theorem State.askState_restoring (hoff : s.screenState i = .offline) (hrest : s.ts.state = .restoring) :
    s.askState i (some .idle) cause depth = (s, .state) := by
  unfold State.askState
  dsimp only
  rw [hoff, hrest]
  rfl

theorem State.askState_noSpace (hoff : s.screenState i = .offline) (hrest : s.ts.state ≠ .restoring)
    (hfit : s.freePages < s.bankNeed i (s.activeBank i)) : s.askState i (some .idle) cause depth = (s, .noSpace) := by
  have hno : s.enableFits i = false := decide_eq_false (not_le.mpr hfit)
  unfold State.askState
  dsimp only
  rw [hoff, hno, if_neg (by decide), if_neg (by decide), if_neg (by simpa using hrest)]
  rfl

/-- A change that passes its checks is made, with the entry into SAFE that a lost link adds (R3, R5, R11, R174). -/
theorem State.askState_allowed {target : ScreenState} (hallow : (s.screenState i).allows target = true)
    (hup : s.screenState i = .offline → s.ts.state ≠ .restoring ∧ s.bankNeed i (s.activeBank i) ≤ s.freePages) :
    s.askState i (some target) cause depth = (s.goTo i target cause depth, triggerOutcome depth) := by
  have hne : target ≠ s.screenState i := fun h => by
    rw [h] at hallow
    generalize s.screenState i = old at hallow
    cases old <;> cases hallow
  unfold State.askState
  dsimp only
  rw [if_neg hne, hallow, if_neg (by decide)]
  by_cases hoff : s.screenState i = .offline
  · obtain ⟨hrest, hfit⟩ := hup hoff
    have hfits : s.enableFits i = true := decide_eq_true hfit
    rw [if_neg (by simp [hrest]), if_neg (by simp [hfits])]
  · rw [if_neg (by simp [hoff]), if_neg (by simp [hoff])]

theorem State.goTo_changes {target : ScreenState} (h : target.playing = false ∨ s.li.up.lock = .locked) :
    s.Changes (s.goTo i target cause depth) i target cause .command depth := by
  rw [s.goTo_once i target cause depth h]
  exact s.moveScreen_changes i target cause .command depth

end Ask

/-! ## The requests that ask -/

theorem ScreenState.ofCode_code (target : ScreenState) : ScreenState.ofCode target.code = some target := by
  cases target <;> rfl

theorem ScreenState.code_byte (target : ScreenState) : (byte target.code).toNat = target.code := by
  cases target <;> rfl

theorem ScreenState.code_bits (target : ScreenState) : (BitVec.ofNat 3 target.code).toNat = target.code := by
  cases target <;> rfl

section Requests

variable {s next : State} {i : Fin 8} {tag screen : Byte} {outcome : ActionOutcome}

theorem exec_screenState (hi : screenOf screen = some i) (hs : s.ready) {b : Byte} {target : Option ScreenState}
    (hb : ScreenState.ofCode b.toNat = target) (hask : s.askState i target (.request tag) 0 = (next, outcome)) :
    exec (.screenState tag screen b) s = .next (next.reply tag outcome.result []) := by
  rw [exec_ready (c := .screenState tag screen b) rfl hs, State.execute, State.requestState, hi]
  dsimp only
  rw [hb, hask]
  rfl

theorem exec_stateAction (hi : screenOf screen = some i) (hs : s.ready) {b : BitVec 3} {target : Option ScreenState}
    (hb : ScreenState.ofCode b.toNat = target) (hask : s.askState i target (.request tag) 0 = (next, outcome)) :
    exec (.stateAction tag screen b) s = .next (next.reply tag outcome.result [1, outcome.code]) :=
  exec_action_outcome (a := .state b) rfl nofun hi hs (by rw [State.runAction, hb]; exact hask)

theorem exec_safeAction (hi : screenOf screen = some i) (hs : s.ready)
    (hask : s.askState i (some .safe) (.request tag) 0 = (next, outcome)) :
    exec (.safeAction tag screen) s = .next (next.reply tag outcome.result [2, outcome.code]) :=
  exec_action_outcome (a := .safe) rfl nofun hi hs hask

end Requests

/-- The changes R3's table allows from a state other than OFFLINE. -/
theorem ScreenState.allows_of_mem {old target : ScreenState}
    (h : (old, target) ∈ [(ScreenState.idle, ScreenState.preshow), (.idle, .feature), (.idle, .offline),
      (.idle, .safe), (.preshow, .feature), (.preshow, .idle), (.preshow, .safe), (.feature, .idle),
      (.feature, .safe), (.safe, .idle), (.safe, .offline)]) : old.allows target = true ∧ old ≠ .offline := by
  cases old <;> cases target <;> simp at h <;> exact ⟨rfl, by decide⟩

/-- The changes that R3's table does not list. -/
theorem ScreenState.not_allows_of_mem {old target : ScreenState}
    (h : (old, target) ∈ [(ScreenState.offline, ScreenState.preshow), (.offline, .feature), (.offline, .safe),
      (.preshow, .offline), (.feature, .preshow), (.feature, .offline), (.safe, .preshow), (.safe, .feature)]) :
    old.allows target = false ∧ target ≠ old := by
  cases old <;> cases target <;> simp at h <;> exact ⟨rfl, by decide⟩

theorem ScreenState.playing_false {target : ScreenState} (h : target ≠ .preshow ∧ target ≠ .feature) :
    target.playing = false := by
  cases target <;> simp_all [ScreenState.playing]

/-- Settles O21: both commands ask for one change, which `State.moveScreen_changes` describes. -/
theorem allowedStateChangesAreMade : Obligations.AllowedStateChangesAreMade := by
  intro s i tag screen target hi hs hlock hallowed old made
  have hplays : target.playing = false ∨ s.li.up.lock = .locked :=
    hlock.symm.imp ScreenState.playing_false id
  have hask : s.askState i (some target) (.request tag) 0 = (s.goTo i target (.request tag) 0, .done) := by
    rcases hallowed with hmem | ⟨hoff, rfl, hrest, hfit⟩
    · obtain ⟨hallow, hon⟩ := ScreenState.allows_of_mem hmem
      exact State.askState_allowed _ 0 hallow fun hoff => absurd hoff hon
    · exact State.askState_allowed _ 0 (by rw [hoff]; rfl) fun _ => ⟨hrest, hfit⟩
  have hmade (data : List Byte) : made ((s.goTo i target (.request tag) 0).reply tag .ok data) data := by
    have h := State.goTo_changes (.request tag) 0 (i := i) hplays
    generalize s.goTo i target (.request tag) 0 = t at h ⊢
    exact ⟨h.state, h.fader, h.mute, h.bank, h.resume, h.why, h.safeRamp, h.applied, h.falls, h.others, h.reports,
      h.triggers (by decide), congrArg (· ++ _) h.replies, h.requests, h.ts, h.li, h.ct, h.bl, h.cues⟩
  exact ⟨⟨_, exec_screenState hi hs (by rw [ScreenState.code_byte, ScreenState.ofCode_code]) hask, hmade []⟩,
    _, exec_stateAction hi hs (by rw [ScreenState.code_bits, ScreenState.ofCode_code]) hask, hmade [1, 0]⟩

/-- Settles O22: the checks of a change come before everything it does. -/
theorem otherStateChangesChangeNothing : Obligations.OtherStateChangesChangeNothing := by
  intro s i tag screen target hi hs answered
  have refused {outcome : ActionOutcome} (hask : s.askState i (ScreenState.ofCode target) (.request tag) 0 = (s, outcome)) :
      answered outcome.result outcome.code := by
    refine ⟨fun b hb => exec_screenState hi hs (by rw [hb]) hask, fun b hb => exec_stateAction hi hs (by rw [hb]) hask,
      fun hsafe => exec_safeAction hi hs ?_⟩
    rw [hsafe] at hask
    exact hask
  refine ⟨fun h => refused (outcome := .done) ?_, fun h => refused (outcome := .state) ?_,
    fun t ht hmem => refused (outcome := .state) ?_, fun hoff hidle =>
      ⟨fun hrest => refused (outcome := .state) ?_, fun hrest hfit => refused (outcome := .noSpace) ?_⟩⟩
  · rw [h]; exact State.askState_same _ 0
  · rw [h]; exact State.askState_none _ 0
  · obtain ⟨hallow, hne⟩ := ScreenState.not_allows_of_mem hmem
    rw [ht]
    exact State.askState_notAllowed _ 0 hne hallow
  · rw [hidle]; exact State.askState_restoring _ 0 hoff hrest
  · rw [hidle]; exact State.askState_noSpace _ 0 hoff hrest hfit

/-! ## SAFE and RESUME -/

/-- A change between states that are not OFFLINE leaves the decode records, the pages, and what it need not hand over. -/
theorem State.goTo_stays {s : State} {i : Fin 8} {target : ScreenState} (cause : StateCause) (depth : Nat)
    (h : target.playing = false ∨ s.li.up.lock = .locked) (htarget : target ≠ .offline)
    (hon : s.screenState i ≠ .offline) :
    (s.goTo i target cause depth).de = s.de ∧
      ((s.sc.get i).pendingApply = none →
        ((s.goTo i target cause depth).sc.get i).dip = (s.sc.get i).dip ∧ (s.goTo i target cause depth).eq = s.eq) := by
  obtain ⟨-, ⟨dip, hrecord, hdip⟩, -, -, hstays⟩ := s.moveScreen_spec i target cause .command depth false
  obtain ⟨hde, -, -, heq, -⟩ := hstays htarget hon
  rw [s.goTo_once i target cause depth h]
  refine ⟨(State.queueReports_de _ _).trans hde, fun hnone => ⟨?_, (State.queueReports_eq _ _).trans (heq (.inl hnone))⟩⟩
  rw [State.queueReports_sc, hrecord]
  exact hdip (.inl hnone)

/-- Settles O25: a SAFE action asks for SAFE. -/
theorem safeActionEntersSafe : Obligations.SafeActionEntersSafe := by
  intro s i tag screen hi hs hfrom
  have hallow : (s.screenState i).allows .safe = true ∧ s.screenState i ≠ .offline := by
    rcases hfrom with h | h | h <;> rw [h] <;> exact ⟨rfl, by decide⟩
  have hask := State.askState_allowed (s := s) (.request tag) 0 hallow.1 fun hoff => absurd hoff hallow.2
  have h := State.goTo_changes (s := s) (i := i) (target := .safe) (.request tag) 0 (.inl rfl)
  obtain ⟨hde, hquiet⟩ := State.goTo_stays (s := s) (i := i) (target := .safe) (.request tag) 0 (.inl rfl) (by decide) hallow.2
  have hexec := exec_safeAction hi hs hask
  generalize s.goTo i .safe (.request tag) 0 = u at h hde hquiet hexec
  exact ⟨_, hexec, h.state, h.resume, h.why, h.pendingApply, h.safeRamp, h.fader, h.mute, h.bank,
    hquiet, h.applied, h.falls, h.others, h.reports, h.triggers (by decide), congrArg (· ++ _) h.replies, h.ts, h.li, hde,
    h.ct, h.bl⟩

section Resume

variable {s : State} {i : Fin 8} {tag screen : Byte} {target : ScreenState}

theorem exec_resume (hi : screenOf screen = some i) (hs : s.ready) :
    exec (.resume tag screen) s = .next ((s.resumeScreen i tag).1.reply tag (s.resumeScreen i tag).2 []) := by
  rw [exec_ready (c := .resume tag screen) rfl hs, State.execute, State.requestResume, hi]
  rfl

theorem State.resumeScreen_notSafe (h : s.screenState i ≠ .safe) : s.resumeScreen i tag = (s, .state) := by
  unfold State.resumeScreen
  split
  · next hsafe _ => exact absurd hsafe h
  · rfl

variable (hsafe : s.screenState i = .safe) (hresume : (s.sc.get i).resume = some target)
include hsafe hresume

theorem State.resumeScreen_safe : s.resumeScreen i tag =
    if (s.sc.get i).cause = some .link ∧ s.li.up.lock = .lost then (s, .state)
    else if s.tripActive i = true then (s, .tripActive) else (s.goTo i target (.request tag) 0, .ok) := by
  unfold State.resumeScreen
  rw [hsafe, hresume]
  dsimp only
  simp only [Bool.and_eq_true, beq_iff_eq]

end Resume

/-- No report of a fall comes with a change that stops no screen. -/
theorem State.fallReports_none (s : State) (i : Fin 8) {old target : ScreenState} (htarget : target ≠ .offline)
    (hstops : (old.playing && !target.playing) = false) : s.fallReports i old target = [] := by
  unfold State.fallReports
  rw [List.filterMap_eq_nil_iff]
  intro e _
  simp [htarget, hstops]

theorem flatten_erase_nil {α : Type} [DecidableEq α] (gs : List (List α)) : (gs.erase []).flatten = gs.flatten := by
  induction gs with
  | nil => rfl
  | cons g gs ih =>
    rw [List.erase_cons]
    split
    · next h => simp [beq_iff_eq.mp h]
    · rw [List.flatten_cons, List.flatten_cons, ih]

/-- A block with no report makes no difference to the order in which reports join. -/
theorem State.ReportsJoin.dropNil {s t : State} {first : List Report} {groups : List (List Report)}
    (h : s.ReportsJoin t first groups) : s.ReportsJoin t first (groups.erase []) := by
  obtain ⟨gs, hperm, hjoin⟩ := h
  refine ⟨gs.erase [], hperm.erase [], ?_⟩
  rw [flatten_erase_nil]
  exact hjoin

theorem State.tripActive_false {s : State} {i : Fin 8}
    (h : ¬∃ e : Fin 256, (s.am.entries.get e).tier = .trip ∧
      flag (s.word (19 + e.val / 64) (4 * (e.val % 64))) 0 = true ∧
      field (s.word (19 + e.val / 64) (4 * (e.val % 64))) 4 3 = i.val ∧
      flag (s.word (19 + e.val / 64) (4 * (e.val % 64) + 3)) 16 = true) : ¬s.tripActive i = true :=
  fun ht => h ((s.tripActive_iff i).mp ht)

/-- Settles O26: the checks in R12's order, then one change to the resume state. -/
theorem resumeReturnsFromSafe : Obligations.ResumeReturnsFromSafe := by
  intro s i tag screen hi hs tripActive
  rw [exec_resume hi hs]
  refine ⟨fun h => by rw [State.resumeScreen_notSafe h], fun target hsafe hresume hto => ?_⟩
  rw [State.resumeScreen_safe hsafe hresume]
  refine ⟨fun hcause hlost => by rw [if_pos ⟨hcause, hlost⟩], fun hnot htrip => ?_, fun hlock htrip => ?_⟩
  · rw [if_neg hnot, if_pos ((s.tripActive_iff i).mpr htrip)]
  · have hnot : ¬((s.sc.get i).cause = some .link ∧ s.li.up.lock = .lost) := by
      rintro ⟨hcause, hlost⟩
      rcases hlock with h | ⟨h, -⟩
      · rw [hlost] at h; cases h
      · exact h hcause
    have hplays : target.playing = false ∨ s.li.up.lock = .locked := by
      rcases hlock with h | ⟨-, rfl⟩
      · exact .inr h
      · exact .inl rfl
    have hoff : target ≠ .offline ∧ target ≠ .safe := by
      rcases hto with rfl | rfl | rfl <;> decide
    rw [if_neg hnot, if_neg (State.tripActive_false htrip)]
    have h := State.goTo_changes (s := s) (i := i) (.request tag) 0 hplays
    have hreports := h.reports
    rw [hsafe, s.fallReports_none i hoff.1 (by rfl)] at hreports
    have hfalls := h.falls
    rw [hsafe] at hfalls
    generalize s.goTo i target (.request tag) 0 = t at h hreports hfalls ⊢
    refine ⟨_, rfl, h.state, h.resume.trans (if_neg hoff.2), h.why.trans (if_neg hoff.2),
      h.safeRamp.trans ((if_neg hoff.2).trans (if_pos hsafe)), h.fader, h.mute, h.applied, hfalls, h.others, ?_,
      h.triggers (by decide), congrArg (· ++ _) h.replies, h.ts, h.li, h.ct, h.bl⟩
    exact hreports.dropNil

end Sys2Proof.Machine
end

section
/-!
PROOFS. The change of state that a lost link follows with SAFE (R11), and a screen brought up and taken down (R5, R6).
-/

namespace Sys2Proof.Machine

/-! ## A change into a playing state -/

theorem State.handedReports_none (s : State) (i : Fin 8) {target : ScreenState} (h : target.playing = true) :
    s.handedReports i target = [] := by
  unfold State.handedReports
  split <;> simp [h]

/-- A change into a playing state of a screen that is not OFFLINE reports itself alone. -/
theorem State.moveScreen_playing_reports (s : State) (i : Fin 8) {target : ScreenState} (cause : StateCause)
    (safeCause : SafeCause) (depth : Nat) (htarget : target.playing = true) :
    (s.moveScreen i target cause safeCause depth false).2 = [.state i (s.screenState i) target cause] := by
  obtain ⟨⟨gs, hperm, hgs⟩, -⟩ := s.moveScreen_reports i target cause safeCause depth false
  have hoff : target ≠ .offline := fun h => by rw [h] at htarget; cases htarget
  rw [s.fallReports_none i hoff (by rw [htarget, Bool.not_true, Bool.and_false]), s.handedReports_none i htarget] at hperm
  have hone : ((gs.erase []).erase []).Perm [[.state i (s.screenState i) target cause]] := (hperm.erase []).erase []
  rw [hgs, ← flatten_erase_nil gs, ← flatten_erase_nil (gs.erase []), List.perm_singleton.mp hone]
  rfl

/-- Such a change leaves the alarm entries, the outputs and the equaliser. -/
theorem State.moveScreen_playing_rest (s : State) (i : Fin 8) {target : ScreenState} (cause : StateCause)
    (safeCause : SafeCause) (depth : Nat) (htarget : target.playing = true) (hon : s.screenState i ≠ .offline) :
    let t := (s.moveScreen i target cause safeCause depth false).1
    t.am = s.am ∧ t.os = s.os ∧ t.eq = s.eq ∧ (t.sc.get i).dip = (s.sc.get i).dip ∧
      (t.sc.get i).pendingApply = (s.sc.get i).pendingApply := by
  intro t
  have hoff : target ≠ .offline := fun h => by rw [h] at htarget; cases htarget
  obtain ⟨m, dip, -, -, hos, ham, -, -, -, hsilent⟩ := s.moveScreen_follow i target cause safeCause depth false
  obtain ⟨-, ⟨dip', hrecord, hdip⟩, -, -, hstays⟩ := s.moveScreen_spec i target cause safeCause depth false
  have hfollow : (m.followMove i (s.screenState i) target false).1 = m := by
    unfold State.followMove
    rw [if_neg hoff, if_neg hon, if_neg (by simp [htarget])]
  rw [hfollow] at hsilent
  refine ⟨(State.silent_am hsilent).trans ham, (State.silent_os hsilent).trans hos,
    (hstays hoff hon).2.2.2.1 (.inr htarget), ?_, ?_⟩
  · rw [hrecord]
    exact hdip (.inr htarget)
  · rw [hrecord]
    exact if_pos htarget

/-! ## SAFE for a lost link -/

/-- A change into a playing state with the entry into SAFE that a lost link adds, the reports queued (R11). -/
structure State.Safed (s t : State) (i : Fin 8) (target : ScreenState) (cause : StateCause) (depth : Nat) : Prop where
  state : t.screenState i = .safe
  resume : (t.sc.get i).resume = some target
  why : (t.sc.get i).cause = some .link
  pendingApply : (t.sc.get i).pendingApply = none
  safeRamp : (t.sc.get i).safeRamp =
    ⟨(s.sc.get i).safeRamp.value, min (field (s.word 1 (32 * i.val + 12)) 0 16) 32768, 64, 0⟩
  fader : (t.sc.get i).fader = (s.sc.get i).fader
  mute : (t.sc.get i).mute = (s.sc.get i).mute
  bank : (t.sc.get i).activeBank = (s.sc.get i).activeBank
  others : ∀ j, j ≠ i → t.sc.get j = s.sc.get j
  aside : t.aside = s.aside
  applied : s.ApplyHanded t i .safe
  falls : s.FallsFollow t i target .safe
  reports : s.ReportsJoin t [.state i (s.screenState i) target cause]
    [[.state i target .safe .link], s.fallReports i target .safe, s.handedReports i .safe]
  triggers : depth ≤ 3 → s.TriggersJoin t [⟨.state i target, depth⟩, ⟨.state i .safe, 0⟩]
  cut : 3 < depth → s.TriggersJoin t [⟨.state i .safe, 0⟩]
  replies : t.ci.replies = s.ci.replies

section Fields

variable {s t : State} {i : Fin 8} {target : ScreenState} {cause : StateCause} {depth : Nat}
  (h : s.Safed t i target cause depth)
include h

theorem State.Safed.ts : t.ts = s.ts := State.outer_ts (State.aside_outer h.aside)

theorem State.Safed.li : t.li = s.li := State.outer_li (State.aside_outer h.aside)

theorem State.Safed.ct : t.ct = s.ct := State.aside_ct h.aside

theorem State.Safed.bl : t.bl = s.bl := State.aside_bl h.aside

theorem State.Safed.cues : t.ce.cues = s.ce.cues := State.aside_cues h.aside

end Fields

theorem State.goTo_lost {s : State} {i : Fin 8} {target : ScreenState} (cause : StateCause) (depth : Nat)
    (hlost : s.li.up.lock = .lost) (htarget : target.playing = true) :
    s.goTo i target cause depth =
      let first := s.moveScreen i target cause .command depth false
      let second := first.1.moveScreen i .safe .link .link 0 false
      second.1.queueReports (first.2 ++ second.2) := by
  obtain ⟨-, ⟨dip, hrecord, -⟩, haside, -⟩ := s.moveScreen_spec i target cause .command depth false
  have hplays : (s.moveScreen i target cause .command depth false).1.playing i = true := by
    rw [State.playing, State.screenState, hrecord]
    exact htarget
  have hli := State.outer_li (State.aside_outer haside)
  unfold State.goTo State.safeIfLost
  dsimp only
  rw [hplays, hli, hlost]
  rfl

/-- What a change hands over, and what falls with it, read of the state before it alone. -/
theorem State.fallReports_congr {s t : State} (hts : t.ts = s.ts) (ham : t.am = s.am) (i : Fin 8)
    (old target : ScreenState) : t.fallReports i old target = s.fallReports i old target := by
  have hentry (e : Fin 256) : t.alarmEntry e = s.alarmEntry e := by
    unfold State.alarmEntry State.alarmWord State.word
    rw [hts]
  unfold State.fallReports
  simp only [hentry, ham]

theorem State.handedReports_congr {s t : State} {i : Fin 8} (heq : t.eq = s.eq)
    (hpending : (t.sc.get i).pendingApply = (s.sc.get i).pendingApply) (target : ScreenState) :
    t.handedReports i target = s.handedReports i target := by
  unfold State.handedReports
  rw [heq, hpending]

theorem State.ApplyHanded.congrBefore {s t u : State} {i : Fin 8} {target : ScreenState} (h : s.ApplyHanded t i target)
    (heq : u.eq = s.eq) (hdip : (u.sc.get i).dip = (s.sc.get i).dip)
    (hpending : (u.sc.get i).pendingApply = (s.sc.get i).pendingApply) : u.ApplyHanded t i target := by
  unfold State.ApplyHanded
  rw [heq, hdip, hpending]
  exact h

theorem State.makeTrigger_ce (s : State) (event : TriggerEvent) {depth : Nat} (h : depth ≤ 3) :
    s.makeTrigger event depth = s.pushTrigger ⟨event, depth⟩ := if_pos h

theorem State.makeTrigger_cut (s : State) (event : TriggerEvent) {depth : Nat} (h : 3 < depth) :
    s.makeTrigger event depth = s := if_neg (not_le.mpr h)

theorem State.goTo_safed {s : State} {i : Fin 8} {target : ScreenState} (cause : StateCause) (depth : Nat)
    (hlost : s.li.up.lock = .lost) (htarget : target.playing = true) (hon : s.screenState i ≠ .offline) :
    s.Safed (s.goTo i target cause depth) i target cause depth := by
  have htargetSafe : target ≠ .safe := fun h => by rw [h] at htarget; cases htarget
  rw [State.goTo_lost cause depth hlost htarget]
  dsimp only
  obtain ⟨ham, hos, heq, hdip, hpending⟩ := s.moveScreen_playing_rest i cause .command depth htarget hon
  have hfirst := s.moveScreen_playing_reports i cause .command depth htarget
  obtain ⟨-, hci, hce⟩ := s.moveScreen_reports i target cause .command depth false
  obtain ⟨hothers, ⟨dip, hrecord, -⟩, haside, -⟩ := s.moveScreen_spec i target cause .command depth false
  generalize s.moveScreen i target cause .command depth false = first at *
  have hts : first.1.ts = s.ts := State.outer_ts (State.aside_outer haside)
  have hstate : first.1.screenState i = target := congrArg ScreenRecord.state hrecord
  have hsafe := first.1.moveScreen_changes i .safe .link .link 0
  obtain ⟨⟨gs, hperm, hsecond⟩, hci2, hce2⟩ := first.1.moveScreen_reports i .safe .link .link 0 false
  dsimp only at hsafe
  generalize first.1.moveScreen i .safe .link .link 0 false = second at *
  have hsilent : (second.1.queueReports (first.2 ++ second.2)).silent = (second.1.queueReports second.2).silent :=
    (State.silent_queueReports _ _).trans (State.silent_queueReports _ _).symm
  have hsc := State.silent_sc hsilent
  have hceAll : (second.1.queueReports (first.2 ++ second.2)).ce = (first.1.pushTrigger ⟨.state i .safe, 0⟩).ce := by
    rw [State.queueReports_ce, hce2, State.makeTrigger_zero]
  have hword : first.1.word 1 (32 * i.val + 12) = s.word 1 (32 * i.val + 12) := by rw [State.word, State.word, hts]
  have hramp : (first.1.sc.get i).safeRamp.value = (s.sc.get i).safeRamp.value := by
    rw [hrecord]
    unfold ScreenRecord.move
    dsimp only
    rw [if_neg htargetSafe]
    split
    · exact Ramp.value_retarget _ _ _
    · rfl
  exact {
    state := by rw [State.screenState, hsc]; exact hsafe.state
    resume := by rw [hsc, hsafe.resume, if_pos rfl, hstate]
    why := by rw [hsc, hsafe.why, if_pos rfl]
    pendingApply := by rw [hsc]; exact hsafe.pendingApply
    safeRamp := by rw [hsc, hsafe.safeRamp, if_pos rfl, hword, hramp]
    fader := by rw [hsc, hsafe.fader, hrecord]; rfl
    mute := by rw [hsc, hsafe.mute, hrecord]; rfl
    bank := by rw [hsc, hsafe.bank, hrecord]; rfl
    others := fun j hj => by rw [hsc, hsafe.others j hj, hothers j hj]
    aside := (State.aside_of_silent hsilent).trans (hsafe.aside.trans haside)
    applied := (hsafe.applied.congr hsc (State.silent_eq hsilent)).congrBefore heq.symm hdip.symm hpending.symm
    falls := by
      have hfalls := hsafe.falls
      rw [hstate] at hfalls
      exact hfalls.congr ham.symm hos.symm hts.symm (State.silent_am hsilent) (State.silent_os hsilent)
        (State.outer_ts (congrArg Silent.outer hsilent))
    reports := by
      rw [hstate, State.fallReports_congr hts ham, State.handedReports_congr heq hpending] at hperm
      refine ⟨gs, hperm, ?_⟩
      rw [hfirst, hsecond, State.queueReports_ci (s := s) (hci2.trans hci)]
      exact ⟨rfl, rfl⟩
    triggers := fun hd => by
      rw [State.makeTrigger_ce _ _ hd] at hce
      unfold State.TriggersJoin
      rw [hceAll, State.pushTrigger_ce hce]
      exact ⟨rfl, rfl⟩
    cut := fun hd => by
      rw [State.makeTrigger_cut _ _ hd] at hce
      unfold State.TriggersJoin
      rw [hceAll, State.pushTrigger_ce hce]
      exact ⟨rfl, rfl⟩
    replies := by
      rw [(second.1.queueReports_queues _).1, hci2, hci] }

/-- Settles O27: with the port LOST the change is followed by the entry into SAFE, in one operation. -/
theorem aLostLinkTakesTheShowToSafe : Obligations.ALostLinkTakesTheShowToSafe := by
  intro s i tag screen target hi hs hlost hto old tripActive safed
  have htarget : target.playing = true := by rcases hto with rfl | rfl <;> rfl
  have hsafed (hon : s.screenState i ≠ .offline) (data : List Byte) :
      safed ((s.goTo i target (.request tag) 0).reply tag .ok data) data := by
    have h := State.goTo_safed (s := s) (i := i) (.request tag) 0 hlost htarget hon
    generalize s.goTo i target (.request tag) 0 = t at h ⊢
    exact ⟨h.state, h.resume, h.why, h.pendingApply, h.safeRamp, h.fader, h.mute, h.bank, h.applied, h.falls, h.others,
      h.reports, h.triggers (by decide), congrArg (· ++ _) h.replies, h.ts, h.li, h.ct, h.bl, h.cues⟩
  refine ⟨fun hold => ?_, fun hsafe hresume hcause htrip => ?_⟩
  · have hallow : (s.screenState i).allows target = true ∧ s.screenState i ≠ .offline := by
      change old.allows target = true ∧ old ≠ .offline
      rcases hold with h | ⟨h, rfl⟩ <;> rw [h]
      · rcases hto with rfl | rfl <;> exact ⟨rfl, by decide⟩
      · exact ⟨rfl, by decide⟩
    have hask : s.askState i (some target) (.request tag) 0 = (s.goTo i target (.request tag) 0, .done) :=
      State.askState_allowed _ 0 hallow.1 fun hoff => absurd hoff hallow.2
    exact ⟨⟨_, exec_screenState hi hs (by rw [ScreenState.code_byte, ScreenState.ofCode_code]) hask, hsafed hallow.2 []⟩,
      _, exec_stateAction hi hs (by rw [ScreenState.code_bits, ScreenState.ofCode_code]) hask, hsafed hallow.2 [1, 0]⟩
  · have hon : s.screenState i ≠ .offline := fun h => by rw [show old = .offline from h] at hsafe; cases hsafe
    refine ⟨_, exec_resume hi hs, ?_⟩
    rw [State.resumeScreen_safe hsafe hresume, if_neg fun h => hcause h.1, if_neg (State.tripActive_false htrip)]
    exact hsafed hon []

end Sys2Proof.Machine
end

section
/-!
PROOFS. A screen brought up and taken down (R5, R6, R46, R57, R64, R65, R68, R86, R94).
-/

namespace Sys2Proof.Machine

/-! ## Enabled -/

/-- An enable gives every channel the pages of its delay at the end of its list and clears its histories and delay line
(R5, R64, R65, R68). -/
theorem State.enable_channels (s : State) (i : Fin 8) (h : s.bankNeed i (s.activeBank i) ≤ s.freePages) :
    (∀ c, ∃ given, given.length = pageNeed (s.delay i (s.activeBank i) c) ∧ (∀ p ∈ given, p ∈ s.eq.free) ∧
      ((s.enable i).eq.channels.get i).get c = { EqChannel.cleared with pages := s.pagesOf i c ++ given }) ∧
    (∀ j, j ≠ i → (s.enable i).eq.channels.get j = s.eq.channels.get j) ∧
    (s.enable i).freePages + s.bankNeed i (s.activeBank i) = s.freePages := by
  obtain ⟨hgiven, hothers, hfree⟩ := s.allocateBank_spec i (s.activeBank i) h
  obtain ⟨hcleared, hkept, hstill⟩ := (s.allocateBank i (s.activeBank i)).clearScreen_spec i
  have heq : (s.enable i).eq = ((s.allocateBank i (s.activeBank i)).clearScreen i).eq := rfl
  generalize (s.allocateBank i (s.activeBank i)).clearScreen i = u at hcleared hkept hstill heq
  refine ⟨fun c => ?_, fun j hj => ?_, ?_⟩
  · obtain ⟨given, hlen, hmem, hch⟩ := hgiven c
    refine ⟨given, hlen, hmem, ?_⟩
    rw [heq, hcleared, hch]
  · rw [heq]
    exact Tab.ext_get fun c => (hkept j c hj).trans (hothers j c hj)
  · rw [State.freePages, heq, hstill]
    exact hfree

/-- A channel with no history and no delayed sample. -/
theorem EqChannel.cleared_empty (pages : List (Fin 512)) :
    ({ EqChannel.cleared with pages := pages } : EqChannel).line = [] ∧
      ∀ k, ({ EqChannel.cleared with pages := pages } : EqChannel).sections.get k = ⟨0, 0, 0, 0⟩ :=
  ⟨rfl, fun _ => Tab.get_fill ..⟩

theorem State.profileToUse_eq (s : State) (i : Fin 8) : s.profileToUse i = s.formatMap i
    (match (s.de.get i).forced, s.li.descriptors.get i with
      | some f, _ => f
      | none, .unmapped => s.defaultFormat i
      | none, _ => (s.de.get i).accepted) := by
  unfold State.profileToUse State.chosenFormat
  cases (s.de.get i).forced <;> cases s.li.descriptors.get i <;> rfl

/-- Settles O23: the change to IDLE enables the screen, on the pages and records of the state before. -/
theorem enableBringsTheScreenUp : Obligations.EnableBringsTheScreenUp := by
  intro s i tag screen c hi hs hc hoff hrest hfit format
  have hask : s.askState i (some .idle) (.request tag) 0 = (s.goTo i .idle (.request tag) 0, .done) :=
    State.askState_allowed _ 0 (by rw [hoff]; rfl) fun _ => ⟨hrest, hfit⟩
  obtain ⟨data, hexec⟩ : ∃ data, exec c s = .next ((s.goTo i .idle (.request tag) 0).reply tag .ok data) := by
    rcases hc with rfl | rfl
    · exact ⟨[], exec_screenState (b := 1) (target := some .idle) hi hs rfl hask⟩
    · exact ⟨[1, 0], exec_stateAction (b := 1) (target := some .idle) hi hs rfl hask⟩
  rw [s.goTo_once i .idle _ 0 (.inl rfl)] at hexec
  obtain ⟨m, dip, hsc, hmde, hos, ham, haside, hchannels, hfree, hsilent⟩ :=
    s.moveScreen_follow i .idle (.request tag) .command 0 false
  obtain ⟨-, hup, -⟩ := s.moveScreen_de i .idle (.request tag) .command 0 false
  obtain ⟨-, ⟨dip', hrecord, -⟩, -, hdips, -⟩ := s.moveScreen_spec i .idle (.request tag) .command 0 false
  have hqueued := State.silent_queueReports (s.moveScreen i .idle (.request tag) .command 0 false).1
    (s.moveScreen i .idle (.request tag) .command 0 false).2
  generalize (s.moveScreen i .idle (.request tag) .command 0 false).1.queueReports _ = t at hqueued hexec
  generalize (s.moveScreen i .idle (.request tag) .command 0 false).1 = u at *
  have hde := (State.silent_de hqueued).trans (hup (by decide) hoff)
  have hfollow : (m.followMove i (s.screenState i) .idle false).1 = m.enable i := by
    rw [State.followMove, if_neg (by decide), if_pos hoff]
  rw [hfollow] at hsilent
  have hall := hqueued.trans hsilent
  obtain ⟨hun, -, -⟩ := m.enable_unenabled i
  have hmbank : m.activeBank i = s.activeBank i := by rw [State.activeBank, hsc, Tab.get_modify_same]; rfl
  have hmdelay (b : Fin 2) (c : Fin 16) : m.delay i b c = s.delay i b c :=
    State.delay_congr (by rw [State.outer_ts (State.aside_outer haside)]) i b c
  have hmneed : m.bankNeed i (m.activeBank i) = s.bankNeed i (s.activeBank i) := by
    unfold State.bankNeed
    simp only [hmbank, hmdelay]
  have hmfree : m.freePages = s.freePages := congrArg List.length hfree
  have hmpages (c : Fin 16) : m.pagesOf i c = s.pagesOf i c := by unfold State.pagesOf; rw [hchannels]
  obtain ⟨hgiven, hothers, hleft⟩ := m.enable_channels i (by rw [hmneed, hmfree]; exact hfit)
  have hteq : t.eq = (m.enable i).eq := State.silent_eq hall
  have hch (c : Fin 16) : ∃ given, given.length = pageNeed (s.delay i (s.activeBank i) c) ∧
      (∀ p ∈ given, p ∈ s.eq.free) ∧
      (t.eq.channels.get i).get c = { EqChannel.cleared with pages := s.pagesOf i c ++ given } := by
    obtain ⟨given, hlen, hmem, hch⟩ := hgiven c
    rw [hmbank, hmdelay] at hlen
    rw [hfree] at hmem
    exact ⟨given, hlen, hmem, by rw [hteq, hch, hmpages]⟩
  refine ⟨_, hexec, ?_, fun c => ?_, ?_, fun c => ?_, ⟨!s.li.worked, ?_⟩, fun j hj => ⟨?_, ?_⟩, fun hnone => ?_, ?_, ?_⟩
  · have hstate : t.sc.get i = u.sc.get i := by rw [State.silent_sc hqueued]
    exact (congrArg ScreenRecord.state (hstate.trans hrecord)).trans rfl
  · obtain ⟨given, hlen, hmem, hch⟩ := hch c
    exact ⟨given, congrArg EqChannel.pages hch, hlen, hmem⟩
  · rw [hmneed, hmfree, State.freePages, ← hteq] at hleft
    exact hleft
  · obtain ⟨given, -, -, hch⟩ := hch c
    have hempty := EqChannel.cleared_empty (s.pagesOf i c ++ given)
    rw [← hch] at hempty
    exact hempty
  · change t.de.get i = _
    rw [hde, Tab.get_modify_same, State.profileToUse_eq]
    rfl
  · change t.eq.channels.get j = _
    rw [hteq, hothers j hj, hchannels]
  · change t.de.get j = _
    rw [hde, Tab.get_modify_other _ _ hj]
  · change t.eq.dips = _
    rw [State.silent_eq hqueued]
    exact hdips (.inl hnone)
  · exact (State.silent_os hall).trans ((State.unenabled_os hun).trans hos)
  · exact (State.silent_am hall).trans ((State.unenabled_am hun).trans ham)

/-! ## Taken down -/

/-- A protect ramp at rest at unity is what a target of 32768 leaves as it is. -/
theorem OutChannel.reset_protectTake : OutChannel.reset.protectTake 32768 = OutChannel.reset := rfl

theorem State.targetsFollow_unity {t : State} {i : Fin 8} (h : t.targetsFollow)
    (hnormal : ∀ e, (t.alarmEntry e).screen = i → (t.am.entries.get e).tier = .normal) (c : Fin 16) :
    (t.am.targets.get i).get c = 32768 := by
  rcases (h i c).2 with hunity | ⟨e, htrip, hcovers, -⟩
  · exact hunity
  · have hscreen : (t.alarmEntry e).screen = i := by
      simp only [AlarmEntry.covers, Bool.and_eq_true, beq_iff_eq] at hcovers
      exact hcovers.1.2
    rw [hnormal e hscreen] at htrip
    cases htrip

/-- Settles O24: the change to OFFLINE disables the screen, and what falls with it follows. -/
theorem disableTakesTheScreenDown : Obligations.DisableTakesTheScreenDown := by
  intro s i tag screen c hi hs hc hfrom
  have hallow : (s.screenState i).allows .offline = true ∧ s.screenState i ≠ .offline := by
    rcases hfrom with h | h <;> rw [h] <;> exact ⟨rfl, by decide⟩
  have hask : s.askState i (some .offline) (.request tag) 0 = (s.goTo i .offline (.request tag) 0, .done) :=
    State.askState_allowed _ 0 hallow.1 fun hoff => absurd hoff hallow.2
  obtain ⟨data, hexec⟩ : ∃ data, exec c s = .next ((s.goTo i .offline (.request tag) 0).reply tag .ok data) := by
    rcases hc with rfl | rfl
    · exact ⟨[], exec_screenState (b := 0) (target := some .offline) hi hs rfl hask⟩
    · exact ⟨[1, 0], exec_stateAction (b := 0) (target := some .offline) hi hs rfl hask⟩
  have h := State.goTo_changes (s := s) (i := i) (target := .offline) (.request tag) 0 (.inl rfl)
  rw [s.goTo_once i .offline _ 0 (.inl rfl)] at hexec h
  obtain ⟨m, dip, hsc, hmde, hos, ham, haside, hchannels, hfree, hsilent⟩ :=
    s.moveScreen_follow i .offline (.request tag) .command 0 false
  obtain ⟨hdown, -, -⟩ := s.moveScreen_de i .offline (.request tag) .command 0 false
  have hqueued := State.silent_queueReports (s.moveScreen i .offline (.request tag) .command 0 false).1
    (s.moveScreen i .offline (.request tag) .command 0 false).2
  generalize (s.moveScreen i .offline (.request tag) .command 0 false).1.queueReports _ = t at hqueued hexec h
  generalize (s.moveScreen i .offline (.request tag) .command 0 false).1 = u at *
  have hde := (State.silent_de hqueued).trans (hdown rfl)
  have hfollow : (m.followMove i (s.screenState i) .offline false).1 = (m.disable i).1 := by
    rw [State.followMove, if_pos rfl]
  rw [hfollow] at hsilent
  have hall := hqueued.trans hsilent
  obtain ⟨z, hz, hzeq, -, -, -, -, hzos⟩ := m.disable_eq i
  obtain ⟨hreleased, hkept, -, hreturned⟩ := m.releaseScreen_spec i
  have hteq : t.eq = (m.releaseScreen i).eq := (State.silent_eq hall).trans (m.disable_spec i).2.2.1
  obtain ⟨hentries, hdemands, hslots, -, hwindow, hgains, hfalls, -⟩ := h.falls
  obtain ⟨hfollows, houtputs⟩ := hfalls (.inl rfl)
  have htentry (e : Fin 256) : t.alarmEntry e = s.alarmEntry e := by
    unfold State.alarmEntry State.alarmWord State.word
    rw [h.ts]
  have hours (e : Fin 256) : t.am.entries.get e =
      if (s.alarmEntry e).screen = i then { s.am.entries.get e with tier := .normal, warnCount := 0, tripCount := 0 }
      else s.am.entries.get e := by
    rw [hentries e]
    simp
  have hunity := State.targetsFollow_unity (i := i) hfollows fun e he => by
    rw [htentry] at he
    rw [hours, if_pos he]
  have htos : t.os = ((z.forceEntries fun a => a.screen == i).1.recomputeTargets).os := by
    rw [State.silent_os hall, hz]
  have htam : t.am = ((z.forceEntries fun a => a.screen == i).1.recomputeTargets).am := by
    rw [State.silent_am hall, hz]
  obtain ⟨-, -, -, -, -, hzgains, -, hzchannels⟩ := (z.forceEntries fun a => a.screen == i).1.recomputeTargets_keeps
  rw [State.forceEntries_os, ← htos, hzos] at hzgains
  simp only [State.forceEntries_os, hzos, ← htos, ← htam] at hzchannels
  have hstate := h.state
  refine ⟨_, hexec, hstate, ?_, h.resume, h.why, h.pendingApply, fun hsafe => ?_, fun hidle => ?_, fun c => ?_, ?_,
    ⟨false, ?_⟩, fun c => ⟨64, ?_⟩, ?_, hwindow, hours, hfollows, hunity, hdemands, hslots, fun j hj => ⟨?_, ?_, ?_, ?_⟩⟩
  · exact if_pos hstate
  · exact h.safeRamp.trans ((if_neg (by decide)).trans (if_pos hsafe))
  · exact h.safeRamp.trans ((if_neg (by decide)).trans (if_neg (by rw [hidle]; decide)))
  · have hch : (t.eq.channels.get i).get c = .cleared := by rw [hteq, hreleased]
    have hempty := EqChannel.cleared_empty []
    exact ⟨congrArg EqChannel.pages hch, congrArg EqChannel.line hch, fun k =>
      (congrArg (fun ch : EqChannel => ch.sections.get k) hch).trans (hempty.2 k)⟩
  · have hmpages : m.pagesOf i = s.pagesOf i := by unfold State.pagesOf; rw [hchannels]
    have hfreed : t.eq.free = s.eq.free ++ (List.finRange 16).flatMap fun c => s.pagesOf i c := by
      rw [hteq, hreturned, hfree, hmpages]
    exact List.Perm.of_eq hfreed
  · change t.de.get i = _
    rw [hde, Tab.get_modify_same]
    rfl
  · change (t.os.channels.get i).get c = _
    rw [hzchannels i c, hunity c, Tab.get_modify_same, Tab.get_map]
    rfl
  · change t.os.gains.get i = 0
    rw [hzgains, Tab.get_set_same]
  · change t.eq.channels.get j = _
    rw [hteq]
    exact Tab.ext_get fun c => (hkept j c hj).trans (by rw [hchannels])
  · change t.de.get j = _
    rw [hde, Tab.get_modify_other _ _ hj]
  · exact hgains j (.inl hj)
  · exact fun c => houtputs j c (.inl hj)

end Sys2Proof.Machine
end

section
/-!
PROOFS. Applies, safepoints and dips (R8, R71–R77).
-/

namespace Sys2Proof.Machine

/-! ## APPLY -/

section Apply

variable {s : State} {i : Fin 8} (origin : Origin)

theorem State.applyBank_deferred (h : s.playing i = true) : s.applyBank i origin =
    (s.modifyScreen i fun r => { r with pendingApply := r.pendingApply.or (some origin) }, .deferred) := if_pos h

theorem State.applyBank_ignored (h : s.playing i = false) (hdip : s.eq.dips.get i ≠ none) :
    s.applyBank i origin = (s, .done) := by
  rw [State.applyBank, if_neg (by simp [h]), if_pos (Option.isSome_iff_ne_none.mpr hdip)]

theorem State.applyBank_offline (h : s.screenState i = .offline) (hdip : s.eq.dips.get i = none) :
    s.applyBank i origin = (s.exchangeBanks i, .done) := by
  have hplays : s.playing i = false := by rw [State.playing, h]; rfl
  rw [State.applyBank, if_neg (by simp [hplays]), hdip, if_neg (by simp), if_pos h]

theorem State.applyBank_checked (h : s.playing i = false) (hon : s.screenState i ≠ .offline)
    (hdip : s.eq.dips.get i = none) : s.applyBank i origin =
      if s.bankNeed i (s.standbyBank i) ≤ s.freePages + s.pagesHeld i then (s.beginDip i ⟨origin, false⟩, .done)
      else (s, .noSpace) := by
  rw [State.applyBank, if_neg (by simp [h]), hdip, if_neg (by simp), if_neg hon]
  unfold State.bankFits
  simp only [decide_eq_true_eq]

theorem Option.or_some_eq {α : Type} (o : Option α) (a : α) : o.or (some a) = some (o.getD a) := by cases o <;> rfl

end Apply

/-- Settles O28: the checks of an APPLY in their order. -/
theorem applyFollowsStateAndDip : Obligations.ApplyFollowsStateAndDip := by
  intro s i tag screen hi hs other need
  have run {next : State} {outcome : ActionOutcome} (h : s.applyBank i (.request tag) = (next, outcome)) :
      exec (.applyAction tag screen) s = .next (next.reply tag outcome.result [7, outcome.code]) :=
    exec_action_outcome (a := .apply) rfl nofun hi hs h
  refine ⟨fun hplays => ?_, fun hquiet => ?_⟩
  · have hplaying : s.playing i = true := by unfold State.playing; rcases hplays with h | h <;> rw [h] <;> rfl
    have happly := State.applyBank_deferred (.request tag) hplaying
    simp only [Option.or_some_eq] at happly
    exact run happly
  · have hnot : s.playing i = false := by unfold State.playing; rcases hquiet with h | h | h <;> rw [h] <;> rfl
    refine ⟨fun hdip => run (State.applyBank_ignored _ hnot hdip), fun hdip => ⟨fun hoff =>
      run (State.applyBank_offline _ hoff hdip), fun hon hfit => ?_, fun hon hfit => ?_⟩⟩
    · exact run ((State.applyBank_checked _ hnot hon hdip).trans (if_pos hfit))
    · exact run ((State.applyBank_checked _ hnot hon hdip).trans (if_neg (not_le.mpr hfit)))

/-! ## SAFEPOINT -/

/-- Settles O29: the pending apply leaves the record and is handed to the dip, if there is one. -/
theorem safepointHandsOverThePendingApply : Obligations.SafepointHandsOverThePendingApply := by
  intro s i tag screen hi hs
  have run {next : State} (h : s.safepoint i = next) :
      exec (.safepointAction tag screen) s = .next (next.reply tag .ok [8, 0]) :=
    exec_action_outcome (a := .safepoint) rfl nofun hi hs (congrArg (·, ActionOutcome.done) h)
  refine ⟨fun hnone => run ?_, fun origin hpending => ?_⟩
  · rw [State.safepoint, hnone]
  · intro removed
    have handed {next : State} {reports : List Report} (h : removed.handApply i origin = (next, reports)) :
        s.safepoint i = next.queueReports reports := by
      rw [State.safepoint, hpending]
      change (removed.handApply i origin).1.queueReports (removed.handApply i origin).2 = _
      rw [h]
    have hdips : removed.eq.dips = s.eq.dips := rfl
    refine ⟨fun hdip => ?_, fun swap waiting hdip => ?_, fun result waiting hdip => ?_⟩
    · have begun : removed.handApply i origin = (removed.beginDip i ⟨origin, true⟩, []) := by
        unfold State.handApply; rw [hdips, hdip]
      exact run ((handed begun).trans rfl)
    · have joined : removed.handApply i origin =
          (removed.setDip i (some ⟨.fall, swap, waiting ++ [⟨origin, true⟩]⟩), []) := by
        unfold State.handApply; rw [hdips, hdip]
      exact run ((handed joined).trans rfl)
    · have reported : removed.handApply i origin = (removed, [.apply i origin result]) := by
        unfold State.handApply; rw [hdips, hdip]
      exact run ((handed reported).trans rfl)

/-! ## The swap moment -/

/-- A swap leaves everything but the screen's bank and the pages (R74). -/
theorem State.swapBanks_rest (s : State) (i : Fin 8) : ∃ bank, (s.swapBanks i).1.unpaged =
    (s.modifyScreen i fun r => { r with activeBank := bank }).unpaged := by
  have screens {sc sc' : Tab 8 ScreenRecord} (h : ∀ j, sc.get j = sc'.get j) :
      ({ s with sc := sc } : State).unpaged = ({ s with sc := sc' } : State).unpaged := by rw [Tab.ext_get h]
  rcases s.unpaged_swapBanks i with h | h
  · refine ⟨otherBank (s.sc.get i).activeBank, h.trans (screens fun j => ?_)⟩
    rw [Tab.get_modify, Tab.get_modify]
  · refine ⟨(s.sc.get i).activeBank, (congrArg State.unpaged h).trans (screens fun j => ?_)⟩
    rw [Tab.get_modify]
    split
    · next hj => rw [hj]
    · rfl

theorem State.swapBanks_offline {s : State} {i : Fin 8} (h : s.screenState i = .offline) :
    s.swapBanks i = (s.exchangeBanks i, .done) := if_pos h

theorem State.swapBanks_full {s : State} {i : Fin 8} (hon : s.screenState i ≠ .offline)
    (hfit : ¬s.bankNeed i (s.standbyBank i) ≤ s.freePages + s.pagesHeld i) : s.swapBanks i = (s, .noSpace) :=
  (if_neg hon).trans (if_neg (by simpa [State.bankFits] using hfit))

theorem State.exchangeBanks_bank (s : State) (i : Fin 8) : (s.exchangeBanks i).activeBank i = s.standbyBank i :=
  congrArg ScreenRecord.activeBank (Tab.get_modify_same ..)

/-- A swap whose pages are free gives every channel of the screen the pages of its new delay, and nothing else (R74). -/
theorem State.swapBanks_fits {s : State} {i : Fin 8} (hon : s.screenState i ≠ .offline)
    (hfit : s.bankNeed i (s.standbyBank i) ≤ s.freePages + s.pagesHeld i) :
    (s.swapBanks i).2 = .done ∧ (s.swapBanks i).1.activeBank i = s.standbyBank i ∧
      (∀ c, ∃ pages, pages.length = pageNeed (s.delay i (s.standbyBank i) c) ∧
        ((s.swapBanks i).1.eq.channels.get i).get c = { EqChannel.cleared with pages := pages }) ∧
      ∀ j, j ≠ i → (s.swapBanks i).1.eq.channels.get j = s.eq.channels.get j := by
  have hswap : s.swapBanks i =
      (((s.releaseScreen i).exchangeBanks i).allocateBank i (s.standbyBank i), .done) :=
    (if_neg hon).trans (if_pos (decide_eq_true hfit))
  rw [hswap]
  obtain ⟨hcleared, hkept, hfree, -⟩ := s.releaseScreen_spec i
  have hrel := s.unpaged_releaseScreen i
  generalize s.releaseScreen i = r at *
  have hbank : (r.exchangeBanks i).activeBank i = s.standbyBank i := by
    rw [r.exchangeBanks_bank, State.standbyBank, State.activeBank, State.unpaged_sc hrel]
    rfl
  have hdelay (b : Fin 2) (c : Fin 16) : (r.exchangeBanks i).delay i b c = s.delay i b c :=
    State.delay_congr (congrArg TableStore.words (State.outer_ts (State.unpaged_outer hrel))) i b c
  have hneed : (r.exchangeBanks i).bankNeed i (s.standbyBank i) ≤ (r.exchangeBanks i).freePages := by
    unfold State.bankNeed
    simp only [hdelay]
    exact hfit.trans hfree.ge
  obtain ⟨hgiven, hothers, -⟩ := (r.exchangeBanks i).allocateBank_spec i (s.standbyBank i) hneed
  have hun := (r.exchangeBanks i).unpaged_allocateBank i (s.standbyBank i)
  generalize (r.exchangeBanks i).allocateBank i (s.standbyBank i) = t at *
  refine ⟨rfl, ?_, fun c => ?_, fun j hj => ?_⟩
  · rw [State.activeBank, State.unpaged_sc hun]
    exact hbank
  · obtain ⟨taken, hlen, -, hch⟩ := hgiven c
    have hempty : (r.exchangeBanks i).eq.channels.get i = r.eq.channels.get i := rfl
    refine ⟨taken, hlen.trans (congrArg pageNeed (hdelay _ c)), ?_⟩
    rw [hch, State.pagesOf, hempty, hcleared]
    rfl
  · exact Tab.ext_get fun c => (hothers j c hj).trans (hkept j c hj)

/-- Settles O30: the swap moment is `State.swapBanks` with its reports, and the end of a rise removes the dip. -/
theorem dipsSwapAndEnd : Obligations.DipsSwapAndEnd := by
  refine ⟨fun s i swap waiting hdip hrest => ?_, fun s i swap waiting hdip hrest hworked => ?_⟩
  · have hended : s.riseEnded i = true := by
      unfold State.riseEnded
      rw [hdip]
      exact hrest
    exact congrArg Host.Outcome.next (if_pos hended)
  · intro fits
    have hreached : s.swapReached i = true := by
      unfold State.swapReached
      rw [hdip]
      exact hrest
    have hexec : exec (.swapMoment i) s = .next (s.swapMoment i) :=
      congrArg Host.Outcome.next (if_pos (by rw [hreached, hworked]; rfl))
    obtain ⟨bank, hswapped⟩ := s.swapBanks_rest i
    have hoffline := State.swapBanks_offline (s := s) (i := i)
    have hfull := State.swapBanks_full (s := s) (i := i)
    have hfits := State.swapBanks_fits (s := s) (i := i)
    have hchannelsOther : ∀ j, j ≠ i → (s.swapBanks i).1.eq.channels.get j = s.eq.channels.get j := by
      intro j hj
      by_cases hoff : s.screenState i = .offline
      · rw [hoffline hoff]
        rfl
      · by_cases hfit : s.bankNeed i (s.standbyBank i) ≤ s.freePages + s.pagesHeld i
        · exact (hfits hoff hfit).2.2.2 j hj
        · rw [hfull hoff hfit]
    rw [hexec, State.swapMoment, hdip]
    dsimp only
    generalize s.swapBanks i = r at *
    set result : SwapResult :=
      ⟨r.2, r.1.activeBank i, r.1.pagesHeld i, s.bankNeed i (s.standbyBank i), r.1.freePages⟩
    obtain ⟨u, hu⟩ : ∃ u, u = (r.1.setDip i (some ⟨.rise, some result, []⟩)).modifyScreen i
      fun rec => { rec with dip := rec.dip.retarget Config.unity 256 } := ⟨_, rfl⟩
    have hci : u.ci = s.ci := by rw [hu]; exact (State.unpaged_ci hswapped).trans rfl
    have hsc (j : Fin 8) : u.sc.get j =
        if j = i then { r.1.sc.get i with dip := (r.1.sc.get i).dip.retarget Config.unity 256 } else r.1.sc.get j := by
      rw [hu]; exact Tab.get_modify ..
    have hdips (j : Fin 8) : u.eq.dips.get j = if j = i then some ⟨.rise, some result, []⟩ else r.1.eq.dips.get j := by
      rw [hu]; exact Tab.get_set ..
    have heq : u.eq.channels = r.1.eq.channels ∧ u.eq.free = r.1.eq.free := by rw [hu]; exact ⟨rfl, rfl⟩
    have houter : u.outer = s.outer := by rw [hu]; exact (State.unpaged_outer hswapped).trans rfl
    have hde : u.de = s.de := by rw [hu]; exact (State.unpaged_de hswapped).trans rfl
    have hos : u.os = s.os := by rw [hu]; exact (State.unpaged_os hswapped).trans rfl
    have ham : u.am = s.am := by rw [hu]; exact (State.unpaged_am hswapped).trans rfl
    have hct : u.ct = s.ct := by rw [hu]; exact (State.unpaged_ct hswapped).trans rfl
    have hbl : u.bl = s.bl := by rw [hu]; exact (State.unpaged_bl hswapped).trans rfl
    have hce : u.ce = s.ce := by rw [hu]; exact (State.unpaged_ce hswapped).trans rfl
    have hrscreens (j : Fin 8) : r.1.sc.get j =
        if j = i then { s.sc.get i with activeBank := bank } else s.sc.get j := by
      rw [State.unpaged_sc hswapped]; exact Tab.get_modify ..
    have hrdips : r.1.eq.dips = s.eq.dips := (State.unpaged_dips hswapped).trans rfl
    rw [← hu]
    clear hu hswapped hrest hreached hexec
    have hsilent := u.silent_queueReports (applyReports i waiting result)
    have hce' := u.queueReports_ce (applyReports i waiting result)
    have houter' := State.outer_queueReports u (applyReports i waiting result)
    have hreports := State.queueReports_ci hci (applyReports i waiting result)
    generalize u.queueReports (applyReports i waiting result) = t at *
    have hbank : t.activeBank i = r.1.activeBank i := by
      unfold State.activeBank
      rw [State.silent_sc hsilent, hsc, if_pos rfl]
    have hchannels : t.eq.channels = r.1.eq.channels := by rw [State.silent_eq hsilent]; exact heq.1
    have hfree : t.eq.free = r.1.eq.free := by rw [State.silent_eq hsilent]; exact heq.2
    refine ⟨t, result, rfl, ?_, ?_, rfl, hbank.symm, ?_, ?_, ?_, fun hoff => ?_, fun hon hfit => ?_, fun hon hfit => ?_,
      fun j hj => ⟨?_, ?_, ?_⟩, ?_, ?_, ?_, ?_, ?_, ?_, ?_, ?_, ?_⟩
    · rw [State.silent_eq hsilent, hdips, if_pos rfl]
    · rw [State.silent_sc hsilent, hsc, if_pos rfl, hrscreens, if_pos rfl]
      rfl
    · simp only [State.pagesHeld, State.pagesOf, hchannels, result]
    · exact congrArg List.length hfree.symm
    · exact ⟨[], List.Perm.refl _, by rw [hreports]; simp [applyReports], by rw [hreports]; simp [applyReports]⟩
    · have h := hoffline hoff
      exact ⟨congrArg Prod.snd h, hbank.trans ((congrArg (fun p => p.1.activeBank i) h).trans (s.exchangeBanks_bank i)),
        hchannels.trans (congrArg (fun p => p.1.eq.channels) h), hfree.trans (congrArg (fun p => p.1.eq.free) h)⟩
    · obtain ⟨hdone, hnew, hgiven, -⟩ := hfits hon hfit
      refine ⟨hdone, hbank.trans hnew, fun c => ?_⟩
      obtain ⟨pages, hlen, hch⟩ := hgiven c
      rw [State.pagesOf, hchannels, hch]
      exact ⟨hlen, rfl, rfl⟩
    · have h := hfull hon hfit
      exact ⟨congrArg Prod.snd h, hbank.trans (congrArg (fun p => p.1.activeBank i) h),
        hchannels.trans (congrArg (fun p => p.1.eq.channels) h), hfree.trans (congrArg (fun p => p.1.eq.free) h)⟩
    · rw [State.silent_sc hsilent, hsc, if_neg hj, hrscreens, if_neg hj]
    · rw [State.silent_eq hsilent, hdips, if_neg hj, hrdips]
    · rw [hchannels]
      exact hchannelsOther j hj
    · exact State.outer_replies (houter'.trans houter)
    · exact State.outer_ts (houter'.trans houter)
    · exact State.outer_li (houter'.trans houter)
    · exact (State.silent_de hsilent).trans hde
    · exact (State.silent_os hsilent).trans hos
    · exact (State.silent_am hsilent).trans ham
    · exact (State.silent_ct hsilent).trans hct
    · exact (State.silent_bl hsilent).trans hbl
    · exact hce'.trans hce

end Sys2Proof.Machine
end

section
/-!
PROOFS. The booth lines (R132–R139), the show clocks' picture frames (R120) and the timers (R126–R130).
-/

namespace Sys2Proof.Machine

/-! ## Booth lines -/

section Lines

variable (d : Debouncer) {level debounce : Bool}

theorem Debouncer.sample_equal (h : level = d.stable) : d.sample level debounce = ⟨level, level, 0, false, d.held⟩ := by
  subst h
  simp [Debouncer.sample, Debouncer.edges, Debouncer.settle]

theorem Debouncer.sample_counts (h : level ≠ d.stable) (hd : debounce = true) (hrun : d.run < 239) :
    d.sample level debounce = ⟨level, d.stable, d.run + 1, false, d.held⟩ := by
  have hshort : d.run + 1 < Config.debounceRun := Nat.succ_lt_succ hrun
  simp [Debouncer.sample, Debouncer.edges, Debouncer.settle, h, hd, hshort]

theorem Debouncer.sample_due (h : level ≠ d.stable) (hd : debounce = false ∨ 239 ≤ d.run) :
    d.sample level debounce = ⟨level, d.stable, d.run, true, d.held⟩ := by
  have hlong : ¬(debounce = true ∧ d.run + 1 < Config.debounceRun) := by
    rintro ⟨hset, hshort⟩
    rcases hd with hclear | hrun
    · exact absurd hset (by simp [hclear])
    · exact absurd hrun (Nat.not_le.mpr (Nat.lt_of_succ_lt_succ hshort))
  simp only [not_and] at hlong
  simp [Debouncer.sample, Debouncer.edges, h]
  exact fun hset hshort => absurd hshort (hlong hset)

/-- The sample that ends a run of differing ones makes the edge (R133). -/
theorem Debouncer.settle_edge {raw held : Bool} {run : Nat} (h : debounce = true → run = 239) :
    Debouncer.edges ⟨raw, !raw, run, true, held⟩ debounce = true ∧
      Debouncer.settle ⟨raw, !raw, run, true, held⟩ debounce = ⟨raw, raw, 0, false, held⟩ := by
  have hlong : (debounce && decide (run + 1 < Config.debounceRun)) = false := by
    cases debounce with
    | false => rfl
    | true => rw [h rfl]; rfl
  unfold Debouncer.edges Debouncer.settle
  simp [hlong]

/-- The work of a link frame touches the booth lines by its sampling alone (R132). -/
theorem State.work_bl {s : State} (lines : BitVec 16) (keyLocked : Bool) (h : s.workDue) :
    (s.work lines keyLocked).bl = (s.sampleLines lines keyLocked).bl := by
  obtain ⟨-, hseen, hlock, hloss, hnone⟩ := h
  obtain ⟨d, ci, sender, lane, hd, -, -, -, hwork⟩ := s.work_spec lines keyLocked hseen hlock hloss hnone
  rw [hwork]
  exact (State.undecoded_bl hd).trans rfl

/-- A link frame whose work is due is its work (R28). -/
theorem exec_workDue {s : State} (lines : BitVec 16) (keyLocked : Bool) (h : s.workDue) :
    exec (.linkFrame lines keyLocked) s = .next (s.work lines keyLocked) := by
  obtain ⟨hworked, -⟩ := h
  refine congrArg Host.Outcome.next ?_
  unfold State.linkFrame
  rw [hworked]
  rfl

end Lines

/-- Settles O32: a due edge is one whose level has settled, and the work samples without taking edges. -/
theorem boothLinesSampleSettleAndStep : Obligations.BoothLinesSampleSettleAndStep := by
  refine ⟨fun s n phase => ?_, fun s lines keyLocked hwork hdue => ?_, fun s n raw held run hinput hrun => ?_,
    fun s raw held hkey => ?_⟩
  · intro becomes
    have ends {o : OutputLine} (h : s.bl.outputs.get n = o) (hdue : o.periodDue = true) : becomes o.endPeriod := by
      subst h
      exact congrArg Host.Outcome.next (if_pos hdue)
    refine ⟨fun h => ends h rfl, fun c hc h => ?_, fun h => ends h rfl, fun r h => ends h rfl⟩
    have hmore : OutputLine.endPeriod ⟨.pulseHigh, .pulses c, phase, true⟩ = ⟨.pulseLow, .pulses (c - 1), 0, false⟩ :=
      if_neg (Nat.not_le.mpr hc)
    exact hmore ▸ ends h rfl
  · intro sampled
    have all (old : Debouncer) (level debounce : Bool) : sampled old (old.sample level debounce) level debounce :=
      ⟨old.sample_equal, old.sample_counts, old.sample_due⟩
    have hsample : (s.sampleLines lines keyLocked).bl =
        { s.bl with
          inputs := Tab.ofFn fun n => (s.bl.inputs.get n).sample (lines.getLsb n) (s.debouncing n)
          key := s.bl.key.sample keyLocked true
          sampling := .taken } := by
      unfold State.sampleLines
      rw [hdue]
    refine ⟨_, exec_workDue lines keyLocked hwork, ?_⟩
    rw [s.work_bl lines keyLocked hwork, hsample]
    refine ⟨rfl, rfl, all .., fun n => ?_⟩
    rw [Tab.get_ofFn]
    exact all ..
  · intro settled
    have hdebouncing : s.debouncing n = true → run = 239 := by
      unfold State.debouncing State.debounced
      rw [hinput, Bool.or_eq_true]
      exact hrun
    obtain ⟨hedge, hsettle⟩ := Debouncer.settle_edge (raw := raw) (held := held) hdebouncing
    have hexec : exec (.inputEdge n) s = .next (if s.changeDetect n then
        settled.makeTrigger (.input n (edgeTo raw) (s.inputTag n)) 0 else settled) := by
      refine congrArg Host.Outcome.next ?_
      unfold State.takeInputEdge
      rw [hinput, if_pos rfl]
      unfold State.settleInput
      dsimp only
      rw [hinput, hsettle, hedge, Bool.true_and]
      rfl
    rw [hexec]
    refine ⟨fun h => congrArg Host.Outcome.next (if_neg ?_), fun h => congrArg Host.Outcome.next ?_⟩
    · unfold State.changeDetect
      rw [h]
      exact Bool.false_ne_true
    · rw [if_pos (by unfold State.changeDetect; exact h), State.makeTrigger_zero]
      rfl
  · refine congrArg Host.Outcome.next ?_
    unfold State.takeKeyChange State.settleKey
    rw [hkey, if_pos rfl, (Debouncer.settle_edge fun _ => rfl).2]

/-! ## Picture frames -/

/-- Settles O34: `ClockValue.advance` carries from field to field. -/
theorem pictureFrameAdvancesTheClock : Obligations.PictureFrameAdvancesTheClock := by
  intro s i v sub rate hclock hsub hframes hseconds hminutes hhours lastFrame
  refine ⟨v.advance rate, ?_, fun h => ?_, fun h h1 => ?_, fun h h1 h2 => ?_, fun h h1 h2 h3 => ?_,
    fun h h1 h2 h3 => ?_⟩
  · refine congrArg Host.Outcome.next ?_
    have hfull : ¬sub + 1 < rate.frameLength := by omega
    have hsettle : Clock.settle (s.ct.clocks.get i) = ⟨v.advance rate, 0, true, rate, false⟩ := by
      rw [hclock]
      exact if_neg hfull
    have hcompletes : (s.ct.clocks.get i).completes = true := by
      rw [hclock]
      exact decide_eq_true (Nat.not_lt.mp hfull)
    unfold State.takeAdvance State.settleClock
    dsimp only
    rw [hcompletes, State.modifyClock_congr (g := fun _ => ⟨v.advance rate, 0, true, rate, false⟩) hsettle, hclock, if_pos rfl, if_pos rfl]
    exact State.makeTrigger_zero ..
  all_goals unfold ClockValue.advance
  · have : v.frames + 1 < rate.perSecond := by omega
    rw [if_pos this]
  all_goals
    have : ¬v.frames + 1 < rate.perSecond := by omega
    rw [if_neg this]
  · rw [if_pos (by omega)]
  all_goals rw [if_neg (by omega)]
  · rw [if_pos (by omega)]
  all_goals rw [if_neg (by omega)]
  · rw [if_pos (by omega)]
  · rw [if_neg (by omega)]

/-! ## Timers -/

section Timers

theorem State.modifyTimer_congr {s : State} {i : Fin 8} {t : Fin 2} {f g : Timer → Timer}
    (h : f ((s.ct.timers.get i).get t) = g ((s.ct.timers.get i).get t)) : s.modifyTimer i t f = s.modifyTimer i t g := by
  unfold State.modifyTimer Tab.modify
  dsimp only
  rw [h]

theorem timerOf_some {b : Byte} {t : Fin 2} (h : t.val = b.toNat) : timerOf b = some t := by
  unfold timerOf
  rw [dif_pos (h ▸ t.isLt)]
  exact congrArg some (Fin.ext h.symm)

theorem TickBase.ofCode_small {n : Nat} (h : n ≤ 2) :
    TickBase.ofCode n = some ([TickBase.millisecond, .pictureFrame, .second].getD n .second) := by
  match n, h with
  | 0, _ => rfl
  | 1, _ => rfl
  | 2, _ => rfl

theorem TickBase.ofCode_large {n : Nat} (h : 2 < n) : TickBase.ofCode n = none := by
  match n, h with
  | n + 3, _ => rfl

/-- A timer that has taken its due count (R127, R129). -/
theorem Timer.settle_reached (tm : Timer) {length : Nat} (h : length ≤ tm.reached) :
    tm.settle length = Timer.tick { tm with phase := 0, tickDue := false, counted := false } :=
  if_neg (Nat.not_lt.mpr h)

end Timers

/-- Settles O36: a due count either reaches the tick length, and the tick acts on the remaining count, or does not. -/
theorem timersAreSetAndCountDown : Obligations.TimersAreSetAndCountDown := by
  refine ⟨fun s i tag screen timer base reload count hi hs => ?_, ?_⟩
  · have hexec := exec_ready (c := .timerSet tag screen timer base count reload) rfl hs
    rw [State.execute, State.requestTimerSet, hi] at hexec
    refine ⟨fun h => ?_, fun t ht hbase => ?_⟩
    · rw [hexec]
      rcases h with htimer | hbase
      · have hnone : timerOf timer = none := dif_neg (by omega)
        rw [hnone]
        rfl
      · rw [TickBase.ofCode_large hbase]
        cases timerOf timer <;> rfl
    · rw [timerOf_some ht, TickBase.ofCode_small hbase] at hexec
      dsimp only at hexec
      refine ⟨fun hrunning => ?_, fun hstopped => ?_⟩
      · rw [hrunning] at hexec
        exact hexec
      · rw [hstopped] at hexec
        exact hexec
  · intro s i t base count remaining phase reload due counted htimer length becomes
    have hlength : s.tickLengthOf i t = length := by
      unfold State.tickLengthOf
      rw [htimer]
      cases base <;> rfl
    have hdue : ((due = true ∧ length ≤ phase + 1) ∨ (due = false ∧ counted = true ∧ length ≤ phase)) →
        ((s.ct.timers.get i).get t).due length = true ∧ length ≤ ((s.ct.timers.get i).get t).reached := by
      rw [htimer]
      rintro (⟨rfl, h⟩ | ⟨rfl, rfl, h⟩)
      · exact ⟨rfl, h⟩
      · exact ⟨decide_eq_true h, h⟩
    have hsettle : length ≤ ((s.ct.timers.get i).get t).reached → s.settleTimer i t =
        if remaining = 1 then (s.modifyTimer i t fun _ =>
            Timer.tick ⟨base, count, reload, true, remaining, 0, false, false⟩).pushTrigger ⟨.timer i t, 0⟩
          else s.modifyTimer i t fun _ => Timer.tick ⟨base, count, reload, true, remaining, 0, false, false⟩ := by
      intro h
      have hmodify : (s.modifyTimer i t fun tm => tm.settle length) = s.modifyTimer i t fun _ =>
          Timer.tick ⟨base, count, reload, true, remaining, 0, false, false⟩ :=
        State.modifyTimer_congr (by rw [Timer.settle_reached _ h, htimer])
      have hexpires : ((s.ct.timers.get i).get t).expires length = (remaining == 1) := by
        unfold Timer.expires
        rw [decide_eq_true h, htimer]
        rfl
      unfold State.settleTimer
      rw [hlength]
      dsimp only
      rw [hmodify, hexpires, State.makeTrigger_zero]
      simp only [beq_iff_eq]
    have hexpiry (h : ((s.ct.timers.get i).get t).due length = true)
        (hr : length ≤ ((s.ct.timers.get i).get t).reached) :
        exec (.timerExpiry i t) s = .next (if remaining = 1 then s.settleTimer i t else s) := by
      refine congrArg Host.Outcome.next ?_
      unfold State.takeExpiry Timer.expires
      dsimp only
      rw [hlength, h, decide_eq_true hr, htimer]
      simp only [Bool.true_and, beq_iff_eq]
    have htick (h : ((s.ct.timers.get i).get t).due length = true) :
        exec (.timerTick i t) s = .next (s.settleTimer i t) := by
      refine congrArg Host.Outcome.next ?_
      unfold State.takeTick
      rw [hlength, if_pos h]
    refine ⟨fun h => ?_, fun hdueTrue hshort => ?_⟩
    · obtain ⟨hd, hr⟩ := hdue h
      rw [htick hd, hexpiry hd hr, hsettle hr]
      refine ⟨fun hmany => ?_, fun hone => ?_, fun hzero hreload => ?_⟩
      · obtain ⟨n, rfl⟩ := Nat.exists_eq_add_of_le hmany
        rw [if_neg (by omega), if_neg (by omega), Nat.add_comm 2 n]
        exact ⟨rfl, rfl⟩
      · subst hone
        exact ⟨rfl, rfl⟩
      · subst hzero hreload
        rfl
    · subst hdueTrue
      have hd : ((s.ct.timers.get i).get t).due length = true := by rw [htimer]; rfl
      have hmodify : (s.modifyTimer i t fun tm => tm.settle length) = s.modifyTimer i t fun _ =>
          ⟨base, count, reload, true, remaining, phase + 1, false, true⟩ :=
        State.modifyTimer_congr (by rw [htimer]; exact if_pos hshort)
      have hexpires : ((s.ct.timers.get i).get t).expires length = false := by
        unfold Timer.expires
        rw [htimer]
        exact (congrArg (· && _) (decide_eq_false (Nat.not_le.mpr hshort)))
      rw [htick hd]
      refine congrArg Host.Outcome.next ?_
      unfold State.settleTimer
      rw [hlength]
      dsimp only
      rw [hmodify, hexpires]
      rfl

end Sys2Proof.Machine
end

section
/-!
PROOFS. Ramps and gains (R15, R82, R85).
-/

namespace Sys2Proof.Machine

/-! ## Ramps -/

theorem Ramp.advance_before {r : Ramp} (h : r.position < r.length) : r.advance = { r with position := r.position + 1 } :=
  if_pos h

theorem Ramp.advance_ended {r : Ramp} (h : r.length ≤ r.position) : r.advance = r := if_neg (Nat.not_lt.mpr h)

theorem Ramp.advance_iterate (r : Ramp) {k : Nat} (h : r.position + k ≤ r.length) :
    Ramp.advance^[k] r = { r with position := r.position + k } := by
  induction k with
  | zero => rfl
  | succ k ih =>
    rw [Function.iterate_succ_apply', ih (by omega)]
    exact Ramp.advance_before (by dsimp only; omega)

theorem Ramp.value_ended {r : Ramp} (h : r.sound) (hend : r.position = r.length) : r.value = r.target := by
  have hv := Ramp.value_cast h
  obtain ⟨-, -, hlen, -⟩ := h
  rw [hend, Int.mul_tdiv_cancel _ (by omega)] at hv
  omega

/-! ## Gains -/

/-- A gain of at most 1 does not raise a value (R82). -/
theorem scaled_le (x : Nat) {y : Nat} (hy : y ≤ 32768) : x * y / 32768 ≤ x :=
  Nat.div_le_of_le_mul (Nat.mul_comm 32768 x ▸ Nat.mul_le_mul_left x hy)

/-- A gain of at most 1 keeps a value only where it is 1, or the value 0 (R82). -/
theorem scaled_eq_iff (x : Nat) {y : Nat} (hy : y ≤ 32768) : x * y / 32768 = x ↔ x = 0 ∨ y = 32768 := by
  constructor
  · intro h
    by_contra hne
    obtain ⟨hx, hy'⟩ := not_or.mp hne
    have hlt : x * y < x * 32768 := Nat.mul_lt_mul_of_pos_left (by omega) (by omega)
    have := Nat.div_lt_of_lt_mul (Nat.mul_comm x 32768 ▸ hlt)
    omega
  · rintro (rfl | rfl)
    · rw [Nat.zero_mul, Nat.zero_div]
    · exact Nat.mul_div_cancel x (by decide)

/-- Settles O59: a ramp's position counts its link frames, and each of the three other gains is at most 1. -/
theorem rampsAndGainsFollowTheirFormulas : Obligations.RampsAndGainsFollowTheirFormulas := by
  refine ⟨fun r k hr hk => ?_, fun r target => ?_, fun r hfader hmute hsafe hdip => ?_⟩
  · rw [r.advance_iterate hk]
    have hsound : Ramp.sound { r with position := r.position + k } := by
      obtain ⟨hstart, htarget, hlen, -⟩ := hr
      exact ⟨hstart, htarget, hlen, hk⟩
    exact ⟨rfl, Ramp.value_cast hsound, fun hend => ⟨Ramp.value_ended hsound hend, Ramp.advance_ended hend.ge⟩⟩
  · refine ⟨fun h => if_pos h, fun hne hlt => ?_, fun hne hlt => ?_, fun hne heq => ⟨r.length, ?_⟩,
      Ramp.value_protectTake ..⟩
    all_goals unfold Ramp.protectTake; rw [if_neg hne]
    · exact if_pos hlt
    · rw [if_neg (Nat.not_lt.mpr hlt.le)]
      exact if_pos hlt
    · rw [if_neg (Nat.not_lt.mpr heq.le), if_neg (Nat.not_lt.mpr heq.ge)]
      rfl
  · have hmute := Ramp.value_le hmute
    have hsafe := Ramp.value_le hsafe
    have hdip := Ramp.value_le hdip
    have hfader := Ramp.value_le hfader
    unfold ScreenRecord.effectiveGain
    generalize r.fader.value = f at *
    have h1 := scaled_le f hmute
    have h1' := scaled_eq_iff f hmute
    generalize hg1 : f * r.mute.value / 32768 = g1 at *
    have h2 := scaled_le g1 hsafe
    have h2' := scaled_eq_iff g1 hsafe
    generalize hg2 : g1 * r.safeRamp.value / 32768 = g2 at *
    have h3 := scaled_le g2 hdip
    have h3' := scaled_eq_iff g2 hdip
    generalize hg3 : g2 * r.dip.value / 32768 = g3 at *
    refine ⟨rfl, by omega, by omega, by omega, ?_⟩
    rintro (h | h | h | h)
    · omega
    · rw [h, Nat.mul_zero, Nat.zero_div] at hg1
      omega
    · rw [h, Nat.mul_zero, Nat.zero_div] at hg2
      omega
    · rw [h, Nat.mul_zero, Nat.zero_div] at hg3
      omega

end Sys2Proof.Machine
end

section
/-!
PROOFS. Alarm values, comparisons and tiers (R100–R105).
-/

namespace Sys2Proof.Machine

/-! ## The largest and the smallest of some levels -/

theorem foldl_max_spec (xs : List Nat) (a : Nat) :
    a ≤ xs.foldl max a ∧ (∀ x ∈ xs, x ≤ xs.foldl max a) ∧ (xs.foldl max a = a ∨ xs.foldl max a ∈ xs) := by
  induction xs generalizing a with
  | nil => exact ⟨le_refl a, nofun, .inl rfl⟩
  | cons x xs ih =>
    obtain ⟨hbase, hall, hfrom⟩ := ih (max a x)
    rw [List.foldl_cons]
    refine ⟨(le_max_left a x).trans hbase, List.forall_mem_cons.mpr ⟨(le_max_right a x).trans hbase, hall⟩, ?_⟩
    rcases hfrom with h | h
    · rw [h]
      rcases max_choice a x with hm | hm
      · exact .inl hm
      · exact .inr (List.mem_cons.mpr (.inl hm))
    · exact .inr (List.mem_cons_of_mem x h)

theorem foldl_min_spec (xs : List Nat) (a : Nat) :
    xs.foldl min a ≤ a ∧ (∀ x ∈ xs, xs.foldl min a ≤ x) ∧ (xs.foldl min a = a ∨ xs.foldl min a ∈ xs) := by
  induction xs generalizing a with
  | nil => exact ⟨le_refl a, nofun, .inl rfl⟩
  | cons x xs ih =>
    obtain ⟨hbase, hall, hfrom⟩ := ih (min a x)
    rw [List.foldl_cons]
    refine ⟨hbase.trans (min_le_left a x), List.forall_mem_cons.mpr ⟨hbase.trans (min_le_right a x), hall⟩, ?_⟩
    rcases hfrom with h | h
    · rw [h]
      rcases min_choice a x with hm | hm
      · exact .inl hm
      · exact .inr (List.mem_cons.mpr (.inl hm))
    · exact .inr (List.mem_cons_of_mem x h)

/-- The largest level of all sixteen channels is one of theirs (R100). -/
theorem largest_channels (f : Fin 16 → Nat) :
    (∀ c, f c ≤ largest ((List.finRange 16).map f)) ∧ ∃ c, largest ((List.finRange 16).map f) = f c := by
  obtain ⟨-, hall, hfrom⟩ := foldl_max_spec ((List.finRange 16).map f) 0
  have hle (c : Fin 16) : f c ≤ largest ((List.finRange 16).map f) := hall _ (List.mem_map_of_mem (List.mem_finRange c))
  refine ⟨hle, ?_⟩
  rcases hfrom with h | h
  · have hzero := hle 0
    rw [largest, h] at hzero
    exact ⟨0, h.trans (Nat.le_zero.mp hzero).symm⟩
  · obtain ⟨c, -, hc⟩ := List.mem_map.mp h
    exact ⟨c, hc.symm⟩

theorem State.mem_drivenChannels (s : State) (i : Fin 8) (c : Fin 16) :
    c ∈ s.drivenChannels i ↔ s.drivenMask i / 2 ^ c.val % 2 = 1 := by
  simp [State.drivenChannels, marked]

theorem State.largest_driven (s : State) (i : Fin 8) (f : Fin 16 → Nat) :
    let raw := largest ((s.drivenChannels i).map f)
    (∀ c, s.drivenMask i / 2 ^ c.val % 2 = 1 → f c ≤ raw) ∧
      (raw = 0 ∨ ∃ c : Fin 16, s.drivenMask i / 2 ^ c.val % 2 = 1 ∧ raw = f c) := by
  obtain ⟨-, hall, hfrom⟩ := foldl_max_spec ((s.drivenChannels i).map f) 0
  refine ⟨fun c hc => hall _ (List.mem_map_of_mem ((s.mem_drivenChannels i c).mpr hc)), hfrom.imp_right fun h => ?_⟩
  obtain ⟨c, hmem, hc⟩ := List.mem_map.mp h
  exact ⟨c, (s.mem_drivenChannels i c).mp hmem, hc.symm⟩

theorem State.smallest_driven (s : State) (i : Fin 8) (f : Fin 16 → Nat) :
    let raw := smallest ((s.drivenChannels i).map f)
    (∀ c, s.drivenMask i / 2 ^ c.val % 2 = 1 → raw ≤ f c) ∧
      (raw = 183 ∨ ∃ c : Fin 16, s.drivenMask i / 2 ^ c.val % 2 = 1 ∧ raw = f c) := by
  obtain ⟨-, hall, hfrom⟩ := foldl_min_spec ((s.drivenChannels i).map f) 183
  refine ⟨fun c hc => hall _ (List.mem_map_of_mem ((s.mem_drivenChannels i c).mpr hc)), hfrom.imp_right fun h => ?_⟩
  obtain ⟨c, hmem, hc⟩ := List.mem_map.mp h
  exact ⟨c, (s.mem_drivenChannels i c).mp hmem, hc.symm⟩

/-! ## The value compared -/

theorem State.alarmValue_level (s : State) (a : AlarmEntry) {source : AlarmSource} (h : source ≠ .line) :
    ∃ v : Nat, s.alarmValue a source = .level v ∧
      (v : Int) = max 0 (min 183 ((s.rawLevel a source : Int) + a.offset)) := by
  refine ⟨(clamp 0 183 ((s.rawLevel a source : Int) + a.offset)).toNat, ?_, Int.toNat_of_nonneg (le_max_left _ _)⟩
  cases source with
  | line => exact absurd rfl h
  | _ => rfl

/-- The worst line state over some channels, said by the states that occur among them (R105, R107). -/
theorem worstLine_map {α : Type} (xs : List α) (f : α → LineState) {p : α → Prop} (hp : ∀ x, x ∈ xs ↔ p x) :
    let w := worstLine (xs.map f)
    let occurs (l : LineState) : Prop := ∃ x, p x ∧ f x = l
    (occurs .short → w = .short) ∧ (¬occurs .short → occurs .opened → w = .opened) ∧
      (¬occurs .short → ¬occurs .opened → occurs .unknown ∨ (∀ x, ¬p x) → w = .unknown) ∧
      ((∃ x, p x) → (∀ x, p x → f x = .ok) → w = .ok) := by
  intro w occurs
  have hmem (l : LineState) : l ∈ xs.map f ↔ occurs l := by simp only [List.mem_map, hp, occurs]
  have hempty : xs.map f = [] ↔ ∀ x, ¬p x := by
    rw [List.map_eq_nil_iff, List.eq_nil_iff_forall_not_mem]
    exact forall_congr' fun x => not_congr (hp x)
  obtain ⟨hshort, hopened, hunknown, hok⟩ := worstLine_spec (xs.map f)
  simp only [hmem, hempty] at hshort hopened hunknown
  refine ⟨hshort, hopened, hunknown, fun ⟨x, hx⟩ hall => hok (fun h => hempty.mp h x hx) ?_⟩
  simp only [List.mem_map, hp]
  rintro l ⟨y, hy, rfl⟩
  exact hall y hy

/-- A channel is carried where an outbound slot's entry names it (R105). -/
theorem State.mem_carried (s : State) (i : Fin 8) (c : Fin 16) :
    (c ∈ (List.finRange 16).filter fun c => !(s.slotsOf i c).isEmpty) ↔
      ∃ n : Fin 128, field (s.word 0 (128 + n.val)) 0 2 = 1 ∧ field (s.word 0 (128 + n.val)) 4 3 = i.val ∧
        field (s.word 0 (128 + n.val)) 8 4 = c.val := by
  rw [List.mem_filter, Bool.not_eq_true', ← Bool.not_eq_true, List.isEmpty_iff]
  simp only [List.mem_finRange, true_and, ← s.mem_slotsOf]
  exact List.ne_nil_iff_exists_cons.trans ⟨fun ⟨n, l, h⟩ => ⟨n, h ▸ List.mem_cons_self⟩,
    fun ⟨n, h⟩ => List.ne_nil_iff_exists_cons.mp (List.ne_nil_of_mem h)⟩

/-! ## Comparisons -/

theorem compareUp_released (v limit hysteresis : Nat) : (compareUp v limit hysteresis).released = true ↔
    (v + hysteresis < limit ∨ (limit ≤ hysteresis ∧ v = 0)) := by
  unfold compareUp
  dsimp only
  split
  · rw [beq_iff_eq]; omega
  · rw [decide_eq_true_eq]; omega

theorem compareDown_released (v limit hysteresis : Nat) : (compareDown v limit hysteresis).released = true ↔
    ((limit + hysteresis < 183 ∧ limit + hysteresis < v) ∨ (183 ≤ limit + hysteresis ∧ v = 183)) := by
  unfold compareDown
  dsimp only
  split
  · rw [beq_iff_eq]; omega
  · rw [decide_eq_true_eq]; omega

theorem AlarmEntry.compare_up (a : AlarmEntry) {source : AlarmSource} (h : source ≠ .floor) (v : Nat) (trip : Bool) :
    a.compare source (.level v) trip = compareUp v (if trip then a.tripLimit else a.warnLimit) a.hysteresis := by
  cases source with
  | floor => exact absurd rfl h
  | _ => rfl

/-! ## The tier rules -/

section Judge

variable {r : AlarmRecord} {hold : Nat} {warn trip : Comparison}

/-- An exit ends the scan's work on the entry (R102; assumption 6). -/
theorem AlarmRecord.judge_exits (h : exitTier r.tier warn trip ≠ r.tier) :
    r.judge hold warn trip = { r with tier := exitTier r.tier warn trip, warnCount := 0, tripCount := 0 } := if_pos h

theorem AlarmRecord.judge_trip (ht : r.tier = .trip) (h : exitTier r.tier warn trip = .trip) :
    r.judge hold warn trip = { r with tier := .trip, warnCount := 0, tripCount := 0 } := by
  unfold AlarmRecord.judge
  rw [if_neg (not_not.mpr (h.trans ht.symm)), ht]

theorem AlarmRecord.judge_warn (ht : r.tier = .warn) (h : exitTier r.tier warn trip = .warn) :
    r.judge hold warn trip = if completes trip r.tripCount hold then
        { r with tier := .trip, warnCount := 0, tripCount := 0 }
      else { r with tier := .warn, warnCount := 0, tripCount := counted trip r.tripCount } := by
  unfold AlarmRecord.judge
  rw [if_neg (not_not.mpr (h.trans ht.symm)), ht]

theorem AlarmRecord.judge_normal (ht : r.tier = .normal) :
    r.judge hold warn trip = if completes trip r.tripCount hold then
        { r with tier := .trip, warnCount := 0, tripCount := 0 }
      else if completes warn r.warnCount hold then
        { r with tier := .warn, warnCount := 0, tripCount := counted trip r.tripCount }
      else { r with tier := .normal, warnCount := counted warn r.warnCount, tripCount := counted trip r.tripCount } := by
  have h : exitTier r.tier warn trip = .normal := by rw [ht]; rfl
  unfold AlarmRecord.judge
  rw [if_neg (not_not.mpr (h.trans ht.symm)), ht]

theorem completes_iff (c : Comparison) (count hold : Nat) :
    completes c count hold = true ↔ c.holds = true ∧ hold ≤ count := by simp [completes]

theorem exitTier_warn (h : ¬(warn.released = true ∧ warn.holds = false)) : exitTier .warn warn trip = .warn :=
  if_neg (by simpa using h)

theorem exitTier_warn_leaves (h : warn.released = true ∧ warn.holds = false) : exitTier .warn warn trip = .normal :=
  if_pos (by simpa using h)

theorem exitTier_trip (h : ¬(trip.released = true ∧ trip.holds = false)) : exitTier .trip warn trip = .trip :=
  if_neg (by simpa using h)

theorem exitTier_trip_leaves (h : trip.released = true ∧ trip.holds = false) :
    exitTier .trip warn trip = exitTier .warn warn trip := if_pos (by simpa using h)

end Judge

/-- Settles O38: the values, the comparisons and the tier rules, each by its definition's cases. -/
theorem alarmTiersFollowTheirRules : Obligations.AlarmTiersFollowTheirRules := by
  refine ⟨fun s a => ?_, fun a source trip v l => ?_, fun r hold warn trip => ?_⟩
  · intro peak average driven valued
    have level {source : AlarmSource} {raw : Nat} (h : source ≠ .line) (hraw : s.rawLevel a source = raw) :
        valued source raw := hraw ▸ s.alarmValue_level a h
    refine ⟨fun c hc => ?_, ?_, fun hall => ?_⟩
    · have hlt : a.channel < 16 := hc ▸ c.isLt
      have hcell : (⟨a.channel, hlt⟩ : Fin 16) = c := Fin.ext hc
      have hline : s.lineValue a = (s.am.lines.get a.screen).get c := (dif_pos hlt).trans (by rw [hcell])
      exact ⟨level nofun ((dif_pos hlt).trans (by rw [hcell])), level nofun ((dif_pos hlt).trans (by rw [hcell])),
        level nofun ((dif_pos hlt).trans (by rw [hcell])), congrArg AlarmValue.line hline⟩
    · exact ⟨_, level nofun rfl, s.largest_driven a.screen average⟩
    · have hnot : ¬a.channel < 16 := Nat.not_lt.mpr hall
      refine ⟨⟨_, level nofun (dif_neg hnot), largest_channels peak⟩,
        ⟨_, level nofun (dif_neg hnot), largest_channels average⟩,
        ⟨_, level nofun (dif_neg hnot), s.smallest_driven a.screen average⟩,
        ⟨_, congrArg AlarmValue.line (dif_neg hnot), worstLine_map _ _ (s.mem_carried a.screen)⟩⟩
  · intro limit
    refine ⟨fun h => ?_, ⟨decide_eq_true_iff, compareDown_released v limit a.hysteresis⟩, ?_, rfl⟩
    · rw [a.compare_up h]
      exact ⟨decide_eq_true_iff, compareUp_released v limit a.hysteresis⟩
    · cases trip <;> cases l <;> simp [AlarmEntry.compare, compareLine]
  · intro leavesWarn leavesTrip becomes next
    refine ⟨fun ht => ⟨fun h => ?_, fun h hw => ?_, fun h hw => ?_⟩, fun ht hw => ?_, fun ht hw hholds hhold => ?_,
      fun ht hw hc => ?_, fun ht hc => ⟨fun hholds hhold => ?_, fun hcw => ?_⟩⟩
    · exact AlarmRecord.judge_trip ht (ht ▸ exitTier_trip h)
    · have hexit : exitTier r.tier warn trip = .warn := ht ▸ (exitTier_trip_leaves h).trans (exitTier_warn hw)
      exact (AlarmRecord.judge_exits (by rw [hexit, ht]; nofun)).trans (by rw [hexit])
    · have hexit : exitTier r.tier warn trip = .normal :=
        ht ▸ (exitTier_trip_leaves h).trans (exitTier_warn_leaves hw)
      exact (AlarmRecord.judge_exits (by rw [hexit, ht]; nofun)).trans (by rw [hexit])
    · have hexit : exitTier r.tier warn trip = .normal := ht ▸ exitTier_warn_leaves hw
      exact (AlarmRecord.judge_exits (by rw [hexit, ht]; nofun)).trans (by rw [hexit])
    · have hcomp := (completes_iff trip r.tripCount hold).mpr ⟨hholds, hhold⟩
      rcases ht with ht | ht
      · exact (AlarmRecord.judge_warn ht (ht ▸ exitTier_warn fun h => hw ⟨ht, h⟩)).trans (if_pos hcomp)
      · exact (AlarmRecord.judge_normal ht).trans (if_pos hcomp)
    · exact (AlarmRecord.judge_warn ht (ht ▸ exitTier_warn hw)).trans
        (if_neg fun h => hc ((completes_iff ..).mp h))
    · exact (AlarmRecord.judge_normal ht).trans ((if_neg fun h => hc ((completes_iff ..).mp h)).trans
        (if_pos ((completes_iff ..).mpr ⟨hholds, hhold⟩)))
    · exact (AlarmRecord.judge_normal ht).trans ((if_neg fun h => hc ((completes_iff ..).mp h)).trans
        (if_neg fun h => hcw ((completes_iff ..).mp h)))

end Sys2Proof.Machine
end

section
/-!
PROOFS. What the alarm scan does with one entry (R99, R104, R108–R113).
-/

namespace Sys2Proof.Machine

/-! ## The entry into SAFE that a scan makes -/

/-- What a screen that enters SAFE in the scan brings for the alarm entries: its FLOOR entries fall, and the protect targets
are left to the end of the scan (R104, R109, R111). -/
theorem State.followMove_scan {s : State} {i : Fin 8} {old : ScreenState} (hst : s.screenState i = .safe)
    (ho : old ≠ .offline) :
    let t := (s.followMove i old .safe true).1
    (∀ e, t.am.entries.get e =
      if old.playing = true ∧ (s.alarmEntry e).source = some .floor ∧ (s.alarmEntry e).screen = i then
        (s.am.entries.get e).fallen
      else s.am.entries.get e) ∧ t.am.targets = s.am.targets := by
  have hnot (a : AlarmEntry) (ha : a.screen = i) : s.floorEligible a = false := by
    rw [State.floorEligible, ha, State.playing, hst]
    rfl
  unfold State.followMove
  rw [if_neg nofun, if_neg ho]
  by_cases hplays : old.playing = true
  · rw [if_pos (by rw [hplays]; rfl)]
    obtain ⟨hentries, -, -, -, htargets, -⟩ := s.forceEntries_am fun a =>
      a.source == some .floor && a.screen == i && !s.floorEligible a
    refine ⟨fun e => (hentries e).trans ?_, htargets⟩
    by_cases hi : (s.alarmEntry e).screen = i
    · simp [hi, hplays, hnot _ hi]
    · simp [hi]
  · rw [if_neg (by simp [hplays])]
    exact ⟨fun e => (if_neg fun h => hplays h.1).symm, rfl⟩

theorem State.moveScreen_scan (s : State) (i : Fin 8) (cause : StateCause) (safeCause : SafeCause) (depth : Nat)
    (ho : s.screenState i ≠ .offline) :
    let t := (s.moveScreen i .safe cause safeCause depth true).1
    (∀ e, t.am.entries.get e =
      if (s.screenState i).playing = true ∧ (s.alarmEntry e).source = some .floor ∧ (s.alarmEntry e).screen = i then
        (s.am.entries.get e).fallen
      else s.am.entries.get e) ∧ t.am.targets = s.am.targets := by
  unfold State.moveScreen
  dsimp only
  have hstate : (s.modifyScreen i fun r => r.move .safe safeCause (s.safeGain i)).screenState i = .safe :=
    congrArg ScreenRecord.state (Tab.get_modify_same ..)
  have ham : (s.modifyScreen i fun r => r.move .safe safeCause (s.safeGain i)).am = s.am := rfl
  have hts : (s.modifyScreen i fun r => r.move .safe safeCause (s.safeGain i)).ts = s.ts := rfl
  generalize s.modifyScreen i (fun r => r.move .safe safeCause (s.safeGain i)) = m at *
  obtain ⟨⟨dip, hdip⟩, -, -, hpam, hpaside, -⟩ := m.handPending_spec i (s.sc.get i) .safe
  generalize m.handPending i (s.sc.get i) .safe = hand at *
  have hhand : hand.1.screenState i = .safe := by
    rw [State.screenState, hdip, Tab.get_modify_same]
    exact hstate
  obtain ⟨hentries, htargets⟩ := State.followMove_scan hhand ho
  have hentry (e : Fin 256) : hand.1.alarmEntry e = s.alarmEntry e := by
    unfold State.alarmEntry State.alarmWord State.word
    rw [State.outer_ts (State.aside_outer hpaside), hts]
  have hold : (s.sc.get i).state = s.screenState i := rfl
  rw [hold]
  generalize hand.1.followMove i (s.screenState i) .safe true = follow at *
  have hsilent := (State.silent_mergeReports _ [[.state i (s.screenState i) .safe cause], follow.2, hand.2]).trans
    (follow.1.silent_makeTrigger (.state i .safe) depth)
  rw [State.silent_am hsilent]
  simp only [hentry, hpam, ham] at hentries htargets
  exact ⟨hentries, htargets⟩

/-- A screen in IDLE, PRESHOW or FEATURE that an entry in TRIP takes to SAFE (R10). -/
theorem State.alarmSafe_moves {s : State} {i : Fin 8} (e : Fin 256)
    (h : s.screenState i = .idle ∨ s.screenState i = .preshow ∨ s.screenState i = .feature) :
    s.alarmSafe i e = (s.moveScreen i .safe (.alarm e) (.alarm e) 0 true).1.queueReports
      (s.moveScreen i .safe (.alarm e) (.alarm e) 0 true).2 := by
  unfold State.alarmSafe
  rcases h with h | h | h
  all_goals rw [h]

theorem State.alarmSafe_stays {s : State} {i : Fin 8} (e : Fin 256) (h : s.screenState i = .safe) :
    s.alarmSafe i e = s := by
  unfold State.alarmSafe
  rw [h]

/-! ## One entry of the scan -/

theorem State.modifyAlarm_congr {s : State} {e : Fin 256} {f g : AlarmRecord → AlarmRecord}
    (h : f (s.am.entries.get e) = g (s.am.entries.get e)) : s.modifyAlarm e f = s.modifyAlarm e g := by
  unfold State.modifyAlarm Tab.modify
  rw [h]

section Entry

variable {s : State} {e : Fin 256} {source : AlarmSource}

theorem State.scanEntry_skips (h : (s.alarmEntry e).enabled = false ∨ (s.alarmEntry e).source = none) :
    s.scanEntry e = s.modifyAlarm e fun r => { r with lastEvaluation := .skipped } := by
  unfold State.scanEntry
  dsimp only
  split
  · next henabled hsource =>
    rcases h with h | h
    · exact absurd (h.symm.trans henabled) nofun
    · exact absurd (h.symm.trans hsource) nofun
  · rfl

theorem State.scanEntry_holds (henabled : (s.alarmEntry e).enabled = true) (hsource : (s.alarmEntry e).source = some source)
    (h : s.screenState (s.alarmEntry e).screen = .offline ∨ source = .floor ∧ s.floorEligible (s.alarmEntry e) = false) :
    s.scanEntry e = s.holdEntry e := by
  unfold State.scanEntry
  dsimp only
  rw [henabled, hsource]
  dsimp only
  by_cases ho : s.screenState (s.alarmEntry e).screen = .offline
  · exact if_pos ho
  · rw [if_neg ho]
    exact if_pos (h.resolve_left ho)

theorem State.scanEntry_evaluates (henabled : (s.alarmEntry e).enabled = true)
    (hsource : (s.alarmEntry e).source = some source)
    (h : ¬(s.screenState (s.alarmEntry e).screen = .offline ∨
      source = .floor ∧ s.floorEligible (s.alarmEntry e) = false)) :
    s.scanEntry e = s.evaluateEntry e (s.alarmEntry e) source := by
  obtain ⟨ho, hf⟩ := not_or.mp h
  unfold State.scanEntry
  dsimp only
  rw [henabled, hsource]
  dsimp only
  rw [if_neg ho, if_neg hf]

/-- The record of an entry that the scan has evaluated, before the marks of an entry into a tier (R100–R102). -/
def State.judgedRecord (s : State) (e : Fin 256) (a : AlarmEntry) (source : AlarmSource) : AlarmRecord :=
  { (s.am.entries.get e).judge a.hold (a.compare source (s.alarmValue a source) false)
      (a.compare source (s.alarmValue a source) true) with
    lastValue := s.alarmValue a source, lastEvaluation := .evaluated }

theorem State.evaluateEntry_eq (a : AlarmEntry) :
    s.evaluateEntry e a source =
      let judged := s.judgedRecord e a source
      let t := s.modifyAlarm e fun _ => judged
      if (s.am.entries.get e).tier.rank < judged.tier.rank then t.enterTier e a (s.am.entries.get e).tier judged.tier
      else if judged.tier.rank < (s.am.entries.get e).tier.rank then
        t.leaveTier e a (s.am.entries.get e).tier judged.tier
      else t := by
  have hmodify : (s.modifyAlarm e fun r =>
      { r.judge a.hold (a.compare source (s.alarmValue a source) false)
          (a.compare source (s.alarmValue a source) true) with
        lastValue := s.alarmValue a source, lastEvaluation := .evaluated }) =
      s.modifyAlarm e fun _ => s.judgedRecord e a source := State.modifyAlarm_congr rfl
  unfold State.evaluateEntry
  dsimp only
  rw [hmodify]
  have hrecord : (s.modifyAlarm e fun _ => s.judgedRecord e a source).am.entries.get e = s.judgedRecord e a source :=
    Tab.get_modify_same ..
  rw [hrecord]

/-- The record of an entry into a tier has the flags of that tier (R108). -/
theorem AlarmRecord.mark_entered {r : AlarmRecord} (h : r.tier ≠ .normal) :
    r.mark = { r with warnSeen := true, tripSeen := r.tripSeen || r.tier == .trip } := by
  unfold AlarmRecord.mark
  obtain ⟨tier, warnSeen, tripSeen, warnCount, tripCount, value, evaluation⟩ := r
  cases tier with
  | normal => exact absurd rfl h
  | warn => simp
  | trip => simp

/-- The state after the marks, the report and the trigger of an entry into a tier, before its screen goes to SAFE (R108). -/
def State.tierEntered (s : State) (e : Fin 256) (a : AlarmEntry) (old : Tier) (marked : AlarmRecord) : State :=
  let m := s.modifyAlarm e fun _ => marked
  (if a.reportOnEntry then m.queueReport (alarmReport e a marked false old marked.tier false) else m).pushTrigger
    ⟨.alarm a.screen e marked.tier, 0⟩

theorem AlarmRecord.tier_mark (r : AlarmRecord) : r.mark.tier = r.tier := by
  obtain ⟨tier, warnSeen, tripSeen, warnCount, tripCount, value, evaluation⟩ := r
  cases tier <;> rfl

theorem State.enterTier_eq (s : State) (e : Fin 256) (a : AlarmEntry) (old : Tier) (judged : AlarmRecord) :
    (s.modifyAlarm e fun _ => judged).enterTier e a old judged.tier =
      State.recomputeDemands (if judged.tier == .trip && a.safeOnTrip then
        (s.tierEntered e a old judged.mark).alarmSafe a.screen e else s.tierEntered e a old judged.mark) := by
  unfold State.enterTier State.tierEntered
  dsimp only
  rw [State.modifyAlarm_twice]
  have hrecord : (s.modifyAlarm e fun _ => judged.mark).am.entries.get e = judged.mark := Tab.get_modify_same ..
  rw [hrecord, State.makeTrigger_zero, judged.tier_mark]

/-- Everything that an entry into a tier leaves before its screen goes to SAFE (R108). -/
theorem State.tierEntered_keeps (s : State) (e : Fin 256) (a : AlarmEntry) (old : Tier) (marked : AlarmRecord) :
    (s.tierEntered e a old marked).silent = (s.modifyAlarm e fun _ => marked).silent := by
  unfold State.tierEntered
  dsimp only
  rw [State.silent_pushTrigger]
  split
  · exact State.silent_queueReport ..
  · rfl

end Entry

/-- Settles O39: the scan's cases, and for an entry into a tier what `State.alarmSafe` does. -/
theorem tierChangesHaveTheirEffects : Obligations.TierChangesHaveTheirEffects := by
  intro s e a r i old
  refine ⟨State.scanEntry_skips, fun source henabled hsource => ?_⟩
  intro held value judged report
  have hevaluates (hnot : ¬held) := (State.scanEntry_evaluates henabled hsource hnot).trans (State.evaluateEntry_eq a)
  have hreport (fall : Bool) (new : Tier) (forced : Bool) (after : AlarmRecord) :
      alarmReport e a after fall r.tier new forced = report fall new forced after := by
    unfold alarmReport
    rw [show a.source = some source from hsource]
    rfl
  refine ⟨fun hheld => ?_, fun hnot hsame => ?_, fun hnot hfalls => ?_, fun hnot henters => ?_⟩
  · intro t
    rw [State.scanEntry_holds henabled hsource hheld, State.holdEntry, State.forceNormal]
    dsimp only
    rw [State.modifyAlarm_twice, hreport]
    have ht : (s.modifyAlarm e fun r => { r.fallen with lastEvaluation := .held }) = t := State.modifyAlarm_congr rfl
    rw [ht]
    split
    · rfl
    · rfl
  · refine (hevaluates hnot).trans ?_
    have hrank : ¬r.tier.rank < judged.tier.rank ∧ ¬judged.tier.rank < r.tier.rank := by
      rw [hsame]; exact ⟨lt_irrefl _, lt_irrefl _⟩
    exact (if_neg hrank.1).trans (if_neg hrank.2)
  · intro t
    refine (hevaluates hnot).trans ((if_neg (Nat.not_lt.mpr hfalls.le)).trans ((if_pos hfalls).trans ?_))
    unfold State.leaveTier
    have hrecord : (s.modifyAlarm e fun _ => judged).am.entries.get e = judged := Tab.get_modify_same ..
    exact congrArg (fun rep => if a.reportOnClear = true then t.queueReport rep else t)
      ((congrArg (fun x => alarmReport e a x true r.tier judged.tier false) hrecord).trans (hreport ..))
  · intro new marked m q
    have hnew : judged.tier ≠ .normal := fun h => Nat.not_lt_zero _ (henters.trans_eq (congrArg Tier.rank h))
    have hmark : judged.mark = marked := AlarmRecord.mark_entered hnew
    have hq : s.tierEntered e a r.tier judged.mark = q := by
      rw [hmark]
      unfold State.tierEntered
      dsimp only
      rw [hreport]
    have hscan : s.scanEntry e =
        State.recomputeDemands (if new == .trip && a.safeOnTrip then q.alarmSafe i e else q) := by
      refine (hevaluates hnot).trans ((if_pos henters).trans ((State.enterTier_eq ..).trans ?_))
      exact congrArg (fun x : State => State.recomputeDemands (if judged.tier == .trip && a.safeOnTrip then
        x.alarmSafe i e else x)) hq
    have hsilent : q.silent = m.silent := by
      rw [← hq, s.tierEntered_keeps, hmark]
    have hkeeps := s.scanEntry_keeps e
    clear_value q
    have hqsc : q.sc = s.sc := (State.silent_sc hsilent).trans rfl
    have hqstate : q.screenState i = old := congrArg (fun sc => (Tab.get sc i).state) hqsc
    refine ⟨fun hstays => ?_, fun htrip hsafe hold => ?_⟩
    · have hcase : (if new == .trip && a.safeOnTrip then q.alarmSafe i e else q) = q := by
        rcases hstays with h | h | h
        · rw [h]; rfl
        · rw [h, Bool.and_false]; rfl
        · split
          · exact State.alarmSafe_stays e (hqstate.trans h)
          · rfl
      rw [hscan, hcase]
      exact ⟨_, rfl, q.recomputeDemands_follow⟩
    · have hcase : (if new == .trip && a.safeOnTrip then q.alarmSafe i e else q) = q.alarmSafe i e := by
        rw [htrip, hsafe]; rfl
      have hplaces : q.screenState i = .idle ∨ q.screenState i = .preshow ∨ q.screenState i = .feature := hqstate ▸ hold
      have hon : q.screenState i ≠ .offline := by rintro ho; rw [ho] at hplaces; simp at hplaces
      have hqts : q.ts = s.ts := (State.outer_ts (congrArg Silent.outer hsilent)).trans rfl
      have hqentry (e' : Fin 256) : q.alarmEntry e' = s.alarmEntry e' := by
        unfold State.alarmEntry State.alarmWord State.word; rw [hqts]
      have hqgain : q.safeGain i = s.safeGain i := by
        unfold State.safeGain State.setting State.word; rw [hqts]
      have hqtargets : q.am.targets = s.am.targets := (congrArg AlarmMonitor.targets (State.silent_am hsilent)).trans rfl
      have hqde : q.de = s.de := (State.silent_de hsilent).trans rfl
      obtain ⟨hothers, ⟨dip, hrecord, -⟩, -, -, hrest⟩ := q.moveScreen_spec i .safe (.alarm e) (.alarm e) 0 true
      obtain ⟨hentries, htargets⟩ := q.moveScreen_scan i (.alarm e) (.alarm e) 0 hon
      obtain ⟨hreports, htriggers, -⟩ := q.moveScreen_joins i .safe (.alarm e) (.alarm e) 0 true
      rw [hcase, State.alarmSafe_moves e hplaces] at hscan
      intro t
      obtain ⟨hde, -⟩ := hrest nofun hon
      generalize q.moveScreen i .safe (.alarm e) (.alarm e) 0 true = moved at *
      have hmoved := State.silent_queueReports moved.1 moved.2
      generalize moved.1.queueReports moved.2 = u at *
      have ht : t = u.recomputeDemands := hscan
      have htsc : t.sc = moved.1.sc := by rw [ht]; exact (show u.sc = _ from State.silent_sc hmoved)
      have hti : t.sc.get i = { (s.sc.get i).move .safe (.alarm e) (s.safeGain i) with dip := dip } := by
        rw [htsc, hrecord, hqsc, hqgain]
      rw [hti]
      obtain ⟨haside, hos⟩ := hkeeps
      refine ⟨rfl, rfl, rfl, rfl, rfl, rfl, rfl, fun j hj => by rw [htsc, hothers j hj, hqsc], ?_, ?_, fun e' => ?_, ?_, ?_,
        hos, ?_, State.outer_ts (State.aside_outer haside), State.outer_li (State.aside_outer haside),
        State.aside_ct haside, State.aside_bl haside, State.aside_cues haside⟩
      · rw [hqstate] at hreports
        rw [ht]
        exact hreports
      · rw [ht]
        exact htriggers (Nat.zero_le 3)
      · have hrecomputed : t.am.entries = moved.1.am.entries := by
          rw [ht]
          exact (show u.am.entries = _ from congrArg AlarmMonitor.entries (State.silent_am hmoved))
        rw [hrecomputed, hentries, hqentry, hqstate]
        rfl
      · rw [ht]
        exact u.recomputeDemands_follow
      · rw [ht]
        exact (congrArg AlarmMonitor.targets (State.silent_am hmoved)).trans (htargets.trans hqtargets)
      · rw [ht]
        exact (State.silent_de hmoved).trans (hde.trans hqde)

end Sys2Proof.Machine
end

section
/-!
PROOFS. The meter window end (R89, R90, R99, R107, R111) and the rack status words (R25, R27, R30, R106).
-/

namespace Sys2Proof.Machine

/-! ## The meter window end -/

/-- The levels of a channel's record as the window end takes them (R90). -/
def State.leveled (s : State) (i : Fin 8) (ch : OutChannel) : OutChannel :=
  if s.screenState i = .offline then ch else ch.takeLevels

theorem State.takeLevels_get (s : State) (i : Fin 8) (c : Fin 16) :
    (s.takeLevels.os.channels.get i).get c = s.leveled i ((s.os.channels.get i).get c) := by
  unfold State.leveled
  refine (congrArg (Tab.get · c) (Tab.get_ofFn ..)).trans ?_
  split
  · rfl
  · exact Tab.get_map ..

theorem State.deriveLines_get (s : State) (i : Fin 8) (c : Fin 16) :
    (s.deriveLines.am.lines.get i).get c = worstLine ((s.slotsOf i c).map fun n => (s.am.slots.get n).state) :=
  (congrArg (Tab.get · c) (Tab.get_ofFn ..)).trans (Tab.get_ofFn ..)

/-- Settles O40: the window end is the levels, the lines and the scan, and the scan keeps the levels and the lines. -/
theorem windowEndTakesLevelsAndTargets : Obligations.WindowEndTakesLevelsAndTargets := by
  intro s hdue hworked
  set start : State := { s with os := { s.os with window := 0, windowDue := false } } with hstart
  obtain ⟨haside, hos⟩ := start.takeLevels.deriveLines.scanEntries_keep (List.finRange 256)
  have hlevels := start.takeLevels_get
  have hlines := start.takeLevels.deriveLines_get
  have hbegin : start.takeLevels.deriveLines = { s with
      os := { s.os with channels := start.takeLevels.os.channels, window := 0, windowDue := false }
      am := { s.am with lines := start.takeLevels.deriveLines.am.lines } } := rfl
  obtain ⟨u, hu⟩ : ∃ u, u = (List.finRange 256).foldl State.scanEntry start.takeLevels.deriveLines := ⟨_, rfl⟩
  have hexec : exec .meterWindowEnd s = .next u.recomputeTargets := by
    rw [hu]
    refine congrArg Host.Outcome.next (if_pos ?_)
    rw [State.windowEnded, hdue, hworked]
    rfl
  rw [← hu] at haside hos
  obtain ⟨-, -, hslots, hkept, hts, -, hwindow, htaken⟩ := u.recomputeTargets_keeps
  replace haside : u.aside = { s.aside with lines := start.takeLevels.deriveLines.am.lines } := haside.trans rfl
  have houter : u.recomputeTargets.outer = s.outer := (State.outer_recomputeTargets u).trans (congrArg Aside.outer haside)
  have hdueKept : u.recomputeTargets.os.windowDue = u.os.windowDue := rfl
  have hct : u.recomputeTargets.ct = s.ct := congrArg Aside.ct haside
  have hbl : u.recomputeTargets.bl = s.bl := congrArg Aside.bl haside
  have hcues : u.recomputeTargets.ce.cues = s.ce.cues := congrArg Aside.cues haside
  have hfollow := u.recomputeTargets_follow
  have hsame := congrArg State.recomputeTargets (hbegin ▸ hu)
  generalize u.recomputeTargets = t at *
  refine ⟨t, start.takeLevels.os.channels, start.takeLevels.deriveLines.am.lines, hexec, ?_, ?_, hsame, ?_, ?_, hfollow,
    State.outer_requests houter, State.outer_replies houter, State.outer_ts houter, State.outer_li houter, hct, hbl,
    hcues, hslots.trans (congrArg Aside.slots haside)⟩
  · exact hwindow.trans (congrArg OutputStage.window hos)
  · exact hdueKept.trans (congrArg OutputStage.windowDue hos)
  · intro i c old taken new
    have hold : taken = s.leveled i old := hlevels i c
    have hnew : new = taken.protectTake ((t.am.targets.get i).get c) := by
      refine (htaken i c).trans (congrArg (OutChannel.protectTake · _) ?_)
      exact congrArg (fun os => ((OutputStage.channels os).get i).get c) hos
    clear_value new taken
    subst hnew hold
    unfold State.leveled OutChannel.protectTake
    by_cases hoff : s.screenState i = .offline
    · simp [hoff]
    · simp [hoff, OutChannel.takeLevels]
  · intro i c carries some_ line
    have hline : line = worstLine ((s.slotsOf i c).map fun n => (s.am.slots.get n).state) := hlines i c
    refine ⟨?_, ?_⟩
    · rw [hkept]
      exact congrArg (fun lines => (Tab.get lines i).get c) (congrArg Aside.lines haside)
    · rw [hline]
      exact worstLine_map _ _ (s.mem_slotsOf i c)

/-! ## Rack status words -/

section RackWords

variable {word : BitVec 16}

/-- The fields of a rack status word as numbers (R192). -/
theorem field_rackWord (low count : Nat) : field (word.setWidth 32) low count = word.toNat / 2 ^ low % 2 ^ count := by
  have : word.toNat < 2 ^ 32 := word.isLt.trans (by decide)
  rw [field, BitVec.toNat_setWidth, Nat.mod_eq_of_lt this]

theorem RackWord.ofBits_valid (hcode : word.toNat / 256 % 4 = 1) (hline : word.toNat / 4096 % 4 ≤ 2) :
    RackWord.ofBits word = .valid (index 128 (word.toNat % 128))
      ([LineState.ok, .opened, .short].getD (word.toNat / 4096 % 4) .unknown) := by
  unfold RackWord.ofBits
  simp only [field_rackWord]
  have h : word.toNat / 2 ^ 8 % 2 ^ 2 = 1 := hcode
  rw [h]
  have h' : word.toNat / 2 ^ 12 % 2 ^ 2 = word.toNat / 4096 % 4 := rfl
  rw [h']
  generalize word.toNat / 4096 % 4 = line at hline ⊢
  match line, hline with
  | 0, _ => simp
  | 1, _ => simp
  | 2, _ => simp

theorem RackWord.ofBits_busy (hcode : word.toNat / 256 % 4 = 2) :
    RackWord.ofBits word = .busy (index 128 (word.toNat % 128)) := by
  unfold RackWord.ofBits
  simp only [field_rackWord]
  have h : word.toNat / 2 ^ 8 % 2 ^ 2 = 2 := hcode
  rw [h]
  simp

theorem RackWord.ofBits_none (hvalid : ¬(word.toNat / 256 % 4 = 1 ∧ word.toNat / 4096 % 4 ≤ 2))
    (hbusy : word.toNat / 256 % 4 ≠ 2) : RackWord.ofBits word = .none := by
  unfold RackWord.ofBits
  simp only [field_rackWord]
  have h : word.toNat / 2 ^ 8 % 2 ^ 2 = word.toNat / 256 % 4 := rfl
  have h' : word.toNat / 2 ^ 12 % 2 ^ 2 = word.toNat / 4096 % 4 := rfl
  rw [h, h']
  split
  · next hcode =>
    split
    · omega
    · omega
    · omega
    · rfl
  · omega
  · rfl

theorem SlotLine.hear_word (l : SlotLine) (n : Fin 128) : l.hear n (.ofBits word) =
    if n.val = word.toNat % 128 ∧ word.toNat / 256 % 4 = 1 ∧ word.toNat / 4096 % 4 ≤ 2 then
      ⟨[LineState.ok, .opened, .short].getD (word.toNat / 4096 % 4) .unknown, 0⟩
    else if n.val = word.toNat % 128 ∧ word.toNat / 256 % 4 = 2 then ⟨l.state, 0⟩
    else l.aged := by
  have hslot : n = index 128 (word.toNat % 128) ↔ n.val = word.toNat % 128 := by
    rw [Fin.ext_iff]
    simp [index, Fin.ofNat]
  by_cases hvalid : word.toNat / 256 % 4 = 1 ∧ word.toNat / 4096 % 4 ≤ 2
  · rw [RackWord.ofBits_valid hvalid.1 hvalid.2]
    by_cases hn : n.val = word.toNat % 128
    · simp [SlotLine.hear, hslot, hvalid, hn]
    · simp [SlotLine.hear, hslot, hn]
  · by_cases hbusy : word.toNat / 256 % 4 = 2
    · rw [RackWord.ofBits_busy hbusy]
      simp [SlotLine.hear, hslot, hbusy]
    · rw [RackWord.ofBits_none hvalid hbusy]
      rw [if_neg fun h => hvalid h.2, if_neg fun h => hbusy h.2]
      rfl

end RackWords

/-- A rack status word that is not the first of a link frame's is classified in it (R25). -/
theorem exec_rackStatusWord_first {s : State} (intact : Bool) (word : BitVec 16) (h : s.li.downSeen = false) :
    exec (.rackStatusWord intact word) s = .next (s.receiveRack (if intact then some word else none)) := by
  refine congrArg Host.Outcome.next ?_
  unfold State.rackArrives
  rw [h]
  rfl

section Receive

variable {s : State} {word : BitVec 16}

/-- The state that has classified this link frame's downstream frame (R25, R27). -/
def State.rackSeen (s : State) (intact : Bool) : State :=
  { s with li := { s.li with down := s.li.down.classify intact, downSeen := true } }

theorem State.receiveRack_none (s : State) : s.receiveRack none = (s.rackSeen false).takeRackWord .none := rfl

theorem State.receiveRack_some (s : State) (word : BitVec 16) : s.receiveRack (some word) =
    if (s.rackSeen true).li.down.lock = .locked then (s.rackSeen true).takeRackWord (.ofBits word)
    else if (s.rackSeen true).li.down.lockDue then
      { s.rackSeen true with li := { (s.rackSeen true).li with rackWord := some word } }
    else (s.rackSeen true).takeRackWord .none := rfl

theorem State.receiveRack_locked (h : s.li.down.lock = .locked) :
    s.receiveRack (some word) = (s.rackSeen true).takeRackWord (.ofBits word) := by
  have hlock : (s.rackSeen true).li.down.lock = .locked := by
    rw [State.rackSeen, Port.classify_locked h]
    exact h
  rw [State.receiveRack_some, if_pos hlock]

theorem State.receiveRack_short (h : s.li.down.lock = .lost) (hrun : s.li.down.intactRun < 479) :
    s.receiveRack (some word) = (s.rackSeen true).takeRackWord .none := by
  obtain ⟨hlock, hdue⟩ := Port.classify_short h hrun
  have hnot : ¬(s.rackSeen true).li.down.lockDue = true := fun hd => Bool.false_ne_true (hdue.symm.trans hd)
  rw [State.receiveRack_some, if_neg (show (s.rackSeen true).li.down.lock ≠ .locked from hlock), if_neg hnot]

/-- The word of the frame that completes a LOST port's run is held for the change of lock (assumption 1). -/
theorem State.receiveRack_complete (h : s.li.down.lock = .lost) (hrun : 479 ≤ s.li.down.intactRun) :
    s.receiveRack (some word) = { s with li := { s.li with
      downSeen := true, down := { s.li.down with intactRun := 480 }, rackWord := some word } } := by
  have hseen : s.rackSeen true =
      { s with li := { s.li with down := { s.li.down with intactRun := 480 }, downSeen := true } } := by
    rw [State.rackSeen, Port.classify_lost h, Nat.min_eq_right (by omega)]
  have hlock : (s.rackSeen true).li.down.lock = .lost := by rw [hseen]; exact h
  have hdue : (s.rackSeen true).li.down.lockDue = true := by
    rw [Port.lockDue, hlock, hseen]
    rfl
  rw [State.receiveRack_some, if_neg (by rw [hlock]; nofun), if_pos hdue, hseen]

end Receive

/-- Settles O41: a port's lock decides what its word does. -/
theorem rackStatusWordsSetSlotStates : Obligations.RackStatusWordsSetSlotStates := by
  refine ⟨fun s intact word hseen => ?_, fun s n line hslot hline => ?_⟩
  · intro aged code line heard
    have hexec := exec_rackStatusWord_first intact word hseen
    have ages (n : Fin 128) : Tab.get (Tab.ofFn fun n => (s.am.slots.get n).hear n .none) n = aged (s.am.slots.get n) :=
      Tab.get_ofFn ..
    refine ⟨fun hlock => ?_, fun hlock hshort => ?_, fun hlock hintact hrun => ?_⟩
    · cases intact with
      | false =>
        refine ⟨Tab.ofFn fun n => (s.am.slots.get n).hear n .none, hexec.trans (congrArg Host.Outcome.next ?_),
          fun n => (ages n).trans ?_⟩
        · rw [if_neg nofun, State.receiveRack_none, State.rackSeen, Port.classify_locked_damaged hlock]
          rfl
        · simp
      | true =>
        refine ⟨Tab.ofFn fun n => (s.am.slots.get n).hear n (.ofBits word),
          hexec.trans (congrArg Host.Outcome.next ?_), fun n => (Tab.get_ofFn ..).trans ?_⟩
        · rw [if_pos rfl, State.receiveRack_locked hlock, State.rackSeen, Port.classify_locked hlock]
          rfl
        · rw [SlotLine.hear_word]
          simp only [true_and]
          rfl
    · refine ⟨Tab.ofFn fun n => (s.am.slots.get n).hear n .none, hexec.trans (congrArg Host.Outcome.next ?_), ages⟩
      cases intact with
      | false =>
        rw [if_neg nofun, State.receiveRack_none, State.rackSeen, Port.classify_lost_damaged hlock]
        rfl
      | true =>
        have hrun : s.li.down.intactRun < 479 := hshort.resolve_left nofun
        rw [if_pos rfl, State.receiveRack_short hlock hrun, State.rackSeen, Port.classify_lost hlock,
          Nat.min_eq_left (by omega)]
        rfl
    · subst hintact
      exact hexec.trans (congrArg Host.Outcome.next (State.receiveRack_complete hlock hrun))
  · refine congrArg Host.Outcome.next ?_
    have hexpiring : (s.am.slots.get n).expiring = true := by
      rw [hslot]
      cases line with
      | unknown => exact absurd rfl hline
      | _ => rfl
    unfold State.expireSlot
    rw [if_pos hexpiring, Tab.modify, hslot]

end Sys2Proof.Machine
end

section
/-!
PROOFS. The gathering of upstream frames (R33–R35) and the changes of lock (R11, R27, R29–R31).
-/

namespace Sys2Proof.Machine

/-! ## The last of several slots -/

/-- A fold in which the steps of some numbers set a part to a value and the others leave it: the last of them sets it. -/
theorem foldl_range_last {σ α : Type} (step : σ → Nat → σ) (part : σ → α) (sets : Nat → Prop) (value : Nat → α)
    (hset : ∀ g n, sets n → part (step g n) = value n) (hkeep : ∀ g n, ¬sets n → part (step g n) = part g) (g : σ)
    (k : Nat) :
    ((∀ n < k, ¬sets n) → part ((List.range k).foldl step g) = part g) ∧
      ∀ n < k, sets n → (∀ m < k, sets m → m ≤ n) → part ((List.range k).foldl step g) = value n := by
  induction k with
  | zero => exact ⟨fun _ => rfl, fun n hn => absurd hn (Nat.not_lt_zero n)⟩
  | succ k ih =>
    obtain ⟨hnone, hlast⟩ := ih
    rw [List.range_succ, List.foldl_append]
    refine ⟨fun h => ?_, fun n hn hsets hmax => ?_⟩
    · exact (hkeep _ k (h k (Nat.lt_succ_self k))).trans (hnone fun n hn => h n (Nat.lt_succ_of_lt hn))
    · by_cases hk : sets k
      · have : n = k := Nat.le_antisymm (Nat.le_of_lt_succ hn) (hmax k (Nat.lt_succ_self k) hk)
        subst this
        exact hset _ n hk
      · have hne : n ≠ k := fun h => hk (h ▸ hsets)
        exact (hkeep _ k hk).trans
          (hlast n (by omega) hsets fun m hm => hmax m (Nat.lt_succ_of_lt hm))

/-! ## Gathering -/

section Gathering

variable (s : State) (slots : List InSlot) (i : Fin 8)

/-- The slot's entry maps it to a source channel (R34). -/
def State.suppliesSource (s : State) (i : Fin 8) (c : Fin 16) (n : Nat) : Prop :=
  field (s.word 0 n) 0 2 = 1 ∧ field (s.word 0 n) 4 3 = i.val ∧ field (s.word 0 n) 8 4 = c.val

/-- The slot's entry maps it to a screen's descriptor (R35). -/
def State.suppliesDescriptor (s : State) (i : Fin 8) (n : Nat) : Prop :=
  field (s.word 0 n) 0 2 = 2 ∧ field (s.word 0 n) 4 3 = i.val

theorem Gathered.slot_source (g : Gathered) (c : Fin 16) (x : Option Sample) (n : Nat) (h : s.suppliesSource i c n) :
    ((g.slot (s.inboundEntry n) x).sources.get i).get c = x.getD 0 := by
  obtain ⟨hrole, hscreen, hchannel⟩ := h
  rw [Gathered.slot, State.inboundEntry, (inboundRole_audio _).mpr hrole]
  dsimp only
  rw [(entryScreen_eq _ i).mpr hscreen, (entryChannel_eq _ c).mpr hchannel, Tab.get_modify_same, Tab.get_set_same]

theorem Gathered.slot_otherSource (g : Gathered) (c : Fin 16) (x : Option Sample) (n : Nat)
    (h : ¬s.suppliesSource i c n) :
    ((g.slot (s.inboundEntry n) x).sources.get i).get c = (g.sources.get i).get c := by
  unfold Gathered.slot State.inboundEntry
  split
  · rfl
  · next hrole =>
    dsimp only
    rw [Tab.get_modify]
    split
    · next hscreen =>
      have hchannel : c ≠ entryChannel (s.word 0 n) := fun hc =>
        h ⟨(inboundRole_audio _).mp hrole, (entryScreen_eq _ i).mp hscreen.symm, (entryChannel_eq _ c).mp hc.symm⟩
      rw [Tab.get_set_other _ _ hchannel, hscreen]
    · rfl
  · rfl

theorem Gathered.slot_descriptor (g : Gathered) (x : Option Sample) (n : Nat) (h : s.suppliesDescriptor i n) :
    (g.slot (s.inboundEntry n) x).descriptors.get i = descriptorOf x := by
  obtain ⟨hrole, hscreen⟩ := h
  rw [Gathered.slot, State.inboundEntry, (inboundRole_descriptor _).mpr hrole]
  dsimp only
  rw [(entryScreen_eq _ i).mpr hscreen, Tab.get_set_same]

theorem Gathered.slot_otherDescriptor (g : Gathered) (x : Option Sample) (n : Nat) (h : ¬s.suppliesDescriptor i n) :
    (g.slot (s.inboundEntry n) x).descriptors.get i = g.descriptors.get i := by
  unfold Gathered.slot State.inboundEntry
  split
  · rfl
  · rfl
  · next hrole =>
    refine Tab.get_set_other _ _ fun hscreen => h ⟨(inboundRole_descriptor _).mp hrole, ?_⟩
    exact (entryScreen_eq _ i).mp hscreen.symm

/-- The highest-numbered slot mapped to a source supplies it, and a source with none is 0 (R34). -/
theorem State.gathered_source (c : Fin 16) :
    ((∀ n : Fin 128, ¬s.suppliesSource i c n) → ((s.gathered slots).sources.get i).get c = 0) ∧
      ∀ n : Fin 128, s.suppliesSource i c n → (∀ m : Fin 128, s.suppliesSource i c m → m ≤ n) →
        ((s.gathered slots).sources.get i).get c = (slotSample slots n).getD 0 := by
  obtain ⟨hnone, hlast⟩ := foldl_range_last (fun g n => g.slot (s.inboundEntry n) (slotSample slots n))
    (fun g : Gathered => (g.sources.get i).get c) (s.suppliesSource i c) (fun n => (slotSample slots n).getD 0)
    (fun g n => g.slot_source s i c _ n) (fun g n => g.slot_otherSource s i c _ n)
    ⟨.fill 8 (.fill 16 0), .fill 8 .unmapped⟩ 128
  refine ⟨fun h => (hnone fun n hn => h ⟨n, hn⟩).trans ?_, fun n hn hmax => hlast n n.isLt hn fun m hm hmaps =>
    hmax ⟨m, hm⟩ hmaps⟩
  exact (congrArg (Tab.get · c) (Tab.get_fill ..)).trans (Tab.get_fill ..)

/-- The highest-numbered slot mapped to a screen's descriptor gives its result (R35). -/
theorem State.gathered_descriptor :
    ((∀ n : Fin 128, ¬s.suppliesDescriptor i n) → (s.gathered slots).descriptors.get i = .unmapped) ∧
      ∀ n : Fin 128, s.suppliesDescriptor i n → (∀ m : Fin 128, s.suppliesDescriptor i m → m ≤ n) →
        (s.gathered slots).descriptors.get i = descriptorOf (slotSample slots n) := by
  obtain ⟨hnone, hlast⟩ := foldl_range_last (fun g n => g.slot (s.inboundEntry n) (slotSample slots n))
    (fun g : Gathered => g.descriptors.get i) (s.suppliesDescriptor i) (fun n => descriptorOf (slotSample slots n))
    (fun g n => g.slot_descriptor s i _ n) (fun g n => g.slot_otherDescriptor s i _ n)
    ⟨.fill 8 (.fill 16 0), .fill 8 .unmapped⟩ 128
  exact ⟨fun h => (hnone fun n hn => h ⟨n, hn⟩).trans (Tab.get_fill ..), fun n hn hmax =>
    hlast n n.isLt hn fun m hm hmaps => hmax ⟨m, hm⟩ hmaps⟩

/-- A frame that is not used gives zero sources (R29). -/
theorem State.gathered_nil_sources : (s.gathered []).sources = .fill 8 (.fill 16 0) := by
  refine Tab.ext_get fun i => Tab.ext_get fun c => ?_
  obtain ⟨hnone, hlast⟩ := s.gathered_source [] i c
  have hfill : ((Tab.fill 8 (Tab.fill 16 (0 : Sample))).get i).get c = 0 :=
    (congrArg (Tab.get · c) (Tab.get_fill ..)).trans (Tab.get_fill ..)
  rw [hfill]
  by_cases h : ∃ n : Fin 128, s.suppliesSource i c n
  · classical
    obtain ⟨n, hn, hmax⟩ := (Finset.univ.filter fun n : Fin 128 => s.suppliesSource i c n).exists_max_image id
      (by obtain ⟨n, hn⟩ := h; exact ⟨n, by simpa using hn⟩)
    exact hlast n (by simpa using hn) fun m hm => hmax m (by simpa using hm)
  · exact hnone (not_exists.mp h)

/-- A frame that is not used gives "no descriptor" to a screen that has a slot mapped (R29, R35). -/
theorem State.gathered_nil_descriptor :
    ((∀ n : Fin 128, ¬s.suppliesDescriptor i n) → (s.gathered []).descriptors.get i = .unmapped) ∧
      ∀ n : Fin 128, s.suppliesDescriptor i n → (s.gathered []).descriptors.get i = .none := by
  obtain ⟨hnone, hlast⟩ := s.gathered_descriptor [] i
  refine ⟨hnone, fun k hk => ?_⟩
  classical
  obtain ⟨n, hn, hmax⟩ := (Finset.univ.filter fun n : Fin 128 => s.suppliesDescriptor i n).exists_max_image id
    ⟨k, by simpa using hk⟩
  exact hlast n (by simpa using hn) fun m hm => hmax m (by simpa using hm)

theorem slotSample_getD (n : Nat) : (slotSample slots n).getD 0 = match slots[n]? with
    | some ⟨x, true⟩ => x
    | _ => 0 := by
  unfold slotSample
  rcases slots[n]? with _ | ⟨x, valid⟩
  · rfl
  · cases valid <;> rfl

theorem descriptorOf_slotSample (n : Nat) : descriptorOf (slotSample slots n) = match slots[n]? with
    | some ⟨x, true⟩ => if x.toNat / 65536 = 0x5A then .code (index 16 (x.toNat % 16)) else .none
    | _ => .none := by
  unfold slotSample
  rcases slots[n]? with _ | ⟨x, valid⟩
  · rfl
  · cases valid <;> rfl

end Gathering

/-! ## Frames of a port -/

/-- A receiver in HUNT takes two bytes with no SYNC among them and stays there (R184). -/
theorem take_hunting_other {first second : Byte} (h1 : first ≠ 0xA5) (h2 : second ≠ 0xA5) :
    Receiver.take .hunting [first, second] = (.hunting, []) := by
  obtain ⟨n, hn⟩ := take_steps .hunting [first, second]
  rw [hn]
  have hfuel : [first, second].length + (n + 1) = n + 1 + 1 + 1 := by simp only [List.length]; omega
  rw [hfuel, Receiver.feed]
  simp only [Receiver.act, Receiver.hunting, if_neg h1]
  exact take_hunt_other h2 (n + 1)

/-- The frame that completes a LOST port's run is held for the change of lock (assumption 1). -/
theorem State.receiveUpstream_complete {s : State} (h : s.li.up.lock = .lost) (hrun : 479 ≤ s.li.up.intactRun)
    (a : Arrival) : s.receiveUpstream (some a) = { s with li := { s.li with
      up := { s.li.up with intactRun := 480 }, upSeen := true, arrival := some a } } := by
  have hclassify : s.li.up.classify true = { s.li.up with intactRun := 480 } := by
    rw [Port.classify_lost h, Nat.min_eq_right (by omega)]
  have hlock : ¬(s.li.up.classify true).lock = .locked := by rw [hclassify, h]; nofun
  have hdue : (s.li.up.classify true).lockDue = true := by rw [hclassify, Port.lockDue, h]; rfl
  refine (if_neg hlock).trans ((if_pos hdue).trans ?_)
  dsimp only [Option.isSome_some]
  rw [hclassify]

/-- Settles O42: a LOCKED port's frame is gathered slot by slot, and one that is not used has no slots. -/
theorem upstreamFramesAreGathered : Obligations.UpstreamFramesAreGathered := by
  intro s slots first second hworked hseen hnone audio marks
  have hexec (intact : Bool) : exec (.upstreamFrame intact slots first second) s =
      .next (s.receiveUpstream (if intact then some ⟨slots, first, second⟩ else none)).interpret := by
    rw [exec_upstreamFrame, s.upstreamArrives_now hworked hseen]
  refine ⟨fun hlock hhunt h1 h2 => ⟨(s.gathered slots).sources, (s.gathered slots).descriptors, ?_, fun i c => ?_,
    fun i => ?_⟩, ?_⟩
  · have htake : s.li.receiver.take [first, second] = (s.li.receiver, []) := by
      rw [hhunt]; exact take_hunting_other h1 h2
    have hreceived := s.receiveUpstream_locked hlock ⟨slots, first, second⟩
    rw [htake] at hreceived
    rw [hexec, if_pos rfl, hreceived]
    exact congrArg Host.Outcome.next (State.interpret_none hnone)
  · obtain ⟨hempty, hlast⟩ := s.gathered_source slots i c
    exact ⟨hempty, fun n hn hmax => (hlast n hn hmax).trans (slotSample_getD slots n)⟩
  · obtain ⟨hempty, hlast⟩ := s.gathered_descriptor slots i
    exact ⟨hempty, fun n hn hmax => (hlast n hn hmax).trans (descriptorOf_slotSample slots n)⟩
  · intro unused
    have hunused {intact : Bool} {up : Port} (hup : s.li.up.classify intact = up)
        (h : intact = false ∨ (s.li.up.lock = .lost ∧ s.li.up.intactRun < 479)) :
        ∃ t, exec (.upstreamFrame intact slots first second) s = .next t ∧ unused up t := by
      have hcase : (if intact then some (⟨slots, first, second⟩ : Arrival) else none) = none ∨
          (s.li.up.lock = .lost ∧ s.li.up.intactRun < 479) := by
        rcases h with h | h
        · exact .inl (by rw [h]; rfl)
        · exact .inr h
      have hsome : (if intact then some (⟨slots, first, second⟩ : Arrival) else none).isSome = intact := by
        cases intact <;> rfl
      have hreceived := s.receiveUpstream_unused hcase
      rw [hsome, hup, s.gathered_nil_sources] at hreceived
      rw [hexec, hreceived]
      exact ⟨_, congrArg Host.Outcome.next (State.interpret_none hnone), (s.gathered []).descriptors, rfl,
        fun i => s.gathered_nil_descriptor i⟩
    refine ⟨fun hlock => hunused (Port.classify_locked_damaged hlock) (.inl rfl), fun hlock =>
      ⟨hunused (Port.classify_lost_damaged hlock) (.inl rfl), fun hrun => hunused ?_ (.inr ⟨hlock, hrun⟩), fun hrun => ?_⟩⟩
    · rw [Port.classify_lost hlock, Nat.min_eq_left (by omega)]
    · rw [hexec, if_pos rfl, State.receiveUpstream_complete hlock hrun]
      exact congrArg Host.Outcome.next (State.interpret_none hnone)

/-! ## Changes of lock -/

theorem exec_portLost {s : State} {port : PortId} (h : (s.port port).lossDue = true) :
    exec (.portLost port) s = .next (s.losePort port) := congrArg Host.Outcome.next (if_pos h)

theorem exec_portLocked {s : State} {port : PortId} (h : (s.port port).lockDue = true) :
    exec (.portLocked port) s = .next (s.lockPort port).interpret := congrArg Host.Outcome.next (if_pos h)

theorem State.playing_iff (s : State) (i : Fin 8) :
    s.playing i = true ↔ s.screenState i = .preshow ∨ s.screenState i = .feature := by
  unfold State.playing
  cases s.screenState i <;> simp [ScreenState.playing]

theorem State.queueReport_li (s : State) (li : LinkInterface) (r : Report) :
    State.queueReport { s with li := li } r = { s.queueReport r with li := li } := by
  unfold State.queueReport
  split <;> rfl

/-- The frame that completed the run of an upstream port is used at the change of lock (R29). -/
theorem State.lockPort_upstream {s : State} {a : Arrival} (h : s.li.arrival = some a) :
    s.lockPort .upstream = State.deliver (State.queueReport
      { s with li := { s.li with up := ⟨.locked, 0, 0⟩, arrival := none } } (.link .upstream .locked s.li.down.lock)) a := by
  unfold State.lockPort
  dsimp only [State.setPort, State.linkReport, State.port, otherPort]
  rw [State.queueReport_li]
  dsimp only
  rw [h]
  exact congrArg (State.deliver · a) (State.queueReport_li ..).symm

theorem State.lockPort_downstream {s : State} {w : BitVec 16} (h : s.li.rackWord = some w) :
    s.lockPort .downstream = State.takeRackWord (State.queueReport
      { s with li := { s.li with down := ⟨.locked, 0, 0⟩, rackWord := none } }
        (.link .downstream .locked s.li.up.lock)) (.ofBits w) := by
  unfold State.lockPort
  dsimp only [State.setPort, State.linkReport, State.port, otherPort]
  rw [State.queueReport_li]
  dsimp only
  rw [h]
  exact congrArg (State.takeRackWord · (.ofBits w)) (State.queueReport_li ..).symm

section Deliver

variable {s : State} {a : Arrival}

theorem State.deliver_take {receiver : Receiver} {bodies : List (List Byte)}
    (h : s.li.receiver.take [a.first, a.second] = (receiver, bodies)) :
    s.deliver a = State.joinBodies
      { s.gather a.slots with li := { (s.gather a.slots).li with receiver := receiver } } bodies := by
  unfold State.deliver
  dsimp only
  have hgather : (s.gather a.slots).li.receiver = s.li.receiver := rfl
  rw [hgather, h]

theorem State.deliver_quiet (hhunt : s.li.receiver = .hunting) (h1 : a.first ≠ 0xA5) (h2 : a.second ≠ 0xA5) :
    s.deliver a = s.gather a.slots := by
  have htake : s.li.receiver.take [a.first, a.second] = (s.li.receiver, []) := by
    rw [hhunt]; exact take_hunting_other h1 h2
  exact State.deliver_take htake

end Deliver

/-- The state after the playing screens have entered SAFE with cause LINK and the reports have joined (R11, R31). -/
def State.linkLost (s : State) : State :=
  let merged := s.safeAll.1.mergeReports [[s.safeAll.1.linkReport .upstream], s.safeAll.2]
  merged.1.queueReports merged.2

theorem State.losePort_upstream (s : State) :
    s.losePort .upstream = State.linkLost { s with li := { s.li with up := ⟨.lost, 0, 0⟩ } } := by
  unfold State.losePort State.linkLost
  dsimp only [State.setPort]

/-- What the screens' entering SAFE leaves of the safed state after the merge of the reports. -/
theorem State.linkLost_silent (s : State) : s.linkLost.silent = s.safeAll.1.silent := by
  unfold State.linkLost
  dsimp only
  rw [State.silent_queueReports, State.silent_mergeReports]

theorem State.linkLost_reports (s : State) : ∃ reports : Fin 8 → List Report,
    (∀ i, (s.playing i = true → ∃ gs : List (List Report), reports i = gs.flatten ∧
        gs.Perm [[.state i (s.screenState i) .safe .link], s.fallReports i (s.screenState i) .safe,
          s.handedReports i .safe]) ∧ (s.playing i = false → reports i = [])) ∧
      s.ReportsJoin s.linkLost [] [[s.linkReport .upstream], (List.finRange 8).flatMap reports] ∧
      s.TriggersJoin s.linkLost (((List.finRange 8).filter fun i => s.playing i).map fun i => ⟨.state i .safe, 0⟩) ∧
      s.linkLost.outer = s.outer := by
  obtain ⟨⟨reports, hreports, heach⟩, hci, hce⟩ := s.safeAll_reports
  obtain ⟨-, haside, -⟩ := s.safeAll_spec
  have hlink : s.safeAll.1.linkReport .upstream = s.linkReport .upstream := by
    unfold State.linkReport State.port otherPort
    rw [State.outer_li (State.aside_outer haside)]
  have houter : s.linkLost.outer = s.outer :=
    (congrArg Silent.outer s.linkLost_silent).trans (State.aside_outer haside)
  unfold State.linkLost at houter ⊢
  dsimp only at houter ⊢
  rw [hlink] at houter ⊢
  generalize s.safeAll = safed at *
  obtain ⟨⟨gs, hgs, hmerged⟩, hmerge⟩ := safed.1.mergeReports_spec [[s.linkReport .upstream], safed.2]
  generalize safed.1.mergeReports [[s.linkReport .upstream], safed.2] = merged at *
  have hmci : merged.1.ci = s.ci := by rw [hmerge]; exact hci
  have hmce : merged.1.ce = safed.1.ce := by rw [hmerge]
  refine ⟨reports, heach, ⟨gs, hreports ▸ hgs, ?_⟩, ?_, houter⟩
  · rw [State.queueReports_ci hmci, hmerged]
    exact ⟨rfl, rfl⟩
  · unfold State.TriggersJoin
    rw [State.queueReports_ce, hmce, hce]
    exact ⟨rfl, rfl⟩

/-- What the trigger queue and its mark hold after triggers arrive depends on the cue engine alone. -/
theorem State.pushTriggers_ce {s t : State} (h : t.ce = s.ce) (triggers : List Trigger) :
    (triggers.foldl State.pushTrigger t).ce = (triggers.foldl State.pushTrigger s).ce := by
  induction triggers generalizing s t with
  | nil => exact h
  | cons x triggers ih => exact ih (s.pushTrigger_ce h x)

/-- Settles O47: a loss is `State.safeAll` with the LINK report, and a lock delivers what was held. -/
theorem portsAreLostAndLocked : Obligations.PortsAreLostAndLocked := by
  refine ⟨fun s intactRun hport => ?_, fun s intactRun hport => ?_, fun s failures a hport harrival => ?_,
    fun s slots first second hworked hseen hlock hrun hnone hhunt h1 h2 => ?_, fun s failures w hport hword hnone => ?_⟩
  · obtain ⟨b, hb⟩ : ∃ b : State, b = { s with li := { s.li with up := ⟨.lost, 0, 0⟩ } } := ⟨_, rfl⟩
    have hexec : exec (.portLost .upstream) s = .next b.linkLost := by
      rw [exec_portLost (by rw [State.port, hport]; rfl), State.losePort_upstream, hb]
    obtain ⟨hscreens, haside, hde, -⟩ := b.safeAll_spec
    obtain ⟨hentries, hdemands, hslots, hlines, hgains, hwindow, hchannels, hstill, hfollow⟩ := b.safeAll_falls
    obtain ⟨reports, heach, hreports, htriggers, houter⟩ := b.linkLost_reports
    have hsilent := b.linkLost_silent
    have hsc := State.silent_sc hsilent
    have hts : b.safeAll.1.ts = b.linkLost.ts := (State.outer_ts (congrArg Silent.outer hsilent)).symm
    have ham := State.silent_am hsilent
    have hos := State.silent_os hsilent
    replace haside := (State.aside_of_silent hsilent).trans haside
    replace hde := (State.silent_de hsilent).trans hde
    generalize b.safeAll.1 = safed at *
    generalize b.linkLost = t at *
    subst hb
    have hfall (i : Fin 8) (old target : ScreenState) :
        State.fallReports { s with li := { s.li with up := ⟨.lost, 0, 0⟩ } } i old target = s.fallReports i old target := rfl
    have hhanded (i : Fin 8) (target : ScreenState) :
        State.handedReports { s with li := { s.li with up := ⟨.lost, 0, 0⟩ } } i target = s.handedReports i target := rfl
    have hgain (i : Fin 8) : State.safeGain { s with li := { s.li with up := ⟨.lost, 0, 0⟩ } } i = s.safeGain i := rfl
    have hplaying (i : Fin 8) : State.playing { s with li := { s.li with up := ⟨.lost, 0, 0⟩ } } i = s.playing i := rfl
    simp only [hfall, hhanded, hplaying] at heach
    simp only [hgain, hplaying] at hscreens
    have hnot {i : Fin 8} (h1 : s.screenState i ≠ .preshow) (h2 : s.screenState i ≠ .feature) : s.playing i = false :=
      Bool.not_eq_true _ ▸ fun h => ((s.playing_iff i).mp h).elim h1 h2
    refine ⟨t, reports, hexec, State.outer_li houter, fun i hplays => ?_, fun i h1 h2 => ?_, fun e => ?_, ?_, ?_, ?_,
      fun hquiet => ?_, fun hany => ?_, ?_, ?_, (State.outer_ts houter).trans rfl, (State.aside_ct haside).trans rfl,
      (State.aside_bl haside).trans rfl, hde, (State.outer_requests houter).trans rfl, (State.outer_replies houter).trans rfl⟩
    · have hp := (s.playing_iff i).mpr hplays
      obtain ⟨dip, hrecord⟩ := (hscreens i).1 hp
      rw [hsc, hrecord]
      exact ⟨rfl, rfl, rfl, rfl, rfl, rfl, rfl, (heach i).1 hp⟩
    · rw [hsc]
      exact ⟨(hscreens i).2 (hnot h1 h2), (heach i).2 (hnot h1 h2)⟩
    · rw [ham]
      exact hentries e
    · rw [ham]
      exact hdemands
    · rw [ham]
      exact hslots
    · rw [ham]
      exact hlines
    · rw [ham, hos]
      exact hstill hquiet
    · obtain ⟨htargets, htaken⟩ := hfollow hany
      rw [hos, ham]
      refine ⟨htargets.congr hts.symm (fun e => by rw [ham]) (by rw [ham]), hgains, hwindow, fun i c => ?_⟩
      obtain ⟨protect, hvalue, hchannel⟩ := hchannels i c
      refine ⟨protect, hvalue, ?_, hchannel⟩
      have htaken := htaken i c
      rw [hchannel] at htaken
      exact htaken
    · obtain ⟨gs, hgs, hjoin⟩ := hreports
      rw [State.queueReports_ci (s := s) (t := { s with li := { s.li with up := ⟨.lost, 0, 0⟩ } }) rfl] at hjoin
      exact ⟨gs, hgs, hjoin⟩
    · obtain ⟨hqueue, hmark⟩ := htriggers
      have hce := State.pushTriggers_ce (s := s) (t := { s with li := { s.li with up := ⟨.lost, 0, 0⟩ } }) rfl
        (((List.finRange 8).filter fun i => s.playing i).map fun i => ⟨.state i .safe, 0⟩)
      exact ⟨hqueue.trans (congrArg CueEngine.triggers hce), hmark.trans (congrArg CueEngine.overrun hce)⟩
  · rw [exec_portLost (by rw [State.port, hport]; rfl)]
    rfl
  · intro locked
    have hexec : exec (.portLocked .upstream) s = .next (State.deliver (State.queueReport
        { s with li := { s.li with up := ⟨.locked, 0, 0⟩, arrival := none } }
          (.link .upstream .locked s.li.down.lock)) a).interpret := by
      rw [exec_portLocked (by rw [State.port, hport]; rfl), State.lockPort_upstream harrival]
    have hreceiver : (State.queueReport { s with li := { s.li with up := ⟨.locked, 0, 0⟩, arrival := none } }
        (.link .upstream .locked s.li.down.lock)).li.receiver = s.li.receiver := by rw [State.queueReport_li]
    refine ⟨fun receiver bodies htake => ?_, fun hnone hhunt h1 h2 => ?_⟩
    · rw [hexec, State.deliver_take (hreceiver.symm ▸ htake)]
      rfl
    · rw [hexec, State.deliver_quiet (hreceiver.trans hhunt) h1 h2]
      refine congrArg Host.Outcome.next (State.interpret_none ?_)
      exact (State.outer_requests (State.outer_queueReport _ _)).trans hnone
  · refine ⟨{ s with li := { s.li with
      up := { s.li.up with intactRun := 480 }, upSeen := true, arrival := some ⟨slots, first, second⟩ } }, ?_, ?_⟩
    · rw [exec_upstreamFrame, s.upstreamArrives_now hworked hseen, if_pos rfl,
        State.receiveUpstream_complete hlock hrun.ge]
      exact congrArg Host.Outcome.next (State.interpret_none hnone)
    · rw [exec_portLocked (by rw [State.port, Port.lockDue, hlock]; rfl),
        State.lockPort_upstream (a := ⟨slots, first, second⟩) rfl, State.deliver_quiet (by
          rw [State.queueReport_li]; exact hhunt) h1 h2]
      refine congrArg Host.Outcome.next (State.interpret_none ?_)
      exact (State.outer_requests (State.outer_queueReport _ _)).trans hnone
  · rw [exec_portLocked (by rw [State.port, hport]; rfl), State.lockPort_downstream hword]
    refine congrArg Host.Outcome.next (State.interpret_none ?_)
    exact (State.outer_requests (State.outer_queueReport _ _)).trans hnone

end Sys2Proof.Machine
end

section
/-!
PROOFS. The decode records in the work of a link frame (R41–R57, R104).
-/

namespace Sys2Proof.Machine

/-! ## The work and its decode records -/

section Work

variable {s : State} (lines : BitVec 16) (keyLocked : Bool) (h : s.workDue)
include h

theorem State.work_de (i : Fin 8) : (s.work lines keyLocked).de.get i = s.decodedRecord i (s.de.get i) := by
  obtain ⟨-, hseen, hlock, hloss, hnone⟩ := h
  obtain ⟨d, ci, sender, lane, -, hde, -, -, hwork⟩ := s.work_spec lines keyLocked hseen hlock hloss hnone
  rw [hwork]
  exact hde i

end Work

/-- The state in which the booth lines are sampled is the old one but for them (R132). -/
theorem State.sampleLines_eq (s : State) (lines : BitVec 16) (keyLocked : Bool) :
    s.sampleLines lines keyLocked = { s with bl := (s.sampleLines lines keyLocked).bl } := by
  unfold State.sampleLines
  split <;> rfl

/-! ## The parts of a decode record that each pass changes -/

section Record

variable (s : State) (i : Fin 8) (d : DecodeRecord)

/-- A descriptor result acts on the accepted format and the candidate (R41). -/
theorem DecodeRecord.observe_eq (result : DescriptorResult) (default : Fin 16) : d.observe result default =
    { d with accepted := (d.observe result default).accepted, candidate := (d.observe result default).candidate } := by
  unfold DecodeRecord.observe
  split
  · rfl
  · rfl
  · split
    · rfl
    · split
      · split
        · split <;> rfl
        · rfl
      · rfl

/-- The format selection acts on the accepted format, the candidate and the format in use (R41, R44). -/
theorem State.selectedRecord_eq : s.selectedRecord i d =
    { d with
      accepted := (s.selectedRecord i d).accepted, candidate := (s.selectedRecord i d).candidate
      usedFormat := (s.selectedRecord i d).usedFormat, usedSource := (s.selectedRecord i d).usedSource } := by
  have h := d.observe_eq (s.li.descriptors.get i) (s.defaultFormat i)
  unfold State.selectedRecord
  dsimp only
  generalize d.observe (s.li.descriptors.get i) (s.defaultFormat i) = o at *
  rw [h]

/-- A crossfade step acts on the profiles and the mark of an enable (R53, R55, R57). -/
theorem DecodeRecord.crossfade_eq (p : Fin 16) : (d.crossfade p).1 =
    { d with
      current := (d.crossfade p).1.current, incoming := (d.crossfade p).1.incoming
      pending := (d.crossfade p).1.pending, justEnabled := (d.crossfade p).1.justEnabled } := by
  unfold DecodeRecord.crossfade DecodeRecord.enabled
  split
  · rfl
  · split
    · rfl
    · split <;> rfl

/-- The crossfade step of a screen's part of a link frame (R53, R55). -/
def State.fadedRecord (s : State) (i : Fin 8) (d : DecodeRecord) : DecodeRecord :=
  ((s.selectedRecord i d).crossfade (s.formatMap i (s.selectedRecord i d).usedFormat)).1

theorem State.decodedRecord_offline (h : s.screenState i = .offline) : s.decodedRecord i d = s.selectedRecord i d :=
  if_pos h

theorem State.decodedRecord_on (h : s.screenState i ≠ .offline) : s.decodedRecord i d =
    if s.usesSteering (s.fadedRecord i d) then
      (s.fadedRecord i d).steer (s.source i 0) (s.source i 1) (s.envelopeShift i)
    else s.fadedRecord i d := by
  have hused : (s.formatOf i (s.selectedRecord i d)).1 = (s.selectedRecord i d).usedFormat := rfl
  rw [State.decodedRecord, if_neg h, State.runRecord, hused]
  rfl

/-- The steering of a screen's part of a link frame acts on the envelopes and the entry (R49, R50). -/
theorem State.decodedRecord_faded (h : s.screenState i ≠ .offline) : s.decodedRecord i d =
    { s.fadedRecord i d with
      envL := (s.decodedRecord i d).envL, envR := (s.decodedRecord i d).envR, envS := (s.decodedRecord i d).envS
      envD := (s.decodedRecord i d).envD, steering := (s.decodedRecord i d).steering } := by
  rw [s.decodedRecord_on i d h]
  split <;> rfl

theorem State.fadedRecord_eq : s.fadedRecord i d =
    { s.selectedRecord i d with
      current := (s.fadedRecord i d).current, incoming := (s.fadedRecord i d).incoming
      pending := (s.fadedRecord i d).pending, justEnabled := (s.fadedRecord i d).justEnabled } :=
  DecodeRecord.crossfade_eq ..

end Record

/-! ## Steering -/

/-- A smoothed register stays at or above 0, so that its natural number is the formula's value (R49, R88). -/
theorem smooth_cast (old m k : Nat) : (smooth old m k : Int) = old + ((m : Int) - old) / 2 ^ k := by
  have hpos : (0 : Int) < 2 ^ k := by positivity
  have hdown : -(old : Int) ≤ ((m : Int) - old) / 2 ^ k := by
    refine Int.le_ediv_of_mul_le hpos ?_
    have hle : (old : Int) ≤ old * 2 ^ k := le_mul_of_one_le_right (Int.natCast_nonneg _) hpos
    rw [Int.neg_mul]
    omega
  unfold smooth
  omega

theorem digits_cast (v : Nat) : (digits v : Int) = if v = 0 then 0 else (Nat.log2 v : Int) + 1 := by
  unfold digits
  split
  · rfl
  · push_cast; rfl

theorem steeringEntry_cast (l r c f : Nat) : (steeringEntry l r c f : Int) =
    (max (-7) (min 7 ((digits l : Int) - digits r)) + 7) * 15 +
      (max (-7) (min 7 ((digits c : Int) - digits f)) + 7) := by
  unfold steeringEntry clamp
  omega

theorem State.usesSteering_iff (s : State) (d : DecodeRecord) : s.usesSteering d = true ↔
    ∃ p : Fin 16, flag (s.word 2 (240 + p.val)) 16 = true ∧ (d.current = some p ∨ ∃ k, d.incoming = some ⟨p, k⟩) := by
  unfold State.usesSteering
  rw [Bool.or_eq_true]
  constructor
  · rintro (h | h)
    · cases hc : d.current with
      | none => rw [hc] at h; cases h
      | some p => rw [hc] at h; exact ⟨p, h, .inl rfl⟩
    · cases hi : d.incoming with
      | none => rw [hi] at h; cases h
      | some inc => rw [hi] at h; exact ⟨inc.profile, h, .inr ⟨inc.position, rfl⟩⟩
  · rintro ⟨p, hp, hc | ⟨k, hi⟩⟩
    · rw [hc]; exact .inl hp
    · rw [hi]; exact .inr hp

/-- Settles O45: the profiles that the crossfade leaves decide whether the screen steers. -/
theorem linkFrameSteers : Obligations.LinkFrameSteers := by
  intro s lines keyLocked hwork
  refine ⟨_, exec_workDue lines keyLocked hwork, fun i => ?_⟩
  rw [State.work_de lines keyLocked hwork]
  intro old new lt rt ks moved n difference steers
  have hselected := s.selectedRecord_eq i old
  have hfaded := s.fadedRecord_eq i old
  rw [hselected] at hfaded
  by_cases hoff : s.screenState i = .offline
  · have hnew : new = s.selectedRecord i old := s.decodedRecord_offline i old hoff
    clear_value new
    subst hnew
    refine ⟨fun h => absurd hoff h.1, fun _ => ?_⟩
    rw [hselected]
    exact ⟨rfl, rfl, rfl, rfl, rfl⟩
  · have hnew : new = if s.usesSteering (s.fadedRecord i old) then
        (s.fadedRecord i old).steer (s.source i 0) (s.source i 1) (s.envelopeShift i)
      else s.fadedRecord i old := s.decodedRecord_on i old hoff
    clear_value new
    have hsteers : steers ↔ s.usesSteering (s.fadedRecord i old) = true := by
      rw [s.usesSteering_iff]
      have hprofiles : new.current = (s.fadedRecord i old).current ∧ new.incoming = (s.fadedRecord i old).incoming := by
        rw [hnew]
        split
        · exact ⟨rfl, rfl⟩
        · exact ⟨rfl, rfl⟩
      dsimp only [steers]
      rw [hprofiles.1, hprofiles.2]
      exact ⟨And.right, fun h => ⟨hoff, h⟩⟩
    rw [hsteers]
    refine ⟨fun hs => ?_, fun hs => ?_⟩
    · rw [if_pos hs] at hnew
      rw [hnew, hfaded]
      refine ⟨smooth_cast .., smooth_cast .., smooth_cast .., smooth_cast .., ?_⟩
      refine (steeringEntry_cast ..).trans ?_
      simp only [digits_cast]
      rfl
    · rw [if_neg hs] at hnew
      rw [hnew, hfaded]
      exact ⟨rfl, rfl, rfl, rfl, rfl⟩

/-! ## Formats and crossfades -/

section Formats

variable (s : State) (i : Fin 8) (d : DecodeRecord)

/-- The format selection stands through the rest of the link frame's work (R41, R44). -/
theorem State.decodedRecord_format :
    (s.decodedRecord i d).accepted = (s.selectedRecord i d).accepted ∧
      (s.decodedRecord i d).candidate = (s.selectedRecord i d).candidate ∧ (s.decodedRecord i d).forced = d.forced ∧
      (s.decodedRecord i d).usedFormat = (s.selectedRecord i d).usedFormat ∧
      (s.decodedRecord i d).usedSource = (s.selectedRecord i d).usedSource := by
  have hforced : (s.selectedRecord i d).forced = d.forced := by rw [s.selectedRecord_eq i d]
  by_cases hoff : s.screenState i = .offline
  · rw [s.decodedRecord_offline i d hoff]
    exact ⟨rfl, rfl, hforced, rfl, rfl⟩
  · rw [s.decodedRecord_faded i d hoff, s.fadedRecord_eq i d]
    exact ⟨rfl, rfl, hforced, rfl, rfl⟩

/-- The crossfade's step stands through the steering (R53, R55). -/
theorem State.decodedRecord_profiles (hon : s.screenState i ≠ .offline) :
    (s.decodedRecord i d).current = (s.fadedRecord i d).current ∧
      (s.decodedRecord i d).incoming = (s.fadedRecord i d).incoming ∧
      (s.decodedRecord i d).pending = (s.fadedRecord i d).pending ∧
      (s.decodedRecord i d).justEnabled = (s.fadedRecord i d).justEnabled := by
  rw [s.decodedRecord_faded i d hon]
  exact ⟨rfl, rfl, rfl, rfl⟩

variable {d}

theorem DecodeRecord.observe_same {f : Fin 16} (default : Fin 16) (h : f = d.accepted) :
    d.observe (.code f) default = { d with candidate := none } := if_pos h

theorem DecodeRecord.observe_run {f : Fin 16} {r : Nat} (default : Fin 16) (h : f ≠ d.accepted)
    (hc : d.candidate = some ⟨f, r⟩) : d.observe (.code f) default =
      if 480 ≤ r + 1 then { d with accepted := f, candidate := none } else { d with candidate := some ⟨f, r + 1⟩ } := by
  unfold DecodeRecord.observe
  dsimp only
  rw [if_neg h, hc]
  exact if_pos rfl

theorem DecodeRecord.observe_other {f : Fin 16} (default : Fin 16) (h : f ≠ d.accepted)
    (hc : ∀ r, d.candidate ≠ some ⟨f, r⟩) : d.observe (.code f) default = { d with candidate := some ⟨f, 1⟩ } := by
  unfold DecodeRecord.observe
  dsimp only
  rw [if_neg h]
  cases hcand : d.candidate with
  | none => rfl
  | some c =>
    refine if_neg fun hcode => hc c.run ?_
    rw [hcand, ← hcode]

theorem State.formatOf_forced {f : Fin 16} (h : d.forced = some f) : s.formatOf i d = (f, .forced) := by
  unfold State.formatOf; rw [h]

theorem State.formatOf_default (h : d.forced = none) (hr : s.li.descriptors.get i = .unmapped) :
    s.formatOf i d = (s.defaultFormat i, .default) := by
  unfold State.formatOf; rw [h, hr]

theorem State.formatOf_accepted (h : d.forced = none) (hr : s.li.descriptors.get i ≠ .unmapped) :
    s.formatOf i d = (d.accepted, .descriptor) := by
  unfold State.formatOf
  rw [h]
  dsimp only
  split
  · next hu => exact absurd hu hr
  · rfl

theorem DecodeRecord.crossfade_enabled (p : Fin 16) (h : d.justEnabled = true) :
    (d.crossfade p).1 = d.enabled p false := by
  unfold DecodeRecord.crossfade; rw [h]; rfl

theorem DecodeRecord.crossfade_rests {p : Fin 16} (h : d.justEnabled = false) (hi : d.incoming = none)
    (hc : d.current = some p) : (d.crossfade p).1 = d := by
  unfold DecodeRecord.crossfade
  rw [h, if_neg nofun, hi]
  dsimp only
  rw [if_pos hc]

theorem DecodeRecord.crossfade_begins {p : Fin 16} (h : d.justEnabled = false) (hi : d.incoming = none)
    (hc : d.current ≠ some p) : (d.crossfade p).1 = { d with incoming := some ⟨p, 1⟩ } := by
  unfold DecodeRecord.crossfade
  rw [h, if_neg nofun, hi]
  dsimp only
  rw [if_neg hc]

theorem DecodeRecord.crossfade_runs {p q : Fin 16} {k : Nat} (h : d.justEnabled = false) (hi : d.incoming = some ⟨q, k⟩) :
    (d.crossfade p).1 = { d with
      incoming := some ⟨q, min (k + 1) 512⟩, pending := if p = q then none else some p } := by
  unfold DecodeRecord.crossfade
  rw [h, if_neg nofun, hi]
  rfl

end Formats

/-- The alarm monitor after a link frame's work is that of the decode pass (R104). -/
theorem State.work_falls {s : State} (lines : BitVec 16) (keyLocked : Bool) (h : s.workDue) :
    let t := s.work lines keyLocked
    let starts (i : Fin 8) : Prop := s.FadeStarts i (s.decodedRecord i (s.de.get i))
    (∀ e, let a := s.alarmEntry e
      let watched : Prop := s.WatchedBy a (s.decodedRecord a.screen (s.de.get a.screen))
      (starts a.screen → a.source = some .floor → ¬watched →
        t.am.entries.get e = (s.am.entries.get e).fallen) ∧
      (¬starts a.screen ∨ a.source ≠ some .floor ∨ watched → t.am.entries.get e = s.am.entries.get e)) ∧
      t.am.demands = s.am.demands ∧ t.am.slots = s.am.slots ∧ t.am.lines = s.am.lines ∧
      ((∃ i, starts i) → t.targetsFollow) ∧ ((∀ i, ¬starts i) → t.am.targets = s.am.targets) := by
  intro t starts
  obtain ⟨-, hseen, hlock, hloss, hnone⟩ := h
  have ham := s.work_am lines keyLocked hseen hlock hloss hnone
  obtain ⟨d, ci, sender, lane, hd, -, -, -, hwork⟩ := s.work_spec lines keyLocked hseen hlock hloss hnone
  have hts : t.ts = s.ts := by
    rw [show t = _ from hwork]
    exact (State.undecoded_ts hd).trans rfl
  have hpts : ((List.finRange 8).foldl State.decodeFrame (s.sampleLines lines keyLocked)).ts = s.ts :=
    (State.undecoded_ts (State.decodePass_spec _).1).trans (by rw [s.sampleLines_eq])
  have hsampled := s.sampleLines_eq lines keyLocked
  have hpass := (s.sampleLines lines keyLocked).decodePass_falls
  generalize (List.finRange 8).foldl State.decodeFrame (s.sampleLines lines keyLocked) = p at *
  rw [hsampled] at hpass
  obtain ⟨hentries, hdemands, hslots, hlines, hfollow, hstay⟩ := hpass
  have htam : t.am = p.am := ham
  rw [htam]
  exact ⟨hentries, hdemands, hslots, hlines, fun hany => (hfollow hany).congr (hts.trans hpts.symm)
    (fun e => by rw [htam]) (by rw [htam]), hstay⟩

/-- Settles O46: the format selection, the crossfade's step, the falls that its start forces, and its end. -/
theorem formatsAreSelectedAndFaded : Obligations.FormatsAreSelectedAndFaded := by
  refine ⟨fun s lines keyLocked hwork => ⟨_, exec_workDue lines keyLocked hwork, fun i => ?_⟩,
    fun s lines keyLocked hwork => ⟨_, exec_workDue lines keyLocked hwork, ?_⟩,
    fun s i f j hseen hworked hresult haccepted hne hcandidate => ?_, fun s i p q hcurrent hincoming => ?_⟩
  · rw [State.work_de lines keyLocked hwork]
    intro old new result default profile accepts
    obtain ⟨hacc, hcand, hforced, hformat, hsource⟩ := s.decodedRecord_format i old
    have hobserved {o : DecodeRecord} (h : old.observe result default = o) : accepts o.accepted o.candidate := by
      subst h
      exact ⟨hacc, hcand⟩
    have hselectedForced : (old.observe result default).forced = old.forced := by
      rw [old.observe_eq result default]
    have hselected {f : Fin 16} {source : FormatSource}
        (h : s.formatOf i (old.observe result default) = (f, source)) : new.usedFormat = f ∧ new.usedSource = source :=
      ⟨hformat.trans (congrArg Prod.fst h), hsource.trans (congrArg Prod.snd h)⟩
    have result_eq {x : DescriptorResult} (h : result = x) : old.observe result default = old.observe x default := by
      rw [h]
    refine ⟨fun h => hobserved (result_eq h), fun h => hobserved (result_eq h), fun f h => ⟨fun heq => ?_,
      fun hne => ⟨fun r hrun => ⟨fun hshort => ?_, fun hlong => ?_⟩, fun hother => ?_⟩⟩, hforced, fun f hf => ?_,
      fun hf hr => ?_, fun hf hr => ?_, ?_⟩
    · exact hobserved ((result_eq h).trans (DecodeRecord.observe_same default heq))
    · exact hobserved ((result_eq h).trans
        ((DecodeRecord.observe_run default hne hrun).trans (if_neg (Nat.not_le.mpr hshort))))
    · exact hobserved ((result_eq h).trans ((DecodeRecord.observe_run default hne hrun).trans (if_pos hlong)))
    · exact hobserved ((result_eq h).trans (DecodeRecord.observe_other default hne hother))
    · exact hselected (s.formatOf_forced i (hselectedForced.trans hf))
    · exact hselected (s.formatOf_default i (hselectedForced.trans hf) hr)
    · obtain ⟨hfirst, hsecond⟩ := hselected (s.formatOf_accepted i (hselectedForced.trans hf) hr)
      exact ⟨hfirst.trans hacc.symm, hsecond⟩
    · intro p becomes
      have hp : p = s.formatMap i (s.selectedRecord i old).usedFormat := congrArg (s.formatMap i) hformat
      have hstands : (s.selectedRecord i old).current = old.current ∧ (s.selectedRecord i old).incoming = old.incoming ∧
          (s.selectedRecord i old).pending = old.pending ∧ (s.selectedRecord i old).justEnabled = old.justEnabled := by
        rw [s.selectedRecord_eq i old]
        exact ⟨rfl, rfl, rfl, rfl⟩
      obtain ⟨hcur, hinc, hpend, hjust⟩ := hstands
      refine ⟨fun hoff => ?_, fun hon => ?_⟩
      · have hnew : new = s.selectedRecord i old := s.decodedRecord_offline i old hoff
        dsimp only [becomes]
        rw [hnew]
        exact ⟨⟨hcur, hinc, hpend⟩, hjust⟩
      · obtain ⟨hncur, hninc, hnpend, hnjust⟩ := s.decodedRecord_profiles i old hon
        have hfaded {o : DecodeRecord} (h : ((s.selectedRecord i old).crossfade p).1 = o) :
            becomes o.current o.incoming o.pending ∧ new.justEnabled = o.justEnabled := by
          have : s.fadedRecord i old = o := by rw [← h, hp]; rfl
          rw [this] at hncur hninc hnpend hnjust
          exact ⟨⟨hncur, hninc, hnpend⟩, hnjust⟩
        refine ⟨?_, fun hj => (hfaded (DecodeRecord.crossfade_enabled p (hjust.trans hj))).1, fun hj =>
          ⟨fun hi hc => ?_, fun hi hc => ?_, fun q k hi => ?_⟩⟩
        · cases hj : old.justEnabled with
          | true => exact (hfaded (DecodeRecord.crossfade_enabled p (hjust.trans hj))).2
          | false =>
            have hj' := hjust.trans hj
            cases hi : (s.selectedRecord i old).incoming with
            | some inc => exact (hfaded (DecodeRecord.crossfade_runs hj' hi)).2.trans hj'
            | none =>
              by_cases hc : (s.selectedRecord i old).current = some p
              · exact (hfaded (DecodeRecord.crossfade_rests hj' hi hc)).2.trans hj'
              · exact (hfaded (DecodeRecord.crossfade_begins hj' hi hc)).2.trans hj'
        · obtain ⟨h1, h2, h3⟩ :=
            (hfaded (DecodeRecord.crossfade_rests (hjust.trans hj) (hinc.trans hi) (hcur.trans hc))).1
          exact ⟨h1.trans hcur, h2.trans (hinc.trans hi), h3.trans hpend⟩
        · obtain ⟨h1, h2, h3⟩ :=
            (hfaded (DecodeRecord.crossfade_begins (hjust.trans hj) (hinc.trans hi) (hcur.symm ▸ hc))).1
          exact ⟨h1.trans hcur, h2, h3.trans hpend⟩
        · obtain ⟨h1, h2, h3⟩ := (hfaded (DecodeRecord.crossfade_runs (hjust.trans hj) (hinc.trans hi))).1
          exact ⟨h1.trans hcur, h2, h3⟩
  · intro starts
    obtain ⟨hentries, hdemands, hslots, hlines, hfollow, hstay⟩ := State.work_falls lines keyLocked hwork
    simp only [← State.work_de lines keyLocked hwork] at hentries hfollow hstay
    exact ⟨hentries, hfollow, hstay, hdemands, hslots, hlines⟩
  · have hdue : s.acceptDue j = true := by
      unfold State.acceptDue
      rw [hseen, hworked, hresult, hcandidate, haccepted]
      simp [hne, Config.acceptRun]
    refine congrArg Host.Outcome.next ((if_pos hdue).trans ?_)
    refine congrArg (fun d => ({ s with de := s.de.set j d } : State)) ?_
    dsimp only
    rw [hresult, DecodeRecord.observe_run _ (haccepted ▸ hne) hcandidate]
    exact if_pos (le_refl 480)
  · have hended : (s.de.get i).fadeEnded = true := by
      unfold DecodeRecord.fadeEnded
      rw [hincoming]
      rfl
    refine congrArg Host.Outcome.next ((if_pos hended).trans ?_)
    unfold State.endCrossfade
    dsimp only
    rw [hincoming, hcurrent]

end Sys2Proof.Machine
end

section
/-!
PROOFS. The channel path in the work of a link frame (R36–R37, R47–R48, R51, R54, R62–R66, R81–R88, R93).
-/

namespace Sys2Proof.Machine

/-! ## The channels of a link frame's work -/

section RunChannels

variable (d : State) (i : Fin 8) (c : Fin 16)

/-- What a channel gives in a link frame and its output stage channel after it (R81). -/
def State.worked (d : State) (i : Fin 8) (c : Fin 16) : Option Sample × OutChannel := d.outputOf i c (d.equalised i c)

theorem State.runChannels_os : (d.runChannels.os.channels.get i).get c = (d.worked i c).2 := by
  simp only [State.runChannels, Tab.get_map, Tab.get_ofFn]
  rfl

theorem State.runChannels_equalised (h : d.screenState i ≠ .offline) :
    (d.runChannels.eq.channels.get i).get c = (d.equalise i c (d.decodeOutput i c)).2 := by
  simp only [State.runChannels, Tab.get_ofFn, State.equalised, if_neg h]

theorem State.runChannels_gains : d.runChannels.os.gains.get i =
    if (List.finRange 16).any fun c => (d.worked i c).1.isSome then (d.sc.get i).effectiveGain else d.os.gains.get i := by
  simp only [State.runChannels, Tab.get_map, Tab.get_ofFn]
  rfl

theorem State.runChannels_outSlots (n : Fin 128) : d.runChannels.li.outSlots.get n =
    if isSpeaker (d.outboundEntry n) then
      match (d.worked (entryScreen (d.outboundEntry n)) (entryChannel (d.outboundEntry n))).1 with
      | some o => ⟨o, true⟩
      | none => .silent
    else .silent := by
  simp only [State.runChannels, Tab.get_ofFn, State.scatter, Tab.get_map]
  rfl

variable {d i c}

theorem State.worked_offline (h : d.screenState i = .offline) : d.worked i c = (none, (d.os.channels.get i).get c) := by
  unfold State.worked State.equalised State.outputOf
  rw [if_pos h]

theorem State.worked_on (h : d.screenState i ≠ .offline) : d.worked i c =
    ((d.os.channels.get i).get c).work (d.sc.get i).effectiveGain (d.averageShift i)
      (d.equalise i c (d.decodeOutput i c)).1 := by
  unfold State.worked State.equalised State.outputOf
  rw [if_neg h]

end RunChannels

section Work

variable (ch : OutChannel) (gain shift : Nat) (v : Sample)

theorem OutChannel.work_short (h : ch.flight.length < 32) :
    ch.work gain shift v = (none, { ch with flight := (v :: ch.flight).take 32 }) := by
  have hnone : ch.flight[Config.latency - 1]? = none := List.getElem?_eq_none (Nat.le_of_lt_succ h)
  unfold OutChannel.work
  rw [hnone]
  rfl

theorem OutChannel.work_sends {x : Sample} (h : ch.flight[31]? = some x) :
    ch.work gain shift v = (some (gained (gained x gain) ch.protect.value),
      { ch with
        flight := (v :: ch.flight).take 32
        peak := max ch.peak (magnitude (gained x gain).toInt)
        average := smooth ch.average (magnitude (gained x gain).toInt) shift }) := by
  have hsome : ch.flight[Config.latency - 1]? = some x := h
  unfold OutChannel.work
  rw [hsome]
  rfl

/-- Whatever it sends, a channel that is worked on takes the new result into its flight (R37). -/
theorem OutChannel.work_flight : (ch.work gain shift v).2.flight = (v :: ch.flight).take 32 := by
  unfold OutChannel.work
  dsimp only
  split <;> rfl

theorem OutChannel.work_keeps : (ch.work gain shift v).2.lastPeak = ch.lastPeak ∧
    (ch.work gain shift v).2.lastAverage = ch.lastAverage ∧ (ch.work gain shift v).2.protect = ch.protect := by
  unfold OutChannel.work
  dsimp only
  split
  · exact ⟨rfl, rfl, rfl⟩
  · exact ⟨rfl, rfl, rfl⟩

end Work

/-- Two channels that differ in their protect ramps alone, and these in all but their value (R85). -/
theorem OutChannel.still_fields {a b : OutChannel} (h : a.still = b.still) :
    a.lastPeak = b.lastPeak ∧ a.lastAverage = b.lastAverage ∧ a.peak = b.peak ∧ a.average = b.average ∧
      a.flight = b.flight ∧ a.protect.value = b.protect.value := by
  have same {β : Type} (f : OutChannel → β) : f a.still = f b.still := congrArg f h
  exact ⟨same (·.lastPeak), same (·.lastAverage), same (·.peak), same (·.average), same (·.flight), same (·.protect.start)⟩

/-! ## Filter sections -/

section Filter

/-- One section position of a channel: a section in force filters, and another is cleared (R63, R64). -/
def State.filterStep (s : State) (i : Fin 8) (c : Fin 16) (acc : Sample × Tab 6 History) (k : Fin 6) :
    Sample × Tab 6 History :=
  let coef := s.sectionCoefficient i (s.activeBank i) c
  if k.val < s.sectionCount i (s.activeBank i) c then
    let (y, h) := (acc.2.get k).section (coef k 0) (coef k 1) (coef k 2) (coef k 3) (coef k 4) acc.1
    (y, acc.2.set k h)
  else (acc.1, acc.2.set k .zero)

/-- A channel's signal and histories after its first positions (R63). -/
def State.filterSteps (s : State) (i : Fin 8) (c : Fin 16) (x : Sample) : Nat → Sample × Tab 6 History
  | 0 => (x, ((s.eq.channels.get i).get c).sections)
  | m + 1 => if h : m < 6 then s.filterStep i c (s.filterSteps i c x m) ⟨m, h⟩ else s.filterSteps i c x m

variable (s : State) (i : Fin 8) (c : Fin 16) (x : Sample)

theorem State.filter_eq : s.filter i c x = s.filterSteps i c x 6 := rfl

theorem State.filterStep_other (acc : Sample × Tab 6 History) {k j : Fin 6} (h : j ≠ k) :
    (s.filterStep i c acc k).2.get j = acc.2.get j := by
  unfold State.filterStep
  dsimp only
  split
  · exact Tab.get_set_other _ _ h
  · exact Tab.get_set_other _ _ h

theorem State.filterSteps_succ (k : Fin 6) :
    s.filterSteps i c x (k.val + 1) = s.filterStep i c (s.filterSteps i c x k.val) k := dif_pos k.isLt

/-- A position keeps its histories until its turn, and from its turn on (R63). -/
theorem State.filterSteps_get (k : Fin 6) :
    (∀ m ≤ k.val, (s.filterSteps i c x m).2.get k = ((s.eq.channels.get i).get c).sections.get k) ∧
      ∀ m, k.val < m → m ≤ 6 → (s.filterSteps i c x m).2.get k = (s.filterSteps i c x (k.val + 1)).2.get k := by
  have keeps {m : Nat} (hm : m < 6) (hne : m ≠ k.val) :
      (s.filterSteps i c x (m + 1)).2.get k = (s.filterSteps i c x m).2.get k := by
    rw [s.filterSteps_succ i c x ⟨m, hm⟩]
    exact s.filterStep_other i c _ fun h => hne (congrArg Fin.val h).symm
  refine ⟨fun m hm => ?_, fun m hk hm => ?_⟩
  · induction m with
    | zero => rfl
    | succ m ih => exact (keeps (by omega) (by omega)).trans (ih (by omega))
  · induction m with
    | zero => omega
    | succ m ih =>
      rcases Nat.lt_or_eq_of_le (Nat.le_of_lt_succ hk) with h | h
      · exact (keeps (by omega) (by omega)).trans (ih h (by omega))
      · rw [h]

/-- The sections in force one after another, each on its histories, the others' set to zero (R62–R64). -/
theorem State.filter_spec (k : Fin 6) :
    let h := ((s.eq.channels.get i).get c).sections.get k
    let y (n : Nat) : Sample := (s.filterSteps i c x n).1
    let coef (n : Nat) : Int := s.sectionCoefficient i (s.activeBank i) c k.val n
    let sum := coef 0 * (y k.val).toInt + coef 1 * h.x1.toInt + coef 2 * h.x2.toInt - coef 3 * h.y1.toInt -
      coef 4 * h.y2.toInt
    (k.val < s.sectionCount i (s.activeBank i) c → y (k.val + 1) = saturate ((sum + 134217728) / 268435456) ∧
      (s.filter i c x).2.get k = ⟨y k.val, h.x1, y (k.val + 1), h.y1⟩) ∧
    (s.sectionCount i (s.activeBank i) c ≤ k.val → y (k.val + 1) = y k.val ∧ (s.filter i c x).2.get k = ⟨0, 0, 0, 0⟩) := by
  intro h y coef sum
  obtain ⟨hbefore, hafter⟩ := s.filterSteps_get i c x k
  have hold := hbefore k.val (le_refl _)
  have hfinal : (s.filter i c x).2.get k = (s.filterSteps i c x (k.val + 1)).2.get k := hafter 6 k.isLt (le_refl 6)
  rw [hfinal]
  have hstep := s.filterSteps_succ i c x k
  refine ⟨fun hforce => ?_, fun hrest => ?_⟩
  · have hnext : s.filterSteps i c x (k.val + 1) = ((h.section (coef 0) (coef 1) (coef 2) (coef 3) (coef 4) (y k.val)).1,
        (s.filterSteps i c x k.val).2.set k (h.section (coef 0) (coef 1) (coef 2) (coef 3) (coef 4) (y k.val)).2) := by
      rw [hstep, State.filterStep]
      dsimp only
      rw [if_pos hforce, hold]
    have hout : y (k.val + 1) = saturate ((sum + 134217728) / 268435456) := congrArg Prod.fst hnext
    refine ⟨hout, ?_⟩
    rw [hout, hnext, Tab.get_set_same]
    rfl
  · have hnext : s.filterSteps i c x (k.val + 1) =
        (y k.val, (s.filterSteps i c x k.val).2.set k .zero) := by
      rw [hstep, State.filterStep]
      dsimp only
      rw [if_neg (Nat.not_lt.mpr hrest)]
    have hout : y (k.val + 1) = y k.val := congrArg (fun p => p.1) hnext
    refine ⟨hout, ?_⟩
    rw [hnext, Tab.get_set_same]
    rfl

end Filter

/-! ## Mixes -/

section Mix

/-- A channel's mark in a profile's driven mask is its bit of the header (R46). -/
theorem marked_field (w : Word) (c : Fin 16) : marked (field w 0 16) c = true ↔ field w c.val 1 = 1 := by
  have hsplit : 2 ^ c.val * 2 ^ (16 - c.val) = 2 ^ 16 := by rw [← pow_add]; congr 1; omega
  have hbit : w.toNat % 2 ^ 16 / 2 ^ c.val % 2 = w.toNat / 2 ^ c.val % 2 := by
    rw [← hsplit, Nat.mod_mul_right_div_self]
    exact Nat.mod_mod_of_dvd _ (dvd_pow_self 2 (by omega))
  unfold marked field
  rw [beq_iff_eq, pow_zero, Nat.div_one, hbit]
  rfl

variable {s d : State}

theorem State.decodeOutput_congr (i : Fin 8) (c : Fin 16) (hts : d.ts = s.ts) (hli : d.li = s.li)
    (hde : d.de.get i = s.de.get i) : d.decodeOutput i c = s.decodeOutput i c := by
  have key (r : State) : r.decodeOutput i c = State.decodeOutput { State.reset with
      ts := r.ts, li := r.li, de := .fill 8 (r.de.get i) } i c := by
    have hget : (Tab.fill 8 (r.de.get i)).get i = r.de.get i := Tab.get_fill ..
    unfold State.decodeOutput State.mixRow State.column
    rw [hget]
    rfl
  rw [key d, key s, hts, hli, hde]

theorem State.equalise_congr (i : Fin 8) (c : Fin 16) (y : Sample) (hts : d.ts = s.ts) (hsc : d.sc = s.sc)
    (heq : d.eq = s.eq) : d.equalise i c y = s.equalise i c y := by
  have hword : d.recordWord = s.recordWord := by
    funext i b c k
    unfold State.recordWord
    rw [hts]
  have hbank : d.activeBank i = s.activeBank i := by unfold State.activeBank; rw [hsc]
  have hcount : d.sectionCount = s.sectionCount := by unfold State.sectionCount; rw [hword]
  have hcoef : d.sectionCoefficient = s.sectionCoefficient := by unfold State.sectionCoefficient; rw [hword]
  have hdelay : d.delay = s.delay := by unfold State.delay; rw [hword]
  have htrim : d.trim = s.trim := by unfold State.trim; rw [hword]
  have hinvert : d.invert = s.invert := by unfold State.invert; rw [hword]
  unfold State.equalise State.filter
  rw [hbank, hcount, hcoef, hdelay, htrim, hinvert, heq]

/-- The channel path: the sections, the delay, the trim and the polarity (R62–R66). -/
theorem State.equalise_eq (s : State) (i : Fin 8) (c : Fin 16) (y : Sample) :
    let ch := (s.eq.channels.get i).get c
    let w := (s.filter i c y).1
    s.equalise i c y =
      (trimStage (delayTap ch.line (s.delay i (s.activeBank i) c) w) (s.trim i (s.activeBank i) c)
        (s.invert i (s.activeBank i) c),
        { ch with
          sections := (s.filter i c y).2, line := (w :: ch.line).take (Config.pageSamples * ch.pages.length) }) := by
  unfold State.equalise
  generalize s.filter i c y = filtered
  rfl

end Mix

/-! ## The outbound slots -/

section Outbound

variable {s d : State} {i : Fin 8} {c : Fin 16}

/-- What a channel of a screen that is not OFFLINE sends, and what it meters (R36, R37, R82–R88). -/
theorem State.worked_sends (hon : d.screenState i ≠ .offline) {x : Sample}
    (hflight : ((d.os.channels.get i).get c).flight[31]? = some x) :
    (d.worked i c).1 = some (gained (gained x (d.sc.get i).effectiveGain) ((d.os.channels.get i).get c).protect.value) ∧
      (d.worked i c).2.peak =
        max ((d.os.channels.get i).get c).peak (magnitude (gained x (d.sc.get i).effectiveGain).toInt) ∧
      (d.worked i c).2.average = smooth ((d.os.channels.get i).get c).average
        (magnitude (gained x (d.sc.get i).effectiveGain).toInt) (d.averageShift i) := by
  rw [State.worked_on hon, OutChannel.work_sends _ _ _ _ hflight]
  exact ⟨rfl, rfl, rfl⟩

/-- A channel with no result of 32 link frames earlier, or of a screen that is OFFLINE, sends nothing and meters nothing
(R37, R87). -/
theorem State.worked_silent (h : d.screenState i = .offline ∨ ((d.os.channels.get i).get c).flight.length < 32) :
    (d.worked i c).1 = none ∧ (d.worked i c).2.peak = ((d.os.channels.get i).get c).peak ∧
      (d.worked i c).2.average = ((d.os.channels.get i).get c).average := by
  by_cases hoff : d.screenState i = .offline
  · rw [State.worked_offline hoff]
    exact ⟨rfl, rfl, rfl⟩
  · rw [State.worked_on hoff, OutChannel.work_short _ _ _ _ (h.resolve_left hoff)]
    exact ⟨rfl, rfl, rfl⟩

theorem State.worked_keeps : (d.worked i c).2.lastPeak = ((d.os.channels.get i).get c).lastPeak ∧
    (d.worked i c).2.lastAverage = ((d.os.channels.get i).get c).lastAverage ∧
    (d.worked i c).2.protect = ((d.os.channels.get i).get c).protect := by
  by_cases hoff : d.screenState i = .offline
  · rw [State.worked_offline hoff]
    exact ⟨rfl, rfl, rfl⟩
  · rw [State.worked_on hoff]
    exact OutChannel.work_keeps ..

theorem State.runChannels_gains_formed (h : (d.worked i c).1.isSome = true) :
    d.runChannels.os.gains.get i = (d.sc.get i).effectiveGain := by
  rw [d.runChannels_gains]
  exact if_pos (List.any_eq_true.mpr ⟨c, List.mem_finRange c, h⟩)

theorem State.runChannels_gains_kept (h : ∀ c, (d.worked i c).1 = none) :
    d.runChannels.os.gains.get i = d.os.gains.get i := by
  rw [d.runChannels_gains]
  refine if_neg fun hany => ?_
  obtain ⟨c, -, hc⟩ := List.any_eq_true.mp hany
  rw [h c] at hc
  exact Bool.false_ne_true hc

end Outbound

/-- Settles O43: the slots, the meters and the gains are those of the worked channels. -/
theorem linkFrameFillsTheOutboundSlots : Obligations.LinkFrameFillsTheOutboundSlots := by
  intro s lines keyLocked hwork rounded gain
  obtain ⟨-, hseen, hlock, hloss, hnone⟩ := id hwork
  obtain ⟨d, ci, sender, lane, hd, hde, htargets, hreq, heq⟩ := s.work_spec lines keyLocked hseen hlock hloss hnone
  have hexec := exec_workDue lines keyLocked hwork
  rw [heq] at hexec
  have hts : d.ts = s.ts := (State.undecoded_ts hd).trans rfl
  have hsc : d.sc = s.sc := (State.undecoded_sc hd).trans rfl
  have hli : d.li = s.li := (State.undecoded_li hd).trans rfl
  have hos : d.os.still = s.os.still := (State.undecoded_os hd).trans rfl
  have hct : d.ct = s.ct := (State.undecoded_ct hd).trans rfl
  have hce : d.ce = s.ce := (State.undecoded_ce hd).trans rfl
  have hequal : d.eq = s.eq := (State.undecoded_eq hd).trans rfl
  have hword (p w : Nat) : d.word p w = s.word p w := by unfold State.word; rw [hts]
  have hstate (i : Fin 8) : d.screenState i = s.screenState i := by unfold State.screenState; rw [hsc]
  have hgain (i : Fin 8) : (d.sc.get i).effectiveGain = gain (s.sc.get i) := by rw [hsc]; rfl
  have hshift (i : Fin 8) : d.averageShift i = max 6 (min 14 (field (s.word 1 (32 * i.val + 14)) 0 8)) := by
    unfold State.averageShift State.setting; rw [hword]
  have hchannel (i : Fin 8) (c : Fin 16) := OutChannel.still_fields (OutputStage.still_channel hos i c)
  have hwindow : d.os.window = s.os.window := (congrArg OutputStage.window hos : d.os.still.window = s.os.still.window)
  have hfree : d.eq.free = s.eq.free := by rw [hequal]
  have hdips : d.eq.dips = s.eq.dips := by rw [hequal]
  have hup : d.li.up = s.li.up := by rw [hli]
  have hdown : d.li.down = s.li.down := by rw [hli]
  have hsources : d.li.sources = s.li.sources := by rw [hli]
  refine ⟨_, hexec, rfl, fun n => ?_, rfl, fun i c => ?_, fun i h => ?_, ?_, hsc, hts, hct, hce,
    hfree, hdips, hreq, hup, hdown, hsources⟩
  · intro entry i ch r
    have hslot := d.runChannels_outSlots n
    have hentry : d.outboundEntry n = entry := hword ..
    rw [hentry] at hslot
    obtain ⟨-, -, -, -, hflight, hprotect⟩ := hchannel i (entryChannel entry)
    have hspeaker : isSpeaker entry = true ↔ field entry 0 2 = 1 := beq_iff_eq
    have hsilent (h : (d.worked i (entryChannel entry)).1 = none) : d.runChannels.li.outSlots.get n = ⟨0, false⟩ := by
      refine hslot.trans ?_
      split
      · rw [show (d.worked (entryScreen entry) (entryChannel entry)).1 = none from h]
        rfl
      · rfl
    refine ⟨fun h => ?_, fun hs hon hshort => ?_, fun v hs hon hv => ?_⟩
    · by_cases hs : field entry 0 2 = 1
      · exact hsilent (State.worked_silent (.inl ((hstate i).trans (h.resolve_left (not_not.mpr hs))))).1
      · exact hslot.trans (if_neg fun hsp => hs (hspeaker.mp hsp))
    · exact hsilent (State.worked_silent (.inr (hflight ▸ hshort))).1
    · have hsends := (State.worked_sends (c := entryChannel entry) (fun hoff => hon ((hstate i).symm.trans hoff))
        (by rw [hflight]; exact hv)).1
      refine hslot.trans ((if_pos (hspeaker.mpr hs)).trans ?_)
      rw [show (d.worked (entryScreen entry) (entryChannel entry)).1 = _ from hsends, hgain, hprotect]
      rfl
  · intro old new ka
    have hnew : new = (d.worked i c).2 := d.runChannels_os i c
    obtain ⟨hpeak, haverage, hp, ha, hflight, hprotect⟩ := hchannel i c
    obtain ⟨hkpeak, hkaverage, hkprotect⟩ := State.worked_keeps (d := d) (i := i) (c := c)
    clear_value new
    subst hnew
    refine ⟨hkpeak.trans hpeak, hkaverage.trans haverage, (congrArg Ramp.value hkprotect).trans hprotect,
      (congrArg Ramp.target hkprotect).trans (htargets i c), fun h => ?_, fun v hon hv => ?_⟩
    · obtain ⟨-, h1, h2⟩ := State.worked_silent (d := d) (i := i) (c := c) (by rw [hstate, hflight]; exact h)
      exact ⟨h1.trans hp, h2.trans ha⟩
    · intro m
      obtain ⟨h0, h1, h2⟩ := State.worked_sends (d := d) (i := i) (c := c) (by rw [hstate]; exact hon)
        (by rw [hflight]; exact hv)
      rw [hgain] at h1 h2
      rw [h1, h2, hp, ha, hshift]
      exact ⟨rfl, smooth_cast .., (State.runChannels_gains_formed (by rw [h0]; rfl)).trans (hgain i)⟩
  · refine (State.runChannels_gains_kept fun c => ?_).trans (congrArg (Tab.get · i) (OutputStage.still_gains hos))
    refine (State.worked_silent ?_).1
    rw [hstate]
    exact h.imp_right fun hall => by rw [(hchannel i c).2.2.2.2.1]; exact hall c
  · exact hwindow

/-! ## Mixes, filters and delays -/

/-- Settles O44: a channel's signal runs through the mix, the sections, the delay, the trim and the polarity. -/
theorem linkFrameMixesFiltersAndDelays : Obligations.LinkFrameMixesFiltersAndDelays := by
  intro s lines keyLocked hwork
  obtain ⟨-, hseen, hlock, hloss, hnone⟩ := id hwork
  obtain ⟨d, ci, sender, lane, hd, hde, htargets, hreq, heq⟩ := s.work_spec lines keyLocked hseen hlock hloss hnone
  have hexec := exec_workDue lines keyLocked hwork
  rw [heq] at hexec
  refine ⟨_, hexec, fun i c p hon hcurrent => ?_⟩
  have hts : d.ts = s.ts := (State.undecoded_ts hd).trans rfl
  have hsc : d.sc = s.sc := (State.undecoded_sc hd).trans rfl
  have hli : d.li = s.li := (State.undecoded_li hd).trans rfl
  have hos : d.os.still = s.os.still := (State.undecoded_os hd).trans rfl
  have hequal : d.eq = s.eq := (State.undecoded_eq hd).trans rfl
  have hdon : d.screenState i ≠ .offline := by unfold State.screenState; rw [hsc]; exact hon
  intro source gains derived column mix y b old new
  have hword (p w : Nat) : d.word p w = s.word p w := by unfold State.word; rw [hts]
  have hsource (j : Fin 16) : d.source i j = source j.val := by
    have hj : index 16 j.val = j := Fin.ext (Nat.mod_eq_of_lt j.isLt)
    dsimp only [source]
    rw [hj]
    unfold State.source
    rw [hli]
  have hcolumn (q j : Fin 16) : d.column i q j = column q j := by
    have hsteered : d.profileSteered q = flag (s.word 2 (240 + q.val)) 16 := congrArg (flag · 16) (hword ..)
    have hgain (byteNo : Nat) : d.steeringGain (d.de.get i).steering byteNo = field gains (8 * byteNo) 8 :=
      congrArg (field · (8 * byteNo) 8) (hword ..)
    dsimp only [column]
    unfold State.column
    rw [hsteered, hsource j, hsource 0, hsource 1]
    simp only [hgain]
    by_cases hs : flag (s.word 2 (240 + q.val)) 16 = true
    · rw [if_pos hs]
      by_cases hj : j.val < 4
      · rw [if_pos ⟨hs, hj⟩]
        generalize j.val = n at hj ⊢
        match n, hj with
        | 0, _ => rfl
        | 1, _ => rfl
        | 2, _ => rfl
        | 3, _ => rfl
      · rw [if_neg fun h => hj h.2]
        generalize j.val = n at hj ⊢
        match n, hj with
        | n + 4, _ => rfl
    · rw [if_neg hs, if_neg fun h => hs h.1]
  have hmix (q : Fin 16) : d.mixRow i q c = mix q := by
    have hmask : marked (d.profileMask q) c = true ↔ field (s.word 2 (240 + q.val)) c.val 1 = 1 := by
      rw [← marked_field, ← hword]
      rfl
    have hcoefficient (j : Fin 16) : d.coefficient q c j = signedField (s.word (3 + q.val) (16 * c.val + j.val)) 0 16 :=
      congrArg (signedField · 0 16) (hword ..)
    dsimp only [mix]
    unfold State.mixRow
    simp only [hmask, hcolumn, hcoefficient]
  have hy : d.decodeOutput i c = y := by
    have hcurrent' : (d.de.get i).current = some p := hcurrent
    unfold State.decodeOutput
    dsimp only
    rw [hcurrent']
    change _ = (match (d.de.get i).incoming with
      | none => mix p
      | some ⟨q, k⟩ => saturate (((mix p).toInt * (512 - k) + (mix q).toInt * k + 256) / 512))
    cases (d.de.get i).incoming with
    | none => exact hmix p
    | some incoming =>
      refine (congr_arg₂ (fun a b => blend a b incoming.position) (hmix p) (hmix incoming.profile)).trans ?_
      rfl
  have hequalise : d.equalise i c (d.decodeOutput i c) = s.equalise i c y :=
    (congrArg (d.equalise i c) hy).trans (State.equalise_congr i c y hts hsc hequal)
  have hnew : new = (s.equalise i c y).2 :=
    (d.runChannels_equalised i c hdon).trans (congrArg Prod.snd hequalise)
  have hflight : ((d.runChannels.os.channels.get i).get c).flight =
      ((s.equalise i c y).1 :: ((s.os.channels.get i).get c).flight).take 32 := by
    obtain ⟨-, -, -, -, hstill, -⟩ := OutChannel.still_fields (OutputStage.still_channel hos i c)
    rw [d.runChannels_os, State.worked_on hdon, OutChannel.work_flight, hequalise, hstill]
  refine ⟨fun n => (s.filterSteps i c y n).1, rfl, fun k => ?_, ?_⟩
  · have h := s.filter_spec i c y k
    have hsections : new.sections = (s.filter i c y).2 := by rw [hnew, s.equalise_eq]
    rw [hsections]
    exact h
  · intro w delay z trimmed v
    rw [s.equalise_eq] at hnew hflight
    refine ⟨?_, ?_, hflight⟩
    · rw [hnew]
      rfl
    · rw [hnew]

end Sys2Proof.Machine
end

section
/-!
PROOFS. The reply lane (R23, R177, R182, R183, R187, R189).
-/

namespace Sys2Proof.Machine

/-! ## The sender -/

theorem Reply.message_length (r : Reply) : 2 < r.message.length := by
  rw [Reply.message, framed_length]
  omega

theorem QueuedReport.message_length (q : QueuedReport) : 2 < q.message.length := by
  rw [QueuedReport.message, framed_length]
  omega

section Sender

variable {x : State}

theorem State.senderTake_busy (h : x.li.sender.message ≠ [] ∨ x.li.up.lock = .lost) : x.senderTake = x := by
  refine if_neg fun hready => ?_
  rw [State.senderReady, Bool.and_eq_true, List.isEmpty_iff, beq_iff_eq] at hready
  rcases h with h | h
  · exact h hready.1
  · exact absurd (h.symm.trans hready.2) nofun

theorem State.senderReady_of (hm : x.li.sender.message = []) (hl : x.li.up.lock = .locked) : x.senderReady = true := by
  rw [State.senderReady, hm, hl]
  rfl

theorem State.senderTake_reply (hm : x.li.sender.message = []) (hl : x.li.up.lock = .locked) {r : Reply}
    {rest : List Reply} (h : x.ci.replies = r :: rest) : x.senderTake =
      { x with ci := { x.ci with replies := rest }, li := { x.li with sender := ⟨r.message, 0⟩ } } := by
  unfold State.senderTake
  rw [if_pos (State.senderReady_of hm hl), h]

theorem State.senderTake_report (hm : x.li.sender.message = []) (hl : x.li.up.lock = .locked) {q : QueuedReport}
    {rest : List QueuedReport} (h : x.ci.replies = []) (hq : x.ci.reports = q :: rest) : x.senderTake =
      { x with ci := { x.ci with reports := rest }, li := { x.li with sender := ⟨q.message, 0⟩ } } := by
  unfold State.senderTake
  rw [if_pos (State.senderReady_of hm hl), h, hq]

theorem State.senderTake_nothing (hm : x.li.sender.message = []) (hl : x.li.up.lock = .locked)
    (h : x.ci.replies = []) (hq : x.ci.reports = []) : x.senderTake = x := by
  unfold State.senderTake
  rw [if_pos (State.senderReady_of hm hl), h, hq]

/-- A byte position takes a message if it may, and sends the byte the sender then has (R23). -/
theorem State.sendByte_take {y : State} (h : x.senderTake = y) :
    x.sendByte = (y.li.sender.byte, { y with li := { y.li with sender := y.li.sender.next } }) := by
  unfold State.sendByte
  rw [h]

theorem State.sendBytes_two {y z : State} {first second : Byte} (h1 : x.sendByte = (first, y))
    (h2 : y.sendByte = (second, z)) :
    x.sendBytes = { z with li := { z.li with outLane := ⟨first, second⟩ } } := by
  unfold State.sendBytes
  rw [h1]
  dsimp only
  rw [h2]

theorem Sender.next_more {message : List Byte} {j : Nat} (h : j + 1 < message.length) :
    Sender.next ⟨message, j⟩ = ⟨message, j + 1⟩ := if_pos h

theorem Sender.next_last {message : List Byte} {j : Nat} (h : message.length ≤ j + 1) :
    Sender.next ⟨message, j⟩ = ⟨[], 0⟩ := if_neg (Nat.not_lt.mpr h)

variable {m : List Byte} {j : Nat}

theorem State.sendByte_more (hm : x.li.sender = ⟨m, j⟩) (h : j + 1 < m.length) :
    x.sendByte = (m.getD j 0, { x with li := { x.li with sender := ⟨m, j + 1⟩ } }) := by
  have hne : x.li.sender.message ≠ [] := by
    rw [hm]
    exact List.ne_nil_of_length_pos (Nat.zero_lt_of_lt h)
  rw [State.sendByte_take (State.senderTake_busy (.inl hne)), hm, Sender.next_more h]
  rfl

theorem State.sendByte_last (hm : x.li.sender = ⟨m, j⟩) (h : j + 1 = m.length) :
    x.sendByte = (m.getD j 0, { x with li := { x.li with sender := ⟨[], 0⟩ } }) := by
  have hne : x.li.sender.message ≠ [] := by
    rw [hm]
    exact List.ne_nil_of_length_pos (Nat.zero_lt_of_lt h.le)
  rw [State.sendByte_take (State.senderTake_busy (.inl hne)), hm, Sender.next_last h.ge]
  rfl

theorem State.sendByte_idle (hm : x.li.sender = ⟨[], j⟩) (h : x.senderTake = x) :
    x.sendByte = (0, { x with li := { x.li with sender := ⟨[], 0⟩ } }) := by
  rw [State.sendByte_take h, hm, Sender.next_last (Nat.zero_le _)]
  rfl

theorem State.sendByte_reply (hm : x.li.sender.message = []) (hl : x.li.up.lock = .locked) {r : Reply}
    {rest : List Reply} (h : x.ci.replies = r :: rest) : x.sendByte = (r.message.getD 0 0,
      { x with ci := { x.ci with replies := rest }, li := { x.li with sender := ⟨r.message, 1⟩ } }) := by
  rw [State.sendByte_take (State.senderTake_reply hm hl h)]
  dsimp only
  rw [Sender.next_more (Nat.lt_of_succ_lt r.message_length)]
  rfl

theorem State.sendByte_report (hm : x.li.sender.message = []) (hl : x.li.up.lock = .locked) {q : QueuedReport}
    {rest : List QueuedReport} (h : x.ci.replies = []) (hq : x.ci.reports = q :: rest) :
    x.sendByte = (q.message.getD 0 0,
      { x with ci := { x.ci with reports := rest }, li := { x.li with sender := ⟨q.message, 1⟩ } }) := by
  rw [State.sendByte_take (State.senderTake_report hm hl h hq)]
  dsimp only
  rw [Sender.next_more (Nat.lt_of_succ_lt q.message_length)]
  rfl

end Sender

/-! ## The byte positions of a link frame -/

/-- The work of a link frame sends two bytes from the queues that the decode pass leaves (R23, R104). -/
theorem State.work_sends {s : State} (lines : BitVec 16) (keyLocked : Bool) (h : s.workDue) : ∃ x : State,
    s.work lines keyLocked = { x.sendBytes with li := { x.sendBytes.li with worked := true } } ∧
      x.li.sender = s.li.sender ∧ x.li.up = s.li.up ∧
      x.ci = (s.queueReports (s.fadeReports (s.work lines keyLocked).de)).ci ∧ x.ci.replies = s.ci.replies ∧
      x.ci.requests = [] := by
  obtain ⟨-, hseen, hlock, hloss, hnone⟩ := h
  obtain ⟨d, hd, hci, hwork⟩ := s.work_queues lines keyLocked hseen hlock hloss hnone
  have houter : d.outer = s.outer := (State.undecoded_outer hd).trans rfl
  have hli : d.li = s.li := State.outer_li houter
  have hde : (s.work lines keyLocked).de = d.de := by
    obtain ⟨ci, sender, lane, hsend, -⟩ := d.runChannels.sendBytes_spec
    rw [hwork, hsend]
    rfl
  exact ⟨d.runChannels, hwork, (congrArg LinkInterface.sender hli : d.li.sender = s.li.sender),
    (congrArg LinkInterface.up hli : d.li.up = s.li.up), by rw [hde]; exact hci, (State.outer_replies houter : d.ci.replies = _),
    (State.outer_requests houter : d.ci.requests = _).trans hnone⟩

/-! ## Messages -/

theorem Report.fields_marks (a b : Bool) :
    byteOfFlag a + 2 * byteOfFlag b = BitVec.ofNat 8 ((if a = true then 1 else 0) + if b = true then 2 else 0) := by
  cases a <;> cases b <;> rfl

theorem Report.fields_cue {origin : Origin} {i : Fin 8} {trigger : Option Trigger} {clock : ClockValue} {overrun : Bool}
    {actions : List ActionRecord} : (Report.cue origin i trigger clock overrun actions).fields =
      origin.bytes ++ [byte i.val] ++ (triggerHead trigger ++ triggerParameters trigger) ++ clock.bytes ++
        [byteOfFlag overrun, byte actions.length] ++ actions.flatMap fun a => [byte a.kind, a.outcome.code, a.code] :=
  congrArg (· ++ clock.bytes ++ [byteOfFlag overrun, byte actions.length] ++ _) (List.append_assoc ..)

/-- Settles O48: the sender's queues and position decide what the two byte positions send. -/
theorem replyLaneSendsWholeMessages : Obligations.ReplyLaneSendsWholeMessages := by
  refine ⟨fun s hm hl hnone => ?_, fun s lines keyLocked hwork => ⟨_, exec_workDue lines keyLocked hwork, ?_⟩, ?_⟩
  · have hexec {y : State} (h : s.senderTake = y) (hy : y.ci.requests = []) : exec .replySenderTake s = .next y := by
      refine congrArg Host.Outcome.next ?_
      rw [h]
      exact State.interpret_none hy
    exact ⟨fun r rest h => hexec (State.senderTake_reply hm hl h) hnone,
      fun q rest h hq => hexec (State.senderTake_report hm hl h hq) hnone,
      fun h hq => hexec (State.senderTake_nothing hm hl h hq) hnone⟩
  · obtain ⟨x, ht, hsender, hup, hci, hreplies, hrequests⟩ := State.work_sends lines keyLocked hwork
    generalize s.work lines keyLocked = t at *
    intro message j waiting sends
    have hx : x.li.sender = ⟨message, j⟩ := hsender
    have hreports : x.ci.reports = waiting.reports := congrArg Interpreter.reports hci
    have hlost : x.ci.reportLost = waiting.reportLost := congrArg Interpreter.reportLost hci
    have sent {first second : Byte} {y z : State} (h1 : x.sendByte = (first, y)) (h2 : y.sendByte = (second, z))
        (hz : z.ci.reportLost = x.ci.reportLost) (hr : z.ci.requests = x.ci.requests) :
        sends first second z.li.sender z.ci.replies z.ci.reports := by
      have hsent := ht.trans (by rw [State.sendBytes_two h1 h2])
      dsimp only [sends]
      rw [hsent]
      exact ⟨rfl, rfl, rfl, rfl, hz.trans hlost, hr.trans hrequests⟩
    rw [← hreports, ← hreplies, ← hup]
    let idle : State := { x with li := { x.li with sender := ⟨[], 0⟩ } }
    refine ⟨fun h => ?_, fun h => ?_, fun h => ⟨fun hl => ?_, fun hl r rest hq => ?_, fun hl hn q rest hq => ?_,
      fun hl hn hq => ?_⟩, fun h => ?_⟩
    · exact sent (State.sendByte_more hx (by omega)) (State.sendByte_more rfl h) rfl rfl
    · exact sent (State.sendByte_more hx (by omega)) (State.sendByte_last rfl h) rfl rfl
    · exact sent (State.sendByte_last hx h) (State.sendByte_idle rfl (State.senderTake_busy (.inr hl))) rfl rfl
    · exact sent (State.sendByte_last hx h) (State.sendByte_reply (x := idle) rfl hl hq) rfl rfl
    · have h : sends (message.getD j 0) (q.message.getD 0 0) ⟨q.message, 1⟩ x.ci.replies rest :=
        sent (State.sendByte_last hx h) (State.sendByte_report (x := idle) rfl hl hn hq) rfl rfl
      rwa [hn] at h
    · have h : sends (message.getD j 0) 0 ⟨[], 0⟩ x.ci.replies x.ci.reports :=
        sent (State.sendByte_last hx h) (State.sendByte_idle (x := idle) rfl (State.senderTake_nothing rfl hl hn hq)) rfl rfl
      rwa [hn, hq] at h
    · have hm : x.li.sender.message = [] := by rw [hx]; exact h
      rw [h] at hx
      refine ⟨fun hl => ?_, fun hl r rest hq => ?_, fun hl hn q rest hq => ?_, fun hl hn hq => ?_⟩
      · exact sent (State.sendByte_idle hx (State.senderTake_busy (.inr hl)))
          (State.sendByte_idle rfl (State.senderTake_busy (.inr hl))) rfl rfl
      · exact sent (State.sendByte_reply hm hl hq) (State.sendByte_more rfl r.message_length) rfl rfl
      · have h : sends (q.message.getD 0 0) (q.message.getD 1 0) ⟨q.message, 2⟩ x.ci.replies rest :=
          sent (State.sendByte_report hm hl hn hq) (State.sendByte_more rfl q.message_length) rfl rfl
        rwa [hn] at h
      · have h : sends 0 0 ⟨[], 0⟩ x.ci.replies x.ci.reports :=
          sent (State.sendByte_idle hx (State.senderTake_nothing hm hl hn hq))
            (State.sendByte_idle (x := idle) rfl (State.senderTake_nothing rfl hl hn hq)) rfl rfl
        rwa [hn, hq] at h
  · intro one two mark marks tier lock state origin clock
    refine ⟨fun r => ?_, fun q type fields h => ?_⟩
    · unfold Reply.message
      cases r.result <;> rfl
    · obtain ⟨lost, report⟩ := q
      have htier (x : Tier) : tier x = byte x.code := by cases x <;> rfl
      have hlock (x : Lock) : lock x = byte x.code := by cases x <;> rfl
      have hstate (x : ScreenState) : state x = byte x.code := by cases x <;> rfl
      have horigin (x : Origin) : origin x = x.bytes := by cases x <;> rfl
      have layout {r : Report} (htype : type = r.type) (hfields : fields = r.fields) :
          QueuedReport.message ⟨lost, r⟩ = framed ([type, 0, mark lost] ++ fields) := by
        rw [htype, hfields]
        rfl
      cases report with
      | alarm e i c source fall old new value warnSeen tripSeen forced =>
        obtain ⟨htype, hfields⟩ := h
        refine layout htype (hfields.trans ?_)
        have hmarks : marks warnSeen tripSeen = byteOfFlag warnSeen + 2 * byteOfFlag tripSeen :=
          (Report.fields_marks warnSeen tripSeen).symm
        rw [htier, htier, hmarks]
        cases value with
        | level v => cases source <;> rfl
        | line l => cases source <;> cases l <;> rfl
      | cue by_ i trigger value overrun actions =>
        obtain ⟨htype, hfields⟩ := h
        refine layout htype (hfields.trans ?_)
        rw [horigin]
        rw [Report.fields_cue]
        refine congrArg₂ (fun a b => by_.bytes ++ [byte i.val] ++ a ++ value.bytes ++
          [byteOfFlag overrun, byte actions.length] ++ b) ?_ (congrArg (actions.flatMap ·) (funext fun ⟨_, o, _⟩ => by
            cases o <;> rfl))
        cases trigger with
        | none => rfl
        | some trigger =>
          obtain ⟨event, depth⟩ := trigger
          cases event with
          | clock i v => rfl
          | timer i k => rfl
          | input n edge tag => cases edge <;> rfl
          | alarm i e x => exact congrArg (fun c : Byte => [3, one depth, one e.val, c, 0, 0]) (htier x)
          | state i x => exact congrArg (fun c : Byte => [4, one depth, c, 0, 0, 0]) (hstate x)
      | state i old new cause =>
        obtain ⟨htype, hfields⟩ := h
        refine layout htype (hfields.trans ?_)
        rw [hstate, hstate]
        cases cause <;> rfl
      | format i previous new f source =>
        obtain ⟨htype, hfields⟩ := h
        refine layout htype (hfields.trans ?_)
        cases source <;> rfl
      | apply i by_ r =>
        obtain ⟨htype, hfields⟩ := h
        refine layout htype (hfields.trans ?_)
        obtain ⟨outcome⟩ := r
        rw [horigin]
        cases outcome <;> rfl
      | store restore badImage tag valid =>
        obtain ⟨htype, hfields⟩ := h
        exact layout htype hfields
      | link port new other =>
        obtain ⟨htype, hfields⟩ := h
        refine layout htype (hfields.trans ?_)
        rw [hlock, hlock]
        rfl

end Sys2Proof.Machine
end

section
/-!
PROOFS. The cue engine: handling a trigger and firing (R150 to R162).
-/

namespace Sys2Proof.Machine

/-! ## Matching -/

theorem index_field_eq_iff (w : Word) (low : Nat) (i : Fin 8) : index 8 (field w low 3) = i ↔ field w low 3 = i.val := by
  have hlt : field w low 3 < 8 := Nat.mod_lt _ (by decide)
  rw [Fin.ext_iff, index, Fin.val_ofNat, Nat.mod_eq_of_lt hlt]

theorem ScreenState.ofCode_eq_iff (n : Nat) (st : ScreenState) : ScreenState.ofCode n = some st ↔ n = st.code := by
  refine ⟨fun h => ?_, fun h => h ▸ ScreenState.ofCode_code st⟩
  match n, h with
  | 0, h | 1, h | 2, h | 3, h | 4, h => cases h; rfl

theorem clockMatches_iff (w : Word) (v : ClockValue) : clockMatches w v = true ↔
    (flag w 7 = true ∨ flag w 15 = true ∨ flag w 23 = true ∨ flag w 31 = true) ∧
      (flag w 7 = true → field w 0 5 = v.hours) ∧ (flag w 15 = true → field w 8 6 = v.minutes) ∧
      (flag w 23 = true → field w 16 6 = v.seconds) ∧ (flag w 31 = true → field w 24 6 = v.frames) := by
  have hfield (low count enable value : Nat) : ((!flag w enable || field w low count == value) = true) ↔
      (flag w enable = true → field w low count = value) := by
    cases flag w enable <;> simp
  simp only [clockMatches, fieldMatch, List.any_cons, List.any_nil, List.all_cons, List.all_nil, Bool.and_eq_true,
    Bool.or_eq_true, hfield, Bool.or_false, Bool.and_true]

theorem CueEntry.allows_iff (s : State) (e : Fin 256) (st : ScreenState) :
    (s.cueEntry e).allows st = true ↔ field (s.cueWord e 0) (8 + st.code) 1 = 1 := by
  have hmask : (s.cueEntry e).mask / 2 ^ st.code % 2 = field (s.cueWord e 0) (8 + st.code) 1 := by
    change (s.cueWord e 0).toNat / 2 ^ 8 % 2 ^ 5 / 2 ^ st.code % 2 = (s.cueWord e 0).toNat / 2 ^ (8 + st.code) % 2
    generalize (s.cueWord e 0).toNat = n
    cases st <;> simp only [ScreenState.code] <;> omega
  rw [CueEntry.allows, beq_iff_eq, hmask]

section Follows

variable (s : State) (e : Fin 256)

/-- An entry's kind, screen and parameters as its words hold them (R151, R152). -/
theorem CueEntry.follows_iff (event : TriggerEvent) :
    ((s.cueEntry e).onScreen event && (s.cueEntry e).follows event) = true ↔
    match event with
    | .clock i v => field (s.cueWord e 0) 16 3 = 0 ∧ field (s.cueWord e 0) 4 3 = i.val ∧ clockMatches (s.cueWord e 1) v = true
    | .timer i k => field (s.cueWord e 0) 16 3 = 1 ∧ field (s.cueWord e 0) 4 3 = i.val ∧ field (s.cueWord e 1) 0 1 = k.val
    | .input n edge _ => field (s.cueWord e 0) 16 3 = 2 ∧ field (s.cueWord e 1) 0 4 = n.val ∧
        ((edge = .rise ∧ field (s.cueWord e 1) 8 1 = 0) ∨ (edge = .fall ∧ field (s.cueWord e 1) 8 1 = 1))
    | .alarm i a tier => field (s.cueWord e 0) 16 3 = 3 ∧ field (s.cueWord e 0) 4 3 = i.val ∧
        field (s.cueWord e 1) 0 8 = a.val ∧
        ((tier = .warn ∧ field (s.cueWord e 1) 8 2 = 0) ∨ (tier = .trip ∧ field (s.cueWord e 1) 8 2 = 1))
    | .state i st => field (s.cueWord e 0) 16 3 = 4 ∧ field (s.cueWord e 0) 4 3 = i.val ∧
        ScreenState.ofCode (field (s.cueWord e 1) 0 3) = some st := by
  have hscreen (i : Fin 8) : (s.cueEntry e).screen == i ↔ field (s.cueWord e 0) 4 3 = i.val :=
    beq_iff_eq.trans (index_field_eq_iff _ 4 i)
  have hkind : (s.cueEntry e).kind = field (s.cueWord e 0) 16 3 := rfl
  have hparameters : (s.cueEntry e).parameters = s.cueWord e 1 := rfl
  generalize s.cueEntry e = c at *
  rw [← hkind, ← hparameters]
  cases event with
  | clock i v => simp only [CueEntry.onScreen, CueEntry.follows, TriggerEvent.screen, Bool.and_eq_true, hscreen, beq_iff_eq,
      and_left_comm]
  | timer i k => simp only [CueEntry.onScreen, CueEntry.follows, TriggerEvent.screen, Bool.and_eq_true, hscreen, beq_iff_eq,
      and_left_comm]
  | input n edge tag => cases edge <;> simp [CueEntry.onScreen, CueEntry.follows, TriggerEvent.screen, Edge.code, and_assoc]
  | alarm i a tier =>
    cases tier <;> simp [CueEntry.onScreen, CueEntry.follows, TriggerEvent.screen, hscreen, Tier.cueCode, and_assoc,
      and_left_comm]
  | state i st => simp only [CueEntry.onScreen, CueEntry.follows, TriggerEvent.screen, Bool.and_eq_true, hscreen, beq_iff_eq,
      and_left_comm, ScreenState.ofCode_eq_iff]

theorem CueEntry.clockEvaluated_iff (event : TriggerEvent) : (s.cueEntry e).clockEvaluated event = true ↔
    ∃ i v, event = .clock i v ∧ field (s.cueWord e 0) 16 3 = 0 ∧ field (s.cueWord e 0) 4 3 = i.val := by
  have hkind : (s.cueEntry e).kind = field (s.cueWord e 0) 16 3 := rfl
  cases event with
  | clock i v =>
    have hscreen : (s.cueEntry e).screen == i ↔ field (s.cueWord e 0) 4 3 = i.val :=
      beq_iff_eq.trans (index_field_eq_iff _ 4 i)
    simp [CueEntry.clockEvaluated, CueEntry.onScreen, TriggerEvent.screen, hkind, hscreen]
  | timer | input | alarm | state => simp [CueEntry.clockEvaluated]

end Follows

/-! ## Handling -/

theorem foldl_finRange_take {σ : Type} {n : Nat} (step : σ → Fin n → σ) (s : σ) (k : Fin n) :
    ((List.finRange n).take (k.val + 1)).foldl step s = step (((List.finRange n).take k.val).foldl step s) k := by
  rw [List.take_succ_eq_append_getElem (by simp), List.foldl_append, List.getElem_finRange]
  rfl

/-- Settles O51: the entries are tested in order, each against the words and screen states of the taking. -/
theorem triggersAreHandledAgainstEveryEntry : Obligations.TriggersAreHandledAgainstEveryEntry := by
  intro s trigger rest htriggers
  let start : State := { s with ce := { s.ce with triggers := rest } }
  let states := s.sc.map ScreenRecord.state
  have hhandle : s.handleTrigger = (List.finRange 256).foldl (State.testCue trigger states) start := by
    unfold State.handleTrigger
    rw [htriggers]
  have htake : (List.finRange 256).take 256 = List.finRange 256 := List.take_of_length_le List.length_finRange.le
  have hexec : exec .triggerHandling s = .next s.handleTrigger := rfl
  rw [hhandle] at hexec
  refine ⟨fun k => ((List.finRange 256).take k).foldl (State.testCue trigger states) start, rfl, ?_, fun e => ?_⟩
  · beta_reduce
    rw [hexec, htake]
  · intro before after w0 w1 clockMatch follows allowed fires
    have hafter : after = State.testCue trigger states before e := foldl_finRange_take ..
    have houter : before.outer = s.outer := foldl_keeps State.outer _ (fun s e => State.outer_testCue s _ _ e) _ start
    clear_value after before
    have hentry : before.cueEntry e = s.cueEntry e := by
      unfold State.cueEntry State.cueWord State.word
      rw [(State.outer_ts houter : before.ts = s.ts)]
    have hclock (v : ClockValue) : clockMatches w1 v = true ↔ clockMatch v := clockMatches_iff w1 v
    have hfires : before.cueFires states e (s.cueEntry e) trigger = true ↔ fires := by
      have hfollows : ((s.cueEntry e).onScreen trigger.event && (s.cueEntry e).follows trigger.event) = true ↔ follows := by
        rw [CueEntry.follows_iff]
        dsimp only [follows]
        cases trigger.event with
        | clock i v => exact and_congr_right' (and_congr_right' (hclock v))
        | timer | input | alarm | state => rfl
      have hallowed : (s.cueEntry e).allows (states.get (s.cueEntry e).screen) = true ↔ allowed := by
        rw [CueEntry.allows_iff, Tab.get_map]
        rfl
      have hmemory : (!((s.cueEntry e).kind == 0 && (before.ce.cues.get e).memory)) = true ↔
          (field w0 16 3 = 0 → (before.ce.cues.get e).memory = false) := by
        have hkind : (s.cueEntry e).kind = field w0 16 3 := rfl
        rw [hkind]
        cases (before.ce.cues.get e).memory <;> simp
      unfold State.cueFires
      rw [Bool.and_assoc (before.ce.cues.get e).armed, Bool.and_eq_true, Bool.and_eq_true, Bool.and_eq_true, hfollows, hallowed,
        hmemory, and_assoc, and_assoc]
    have htest : after =
        if (s.cueEntry e).clockEvaluated trigger.event = true then
          (if before.cueFires states e (s.cueEntry e) trigger = true then before.fireCue e (s.cueEntry e) trigger
            else before).modifyCue e fun r => { r with memory := (s.cueEntry e).follows trigger.event }
        else if before.cueFires states e (s.cueEntry e) trigger = true then before.fireCue e (s.cueEntry e) trigger
        else before := by
      rw [hafter, ← hentry]
      rfl
    refine ⟨hentry, fun i v hevent hkind hi => ⟨(s.cueEntry e).follows trigger.event, ?_, fun h => ?_, fun h => ?_⟩,
      fun hnone => ⟨fun h => ?_, fun h => ?_⟩⟩
    · have hzero : ((s.cueEntry e).kind == 0) = true := beq_iff_eq.mpr hkind
      rw [← hclock, hevent, CueEntry.follows, hzero, Bool.true_and]
      rfl
    · rw [htest, if_pos ((CueEntry.clockEvaluated_iff s e _).mpr ⟨i, v, hevent, hkind, hi⟩), if_pos (hfires.mpr h)]
    · rw [htest, if_pos ((CueEntry.clockEvaluated_iff s e _).mpr ⟨i, v, hevent, hkind, hi⟩), if_neg (mt hfires.mp h)]
    · rw [htest, if_neg (mt (CueEntry.clockEvaluated_iff s e _).mp hnone), if_pos (hfires.mpr h)]
    · rw [htest, if_neg (mt (CueEntry.clockEvaluated_iff s e _).mp hnone), if_neg (mt hfires.mp h)]

end Sys2Proof.Machine
end

section
/-!
PROOFS. An entry that fires: its actions in order and their triggers (R155 to R161).
-/

namespace Sys2Proof.Machine

/-! ## The actions of an entry -/

section Codes

variable (code : BitVec 16)

theorem field_code (low count : Nat) : field (code.setWidth 32) low count = code.toNat / 2 ^ low % 2 ^ count := by
  have := field_setWidth code.toNat low count code.isLt
  rwa [BitVec.ofNat_toNat, BitVec.setWidth_eq] at this

/-- The kind field of an action code is its kind (R191). -/
theorem Action.ofCode_kind : (Action.ofCode code).kind = code.toNat / 4096 := by
  have hlt : code.toNat / 4096 < 16 := Nat.div_lt_of_lt_mul code.isLt
  have hkind : field (code.setWidth 32) 12 4 = code.toNat / 4096 :=
    (field_code ..).trans (Nat.mod_eq_of_lt hlt)
  unfold Action.ofCode
  dsimp only
  rw [hkind]
  generalize code.toNat / 4096 = n at hlt
  split <;> first | rfl | exact Nat.mod_eq_of_lt hlt

theorem Action.ofCode_userCode :
    (Action.ofCode code).userCode = if code.toNat / 4096 = 12 then BitVec.ofNat 8 code.toNat else 0 := by
  have hlt : code.toNat / 4096 < 16 := Nat.div_lt_of_lt_mul code.isLt
  have hkind : field (code.setWidth 32) 12 4 = code.toNat / 4096 :=
    (field_code ..).trans (Nat.mod_eq_of_lt hlt)
  have hlow : byte (field (code.setWidth 32) 0 8) = BitVec.ofNat 8 code.toNat := by
    rw [field_code]
    exact BitVec.eq_of_toNat_eq (by simp [byte])
  unfold Action.ofCode
  dsimp only
  rw [hkind]
  generalize code.toNat / 4096 = n at hlt
  split <;> first | rfl | exact hlow | exact (if_neg (by omega)).symm

end Codes

section RunActions

variable (s : State) (i : Fin 8) (origin : Origin) (depth : Nat)

theorem State.runActions_append (actions : List Action) (a : Action) :
    s.runActions i origin depth (actions ++ [a]) =
      let r := s.runActions i origin depth actions
      let q := r.1.runAction i origin depth a
      (q.1, r.2 ++ [⟨a.kind, q.2, a.userCode⟩]) := by
  unfold State.runActions
  rw [List.foldl_append]
  rfl

/-- The state the first `k` actions of a list of codes leave, with their records. -/
def State.ranTo (codes : List (BitVec 16)) (k : Nat) : State × List ActionRecord :=
  s.runActions i origin depth ((codes.take k).map Action.ofCode)

/-- The outcome of action `k`. -/
def State.outcomeAt (codes : List (BitVec 16)) (k : Nat) : ActionOutcome :=
  ((s.ranTo i origin depth codes k).1.runAction i origin depth (Action.ofCode (codes.getD k 0))).2

variable (codes : List (BitVec 16))

theorem State.ranTo_succ {k : Nat} (h : k < codes.length) : s.ranTo i origin depth codes (k + 1) =
    let r := s.ranTo i origin depth codes k
    let q := r.1.runAction i origin depth (Action.ofCode (codes.getD k 0))
    (q.1, r.2 ++ [⟨(codes.getD k 0).toNat / 4096, q.2,
      if (codes.getD k 0).toNat / 4096 = 12 then BitVec.ofNat 8 (codes.getD k 0).toNat else 0⟩]) := by
  have hget : codes.getD k 0 = codes[k] := List.getD_eq_getElem _ _ h
  rw [State.ranTo, List.take_succ_eq_append_getElem h, List.map_append, List.map_singleton, State.runActions_append, ← hget,
    Action.ofCode_kind, Action.ofCode_userCode]
  rfl

theorem State.ranTo_records {k : Nat} (h : k ≤ codes.length) : (s.ranTo i origin depth codes k).2 =
    (List.range k).map fun k => ⟨(codes.getD k 0).toNat / 4096, s.outcomeAt i origin depth codes k,
      if (codes.getD k 0).toNat / 4096 = 12 then BitVec.ofNat 8 (codes.getD k 0).toNat else 0⟩ := by
  induction k with
  | zero => rfl
  | succ k ih =>
    rw [State.ranTo_succ _ _ _ _ _ h, List.range_succ, List.map_append, ← ih (Nat.le_of_lt h)]
    rfl

end RunActions

/-! ## The depth of an action's triggers -/

/-- A state with other cue records and triggers. -/
def State.withCe (s : State) (ce : CueEngine) : State := { s with ce := ce }

section Depth

variable (s : State)

theorem State.withCe_self : s.withCe s.ce = s := rfl

theorem State.pushTrigger_withCe (t : Trigger) : s.pushTrigger t = s.withCe (s.pushTrigger t).ce := by
  unfold State.pushTrigger
  split <;> split <;> rfl

theorem State.makeTrigger_withCe (event : TriggerEvent) (depth : Nat) :
    s.makeTrigger event depth = s.withCe (s.makeTrigger event depth).ce := by
  unfold State.makeTrigger
  split
  · exact s.pushTrigger_withCe _
  · rfl

/-- A trigger made at another depth makes no other difference than in the cue engine. -/
theorem State.makeTrigger_depth (event : TriggerEvent) (depth other : Nat) :
    s.makeTrigger event depth = (s.makeTrigger event other).withCe (s.makeTrigger event depth).ce := by
  rw [s.makeTrigger_withCe event other]
  exact s.makeTrigger_withCe event depth

variable (ce : CueEngine)

theorem State.forceEntries_withCe (pick : AlarmEntry → Bool) :
    (s.withCe ce).forceEntries pick = ((s.forceEntries pick).1.withCe ce, (s.forceEntries pick).2) := by
  unfold State.forceEntries
  refine List.foldl_hom (init := (s, [])) (fun acc : State × List Report => (acc.1.withCe ce, acc.2)) (fun acc e => ?_)
  dsimp only
  split <;> (split <;> first | rfl | contradiction)

theorem State.handApply_withCe (i : Fin 8) (origin : Origin) :
    (s.withCe ce).handApply i origin = ((s.handApply i origin).1.withCe ce, (s.handApply i origin).2) := by
  have heq : (s.withCe ce).eq = s.eq := rfl
  unfold State.handApply
  rw [heq]
  split
  · rfl
  · split <;> rfl

theorem State.handPending_withCe (i : Fin 8) (old : ScreenRecord) (target : ScreenState) :
    (s.withCe ce).handPending i old target =
      ((s.handPending i old target).1.withCe ce, (s.handPending i old target).2) := by
  unfold State.handPending
  split
  · split
    · rfl
    · exact s.handApply_withCe ce i _
  · rfl

/-- What follows a change between two states other than OFFLINE reads nothing of the cue engine. -/
theorem State.followMove_withCe (i : Fin 8) {old target : ScreenState} (inScan : Bool) (hold : old ≠ .offline)
    (htarget : target ≠ .offline) :
    (s.withCe ce).followMove i old target inScan =
      ((s.followMove i old target inScan).1.withCe ce, (s.followMove i old target inScan).2) := by
  unfold State.followMove
  rw [if_neg htarget, if_neg hold, if_neg htarget, if_neg hold]
  split
  · unfold State.forceFloors
    have hforced := s.forceEntries_withCe ce fun a => a.source == some .floor && a.screen == i && !s.floorEligible a
    have hpick : (fun a : AlarmEntry => a.source == some .floor && a.screen == i && !(s.withCe ce).floorEligible a) =
      fun a => a.source == some .floor && a.screen == i && !s.floorEligible a := rfl
    rw [hpick, hforced]
    cases inScan <;> rfl
  · rfl

theorem State.mergeReports_withCe (groups : List (List Report)) :
    (s.withCe ce).mergeReports groups = ((s.mergeReports groups).1.withCe ce, (s.mergeReports groups).2) := rfl

/-- A change of state, with what is handed over and what follows named. -/
theorem State.moveScreen_eq {p q : State × List Report} (i : Fin 8) (target : ScreenState) (cause : StateCause)
    (safeCause : SafeCause) (depth : Nat) (inScan : Bool)
    (hp : (s.modifyScreen i fun r => r.move target safeCause (s.safeGain i)).handPending i (s.sc.get i) target = p)
    (hq : p.1.followMove i (s.screenState i) target inScan = q) :
    s.moveScreen i target cause safeCause depth inScan = (q.1.makeTrigger (.state i target) depth).mergeReports
      [[.state i (s.screenState i) target cause], q.2, p.2] := by
  unfold State.moveScreen
  dsimp only
  rw [hp]
  rw [show p.1.followMove i (s.sc.get i).state target inScan = q from hq]
  rfl

/-- The depth of a change's trigger decides the cue engine alone. -/
theorem State.moveScreen_depth (i : Fin 8) (target : ScreenState) (cause : StateCause) (safeCause : SafeCause)
    (depth other : Nat) (inScan : Bool) : ∃ ce, s.moveScreen i target cause safeCause depth inScan =
      ((s.moveScreen i target cause safeCause other inScan).1.withCe ce,
        (s.moveScreen i target cause safeCause other inScan).2) := by
  rw [s.moveScreen_eq i target cause safeCause depth inScan rfl rfl, State.makeTrigger_depth _ _ depth other,
    s.moveScreen_eq i target cause safeCause other inScan rfl rfl, State.mergeReports_withCe]
  exact ⟨_, rfl⟩

theorem State.moveScreen_withCe (i : Fin 8) (target : ScreenState) (cause : StateCause) (safeCause : SafeCause)
    (depth : Nat) (inScan : Bool) (hold : s.screenState i ≠ .offline) (htarget : target ≠ .offline) :
    ∃ ce', (s.withCe ce).moveScreen i target cause safeCause depth inScan =
      ((s.moveScreen i target cause safeCause depth inScan).1.withCe ce',
        (s.moveScreen i target cause safeCause depth inScan).2) := by
  obtain ⟨moved, hmoved⟩ : ∃ m, (s.modifyScreen i fun r => r.move target safeCause (s.safeGain i)) = m := ⟨_, rfl⟩
  have hmovedCe : ((s.withCe ce).modifyScreen i fun r => r.move target safeCause ((s.withCe ce).safeGain i)) =
      moved.withCe ce := by rw [← hmoved]; rfl
  obtain ⟨p, hp⟩ : ∃ p, moved.handPending i (s.sc.get i) target = p := ⟨_, rfl⟩
  have hpCe := (moved.handPending_withCe ce i (s.sc.get i) target)
  rw [hp] at hpCe
  obtain ⟨q, hq⟩ : ∃ q, p.1.followMove i (s.screenState i) target inScan = q := ⟨_, rfl⟩
  have hqCe := p.1.followMove_withCe ce i inScan hold htarget
  rw [hq] at hqCe
  rw [s.moveScreen_eq i target cause safeCause depth inScan (by rw [hmoved]; exact hp) hq,
    (s.withCe ce).moveScreen_eq (p := (p.1.withCe ce, p.2)) i target cause safeCause depth inScan (by rw [hmovedCe]; exact hpCe)
      hqCe, q.1.makeTrigger_withCe _ depth, State.makeTrigger_withCe (q.1.withCe ce) _ depth]
  exact ⟨_, rfl⟩

/-- The depth of the trigger of a change asked for decides the cue engine alone, the entry into SAFE that a lost link adds
included. -/
theorem State.goTo_depth (i : Fin 8) (target : ScreenState) (cause : StateCause) (depth other : Nat) :
    ∃ ce, s.goTo i target cause depth = (s.goTo i target cause other).withCe ce := by
  obtain ⟨ce, hfirst⟩ := s.moveScreen_depth i target cause .command depth other false
  unfold State.goTo
  rw [hfirst]
  generalize s.moveScreen i target cause .command other false = first
  have hsafe : ∃ ce', (first.1.withCe ce).safeIfLost i = ((first.1.safeIfLost i).1.withCe ce', (first.1.safeIfLost i).2) := by
    have hsame : (first.1.withCe ce).playing i = first.1.playing i := rfl
    have hli : (first.1.withCe ce).li = first.1.li := rfl
    unfold State.safeIfLost
    rw [hsame, hli]
    split
    · next h =>
      rw [Bool.and_eq_true] at h
      have hon : first.1.screenState i ≠ .offline := fun hoff => by
        rw [State.playing, hoff] at h
        exact absurd h.1 (by decide)
      exact first.1.moveScreen_withCe ce i .safe .link .link 0 false hon (by decide)
    · exact ⟨ce, rfl⟩
  obtain ⟨ce', hsecond⟩ := hsafe
  dsimp only
  rw [hsecond]
  refine ⟨ce', List.foldl_hom (init := (first.1.safeIfLost i).1) (State.withCe · ce') (fun s r => ?_)⟩
  have hci : (s.withCe ce').ci = s.ci := rfl
  unfold State.queueReport
  rw [hci]
  split <;> rfl

theorem State.askState_depth (i : Fin 8) (target : Option ScreenState) (cause : StateCause) (depth other : Nat) :
    ∃ ce, (s.askState i target cause depth).1 = (s.askState i target cause other).1.withCe ce := by
  cases target with
  | none => exact ⟨s.ce, rfl⟩
  | some target =>
    obtain ⟨ce, hce⟩ := s.goTo_depth i target cause depth other
    unfold State.askState
    dsimp only
    split
    · exact ⟨s.ce, rfl⟩
    split
    · exact ⟨s.ce, rfl⟩
    split
    · exact ⟨s.ce, rfl⟩
    split
    · exact ⟨s.ce, rfl⟩
    · exact ⟨ce, hce⟩

theorem State.clockAction_depth (i : Fin 8) (op : ClockOp) (depth other : Nat) :
    ∃ ce, (s.clockAction i op depth).1 = (s.clockAction i op other).1.withCe ce := by
  cases op with
  | stop => exact ⟨s.ce, rfl⟩
  | zero => exact ⟨_, State.makeTrigger_depth _ _ depth other⟩
  | run =>
    unfold State.clockAction
    dsimp only
    split
    · exact ⟨s.ce, rfl⟩
    · exact ⟨_, State.makeTrigger_depth _ _ depth other⟩

/-- The depth of an action's triggers decides the cue engine alone (R158). -/
theorem State.runAction_depth (i : Fin 8) (origin : Origin) (depth other : Nat) (a : Action) :
    ∃ ce, (s.runAction i origin depth a).1 = (s.runAction i origin other a).1.withCe ce := by
  cases a with
  | state target => exact s.askState_depth i _ _ depth other
  | safe => exact s.askState_depth i _ _ depth other
  | clock op => exact s.clockAction_depth i op depth other
  | level | mute | format | release | apply | safepoint | line | timer | report | unnamed => exact ⟨_, rfl⟩

theorem State.applyBank_silent (i : Fin 8) (origin : Origin) :
    (s.applyBank i origin).1.ce.triggers = s.ce.triggers ∧ (s.applyBank i origin).2 ≠ .cascadeCut := by
  unfold State.applyBank
  split
  · exact ⟨rfl, nofun⟩
  split
  · exact ⟨rfl, nofun⟩
  split
  · exact ⟨rfl, nofun⟩
  split <;> exact ⟨rfl, nofun⟩

theorem State.handApply_ce (i : Fin 8) (origin : Origin) : (s.handApply i origin).1.ce = s.ce := by
  unfold State.handApply
  split
  · rfl
  · split <;> rfl

theorem State.safepoint_ce (i : Fin 8) : (s.safepoint i).ce = s.ce := by
  unfold State.safepoint
  split
  · rfl
  · exact (State.queueReports_ce ..).trans (State.handApply_ce ..)

theorem State.lineAction_silent (n : Fin 16) (op : LineOp) :
    (s.lineAction n op).1.ce.triggers = s.ce.triggers ∧ (s.lineAction n op).2 ≠ .cascadeCut := by
  unfold State.lineAction
  split <;> exact ⟨rfl, nofun⟩

theorem State.timerAction_silent (i : Fin 8) (t : Fin 2) (op : TimerOp) :
    (s.timerAction i t op).1.ce.triggers = s.ce.triggers ∧ (s.timerAction i t op).2 ≠ .cascadeCut := by
  unfold State.timerAction
  cases op with
  | start =>
    dsimp only
    split <;> exact ⟨rfl, nofun⟩
  | stop => exact ⟨rfl, nofun⟩

theorem State.reportAction_triggers (i : Fin 8) (origin : Origin) (code : Byte) :
    (s.reportAction i origin code).ce.triggers = s.ce.triggers := by
  cases origin with
  | cue e => rfl
  | request tag =>
    unfold State.reportAction
    dsimp only
    rcases Nat.lt_or_ge s.ci.reports.length 32 with hlt | hge
    · rw [State.queueCueReport_accepted (h := hlt)]
    · rw [State.queueCueReport_dropped (h := hge)]

/-- An action that neither changes a state nor sets a clock makes no trigger. -/
theorem State.runAction_silent (i : Fin 8) (origin : Origin) (depth : Nat) {a : Action}
    (h : a = .clock .stop ∨ (a.kind ≠ 1 ∧ a.kind ≠ 2 ∧ a.kind ≠ 10)) :
    (s.runAction i origin depth a).1.ce.triggers = s.ce.triggers ∧ (s.runAction i origin depth a).2 ≠ .cascadeCut := by
  cases a with
  | state | safe => exact absurd h (by simp [Action.kind])
  | clock op =>
    obtain rfl : op = .stop := by simpa [Action.kind] using h
    exact ⟨rfl, nofun⟩
  | level | mute | format | release | unnamed => exact ⟨rfl, nofun⟩
  | apply => exact s.applyBank_silent i origin
  | safepoint => exact ⟨congrArg CueEngine.triggers (s.safepoint_ce i), nofun⟩
  | line n op => exact s.lineAction_silent n op
  | timer t op => exact s.timerAction_silent i t op
  | report code => exact ⟨s.reportAction_triggers i origin code, nofun⟩

/-- Such an action does not read the depth. -/
theorem State.runAction_depthless (i : Fin 8) (origin : Origin) (depth other : Nat) {a : Action}
    (h : a = .clock .stop ∨ (a.kind ≠ 1 ∧ a.kind ≠ 2 ∧ a.kind ≠ 10)) :
    s.runAction i origin depth a = s.runAction i origin other a := by
  cases a with
  | state | safe => exact absurd h (by simp [Action.kind])
  | clock op =>
    obtain rfl : op = .stop := by simpa [Action.kind] using h
    rfl
  | level | mute | format | release | apply | safepoint | line | timer | report | unnamed => rfl

end Depth

/-! ## Changes of state by their table -/

theorem ScreenState.allows_iff_mem {old target : ScreenState} (hon : old ≠ .offline) :
    old.allows target = true ↔ (old, target) ∈ [(ScreenState.idle, ScreenState.preshow), (.idle, .feature),
      (.idle, .offline), (.idle, .safe), (.preshow, .feature), (.preshow, .idle), (.preshow, .safe), (.feature, .idle),
      (.feature, .safe), (.safe, .idle), (.safe, .offline)] := by
  cases old <;> cases target <;> first | exact absurd rfl hon | decide

theorem ScreenState.allows_offline {target : ScreenState} : ScreenState.offline.allows target = true ↔ target = .idle := by
  cases target <;> decide

theorem triggerOutcome_eq (depth : Nat) : triggerOutcome depth = if depth ≤ 3 then .done else .cascadeCut := rfl

theorem State.makeTrigger_foldl (s : State) (event : TriggerEvent) (depth : Nat) : s.makeTrigger event depth =
    (if depth ≤ 3 then [(⟨event, depth⟩ : Trigger)] else []).foldl State.pushTrigger s := by
  by_cases h : depth ≤ 3
  · rw [if_pos h, State.makeTrigger_ce _ _ h]
    rfl
  · rw [if_neg h, State.makeTrigger_cut _ _ (not_le.mp h)]
    rfl

/-! ## Firing -/

section Fire

variable (s : State) (e : Fin 256) (trigger : Trigger)

/-- The state an entry's actions begin in: a ONE_SHOT entry is disarmed (R155). -/
def State.fireStart : State :=
  if flag (s.cueWord e 0) 1 = true then s.modifyCue e fun r => { r with armed := false } else s

/-- The action codes an entry's count gives (R190). -/
def State.cueCodes : List (BitVec 16) :=
  [(s.cueWord e 2).extractLsb' 16 16, (s.cueWord e 2).extractLsb' 0 16, (s.cueWord e 3).extractLsb' 16 16,
    (s.cueWord e 3).extractLsb' 0 16].take (field (s.cueWord e 0) 24 2 + 1)

theorem State.cueEntry_actions : (s.cueEntry e).actions = (s.cueCodes e).map Action.ofCode := by
  have hlow (w : Word) : w.setWidth 16 = w.extractLsb' 0 16 := BitVec.eq_of_toNat_eq (by simp)
  unfold State.cueEntry cueEntryOf State.cueCodes
  rw [hlow, hlow]

theorem State.fireCue_eq {i : Fin 8} (hi : index 8 (field (s.cueWord e 0) 4 3) = i) :
    let ran := (s.fireStart e).ranTo i (.cue e) (trigger.depth + 1) (s.cueCodes e) (s.cueCodes e).length
    s.fireCue e (s.cueEntry e) trigger = if flag (s.cueWord e 0) 2 || ran.2.any ActionRecord.reports then
      ran.1.queueCueReport (.cue e) i (some trigger) (s.ct.clocks.get i).value ran.2 else ran.1 := by
  have hscreen : (s.cueEntry e).screen = i := hi
  unfold State.ranTo State.fireCue
  rw [List.take_length, ← s.cueEntry_actions e, hscreen]
  rfl

end Fire

/-- Settles O52: `State.fireCue` is the run of the actions and the report, and each action is taken by its kind. -/
theorem firingRunsTheActions : Obligations.FiringRunsTheActions := by
  refine ⟨fun s e trigger => ?_, fun s i origin depth => ?_⟩
  · intro c w0 i codes
    have hfire := s.fireCue_eq e trigger (i := i) rfl
    dsimp only at hfire
    rw [State.ranTo_records _ _ _ _ _ (le_refl _), show s.cueCodes e = codes from rfl] at hfire
    have hstep (k : Nat) (hk : k < codes.length) := (s.fireStart e).ranTo_succ i (.cue e) (trigger.depth + 1) codes hk
    refine ⟨fun k => ((s.fireStart e).ranTo i (.cue e) (trigger.depth + 1) codes k).1,
      (s.fireStart e).outcomeAt i (.cue e) (trigger.depth + 1) codes, rfl, fun k hk => ?_, ?_⟩
    · beta_reduce
      rw [hstep k hk]
      rfl
    · generalize (s.fireStart e).outcomeAt i (.cue e) (trigger.depth + 1) codes = outcome at hfire ⊢
      change s.fireCue e c trigger = _ at hfire
      intro done kind reported report
      generalize hrecords : (List.range codes.length).map (fun k => (⟨(codes.getD k 0).toNat / 4096, outcome k,
        if (codes.getD k 0).toNat / 4096 = 12 then BitVec.ofNat 8 (codes.getD k 0).toNat else 0⟩ : ActionRecord)) =
        records at hfire
      have hreport : report = .cue (.cue e) i (some trigger) (s.ct.clocks.get i).value done.ce.overrun records := by
        rw [← hrecords]
      have hreported : (flag (s.cueWord e 0) 2 || records.any ActionRecord.reports) = true ↔ reported := by
        rw [Bool.or_eq_true, ← hrecords, List.any_map, List.any_eq_true]
        refine or_congr Iff.rfl (exists_congr fun k => and_congr List.mem_range ?_)
        simp [ActionRecord.reports, kind]
      have hdone : ((s.fireStart e).ranTo i (.cue e) (trigger.depth + 1) codes codes.length).1 = done := rfl
      clear_value report done reported
      rw [hdone] at hfire
      refine ⟨fun h => ?_, fun h hroom => ?_, fun h hfull => ?_⟩
      · rw [hfire, if_neg (mt hreported.mp h)]
      · rw [hfire, if_pos (hreported.mpr h), State.queueCueReport_accepted (h := hroom), hreport]
      · rw [hfire, if_pos (hreported.mpr h), State.queueCueReport_dropped (h := hfull)]
  · intro made trigger rate value zeroed corrected rerated
    have hcut (event : TriggerEvent) (x : State) : x.makeTrigger event depth = (trigger event).foldl State.pushTrigger x :=
      x.makeTrigger_foldl event depth
    refine ⟨?_, fun h => ?_, fun h => ?_, fun a target ha => ?_, fun code h => ?_, fun a other => ⟨?_, fun h => ⟨?_, ?_⟩⟩,
      fun k => rfl⟩
    · rw [← hcut]; rfl
    · rw [← hcut]; exact s.clockRun_corrected depth h
    · exact s.clockRun_kept depth h
    · intro old cause changes
      have hrun : s.runAction i origin depth a = s.askState i (some target) cause depth := by
        rcases ha with ⟨code, rfl, hcode⟩ | ⟨rfl, rfl⟩
        · unfold State.runAction
          dsimp only
          rw [hcode]
          cases origin <;> rfl
        · cases origin <;> rfl
      rw [hrun]
      have hallows : changes → s.askState i (some target) cause depth = (s.goTo i target cause depth, made) := by
        rintro (h | ⟨hoff, rfl, hrest, hfit⟩)
        · obtain ⟨hallow, hon⟩ := ScreenState.allows_of_mem h
          exact State.askState_allowed _ depth hallow fun hoff => absurd hoff hon
        · refine State.askState_allowed _ depth ?_ fun _ => ⟨hrest, hfit⟩
          rw [show s.screenState i = .offline from hoff]
          rfl
      refine ⟨?_, fun hne hnot => ?_, fun h hlock => ?_, fun h hlost hplays => ?_⟩
      · rintro rfl
        exact State.askState_same ..
      · by_cases hallow : (s.screenState i).allows target = true
        · by_cases hoff : s.screenState i = .offline
          · rw [hoff, ScreenState.allows_offline] at hallow
            subst hallow
            by_cases hrest : s.ts.state = .restoring
            · rw [State.askState_restoring _ _ hoff hrest, if_neg fun h => h.2.2 hrest]
            · have hfit : s.freePages < s.bankNeed i (s.activeBank i) :=
                not_le.mp fun hfit => hnot (.inr ⟨hoff, rfl, hrest, hfit⟩)
              rw [State.askState_noSpace _ _ hoff hrest hfit, if_pos ⟨hoff, rfl, hrest⟩]
          · exact absurd (.inl ((ScreenState.allows_iff_mem hoff).mp hallow)) hnot
        · rw [State.askState_notAllowed _ _ hne (Bool.eq_false_iff.mpr hallow), if_neg]
          rintro ⟨hoff, rfl, -⟩
          exact hallow (by rw [show s.screenState i = .offline from hoff]; rfl)
      · refine ⟨_, hallows h, ?_⟩
        have hc := State.goTo_changes (s := s) (i := i) (target := target) cause depth hlock.symm
        refine ⟨hc.state, hc.others, hc.falls, hc.reports, ?_⟩
        dsimp only [trigger]
        split
        · next hd => exact hc.triggers hd
        · next hd => exact hc.cut (not_le.mp hd)
      · refine ⟨_, hallows h, ?_⟩
        have hon : s.screenState i ≠ .offline := by
          rcases h with hmem | ⟨-, rfl, -⟩
          · exact (ScreenState.allows_of_mem hmem).2
          · cases hplays
        have hc := State.goTo_safed (s := s) (i := i) (target := target) cause depth hlost hplays hon
        refine ⟨hc.state, hc.resume, hc.why, hc.others, hc.falls, hc.reports, ?_⟩
        dsimp only [trigger]
        split
        · next hd => exact hc.triggers hd
        · next hd => exact hc.cut (not_le.mp hd)
    · unfold State.runAction
      dsimp only
      rw [h]
      rfl
    · obtain ⟨ce, hce⟩ := s.runAction_depth i origin depth other a
      rw [hce]
      rfl
    · exact s.runAction_depthless i origin depth other h
    · exact s.runAction_silent i origin depth h

end Sys2Proof.Machine
end

section
/-!
PROOFS. What a RESET request and power-up leave (R20, R171, R181).
-/

namespace Sys2Proof.Machine

/-! ## What every block takes -/

/-- The parts of the screen and decode records after a reset; a screen its settings enable takes its state and its profile
(R20). -/
structure State.RestartedScreen (s t : State) (i : Fin 8) : Prop where
  state : t.screenState i = .offline ∨ t.screenState i = .idle
  idle : t.screenState i = .idle ↔ s.autoEnable i = true ∧ s.bankNeed i 0 +
    ((List.finRange 8).map fun j => if j < i ∧ t.screenState j = .idle then s.bankNeed j 0 else 0).sum ≤ 512
  record : t.sc.get i = { ScreenRecord.reset (s.levelPreset i 0) with state := t.screenState i }
  decode : ∃ fresh, t.de.get i = { DecodeRecord.reset (s.defaultFormat i) with
    current := if t.screenState i = .idle then some (s.formatMap i (s.defaultFormat i)) else none
    justEnabled := fresh }
  channels : ∀ c, ∃ pages, pages.length = (if t.screenState i = .idle then pageNeed (s.delay i 0 c) else 0) ∧
    (t.eq.channels.get i).get c = { EqChannel.cleared with pages := pages }

/-- The profile to be used right after a reset is the default format's: nothing is forced, and the accepted format is the
default one (R40). -/
theorem State.profileToUse_reset (s : State) (i : Fin 8) :
    (s.blocksReset.gather []).profileToUse i = s.formatMap i (s.defaultFormat i) := by
  have hde : (s.blocksReset.gather []).de.get i = .reset (s.defaultFormat i) := Tab.get_ofFn ..
  have hchosen : ((s.blocksReset.gather []).chosenFormat i).1 = s.defaultFormat i := by
    unfold State.chosenFormat
    rw [hde]
    dsimp only [DecodeRecord.reset]
    split <;> rfl
  rw [State.profileToUse, hchosen]
  rfl

theorem State.restart_screen (s : State) (i : Fin 8) : s.RestartedScreen s.restart i := by
  have hscreen (j : Fin 8) : (s.blocksReset.gather []).sc.get j = .reset (s.levelPreset j 0) := Tab.get_ofFn ..
  have hdecode : (s.blocksReset.gather []).de.get i = .reset (s.defaultFormat i) := Tab.get_ofFn ..
  have hchannel (j : Fin 8) (c : Fin 16) : ((s.blocksReset.gather []).eq.channels.get j).get c = .cleared :=
    (congrArg (Tab.get · c) (Tab.get_fill ..)).trans (Tab.get_fill ..)
  have hfree : (s.blocksReset.gather []).freePages = 512 := by
    simp only [State.freePages, State.gather, State.blocksReset, Equaliser.reset, List.length_finRange]
  have hprofile := s.profileToUse_reset i
  have hneed (j : Fin 8) : (s.blocksReset.gather []).bankNeed j 0 = s.bankNeed j 0 := rfl
  have hdelay (c : Fin 16) : (s.blocksReset.gather []).delay i 0 c = s.delay i 0 c := rfl
  have hauto : (s.blocksReset.gather []).autoEnable i = s.autoEnable i := rfl
  obtain ⟨-, hat⟩ := (s.blocksReset.gather []).autoEnableAll_spec
  have hfold := State.autoEnable_fold (List.finRange 8) (List.sortedLT_finRange 8).pairwise (s.blocksReset.gather [])
    fun j _ => ⟨congrArg ScreenRecord.state (hscreen j), congrArg ScreenRecord.activeBank (hscreen j), hchannel j⟩
  dsimp only at hfold
  rw [show (List.finRange 8).foldl State.autoEnableScreen (s.blocksReset.gather []) = s.restart from rfl] at hfold
  rw [show (s.blocksReset.gather []).autoEnableAll = s.restart from rfl] at hat
  obtain ⟨hstate, hidle, hup, hdown, hpages⟩ := hfold.1 i (List.mem_finRange i)
  simp only [hneed] at hidle
  simp only [hdelay] at hpages
  rw [hauto, hfree] at hidle
  rw [hprofile, hdecode] at hup
  rw [hdecode] at hdown
  have hsc := hat i
  unfold State.EnabledAt at hsc
  rw [hscreen] at hsc
  have hstateOf : s.restart.screenState i = (s.restart.sc.get i).state := rfl
  generalize s.restart = t at *
  refine ⟨hstate, hidle, ?_, ?_, hpages⟩
  · rw [hstateOf]
    rcases hsc with ⟨h, -⟩ | ⟨-, h, -⟩ <;> rw [h]
  · by_cases h : t.screenState i = .idle
    · rw [if_pos h]
      exact ⟨_, hup h⟩
    · rw [if_neg h]
      exact ⟨false, hdown h⟩

/-- The other blocks after a reset (R94, R98, R106, R118, R125, R142, R164, R181). -/
structure State.RestartedBlocks (s t : State) : Prop where
  ci : t.ci = ⟨[], [], [], false⟩
  ts : t.ts = { s.ts with state := .idle, elapsed := 0, requestTag := 0 }
  up : t.li.up = ⟨.lost, 0, 0⟩
  down : t.li.down = ⟨.lost, 0, 0⟩
  receiver : t.li.receiver = ⟨.hunt, []⟩
  sender : t.li.sender.message = []
  bl : t.bl = s.bl
  pool : t.poolWhole
  dips : ∀ i, t.eq.dips.get i = none
  window : t.os.window = 0
  gains : ∀ i, t.os.gains.get i = 0
  outputs : ∀ i c, let ch := (t.os.channels.get i).get c
    ch.peak = 0 ∧ ch.average = 0 ∧ ch.lastPeak = 0 ∧ ch.lastAverage = 0 ∧ ch.flight = [] ∧
      ch.protect.start = 32768 ∧ ch.protect.target = 32768 ∧ ch.protect.atRest = true ∧
      (t.am.targets.get i).get c = 32768 ∧ (t.am.lines.get i).get c = .unknown
  entries : ∀ e, t.am.entries.get e = ⟨.normal, false, false, 0, 0, .level 0, .skipped⟩
  slots : ∀ n, t.am.slots.get n = ⟨.unknown, 0⟩
  demands : ∀ n, t.am.demands.get n = false
  clocks : ∀ i, t.ct.clocks.get i = ⟨⟨0, 0, 0, 0⟩, 0, false, .r24, false⟩
  timers : ∀ i k, (t.ct.timers.get i).get k = ⟨.millisecond, 0, false, false, 0, 0, false, false⟩
  triggers : t.ce.triggers = []
  overrun : t.ce.overrun = false
  cues : ∀ e, t.ce.cues.get e = ⟨s.cueEnabled e, false⟩

theorem State.restart_blocks (s : State) : s.RestartedBlocks s.restart := by
  have hun := s.restart_unenabled
  have hpool := s.restart_poolWhole
  have hli : s.restart.li = (s.blocksReset.gather []).li := State.outer_li (State.unenabled_outer hun)
  have hos : s.restart.os = .reset := State.unenabled_os hun
  have ham : s.restart.am = .reset := State.unenabled_am hun
  have hct : s.restart.ct = .reset := State.unenabled_ct hun
  have hce : s.restart.ce = ⟨[], .ofFn s.armedAsStored, false⟩ := State.unenabled_ce hun
  have hdips : s.restart.eq.dips = .fill 8 none := State.unenabled_dips hun
  have hts : s.restart.ts = { s.ts with state := .idle, elapsed := 0, requestTag := 0 } :=
    State.outer_ts (State.unenabled_outer hun)
  have hbl : s.restart.bl = s.bl := (State.unenabled_bl hun).trans rfl
  have hci := s.restart_ci
  generalize s.restart = t at *
  exact {
    ci := hci
    ts := hts
    up := by rw [hli]; rfl
    down := by rw [hli]; rfl
    receiver := by rw [hli]; rfl
    sender := by rw [hli]; rfl
    bl := hbl
    pool := hpool
    dips := fun i => by rw [hdips, Tab.get_fill]
    window := by rw [hos]; rfl
    gains := fun i => by rw [hos]; exact Tab.get_fill ..
    outputs := fun i c => by
      have hchannel : (OutputStage.reset.channels.get i).get c = .reset :=
        (congrArg (Tab.get · c) (Tab.get_fill ..)).trans (Tab.get_fill ..)
      have htarget : (AlarmMonitor.reset.targets.get i).get c = 32768 :=
        (congrArg (Tab.get · c) (Tab.get_fill ..)).trans (Tab.get_fill ..)
      have hline : (AlarmMonitor.reset.lines.get i).get c = .unknown :=
        (congrArg (Tab.get · c) (Tab.get_fill ..)).trans (Tab.get_fill ..)
      rw [hos, ham, hchannel, htarget, hline]
      exact ⟨rfl, rfl, rfl, rfl, rfl, rfl, rfl, rfl, rfl, rfl⟩
    entries := fun e => by rw [ham]; exact Tab.get_fill ..
    slots := fun n => by rw [ham]; exact Tab.get_fill ..
    demands := fun n => by rw [ham]; exact Tab.get_fill ..
    clocks := fun i => by rw [hct]; exact Tab.get_fill ..
    timers := fun i k => by rw [hct]; exact (congrArg (Tab.get · k) (Tab.get_fill ..)).trans (Tab.get_fill ..)
    triggers := by rw [hce]
    overrun := by rw [hce]
    cues := fun e => by rw [hce]; exact Tab.get_ofFn .. }

section Fields

variable {s t : State} {i : Fin 8} (h : s.RestartedScreen t i)
include h

theorem State.RestartedScreen.ramps : (t.sc.get i).resume = none ∧ (t.sc.get i).cause = none ∧
    (t.sc.get i).activeBank = 0 ∧ (t.sc.get i).pendingApply = none ∧
    (t.sc.get i).fader = ⟨s.levelPreset i 0, s.levelPreset i 0, 256, 256⟩ ∧
    (t.sc.get i).mute = ⟨32768, 32768, 256, 256⟩ ∧ (t.sc.get i).safeRamp = ⟨32768, 32768, 64, 64⟩ ∧
    (t.sc.get i).dip = ⟨32768, 32768, 256, 256⟩ := by
  rw [h.record]
  exact ⟨rfl, rfl, rfl, rfl, rfl, rfl, rfl, rfl⟩

theorem State.RestartedScreen.formats : (t.de.get i).accepted = s.defaultFormat i ∧ (t.de.get i).candidate = none ∧
    (t.de.get i).forced = none ∧ (t.de.get i).current =
      (if t.screenState i = .idle then some (s.formatMap i (s.defaultFormat i)) else none) ∧
    (t.de.get i).incoming = none ∧ (t.de.get i).pending = none ∧ (t.de.get i).envL = 0 ∧
    (t.de.get i).envR = 0 ∧ (t.de.get i).envS = 0 ∧ (t.de.get i).envD = 0 ∧ (t.de.get i).steering = 0 := by
  obtain ⟨fresh, hde⟩ := h.decode
  rw [hde]
  exact ⟨rfl, rfl, rfl, rfl, rfl, rfl, rfl, rfl, rfl, rfl, rfl⟩

theorem State.RestartedScreen.lines (c : Fin 16) : let ch := (t.eq.channels.get i).get c
    ch.pages.length = (if t.screenState i = .idle then pageNeed (s.delay i 0 c) else 0) ∧ ch.line = [] ∧
      ∀ k, ch.sections.get k = ⟨0, 0, 0, 0⟩ := by
  obtain ⟨pages, hlen, hch⟩ := h.channels c
  intro ch
  have hch : ch = _ := hch
  rw [hch]
  exact ⟨hlen, rfl, fun k => Tab.get_fill ..⟩

end Fields

/-! ## The RESET request -/

theorem State.anyPlaying_iff (s : State) :
    s.anyPlaying = true ↔ ∃ i, s.screenState i = .preshow ∨ s.screenState i = .feature := by
  rw [State.anyPlaying, List.any_eq_true]
  exact ⟨fun ⟨i, _, h⟩ => ⟨i, (State.playing_iff s i).mp h⟩, fun ⟨i, h⟩ => ⟨i, List.mem_finRange i, (State.playing_iff s i).mpr h⟩⟩

/-- Settles O57: a RESET request restarts the blocks with the booth lines settled, and its reply is the only one. -/
theorem resetRestartsEveryBlock : Obligations.ResetRestartsEveryBlock := by
  intro s tag hs
  have hexec : exec (.reset tag) s = .next (State.answer s.requestReset tag) := exec_ready (c := .reset tag) rfl hs
  refine ⟨fun h => ?_, fun h => ?_⟩
  · rw [hexec, State.requestReset, if_pos ((s.anyPlaying_iff).mpr h)]
    rfl
  · have hnone : ¬s.anyPlaying = true := fun hp => by
      obtain ⟨i, hi⟩ := (s.anyPlaying_iff).mp hp
      exact hi.elim (h i).1 (h i).2
    rw [State.requestReset, if_neg hnone] at hexec
    have hblocks := State.restart_blocks { s with bl := s.bl.restarted }
    have hscreens := State.restart_screen { s with bl := s.bl.restarted }
    rw [show State.restart { s with bl := s.bl.restarted } = s.resetAll from rfl] at hblocks hscreens
    generalize s.resetAll = t at hexec hblocks hscreens
    refine ⟨_, hexec, ?_, hblocks.ts, hblocks.up, hblocks.down, hblocks.receiver, hblocks.sender,
      fun i => (hscreens i).state, fun i => (hscreens i).idle, fun i => (hscreens i).ramps, fun i => (hscreens i).formats,
      hblocks.pool, fun i => (hscreens i).lines, hblocks.dips, hblocks.window, hblocks.gains, hblocks.outputs,
      hblocks.entries, hblocks.slots, hblocks.demands, hblocks.clocks, hblocks.timers, fun n => ?_, fun n => ?_, ?_, ?_,
      hblocks.triggers, hblocks.overrun, hblocks.cues⟩
    · exact (congrArg (fun ci : Interpreter => ({ ci with replies := ci.replies ++ [⟨tag, .ok, []⟩] } : Interpreter))
        hblocks.ci).trans rfl
    · exact (congrArg (Tab.get · n) (congrArg BoothLines.outputs hblocks.bl)).trans (Tab.get_fill ..)
    · exact (congrArg (Tab.get · n) (congrArg BoothLines.inputs hblocks.bl)).trans (Tab.get_map ..)
    · exact congrArg BoothLines.key hblocks.bl
    · exact congrArg BoothLines.sampling hblocks.bl

/-! ## Power-up -/

theorem State.word_empty {s : State} (h : s.ts.words = []) (page word : Nat) : s.word page word = 0 := by
  rw [State.word, h]
  rfl

theorem State.autoEnable_empty {s : State} (h : s.ts.words = []) (i : Fin 8) : s.autoEnable i = false := by
  rw [State.autoEnable, State.setting, State.word_empty h]
  rfl

theorem State.levelPreset_empty {s : State} (h : s.ts.words = []) (i p : Fin 8) : s.levelPreset i p = 0 := by
  rw [State.levelPreset, State.setting, State.word_empty h]
  rfl

/-! What is read of the store goes over with its words. -/

section Words

variable {s t : State} (h : t.ts.words = s.ts.words)
include h

theorem State.word_congr : t.word = s.word := by
  unfold State.word
  rw [h]

theorem State.autoEnable_congr : t.autoEnable = s.autoEnable := by
  unfold State.autoEnable State.setting
  rw [State.word_congr h]

theorem State.levelPreset_congr : t.levelPreset = s.levelPreset := by
  unfold State.levelPreset State.setting
  rw [State.word_congr h]

theorem State.defaultFormat_congr : t.defaultFormat = s.defaultFormat := by
  unfold State.defaultFormat State.setting
  rw [State.word_congr h]

theorem State.formatMap_congr : t.formatMap = s.formatMap := by
  unfold State.formatMap State.setting
  rw [State.word_congr h]

theorem State.cueEnabled_congr : t.cueEnabled = s.cueEnabled := by
  unfold State.cueEnabled State.cueWord
  rw [State.word_congr h]

theorem State.bankNeed_congr : t.bankNeed = s.bankNeed := by
  unfold State.bankNeed
  simp only [State.delay_congr h]

theorem State.RestartedScreen.congr {u : State} {i : Fin 8} (hs : s.RestartedScreen u i) : t.RestartedScreen u i where
  state := hs.state
  idle := by rw [State.autoEnable_congr h, State.bankNeed_congr h]; exact hs.idle
  record := by rw [State.levelPreset_congr h]; exact hs.record
  decode := by rw [State.defaultFormat_congr h, State.formatMap_congr h]; exact hs.decode
  channels := fun c => by rw [State.delay_congr h]; exact hs.channels c

end Words

/-- Settles O58: power-up restarts the blocks on the loaded store with the lines taken. -/
theorem powerUpLoadsTheImage : Obligations.PowerUpLoadsTheImage := by
  intro s lines keyLocked
  let start : State := { s with li := .reset, ts := s.ts.loaded, bl := .powered lines keyLocked }
  have hblocks := start.restart_blocks
  have hscreens := start.restart_screen
  have hexec : exec (.powerUp lines keyLocked) s = .next start.restart := rfl
  have hvalid : s.ts.image.valid = true →
      start.ts = { s.ts with words := s.ts.image.pages, imageValid := true, startOrigin := .restored } := fun h => if_pos h
  have hinvalid : s.ts.image.valid = false →
      start.ts = { s.ts with words := [], imageValid := false, startOrigin := .defaults } := fun h =>
    if_neg (Bool.eq_false_iff.mp h)
  have himage : start.ts.image = s.ts.image := by
    cases h : s.ts.image.valid
    · rw [hinvalid h]
    · rw [hvalid h]
  have hmark : start.ts.imageValid = s.ts.image.valid := by
    cases h : s.ts.image.valid
    · rw [hinvalid h]
    · rw [hvalid h]
  generalize start.restart = t at hblocks hscreens hexec
  have hbl : t.bl = .powered lines keyLocked := hblocks.bl
  have hwords : t.ts.words = start.ts.words := (congrArg TableStore.words hblocks.ts).trans rfl
  clear_value start
  replace hscreens (i : Fin 8) : t.RestartedScreen t i := (hscreens i).congr hwords
  have hcues (e : Fin 256) : t.ce.cues.get e = ⟨t.cueEnabled e, false⟩ := by
    rw [State.cueEnabled_congr hwords]; exact hblocks.cues e
  have hts := hblocks.ts
  refine ⟨t, hexec, ?_, congrArg TableStore.state hts, congrArg TableStore.elapsed hts, ?_, fun h => ?_, fun h => ?_,
    hblocks.ci, hblocks.up, hblocks.down, hblocks.receiver, hblocks.sender,
    fun n => ?_, congrArg BoothLines.key hbl, fun n => ?_, fun h i => ?_, fun i => (hscreens i).state,
    fun i => (hscreens i).idle, hblocks.pool, fun i => (hscreens i).lines, fun i => (hscreens i).ramps,
    fun i => (hscreens i).formats, hblocks.dips, hblocks.window, hblocks.gains, hblocks.outputs,
    hblocks.entries, hblocks.slots, hblocks.demands, hblocks.clocks, hblocks.timers, hblocks.triggers, hblocks.overrun, hcues⟩
  · exact (congrArg TableStore.image hts).trans himage
  · exact (congrArg TableStore.imageValid hts).trans hmark
  · rw [hts, hvalid h]
    exact ⟨rfl, rfl⟩
  · rw [hts, hinvalid h]
    exact ⟨rfl, rfl⟩
  · rw [hbl]
    exact Tab.get_ofFn ..
  · rw [hbl]
    exact Tab.get_fill ..
  · have hempty : t.ts.words = [] := hwords.trans (congrArg TableStore.words (hinvalid h))
    refine ⟨(hscreens i).state.resolve_right fun hidle => ?_, ?_⟩
    · have hauto := ((hscreens i).idle.mp hidle).1
      rw [State.autoEnable_empty hempty] at hauto
      cases hauto
    · obtain ⟨-, -, -, -, hfader, -⟩ := (hscreens i).ramps
      rw [hfader, State.levelPreset_empty hempty]

end Sys2Proof.Machine
end

section
/-!
PROOFS. The table store: writes and reads, preserve and restore (R42, R115, R133, R141, R146, R167 to R173).
-/

namespace Sys2Proof.Machine

/-! ## What follows a replacement of the words -/

/-- A screen with a DESCRIPTOR entry mapped, of the words of page 0. -/
theorem State.putWords_formats {s t : State} {words : Memory} (hde : t.de = (s.putWords words).de)
    (hwords : t.ts.words = words) (i : Fin 8) :
    let descriptor (u : State) : Prop := ∃ n : Fin 128,
      field (u.word 0 n.val) 0 2 = 2 ∧ field (u.word 0 n.val) 4 3 = i.val
    (descriptor s ∨ ¬descriptor t → t.de.get i = s.de.get i) ∧
      (¬descriptor s → descriptor t → t.de.get i =
        { s.de.get i with accepted := index 16 (field (t.word 1 (32 * i.val + 1)) 0 4) }) := by
  intro descriptor
  obtain ⟨de, inputs, hput, hformats, -⟩ := s.putWords_spec words
  have hsame : t.ts.words = (s.putWords words).ts.words := by rw [hwords, State.putWords_ts]
  have hword : t.word = (s.putWords words).word := State.word_congr hsame
  have hbefore : s.descriptorMapped i = true ↔ descriptor s := s.descriptorMapped_iff i
  have hafter : (s.putWords words).descriptorMapped i = true ↔ descriptor t := by
    rw [State.descriptorMapped_iff, ← hword]
  have hget : t.de.get i = de.get i := by rw [hde, hput]
  have hdefault : (s.putWords words).defaultFormat i = index 16 (field (t.word 1 (32 * i.val + 1)) 0 4) := by
    rw [hword]
    rfl
  rw [hget, hformats, hdefault]
  refine ⟨fun h => if_neg ?_, fun h1 h2 => if_pos ⟨Bool.eq_false_iff.mpr (mt hbefore.mp h1), hafter.mpr h2⟩⟩
  rintro ⟨h1, h2⟩
  exact h.elim (fun h => absurd (hbefore.mpr h) (Bool.eq_false_iff.mp h1)) fun h => h (hafter.mp h2)

/-! ## Preserve and restore -/

theorem mem_writtenAlarms {a n : Nat} (hn : 0 < n) (e : Fin 256) :
    e ∈ writtenAlarms a n ↔ ∃ k, k < 4 ∧ a ≤ 19 * 256 + 4 * e.val + k ∧ 19 * 256 + 4 * e.val + k < a + n := by
  rw [writtenAlarms, List.mem_filter, meets_iff _ _ _ _ hn (by decide)]
  simp [address, Nat.mul_comm]

theorem mem_writtenCues {a n : Nat} (hn : 0 < n) (e : Fin 256) :
    e ∈ writtenCues a n ↔ ∃ k, k < 4 ∧ a ≤ 23 * 256 + 4 * e.val + k ∧ 23 * 256 + 4 * e.val + k < a + n := by
  rw [writtenCues, List.mem_filter, meets_iff _ _ _ _ hn (by decide)]
  simp [address, Nat.mul_comm]

theorem mem_writtenOutputs {a n : Nat} (hn : 0 < n) (l : Fin 16) :
    l ∈ writtenOutputs a n ↔ ∃ k, k < 2 ∧ a ≤ 27 * 256 + 16 + 2 * l.val + k ∧ 27 * 256 + 16 + 2 * l.val + k < a + n := by
  have haddress : address 27 (16 + 2 * l.val) = 27 * 256 + 16 + 2 * l.val := by
    unfold address
    omega
  rw [writtenOutputs, List.mem_filter, meets_iff _ _ _ _ hn (by decide), haddress]
  exact and_iff_right (List.mem_finRange l)

theorem State.allOffline_iff (s : State) : s.allOffline = true ↔ ∀ i, s.screenState i = .offline := by
  simp [State.allOffline]

/-- What a restore of a valid image leaves beside the words (R173). -/
theorem State.restored_spec (s : State) (words : Memory) :
    let t := (s.putWords words).followWrite 0 15360
    (∀ e, t.am.entries.get e = .reset) ∧ (∀ n, t.am.demands.get n = false) ∧
      (∀ i c, (t.am.targets.get i).get c = 32768 ∧ (t.os.channels.get i).get c =
        ((s.os.channels.get i).get c).protectTake 32768) ∧
      (∀ e, t.ce.cues.get e = ⟨(s.putWords words).cueEnabled e, false⟩) ∧
      (∀ n, t.bl.outputs.get n = ⟨.low, .pulses 0, 0, false⟩) ∧ t.de = (s.putWords words).de ∧
      (∀ n : Fin 16, (t.bl.inputs.get n).raw = (s.bl.inputs.get n).raw ∧
        (t.bl.inputs.get n).stable = (s.bl.inputs.get n).stable ∧ (t.bl.inputs.get n).run = (s.bl.inputs.get n).run) ∧
      t.bl.key = s.bl.key := by
  intro t
  have halarm (e : Fin 256) : e ∈ writtenAlarms 0 15360 :=
    (mem_writtenAlarms (by decide) e).mpr ⟨0, by decide, Nat.zero_le _, by omega⟩
  have hcue (e : Fin 256) : e ∈ writtenCues 0 15360 :=
    (mem_writtenCues (by decide) e).mpr ⟨0, by decide, Nat.zero_le _, by omega⟩
  have hline (n : Fin 16) : n ∈ writtenOutputs 0 15360 :=
    (mem_writtenOutputs (by decide) n).mpr ⟨0, by decide, Nat.zero_le _, by omega⟩
  obtain ⟨de, inputs, hput, -, hinputs⟩ := s.putWords_spec words
  obtain ⟨-, -, -, hde, -, -, hkept, -, hentries, hdemands, hcues, houtputs⟩ :=
    State.followWrite_spec 0 15360 (s.putWords words)
  obtain ⟨-, -, -, hkey, -, -, hfollow⟩ := State.followWrite_follow 0 15360 (s.putWords words)
  obtain ⟨htargets, -, -, -, hchannels⟩ := hfollow (List.ne_nil_of_mem (halarm 0))
  change t.de = _ at hde
  change t.bl.inputs = _ at hkept
  change t.bl.key = _ at hkey
  change ∀ e, t.am.entries.get e = _ at hentries
  change t.targetsFollow at htargets
  have hreset (e : Fin 256) : t.am.entries.get e = .reset := by rw [hentries, if_pos (halarm e)]
  have hunity (i : Fin 8) (c : Fin 16) : (t.am.targets.get i).get c = 32768 := by
    obtain ⟨-, h | ⟨e, htrip, -⟩⟩ := htargets i c
    · exact h
    · rw [hreset] at htrip
      cases htrip
  refine ⟨hreset, hdemands halarm, fun i c => ⟨hunity i c, ?_⟩, fun e => ?_, fun n => ?_, hde, fun n => ?_,
    hkey.trans (by rw [hput])⟩
  · rw [← hunity i c]
    exact hchannels i c
  · exact (hcues e).trans (if_pos (hcue e))
  · exact (houtputs n).trans (if_pos (hline n))
  · have hn : t.bl.inputs.get n = (s.bl.inputs.get n).rewritten (s.debounced n) ((s.putWords words).debounced n) := by
      rw [hkept, ← hinputs n, hput]
    rw [hn]
    exact ⟨rfl, rfl, rfl⟩

/-- Settles O56: each request's checks in their order, and each completion by the image's mark. -/
theorem preserveAndRestoreBeginAndComplete : Obligations.PreserveAndRestoreBeginAndComplete := by
  refine ⟨fun s tag hs => ?_, fun s hstate helapsed => ?_, fun s hstate helapsed hbad => ?_,
    fun s hstate helapsed hvalid => ?_⟩
  · have hpreserve : exec (.preserve tag) s = .next (State.answer (s.requestPreserve tag) tag) :=
      exec_ready (c := .preserve tag) rfl hs
    have hrestore : exec (.restore tag) s = .next (State.answer (s.requestRestore tag) tag) :=
      exec_ready (c := .restore tag) rfl hs
    have hlocked : s.keyLocked = s.bl.key.stable := rfl
    rw [hpreserve, hrestore, State.requestPreserve, State.requestRestore, hlocked]
    refine ⟨fun h => ?_, fun h hbusy => ?_, fun h hidle => ?_, fun hbusy => ?_, fun hidle hon => ?_, fun hidle hoff => ?_⟩
    · rw [if_pos h]; rfl
    · rw [if_neg (Bool.eq_false_iff.mp h), if_pos hbusy]; rfl
    · rw [if_neg (Bool.eq_false_iff.mp h), if_neg (not_not.mpr hidle)]; rfl
    · rw [if_pos hbusy]; rfl
    · obtain ⟨i, hi⟩ := hon
      have hnot : s.allOffline = false := Bool.eq_false_iff.mpr fun h => hi (s.allOffline_iff.mp h i)
      rw [if_neg (not_not.mpr hidle), hnot]; rfl
    · rw [if_neg (not_not.mpr hidle), s.allOffline_iff.mpr hoff]; rfl
  · have hended : s.preserveEnded = true := by rw [State.preserveEnded, hstate, helapsed]; rfl
    refine ⟨.ofStore s.ts.words, congrArg Host.Outcome.next (if_pos hended), rfl, ?_⟩
    simp [Image.valid, Image.check, Image.ofStore]
  · have hended : s.restoreEnded = true := by rw [State.restoreEnded, hstate, helapsed]; rfl
    have hexec : exec .restoreComplete s = .next s.completeRestore := congrArg Host.Outcome.next (if_pos hended)
    rw [hexec, State.completeRestore, hbad]
    rfl
  · intro descriptor
    have hended : s.restoreEnded = true := by rw [State.restoreEnded, hstate, helapsed]; rfl
    have hexec : exec .restoreComplete s = .next s.completeRestore := congrArg Host.Outcome.next (if_pos hended)
    obtain ⟨-, hli, hci, hsc, hct, htriggers, hts, heq⟩ := s.loadWords_frame s.ts.image.pages 0 15360
    obtain ⟨hentries, hdemands, hchannels, hcues, houtputs, hde, hinputs, hkey⟩ := s.restored_spec s.ts.image.pages
    have hcomplete : s.completeRestore = State.queueReport
        { (s.putWords s.ts.image.pages).followWrite 0 15360 with ts :=
          { ((s.putWords s.ts.image.pages).followWrite 0 15360).ts with
            imageValid := true, state := .idle, elapsed := 0, requestTag := 0 } } (.store true false s.ts.requestTag true) := by
      rw [State.completeRestore, hvalid]
      rfl
    rw [hcomplete] at hexec
    generalize (s.putWords s.ts.image.pages).followWrite 0 15360 = x at *
    obtain ⟨mid, hmid⟩ : ∃ mid, mid = { x with ts := { x.ts with
      imageValid := true, state := .idle, elapsed := 0, requestTag := 0 } } := ⟨_, rfl⟩
    rw [← hmid] at hexec
    have hsilent := mid.silent_queueReport (.store true false s.ts.requestTag true)
    have hqci := State.queueReports_ci (s := s) (t := mid) (by rw [hmid]; exact hci) [.store true false s.ts.requestTag true]
    have hqce := mid.queueReports_ce [.store true false s.ts.requestTag true]
    change (mid.queueReport _).ci = (s.queueReport _).ci at hqci
    change (mid.queueReport _).ce = _ at hqce
    have htsMid : mid.ts = { s.ts with
        words := s.ts.image.pages, imageValid := true, state := .idle, elapsed := 0, requestTag := 0 } := by
      rw [hmid]
      dsimp only
      rw [hts]
    have htsAll := (State.outer_ts (congrArg Silent.outer hsilent)).trans htsMid
    have hcuesWords (e : Fin 256) : mid.cueEnabled e = (s.putWords s.ts.image.pages).cueEnabled e := by
      rw [State.cueEnabled_congr (s := s.putWords s.ts.image.pages) (t := mid)]
      rw [htsMid, State.putWords_ts]
    generalize hq : mid.queueReport (.store true false s.ts.requestTag true) = t at *
    have ham : t.am = x.am := by rw [State.silent_am hsilent, hmid]
    have hos : t.os = x.os := by rw [State.silent_os hsilent, hmid]
    have hbl : t.bl = x.bl := by rw [State.silent_bl hsilent, hmid]
    have hdet : t.de = x.de := by rw [State.silent_de hsilent, hmid]
    have hce : t.ce = x.ce := by rw [hqce, hmid]
    have hcueT : t.cueEnabled = mid.cueEnabled := State.cueEnabled_congr (by rw [htsAll, htsMid])
    refine ⟨t, hexec, htsAll, ?_, ?_, ?_, ?_, ?_, ?_, ?_, ?_, hqci, ?_, ?_, ?_, ?_, ?_⟩
    · rw [ham]; exact hentries
    · rw [ham]; exact hdemands
    · rw [ham, hos]; exact hchannels
    · intro e
      rw [hce, hcueT, hcuesWords]
      exact hcues e
    · rw [hbl]; exact houtputs
    · exact State.putWords_formats (hdet.trans hde) (congrArg TableStore.words htsAll)
    · rw [hbl]; exact hinputs
    · rw [hbl]; exact hkey
    · rw [State.silent_sc hsilent, hmid]; exact hsc
    · rw [State.silent_eq hsilent, hmid]; exact heq
    · rw [State.silent_ct hsilent, hmid]; exact hct
    · rw [State.outer_li (congrArg Silent.outer hsilent), hmid]; exact hli
    · rw [hce]; exact htriggers

end Sys2Proof.Machine
end

section
/-!
PROOFS. An accepted TABLE WRITE (R42, R69, R115, R133, R141, R146, R170).
-/

namespace Sys2Proof.Machine

theorem recordAddress_eq (i : Fin 8) (b : Fin 2) (c : Fin 16) :
    recordAddress i b c + 30 = 256 * (28 + 4 * i.val + 2 * b.val + c.val / 8) + 32 * (c.val % 8) + 30 := rfl

section Write

variable (s : State) (a : Nat) (data : List Word)

/-- Beyond the words, what the blocks that own them take follows the words replaced and the pages exchanged. -/
theorem State.writeRun_follows : ∃ x, s.writeRun a data = x.followWrite a data.length ∧
    x.unpaged = (s.putWords (s.ts.words.writeRun a data)).unpaged ∧
    x = (s.putWords (s.ts.words.writeRun a data)).reallocate (s.writtenDelays a data) :=
  ⟨_, rfl, State.unpaged_reallocate _ _, rfl⟩

variable {s a data}

/-- A channel whose delay in force the run writes, with the need it comes to have (R69). -/
theorem State.writeRun_channel (hwf : s.ts.words.wf = true) (hfit : s.delaysFit (s.writtenDelays a data) = true)
    (i : Fin 8) (c : Fin 16) :
    let at_ := recordAddress i (s.activeBank i) c + 30
    let old := (s.eq.channels.get i).get c
    let new := ((s.writeRun a data).eq.channels.get i).get c
    let need := pageNeed ((s.writeRun a data).delay i (s.activeBank i) c)
    let changes : Prop := s.screenState i ≠ .offline ∧ a ≤ at_ ∧ at_ < a + data.length
    (¬changes ∨ need = old.pages.length → new = old) ∧
      (changes → need < old.pages.length → new = { old with pages := old.pages.take need, line := [] }) ∧
      (changes → old.pages.length < need → ∃ given, given.length = need - old.pages.length ∧
        new = { old with pages := old.pages ++ given, line := [] }) := by
  intro at_ old new need changes
  obtain ⟨x, hx, -, hreallocated⟩ := s.writeRun_follows a data
  obtain ⟨-, -, -, -, heq, -⟩ := State.followWrite_spec a data.length x
  obtain ⟨hat, hother, -⟩ := State.reallocate_spec (s.putWords (s.ts.words.writeRun a data)) (s.writtenDelays a data)
    (s.writtenDelays_places a data) hfit
  rw [← hreallocated] at hat hother
  have hnew : new = x.eqAt (i, c) := by
    change ((s.writeRun a data).eq.channels.get i).get c = (x.eq.channels.get i).get c
    rw [hx, heq]
  have hneed : changes → need = pageNeed (delayOf (data.getD (at_ - a) 0)) := fun h => by
    change pageNeed ((s.writeRun a data).delay i (s.activeBank i) c) = _
    rw [State.delay_writeRun hwf, if_pos h.2]
  rw [hnew]
  by_cases h : changes
  · have hmem := (s.mem_writtenDelays a data ⟨i, c, need⟩).mpr ⟨h.1, h.2.1, h.2.2, hneed h⟩
    obtain ⟨hsame, hless, hmore⟩ := hat _ hmem
    exact ⟨fun hn => hsame (hn.resolve_left (not_not.mpr h)), fun _ => hless, fun _ => hmore⟩
  · refine ⟨fun _ => hother (i, c) fun hmem => ?_, fun hc => absurd hc h, fun hc => absurd hc h⟩
    obtain ⟨w, hw, hplace⟩ := List.mem_map.mp hmem
    obtain ⟨hon, hlow, hhigh, -⟩ := (s.mem_writtenDelays a data w).mp hw
    obtain ⟨rfl, rfl⟩ := Prod.mk.inj hplace
    exact h ⟨hon, hlow, hhigh⟩

end Write

theorem writtenAlarms_nil_iff {a n : Nat} (hn : 0 < n) :
    writtenAlarms a n ≠ [] ↔ ∃ k, k < 1024 ∧ a ≤ 19 * 256 + k ∧ 19 * 256 + k < a + n := by
  refine ⟨fun h => ?_, fun ⟨k, hk, hlow, hhigh⟩ => ?_⟩
  · obtain ⟨e, he⟩ := List.exists_mem_of_ne_nil _ h
    obtain ⟨k, hk, hlow, hhigh⟩ := (mem_writtenAlarms hn e).mp he
    exact ⟨4 * e.val + k, by omega, by omega, by omega⟩
  · refine List.ne_nil_of_mem ((mem_writtenAlarms hn ⟨k / 4, by omega⟩).mpr ⟨k % 4, by omega, ?_, ?_⟩) <;> dsimp only <;>
      omega

/-- Settles O54: the run's effects by the words it meets. -/
theorem tableWriteWritesTheRun : Obligations.TableWriteWritesTheRun := by
  intro s tag page word data hs hwf hne a written alarmsWritten descriptor hok
  have hn : 0 < data.length := List.length_pos_iff.mpr hne
  have hexec : exec (.tableWrite tag page word data) s = .next (State.answer (s.tableWrite page word data) tag) :=
    exec_ready (c := .tableWrite tag page word data) rfl hs
  have hwrite : s.tableWrite page word data = (s.writeRun a data, .ok) := by
    unfold State.tableWrite
    rw [hok]
    rfl
  rw [hwrite] at hexec
  have hfit : s.delaysFit (s.writtenDelays a data) = true := State.delaysFit_of_ok hok
  obtain ⟨-, hli, hci, hsc, hct, htriggers, hts⟩ := s.writeRun_frame a data
  have hchannel := State.writeRun_channel (s := s) (a := a) (data := data) hwf hfit
  have hpool := State.writeRun_pool hfit
  obtain ⟨x, hx, hun, -⟩ := s.writeRun_follows a data
  obtain ⟨de, inputs, hput, -, hinputs⟩ := s.putWords_spec (s.ts.words.writeRun a data)
  obtain ⟨-, -, -, hde, heq, -, hin, -, hentries, -, hcues, houtputs⟩ := State.followWrite_spec a data.length x
  obtain ⟨hslots, hlines, hoverrun, hkey, hsampling, hquiet, hfollow⟩ := State.followWrite_follow a data.length x
  rw [← hx] at hde heq hin hentries hcues houtputs hslots hlines hoverrun hkey hsampling hquiet hfollow
  have ham : x.am = s.am := (State.unpaged_am hun).trans (s.putWords_am _)
  have hos : x.os = s.os := (State.unpaged_os hun).trans (s.putWords_os _)
  have hce : x.ce = s.ce := (State.unpaged_ce hun).trans (s.putWords_ce _)
  have hbl : x.bl = (s.putWords (s.ts.words.writeRun a data)).bl := State.unpaged_bl hun
  have hxts : x.ts = (s.putWords (s.ts.words.writeRun a data)).ts := State.outer_ts (State.unpaged_outer hun)
  have hdips : x.eq.dips = s.eq.dips := (State.unpaged_dips hun).trans (congrArg Equaliser.dips (s.putWords_eq _))
  have hdeput := hde.trans (State.unpaged_de hun)
  have hformats := State.putWords_formats hdeput (congrArg TableStore.words hts)
  have hread (b : Nat) := Memory.read_writeRun hwf a data b
  generalize s.writeRun a data = t at *
  have halarms : writtenAlarms a data.length ≠ [] ↔ alarmsWritten := writtenAlarms_nil_iff hn
  have hcue (e : Fin 256) : x.armedAsStored e = ⟨t.cueEnabled e, false⟩ := by
    rw [State.armedAsStored, State.cueEnabled_congr (s := x) (t := t)]
    rw [hxts, hts, State.putWords_ts]
  have hdelayWord (i : Fin 8) (c : Fin 16) :
      written (256 * (28 + 4 * i.val + 2 * (s.activeBank i).val + c.val / 8) + 32 * (c.val % 8) + 30) 1 ↔
        a ≤ recordAddress i (s.activeBank i) c + 30 ∧ recordAddress i (s.activeBank i) c + 30 < a + data.length := by
    rw [recordAddress_eq]
    refine ⟨fun ⟨k, hk, h⟩ => ?_, fun h => ⟨0, by decide, h⟩⟩
    obtain rfl : k = 0 := by omega
    exact h
  refine ⟨_, hexec, fun b => ?_, fun e => ⟨fun h => ?_, fun h => ?_⟩, ?_, ?_, fun h => ?_, fun h => ?_,
    fun e => ⟨fun h => ?_, fun h => ?_⟩, fun n => ⟨fun h => ?_, fun h => ?_⟩, fun i c => ?_, ?_, hformats, fun n => ?_,
    ?_, ?_, ?_, hsc, hct, hli, ?_, htriggers, ?_, ?_, ?_⟩
  · exact (congrArg (fun ts => ts.words.read b) hts).trans (hread b)
  · exact (hentries e).trans (if_pos ((mem_writtenAlarms hn e).mpr h))
  · exact ((hentries e).trans (if_neg (mt (mem_writtenAlarms hn e).mp h))).trans (by rw [ham])
  · exact hslots.trans (by rw [ham])
  · exact hlines.trans (by rw [ham])
  · rw [hos] at hfollow
    exact hfollow (halarms.mpr h)
  · obtain ⟨h1, h2⟩ := hquiet (not_not.mp (mt halarms.mp h))
    exact ⟨h1.trans ham, h2.trans hos⟩
  · exact ((hcues e).trans (if_pos ((mem_writtenCues hn e).mpr h))).trans (hcue e)
  · exact ((hcues e).trans (if_neg (mt (mem_writtenCues hn e).mp h))).trans (by rw [hce])
  · exact (houtputs n).trans (if_pos ((mem_writtenOutputs hn n).mpr h))
  · exact ((houtputs n).trans (if_neg (mt (mem_writtenOutputs hn n).mp h))).trans (by rw [hbl, State.putWords_outputs])
  · have h := hchannel i c
    dsimp only at h
    rw [← hdelayWord i c] at h
    exact h
  · exact hpool
  · intro d
    have hget : t.bl.inputs.get n = d.rewritten (s.debounced n) ((s.putWords (s.ts.words.writeRun a data)).debounced n) := by
      rw [hin, hbl, ← hinputs n, hput]
    have hwords : t.word = (s.putWords (s.ts.words.writeRun a data)).word :=
      State.word_congr (by rw [hts, State.putWords_ts])
    have hnow : (s.putWords (s.ts.words.writeRun a data)).debounced n = flag (t.word 27 n.val) 8 := by
      rw [hwords]
      rfl
    rw [hnow] at hget
    exact hget
  · exact hkey.trans (by rw [hbl, hput])
  · exact hsampling.trans (by rw [hbl, hput])
  · exact congrArg (fun ci : Interpreter => ({ ci with replies := ci.replies ++ [⟨tag, .ok, []⟩] } : Interpreter)) hci
  · exact (congrArg Equaliser.dips heq).trans hdips
  · exact hoverrun.trans (by rw [hce])
  · exact (congrArg TableStore.image hts).trans rfl
  · exact (congrArg TableStore.state hts).trans rfl

end Sys2Proof.Machine
end

section
/-!
PROOFS. The checks of a TABLE WRITE, and TABLE READ (R69, R167, R168, R169).
-/

namespace Sys2Proof.Machine

/-! ## Protected words -/

theorem index_val {n : Nat} [NeZero n] {x : Nat} (h : x < n) : (index n x).val = x := by
  rw [index, Fin.val_ofNat, Nat.mod_eq_of_lt h]

theorem eq_index {n : Nat} [NeZero n] {x : Nat} {i : Fin n} (h : x = i.val) : index n x = i := by
  rw [Fin.ext_iff, index_val (h ▸ i.isLt), h]

section Items

variable (s : State)

theorem State.profileInUse_iff (p : Fin 16) : s.profileInUse p = true ↔
    ∃ i, (s.screenState i = .preshow ∨ s.screenState i = .feature) ∧ ((s.de.get i).current = some p ∨
      (s.de.get i).pending = some p ∨ ∃ k, (s.de.get i).incoming = some ⟨p, k⟩) := by
  have hholds (d : DecodeRecord) : d.holds p = true ↔
      d.current = some p ∨ d.pending = some p ∨ ∃ k, d.incoming = some ⟨p, k⟩ := by
    rw [DecodeRecord.holds, Bool.or_eq_true, Bool.or_eq_true, beq_iff_eq, beq_iff_eq, or_assoc]
    refine or_congr_right (or_congr_right ?_)
    cases d.incoming with
    | none => simp
    | some incoming =>
      obtain ⟨q, k⟩ := incoming
      simp [beq_iff_eq]
  simp [State.profileInUse, State.playing_iff, hholds]

theorem State.steeringInUse_iff : s.steeringInUse = true ↔
    ∃ p, s.profileInUse p = true ∧ field (s.word 2 (240 + p.val)) 16 1 = 1 := by
  have hsteered (p : Fin 16) : s.profileSteered p = true ↔ field (s.word 2 (240 + p.val)) 16 1 = 1 := beq_iff_eq
  simp [State.steeringInUse, hsteered, and_comm]

variable {s} {b : Nat} {v : Word}

/-- An alarm entry's four words (R95). -/
theorem within_alarm (P : Fin 256 → Prop) : (∃ e : Fin 256, P e ∧ 256 * 19 + 4 * e.val ≤ b ∧ b < 256 * 19 + 4 * e.val + 4) ↔
    19 ≤ b / 256 ∧ b / 256 ≤ 22 ∧ P (index 256 (64 * (b / 256 - 19) + b % 256 / 4)) := by
  refine ⟨fun ⟨e, he, hlow, hhigh⟩ => ⟨by omega, by omega, ?_⟩, fun ⟨hlow, hhigh, h⟩ => ⟨_, h, ?_⟩⟩
  · rwa [eq_index (i := e) (by omega)]
  · rw [index_val (by omega)]
    omega

/-- A screen's settings block (R14). -/
theorem within_settings (P : Fin 8 → Prop) : (∃ i : Fin 8, P i ∧ 256 + 32 * i.val ≤ b ∧ b < 256 + 32 * i.val + 32) ↔
    b / 256 = 1 ∧ P (index 8 (b % 256 / 32)) := by
  refine ⟨fun ⟨i, hi, hlow, hhigh⟩ => ⟨by omega, ?_⟩, fun ⟨hpage, h⟩ => ⟨_, h, ?_⟩⟩
  · rwa [eq_index (i := i) (by omega)]
  · rw [index_val (by omega)]
    omega

/-- A profile's page (R45). -/
theorem within_profile (P : Fin 16 → Prop) : (∃ p : Fin 16, P p ∧ 256 * (3 + p.val) ≤ b ∧ b < 256 * (3 + p.val) + 256) ↔
    3 ≤ b / 256 ∧ b / 256 ≤ 18 ∧ P (index 16 (b / 256 - 3)) := by
  refine ⟨fun ⟨p, hp, hlow, hhigh⟩ => ⟨by omega, by omega, ?_⟩, fun ⟨hlow, hhigh, h⟩ => ⟨_, h, ?_⟩⟩
  · rwa [eq_index (i := p) (by omega)]
  · rw [index_val (by omega)]
    omega

/-- A profile's header word (R45). -/
theorem at_header (P : Fin 16 → Prop) : (∃ p : Fin 16, P p ∧ b = 256 * 2 + (240 + p.val)) ↔
    b / 256 = 2 ∧ 240 ≤ b % 256 ∧ P (index 16 (b % 256 - 240)) := by
  refine ⟨fun ⟨p, hp, hb⟩ => ⟨by omega, by omega, ?_⟩, fun ⟨hpage, hlow, h⟩ => ⟨_, h, ?_⟩⟩
  · rwa [eq_index (i := p) (by omega)]
  · rw [index_val (by omega)]
    omega

/-- The two pages of a screen's bank (R60). -/
theorem within_bank (P : Fin 8 → Prop) (bank : Fin 8 → Fin 2) (hb : b < 15360) :
    (∃ i : Fin 8, P i ∧ 256 * (28 + 4 * i.val + 2 * (bank i).val) ≤ b ∧
      b < 256 * (28 + 4 * i.val + 2 * (bank i).val) + 512) ↔
    28 ≤ b / 256 ∧ P (index 8 ((b / 256 - 28) / 4)) ∧
      bank (index 8 ((b / 256 - 28) / 4)) = index 2 ((b / 256 - 28) % 4 / 2) := by
  refine ⟨fun ⟨i, hi, hlow, hhigh⟩ => ?_, fun ⟨hpage, h, hbank⟩ => ⟨_, h, ?_⟩⟩
  · have hi' : index 8 ((b / 256 - 28) / 4) = i := eq_index (by omega)
    rw [hi', eq_index (i := bank i) (by omega)]
    exact ⟨by omega, hi, rfl⟩
  · rw [hbank, index_val (n := 8) (by omega), index_val (n := 2) (by omega)]
    omega

end Items

/-- A word of a protected item, as R169 lists the items. -/
def State.ProtectedWord (s : State) (b : Nat) (v : Word) : Prop :=
  let plays (i : Fin 8) : Prop := s.screenState i = .preshow ∨ s.screenState i = .feature
  let used (p : Fin 16) : Prop := ∃ i, plays i ∧
    ((s.de.get i).current = some p ∨ (s.de.get i).pending = some p ∨ ∃ k, (s.de.get i).incoming = some ⟨p, k⟩)
  let within (b first count : Nat) : Prop := first ≤ b ∧ b < first + count
  (∃ e : Fin 256, (s.am.entries.get e).tier = .trip ∧ within b (256 * 19 + 4 * e.val) 4) ∨
    (∃ i, plays i ∧ within b (256 * (28 + 4 * i.val + 2 * (s.activeBank i).val)) 512) ∨
    (∃ i : Fin 8, plays i ∧ within b (256 + 32 * i.val) 32) ∨
    (∃ p, used p ∧ (within b (256 * (3 + p.val)) 256 ∨ b = 256 * 2 + (240 + p.val))) ∨
    (∃ p, used p ∧ field (s.word 2 (240 + p.val)) 16 1 = 1 ∧ within b (256 * 2) 256) ∨
    (∃ i : Fin 8, plays i ∧ b < 256 ∧ (field (s.ts.words.read b) 4 3 = i.val ∨ field v 4 3 = i.val))

theorem State.protectsWord_iff (s : State) {b : Nat} (hb : b < 15360) (v : Word) :
    s.protectsWord b v = true ↔ s.ProtectedWord b v := by
  unfold State.ProtectedWord
  dsimp only
  simp only [← State.profileInUse_iff]
  simp only [← State.playing_iff, and_or_left, exists_or]
  rw [within_alarm, within_bank (fun i => s.playing i = true) s.activeBank hb, within_settings, within_profile, at_header]
  have hsteered : (∃ p, s.profileInUse p = true ∧ field (s.word 2 (240 + p.val)) 16 1 = 1 ∧ 256 * 2 ≤ b ∧ b < 256 * 2 + 256) ↔
      b / 256 = 2 ∧ s.steeringInUse = true := by
    rw [s.steeringInUse_iff]
    exact ⟨fun ⟨p, h1, h2, h3⟩ => ⟨by omega, p, h1, h2⟩, fun ⟨h3, p, h1, h2⟩ => ⟨p, h1, h2, by omega⟩⟩
  have hmap (w : Word) : (∃ i : Fin 8, s.playing i = true ∧ b < 256 ∧ field w 4 3 = i.val) ↔
      b / 256 = 0 ∧ s.playing (entryScreen w) = true := by
    refine ⟨fun ⟨i, hi, hlow, hw⟩ => ⟨by omega, ?_⟩, fun ⟨hpage, h⟩ => ⟨entryScreen w, h, by omega, ?_⟩⟩
    · rwa [entryScreen, eq_index hw]
    · exact (index_field_eq_iff w 4 _).mp rfl
  rw [hsteered, hmap, hmap]
  have hpage : b / 256 ≤ 59 := by omega
  unfold State.protectsWord
  dsimp only
  generalize b / 256 = page at hpage ⊢
  split_ifs with h0 h1 h2 h3 h4 h5
  · subst h0
    simp
  · subst h1
    simp
  · subst h2
    simp [or_comm]
  · have hlow : ¬19 ≤ page ∧ ¬28 ≤ page ∧ 3 ≤ page := by omega
    simp [h0, h1, h2, h3, hlow]
  · have hlow : 19 ≤ page ∧ ¬28 ≤ page ∧ ¬page ≤ 18 := by omega
    simp [h0, h1, h2, h4, hlow]
  · have hlow : ¬page ≤ 22 ∧ ¬28 ≤ page ∧ ¬page ≤ 18 := by omega
    simp [h0, h1, h2, hlow]
  · have hlow : ¬page ≤ 22 ∧ 28 ≤ page ∧ ¬page ≤ 18 := by omega
    simp [h0, h1, h2, hlow]

theorem State.protectsRun_iff (s : State) (a : Nat) (data : List Word) :
    s.protectsRun a data = true ↔ ∃ k, k < data.length ∧ s.protectsWord (a + k) (data.getD k 0) = true := by
  induction data generalizing a with
  | nil => exact ⟨nofun, fun ⟨k, hk, _⟩ => absurd hk (Nat.not_lt_zero k)⟩
  | cons v rest ih =>
    rw [State.protectsRun, Bool.or_eq_true, ih]
    refine ⟨?_, fun ⟨k, hk, h⟩ => ?_⟩
    · rintro (h | ⟨k, hk, h⟩)
      · exact ⟨0, Nat.zero_lt_succ _, h⟩
      · exact ⟨k + 1, Nat.succ_lt_succ hk, by rwa [Nat.add_right_comm] at h⟩
    · cases k with
      | zero => exact .inl h
      | succ k => exact .inr ⟨k, Nat.lt_of_succ_lt_succ hk, by rwa [Nat.add_right_comm]⟩

/-! ## The page check -/

theorem sum_map_flatMap {α β : Type} (f : α → List β) (g : β → Nat) (l : List α) :
    ((l.flatMap f).map g).sum = (l.map fun x => ((f x).map g).sum).sum := by
  induction l with
  | nil => rfl
  | cons x l ih => rw [List.flatMap_cons, List.map_append, List.sum_append, ih, List.map_cons, List.sum_cons]

theorem sum_map_filterMap {α β : Type} (f : α → Option β) (g : β → Nat) (l : List α) :
    ((l.filterMap f).map g).sum = (l.map fun x => ((f x).map g).getD 0).sum := by
  induction l with
  | nil => rfl
  | cons x l ih =>
    rw [List.map_cons, List.sum_cons, ← ih, List.filterMap_cons]
    cases f x with
    | none => exact (Nat.zero_add _).symm
    | some y => rfl

/-- A sum over the channels whose delay in force a run writes (R69). -/
theorem State.writtenDelays_sum (s : State) (a : Nat) (data : List Word) (pages : WrittenDelay → Nat) :
    ((s.writtenDelays a data).map pages).sum = ((List.finRange 8).map fun i => ((List.finRange 16).map fun c =>
      if s.screenState i ≠ .offline ∧ a ≤ recordAddress i (s.activeBank i) c + 30 ∧
          recordAddress i (s.activeBank i) c + 30 < a + data.length then
        pages ⟨i, c, pageNeed (delayOf (data.getD (recordAddress i (s.activeBank i) c + 30 - a) 0))⟩ else 0).sum).sum := by
  unfold State.writtenDelays
  rw [sum_map_flatMap]
  refine congrArg List.sum (List.map_congr_left fun i _ => ?_)
  by_cases hoff : s.screenState i = .offline
  · rw [if_pos hoff]
    refine (List.sum_eq_zero fun n hn => ?_).symm
    obtain ⟨c, -, rfl⟩ := List.mem_map.mp hn
    exact if_neg fun h => h.1 hoff
  · rw [if_neg hoff, sum_map_filterMap]
    refine congrArg List.sum (List.map_congr_left fun c _ => ?_)
    dsimp only
    by_cases hrun : a ≤ recordAddress i (s.activeBank i) c + 30 ∧
        recordAddress i (s.activeBank i) c + 30 < a + data.length
    · rw [if_pos hrun, if_pos ⟨hoff, hrun⟩]
      rfl
    · rw [if_neg hrun, if_neg fun h => hrun h.2]
      rfl

/-! ## The checks in their order -/

/-- Settles O55: each check decides when those before it pass; a read decides by its run. -/
theorem refusedWritesAndReadsChangeNothing : Obligations.RefusedWritesAndReadsChangeNothing := by
  refine ⟨fun s tag page word data hs => ?_, fun s tag page word count hs => ?_⟩
  · intro a answers plays used within protectedWord inUse delayWord overWritten needs holds
    have hexec : exec (.tableWrite tag page word data) s = .next (State.answer (s.tableWrite page word data) tag) :=
      exec_ready (c := .tableWrite tag page word data) rfl hs
    have refused {result : ResultCode} (hresult : s.writeResult page word data = result) (hne : result ≠ .ok) :
        answers result := by
      refine hexec.trans ?_
      unfold State.tableWrite
      rw [hresult]
      dsimp only
      rw [if_neg hne]
      rfl
    have hresult : s.writeResult page word data =
        if 15360 < a + data.length then .range else if s.bl.key.stable = true then .locked
        else if s.ts.state ≠ .idle then .busy else if s.protectsRun a data = true then .inUse
        else if (!s.delaysFit (s.writtenDelays a data)) = true then .noSpace else .ok := rfl
    refine ⟨fun h => refused (by rw [hresult, if_pos h]) (by decide), fun hrange => ?_⟩
    rw [if_neg (not_lt.mpr hrange)] at hresult
    refine ⟨fun h => refused (by rw [hresult, if_pos h]) (by decide), fun hkey => ?_⟩
    rw [if_neg (Bool.eq_false_iff.mp hkey)] at hresult
    refine ⟨fun h => refused (by rw [hresult, if_pos h]) (by decide), fun hidle => ?_⟩
    rw [if_neg (not_not.mpr hidle)] at hresult
    have hinUse : s.protectsRun a data = true ↔ inUse := by
      rw [State.protectsRun_iff]
      exact exists_congr fun k => and_congr_right fun hk => s.protectsWord_iff (by omega) _
    have hneeds : ((s.writtenDelays a data).map fun w => w.need).sum = needs := s.writtenDelays_sum a data _
    have hholds : ((s.writtenDelays a data).map s.heldNow).sum = holds := s.writtenDelays_sum a data _
    have hfit : s.delaysFit (s.writtenDelays a data) = true ↔ needs ≤ holds + s.freePages := by
      rw [State.delaysFit, hneeds, hholds, decide_eq_true_iff]
    refine ⟨fun h => refused (by rw [hresult, if_pos (hinUse.mpr h)]) (by decide), fun h hfull => ?_, fun h hroom => ?_⟩
    · have hno : s.delaysFit (s.writtenDelays a data) = false := Bool.eq_false_iff.mpr fun hyes =>
        absurd (hfit.mp hyes) (not_le.mpr hfull)
      exact refused (by rw [hresult, if_neg (mt hinUse.mp h), hno]; rfl) (by decide)
    · rw [hresult, if_neg (mt hinUse.mp h), hfit.mpr hroom]
      rfl
  · intro a
    have hexec : exec (.tableRead tag page word count) s = .next (s.answerData tag (s.tableRead page word count)) :=
      exec_ready (c := .tableRead tag page word count) rfl hs
    have hreadable : readable page word count = true ↔ count.toNat ≤ 31 ∧ a + count.toNat ≤ 15359 := by
      rw [readable, Bool.and_eq_true, decide_eq_true_iff, decide_eq_true_iff]
      exact and_congr_right fun _ => Nat.succ_le_succ_iff
    refine ⟨fun hcount hrun => ?_, fun h => ?_⟩
    · rw [hexec, State.tableRead, if_pos (hreadable.mpr ⟨hcount, hrun⟩), Memory.readRun, List.flatMap_map]
      rfl
    · have hno : ¬readable page word count = true := fun hyes => by
        have := hreadable.mp hyes
        omega
      rw [hexec, State.tableRead, if_neg hno]
      rfl

end Sys2Proof.Machine
end

section
/-!
PROOFS. The data of the queries, byte by byte (R21, R59, R70, R80, R93, R116, R131, R142, R163, R180, R188).
-/

namespace Sys2Proof.Machine

/-! ## The lengths of the parts -/

theorem length_flatMap_const {α β : Type} (f : α → List β) (k : Nat) (h : ∀ x, (f x).length = k) (l : List α) :
    (l.flatMap f).length = k * l.length := by
  induction l with
  | nil => rfl
  | cons x l ih => rw [List.flatMap_cons, List.length_append, ih, h, List.length_cons, Nat.mul_succ, Nat.add_comm]

@[simp] theorem bytes2_length (n : Nat) : (bytes2 n).length = 2 := rfl

@[simp] theorem bytes3_length (n : Nat) : (bytes3 n).length = 3 := rfl

@[simp] theorem optionByte_length (x : Option Nat) : (optionByte x).length = 1 := by cases x <;> rfl

@[simp] theorem optionBytes2_length (x : Option Nat) : (optionBytes2 x).length = 2 := by cases x <;> rfl

@[simp] theorem Origin.bytes_length (o : Origin) : o.bytes.length = 2 := by cases o <;> rfl

@[simp] theorem SafeCause.bytes_length (c : SafeCause) : c.bytes.length = 2 := by cases c <;> rfl

@[simp] theorem dipBytes_length (d : Option Dip) : (dipBytes d).length = 3 := by
  cases d with
  | none => rfl
  | some d =>
    obtain ⟨phase, swap, waiting⟩ := d
    cases phase with
    | fall => rfl
    | rise => cases swap <;> rfl

theorem ScreenRecord.bytes_length (r : ScreenRecord) : r.bytes.length = 19 := by
  unfold ScreenRecord.bytes
  cases r.cause <;> cases r.pendingApply <;> simp

theorem State.decodeBytes_length (s : State) (i : Fin 8) : (s.decodeBytes i).length = 27 := by
  simp [State.decodeBytes]

theorem State.delayBytes_length (s : State) (i : Fin 8) : (s.delayBytes i).length = 9 := by
  simp [State.delayBytes]

theorem State.screenData_length (s : State) (i : Fin 8) : (s.screenData i).length = 83 := by
  simp [State.screenData, ScreenRecord.bytes_length, State.decodeBytes_length, State.delayBytes_length, Clock.bytes,
    Timer.bytes, ClockValue.bytes]

theorem State.deviceData_length (s : State) : s.deviceData.length = 144 := by
  have hinputs : ((List.finRange 16).flatMap fun n => (s.bl.inputs.get n).bytes).length = 3 * 16 :=
    (length_flatMap_const _ 3 (fun _ => rfl) _).trans (by rw [List.length_finRange])
  have houtputs : ((List.finRange 16).flatMap s.outputBytes).length = 5 * 16 :=
    (length_flatMap_const _ 5 (fun n => by simp [State.outputBytes]) _).trans (by rw [List.length_finRange])
  unfold State.deviceData
  rw [List.length_append, List.length_append, hinputs, houtputs]
  rfl

theorem State.poolData_length (s : State) : s.poolData.length = 20 := by
  unfold State.poolData
  rw [List.length_append, length_flatMap_const _ 2 (fun _ => rfl), List.length_finRange]
  rfl

theorem State.channelData_length (s : State) (i : Fin 8) (c : Fin 16) : (s.channelData i c).length =
    23 + 2 * (s.pagesOf i c).length + 4 * min 48 (s.slotsOf i c).length := by
  have heq : (s.channelEqBytes i c).length = 4 + 2 * (s.pagesOf i c).length := by
    unfold State.channelEqBytes
    rw [List.length_append, length_flatMap_const _ 2 (fun _ => rfl)]
    rfl
  have hout : (s.channelOutBytes i c).length = 17 := rfl
  unfold State.channelData
  rw [List.length_append, List.length_append, List.length_append, heq, hout, length_flatMap_const _ 4 (fun _ => rfl),
    List.length_take]
  simp only [List.length_cons, List.length_nil]
  omega

/-! ## The layouts -/

/-- A latched rate's bytes: its frames per second and its frame length (R131). -/
def Rate.bytes (r : Rate) : List Byte := [byte r.perSecond] ++ bytes2 r.frameLength

theorem Clock.bytes_eq (c : Clock) :
    c.bytes = c.value.bytes ++ bytes2 c.subFrame ++ [byteOfFlag c.running] ++ c.rate.bytes := by
  simp [Clock.bytes, Rate.bytes]

theorem State.recordWord_word (s : State) (i : Fin 8) (b : Fin 2) (c : Fin 16) :
    s.word (28 + 4 * i.val + 2 * b.val + c.val / 8) (32 * (c.val % 8) + 30) = s.recordWord i b c 30 :=
  congrArg s.ts.words.read (Nat.add_assoc ..).symm

/-- The format in use, of the forced format, the descriptor result and the settings (R44). -/
theorem State.chosenFormat_bytes (s : State) (i : Fin 8) :
    ((s.chosenFormat i).1.val, byte (s.chosenFormat i).2.code) = match (s.de.get i).forced with
      | some f => (f.val, 0)
      | none => if s.li.descriptors.get i = .unmapped then (field (s.word 1 (32 * i.val + 1)) 0 4, 2)
        else ((s.de.get i).accepted.val, 1) := by
  have hdefault : (s.defaultFormat i).val = field (s.word 1 (32 * i.val + 1)) 0 4 := index_val (Nat.mod_lt _ (by decide))
  unfold State.chosenFormat
  cases (s.de.get i).forced with
  | some f => rfl
  | none =>
    cases s.li.descriptors.get i with
    | unmapped => exact congrArg (·, (2 : Byte)) hdefault
    | _ => rfl

theorem isNone_eq_all {n : Nat} (o : Option (Fin n)) : o.isNone = (List.finRange n).all fun i => !(o == some i) := by
  cases o with
  | none => simp
  | some j =>
    refine (Bool.eq_false_iff.mpr fun h => ?_).symm
    simpa using List.all_eq_true.mp h j (List.mem_finRange j)

section Queries

variable {s : State} {tag : Byte}

/-- A query answers its data where it has any (R180). -/
theorem exec_query (hs : s.ready) {c : Instr} {q : Query} (hc : requestOf c = some ⟨tag, .query q⟩) {data : List Byte}
    (hdata : s.queryData q = some data) {layout : List Byte} (hlayout : data = layout) {length : Nat}
    (hlength : data.length = length) : exec c s = .next (s.reply tag .ok layout) ∧ layout.length = length := by
  subst hlayout
  refine ⟨?_, hlength⟩
  rw [exec_ready hc hs, State.execute, hdata]
  rfl

end Queries

/-- Settles O53: each query's data is its layout part by part. -/
theorem queriesOnlyReply : Obligations.QueriesOnlyReply := by
  unfold Obligations.QueriesOnlyReply
  intro one two three mark single pair lock state line s tag hs answers input output pages record delay need
  have hlock (x : Lock) : lock x = byte x.code := by cases x <;> rfl
  have hline (x : LineState) : line x = byte x.code := by cases x <;> rfl
  have hsingle (x : Option Nat) : single x = optionByte x := by cases x <;> rfl
  have hpair (x : Option Nat) : pair x = optionBytes2 x := by cases x <;> rfl
  have hstate : state = ScreenState.code := by funext x; cases x <;> rfl
  have hneed (i : Fin 8) (b : Fin 2) : need i b.val = s.bankNeed i b := by
    refine congrArg List.sum (List.map_congr_left fun c _ => ?_)
    exact congrArg (fun w => (delay w + 255) / 256) (s.recordWord_word i b c)
  have houtput (n : Fin 16) : output n = s.outputBytes n := by
    have hmode : decide (field (s.word 27 (16 + 2 * n.val)) 0 2 = 1) = s.annunciatorMode n := rfl
    have hlevel : (if field (s.word 27 (16 + 2 * n.val)) 0 2 = 1 then s.am.demands.get n
        else (s.bl.outputs.get n).drive == .high || (s.bl.outputs.get n).drive == .pulseHigh) = s.outputLevel n := by
      unfold State.outputLevel
      rw [← hmode]
      simp only [decide_eq_true_eq]
      cases (s.bl.outputs.get n).drive <;> rfl
    refine congrArg₂ (· ++ ·) (congrArg₂ (fun a b : Bool => [mark a, mark b, _]) hmode hlevel |>.trans ?_) ?_
    · cases (s.bl.outputs.get n).drive <;> rfl
    · cases (s.bl.outputs.get n).remaining <;> rfl
  refine ⟨?_, ?_, fun e => ?_, fun e => ?_, fun screen i hi => ?_⟩
  · refine exec_query hs (c := .queryDevice tag) rfl rfl ?_ s.deviceData_length
    rw [hlock, hlock, funext houtput]
    unfold State.deviceData
    cases s.ts.state <;> cases s.ts.startOrigin <;> rfl
  · exact exec_query hs (c := .queryPool tag) rfl rfl rfl s.poolData_length
  · intro r
    refine exec_query hs (c := .queryAlarm tag e) rfl rfl ?_ rfl
    refine congrArg₂ List.cons ?_ (congrArg₂ List.cons (Report.fields_marks r.warnSeen r.tripSeen)
      (congrArg (byte r.warnCount :: byte r.tripCount :: ·) (congrArg₂ List.cons ?_ (congrArg₂ List.cons ?_ rfl))))
    · cases r.tier <;> rfl
    · cases r.lastValue with
      | level v => rfl
      | line x => exact (hline x).symm
    · cases r.lastEvaluation <;> rfl
  · intro r clockOf
    refine exec_query hs (c := .queryCue tag e) rfl rfl ?_ rfl
    have hclock (i : Fin 8) (t : Trigger) : (t.clockScreen == some i) = clockOf i t := by
      obtain ⟨event, depth⟩ := t
      cases event <;> rfl
    have hothers : nonClockCount s.ce.triggers =
        (s.ce.triggers.filter fun t => (List.finRange 8).all fun i => !clockOf i t).length := by
      refine congrArg List.length (List.filter_congr fun t _ => ?_)
      simp only [← hclock]
      exact isNone_eq_all t.clockScreen
    have hmask : clockMask s.ce.triggers =
        ((List.finRange 8).map fun i => if s.ce.triggers.any (clockOf i) = true then 2 ^ i.val else 0).sum := by
      simp only [clockMask, holdsClock, hclock]
    exact congrArg₂ (fun m n => [mark r.armed, mark r.memory, mark (s.cueEnabled (entryOf e)), one m, one n,
      mark s.ce.overrun]) hothers hmask
  · intro r d used mask clock timer
    refine ⟨?_, fun channel => ⟨fun h => ?_, fun c hc => ?_⟩⟩
    · refine exec_query hs (c := .queryScreen tag screen) rfl (congrArg (Option.map s.screenData) hi) ?_
        (s.screenData_length i)
      have htimer (k : Fin 2) : timer k = ((s.ct.timers.get i).get k).bytes := by
        unfold Timer.bytes
        dsimp only [timer]
        cases ((s.ct.timers.get i).get k).base <;> rfl
      have hother : 1 - (s.activeBank i).val = (s.standbyBank i).val := by
        rw [State.standbyBank]
        generalize s.activeBank i = b
        revert b
        decide
      have hbank : r.activeBank = s.activeBank i := rfl
      have hpages : pages i = s.pagesHeld i := rfl
      rw [hsingle, hsingle, hsingle, hsingle, hsingle, hsingle, hpair, hpair, hstate, hbank, hother, hneed, hneed, htimer,
        htimer, hpages]
      unfold State.screenData ScreenRecord.bytes State.decodeBytes State.delayBytes
      rw [Clock.bytes_eq]
      simp only [List.append_assoc]
      repeat' refine congrArg₂ (· ++ ·) ?_ ?_
      all_goals try rfl
      · dsimp only [r]
        cases (s.sc.get i).cause with
        | none => rfl
        | some cause => cases cause <;> rfl
      · dsimp only [r]
        cases (s.sc.get i).pendingApply with
        | none => rfl
        | some origin => cases origin <;> rfl
      · exact congrArg (fun used : Nat × Byte => [byte used.1, used.2]) (s.chosenFormat_bytes i)
      · cases s.eq.dips.get i with
        | none => rfl
        | some dip =>
          obtain ⟨phase, swap, waiting⟩ := dip
          cases phase with
          | fall => rfl
          | rise =>
            cases swap with
            | none => rfl
            | some result =>
              obtain ⟨outcome⟩ := result
              cases outcome <;> rfl
      · dsimp only [clock]
        cases (s.ct.clocks.get i).rate <;> rfl
    · have hnone : channelOf channel = none := dif_neg (by omega)
      rw [exec_ready (c := .queryChannel tag screen channel) rfl hs, State.execute, State.queryData, hi, hnone]
      rfl
    · intro w list out slots
      have hsome : channelOf channel = some c := by
        unfold channelOf
        rw [dif_pos (hc ▸ c.isLt)]
        exact congrArg some (Fin.ext hc.symm)
      have hdata : s.queryData (.channel screen channel) = some (s.channelData i c) := by
        rw [State.queryData, hi, hsome]
      have hslots : slots = s.slotsOf i c := by
        refine List.filter_congr fun n _ => ?_
        have hscreen : (entryScreen (s.outboundEntry n) == i) = (field (s.outboundEntry n) 4 3 == i.val) :=
          Bool.eq_iff_iff.mpr (by rw [beq_iff_eq, beq_iff_eq]; exact index_field_eq_iff _ 4 i)
        have hchannel : (entryChannel (s.outboundEntry n) == c) = (field (s.outboundEntry n) 8 4 == c.val) := by
          have hlt : field (s.outboundEntry n) 8 4 < 16 := Nat.mod_lt _ (by decide)
          refine Bool.eq_iff_iff.mpr ?_
          rw [beq_iff_eq, beq_iff_eq, Fin.ext_iff, entryChannel, index_val hlt]
        unfold State.slotCarries
        rw [hscreen, hchannel]
        rfl
      refine exec_query hs (c := .queryChannel tag screen channel) rfl hdata ?_ (hslots ▸ s.channelData_length i c)
      have hw : w = s.recordWord i (s.activeBank i) c 30 := s.recordWord_word i (s.activeBank i) c
      rw [hw, hline, hslots]
      unfold State.channelData State.channelEqBytes State.channelOutBytes
      simp only [List.append_assoc]
      repeat' refine congrArg₂ (· ++ ·) ?_ ?_
      all_goals try rfl
      refine congrArg (List.flatMap · (List.take 48 (s.slotsOf i c))) (funext fun n => ?_)
      rw [hline]
      rfl

end Sys2Proof.Machine
end
